-- ==== Sys2Proof/Word.lean ====
section
/-! DEFINITION. The word types of the IM8000 core block (00_scope.md R8, R9). -/

namespace Sys2Proof

/-- One byte of a bus or of the register file. -/
abbrev Byte := BitVec 8

/-- The 16-bit base word of an instruction (30_encoding.md R100). -/
abbrev BaseWord := BitVec 16

/-- A 32-bit register, and a byte address of either bus (00_scope.md R8: XLEN and both address widths are 32). -/
abbrev DWord := BitVec 32

end Sys2Proof
end

