-- ==== Sys2Proof/Config.lean ====
section
/-! DEFINITION. The parameters of the block (00_scope.md R8) that are no encoding table: the half-carry rule of wide
operations, what the devices on the two buses answer, and the three cycle surcharges whose value the spec does not give. The encoding tables of `IM8000-REF` stand in
Decode.lean, the register map and the flag positions in Machine/Operands.lean and Machine/Flags.lean. -/

namespace Sys2Proof

/-- The values of the parameter `HC_WIDE`, the half-carry of the add and subtract families at Word and DWord
(40_arith.md R205). -/
inductive HcWide where
  /-- H is written 0. -/
  | clear
  /-- H is not written. -/
  | keep
  /-- The byte formula on the low nibbles, at every width. -/
  | bit3
  deriving DecidableEq, Repr

/-- The mnemonics of format BR, which index the parameter `BRANCH_SURCHARGE` (70_reset_and_hazards.md R622). -/
inductive BranchOp where
  | jp | jrS8 | jr | call | callrS8 | callr | ret | reti | retn
  deriving DecidableEq, Repr

/-- The two buses of the block, "identical contract, separate address space" (20_memory.md R70, R71). -/
inductive Space where
  | mem | io
  deriving DecidableEq, Repr

/-- One single-byte transfer between the block and a device (20_memory.md R79): a read of an address, or a write of a byte. -/
inductive Transfer where
  | read (sp : Space) (addr : Nat)
  | write (sp : Space) (addr : Nat) (b : Byte)
  deriving DecidableEq, Repr

/-- What a device answers to a read (the open parameter `BUS`, 20_memory.md R70, R71, 92_eei_decisions.md D9): a free value, as a
function of ALL the transfers that devices have seen on both buses, newest first, and of the address read. So a read may have
side effects and a write any effect: either changes what later reads answer. Log entry 3. -/
opaque Config.deviceAnswer : List Transfer → Space → Nat → Byte

/-- `HC_WIDE` has the reference value Clear (40_arith.md R205, 92_eei_decisions.md D27).
DESIGN CHOICE (unsafe): log entry 4. -/
def Config.hcWide : HcWide := .clear

/-- `DWORD_SURCHARGE`: the spec gives it no value (92_eei_decisions.md D50); a free value, timing only. Log entry 7. -/
opaque Config.dwordSurcharge : Nat

/-- `BRANCH_SURCHARGE(mnemonic)`: the spec gives it no value (92_eei_decisions.md D50); a free value, timing only.
Log entry 7. -/
opaque Config.branchSurcharge : BranchOp → Nat

/-- `MULDIV_POP_COST`: the spec gives it no value (92_eei_decisions.md D50); a free value, timing only. Log entry 7. -/
opaque Config.mulDivPopCost : Nat

end Sys2Proof
end

