-- ==== Sys2Proof/Syntax.lean ====
section
/-! DEFINITION. The instruction set as syntax: one constructor of `Instr` a row of spec/opcode_table.json. -/

namespace Sys2Proof

/-- OperandSize (00_scope.md R10, 30_encoding.md R108). -/
inductive Size where
  | byte | word | dword
  deriving DecidableEq, Repr

/-- The size in bytes (00_scope.md R8: Byte = 1, Word = 2, DWord = 4). -/
abbrev Size.bytes : Size → Nat
  | .byte => 1
  | .word => 2
  | .dword => 4

/-- The operation width w = 8 * size (00_scope.md R10). -/
abbrev Size.bits : Size → Nat
  | .byte => 8
  | .word => 16
  | .dword => 32

/-- A 3-bit register code that names a register: 0 to 6 (10_state.md R33; code 7 never names one). -/
inductive RegCode where
  | r0 | r1 | r2 | r3 | r4 | r5 | r6
  deriving DecidableEq, Repr

/-- The condition of a BR instruction (30_encoding.md R141, 46_stack_branch.md R390). -/
inductive Cond where
  | nz | z | nc | c | po | pe | p | m | always
  deriving DecidableEq, Repr

/-- An address operand (30_encoding.md R107): indirect through the DWord register of a code, with a signed 16-bit
displacement for the index/stack-pointer class, or a direct 32-bit address. -/
inductive MemRef where
  | ind (base : RegCode) (disp : Option (BitVec 16))
  | direct (addr : DWord)
  deriving DecidableEq, Repr

/-- A source operand of the given size: a register code, or an immediate of that size (30_encoding.md R111, R122, R142). -/
inductive Src (sz : Size) where
  | reg (c : RegCode)
  | imm (v : BitVec sz.bits)
  deriving DecidableEq, Repr

/-- The two directions of format RM (30_encoding.md R122): load has a register destination and a memory source, store a
memory destination and a register or immediate source. -/
inductive RMOperands (sz : Size) where
  | load (r : RegCode) (m : MemRef)
  | store (m : MemRef) (q : Src sz)
  deriving DecidableEq, Repr

/-- The instructions: one constructor a row of the opcode table, its format as the name's suffix where a mnemonic has
two rows. -/
inductive Instr where
  -- Format R (30_encoding.md R110-R113)
  | ldR (sz : Size) (dst : RegCode) (src : Src sz)
  | exR (sz : Size) (dst : RegCode) (src : Src sz)
  | addR (sz : Size) (dst : RegCode) (src : Src sz)
  | adcR (sz : Size) (dst : RegCode) (src : Src sz)
  | subR (sz : Size) (dst : RegCode) (src : Src sz)
  | sbcR (sz : Size) (dst : RegCode) (src : Src sz)
  | cpR (sz : Size) (dst : RegCode) (src : Src sz)
  | andR (sz : Size) (dst : RegCode) (src : Src sz)
  | orR (sz : Size) (dst : RegCode) (src : Src sz)
  | xorR (sz : Size) (dst : RegCode) (src : Src sz)
  | tstR (sz : Size) (dst : RegCode) (src : Src sz)
  | bitR (sz : Size) (dst : RegCode) (src : Src sz)
  | setR (sz : Size) (dst : RegCode) (src : Src sz)
  | resR (sz : Size) (dst : RegCode) (src : Src sz)
  | rlcR (sz : Size) (dst : RegCode) (src : Src sz)
  | rrcR (sz : Size) (dst : RegCode) (src : Src sz)
  | rlR (sz : Size) (dst : RegCode) (src : Src sz)
  | rrR (sz : Size) (dst : RegCode) (src : Src sz)
  | slaR (sz : Size) (dst : RegCode) (src : Src sz)
  | sraR (sz : Size) (dst : RegCode) (src : Src sz)
  | srlR (sz : Size) (dst : RegCode) (src : Src sz)
  -- Format RM (R120-R123)
  | ldRM (sz : Size) (ops : RMOperands sz)
  | exRM (sz : Size) (ops : RMOperands sz)
  | addRM (sz : Size) (ops : RMOperands sz)
  | adcRM (sz : Size) (ops : RMOperands sz)
  | subRM (sz : Size) (ops : RMOperands sz)
  | sbcRM (sz : Size) (ops : RMOperands sz)
  | cpRM (sz : Size) (ops : RMOperands sz)
  | andRM (sz : Size) (ops : RMOperands sz)
  | orRM (sz : Size) (ops : RMOperands sz)
  | xorRM (sz : Size) (ops : RMOperands sz)
  | tstRM (sz : Size) (ops : RMOperands sz)
  | bitRM (sz : Size) (ops : RMOperands sz)
  | setRM (sz : Size) (ops : RMOperands sz)
  | resRM (sz : Size) (ops : RMOperands sz)
  | rlcRM (sz : Size) (ops : RMOperands sz)
  | rrcRM (sz : Size) (ops : RMOperands sz)
  | rlRM (sz : Size) (ops : RMOperands sz)
  | rrRM (sz : Size) (ops : RMOperands sz)
  | slaRM (sz : Size) (ops : RMOperands sz)
  | sraRM (sz : Size) (ops : RMOperands sz)
  | srlRM (sz : Size) (ops : RMOperands sz)
  | inRM (sz : Size) (r : RegCode) (port : MemRef)
  | outRM (sz : Size) (port : MemRef) (src : Src sz)
  -- Format UR (R130-R133)
  | exAltUR (sz : Size) (r : RegCode)
  | exhUR (sz : Size) (r : RegCode)
  | pushUR (sz : Size) (r : RegCode)
  | popUR (sz : Size) (r : RegCode)
  | incUR (sz : Size) (r : RegCode)
  | decUR (sz : Size) (r : RegCode)
  | negUR (sz : Size) (r : RegCode)
  | extUR (sz : Size) (r : RegCode)
  | mltUR (sz : Size) (r : RegCode)
  | divUR (sz : Size) (r : RegCode)
  | sdivUR (sz : Size) (r : RegCode)
  | cplUR (sz : Size) (r : RegCode)
  -- Format UM (R130-R133)
  | exhUM (sz : Size) (m : MemRef)
  | pushUM (sz : Size) (m : MemRef)
  | popUM (sz : Size) (m : MemRef)
  | incUM (sz : Size) (m : MemRef)
  | decUM (sz : Size) (m : MemRef)
  | negUM (sz : Size) (m : MemRef)
  | extUM (sz : Size) (m : MemRef)
  | mltUM (sz : Size) (m : MemRef)
  | divUM (sz : Size) (m : MemRef)
  | sdivUM (sz : Size) (m : MemRef)
  | cplUM (sz : Size) (m : MemRef)
  -- Format BR (R140-R143)
  | jp (cond : Cond) (t : Src .dword)
  | jrS8 (cond : Cond) (t : Src .byte)
  | jr (cond : Cond) (t : Src .word)
  | call (cond : Cond) (t : Src .dword)
  | callrS8 (cond : Cond) (t : Src .byte)
  | callr (cond : Cond) (t : Src .word)
  | ret (cond : Cond)
  | reti (cond : Cond)
  | retn (cond : Cond)
  -- Format NUL (R150-R156)
  | ldi (sz : Size)
  | ldd (sz : Size)
  | ldir (sz : Size)
  | lddr (sz : Size)
  | cpi (sz : Size)
  | cpd (sz : Size)
  | cpir (sz : Size)
  | cpdr (sz : Size)
  | tsi (sz : Size)
  | tsd (sz : Size)
  | tsir (sz : Size)
  | tsdr (sz : Size)
  | ini (sz : Size)
  | ind (sz : Size)
  | inir (sz : Size)
  | indr (sz : Size)
  | outi (sz : Size)
  | outd (sz : Size)
  | outir (sz : Size)
  | outdr (sz : Size)
  | exx
  | exi
  | rst (imm : Byte)
  | daa
  | ldINN (imm : DWord)
  | ldRA
  | ldAR
  | halt
  -- Format SB (R160, R161)
  | nop
  | djnz (disp : Byte)
  | janz (disp : Byte)
  deriving DecidableEq, Repr

end Sys2Proof
end

