-- ==== Sys2Proof/Machine/Bytes.lean ====
section
/-! DEFINITION. Bit fields and byte order (00_scope.md R9, 20_memory.md R72, R76): everything multi-byte is little-endian. -/

namespace Sys2Proof.Machine

/-- `w[lo+len-1 : lo]` of a base word, as an unsigned number (00_scope.md R9). -/
def bits (w : BaseWord) (lo len : Nat) : Nat := w.toNat / 2 ^ lo % 2 ^ len

/-- Byte `k` of a value: bits 8k+7 down to 8k (20_memory.md R73). -/
def byteOf {w : Nat} (v : BitVec w) (k : Nat) : Byte := v.extractLsb' (8 * k) 8

/-- The little-endian value of the bytes `g 0`, `g 1`, ... (20_memory.md R72). -/
def ofBytes (sz : Size) (g : Nat → Byte) : BitVec sz.bits :=
  match sz with
  | .byte => g 0
  | .word => g 1 ++ g 0
  | .dword => g 3 ++ g 2 ++ g 1 ++ g 0

/-- The bytes of a value in ascending address order (20_memory.md R73). -/
def toBytes (sz : Size) (v : BitVec sz.bits) : List Byte :=
  (List.range sz.bytes).map (byteOf v)

end Sys2Proof.Machine
end

