-- ==== Sys2Proof/Machine/RegMap.lean ====
section
/-! DEFINITION. The register map of `IM8000-REF`: which storage and which bits of it a register code and a size select
(10_state.md R31, R33, R34). -/

namespace Sys2Proof.Machine

/-- The banked 32-bit storages (10_state.md R30, R36): each exists in the primary and in the alternate bank. -/
inductive BankReg where
  | a | bc | de | hl | ix | iy
  deriving DecidableEq, Repr

/-- The 32-bit storages that a register code can reach: the primary bank's and SP (10_state.md R33). -/
inductive RegName where
  | banked (b : BankReg)
  | sp
  deriving DecidableEq, Repr

/-- `REG(size, code)` (10_state.md R31, R33): the storage that holds the view, and the view's lowest bit in it. The view is
`sz.bits` wide. -/
def viewSlot (sz : Size) (c : RegCode) : RegName × Nat :=
  match sz, c with
  | .byte, .r0 => (.banked .bc, 16)
  | .byte, .r1 => (.banked .bc, 0)
  | .byte, .r2 => (.banked .de, 16)
  | .byte, .r3 => (.banked .de, 0)
  | .byte, .r4 => (.banked .hl, 16)
  | .byte, .r5 => (.banked .hl, 0)
  | .byte, .r6 => (.banked .a, 0)
  | .word, .r0 => (.banked .bc, 16)
  | .word, .r1 => (.banked .bc, 0)
  | .word, .r2 => (.banked .de, 16)
  | .word, .r3 => (.banked .de, 0)
  | .word, .r4 => (.banked .hl, 16)
  | .word, .r5 => (.banked .hl, 0)
  | .word, .r6 => (.banked .a, 0)
  | .dword, .r0 => (.banked .bc, 0)
  | .dword, .r1 => (.banked .de, 0)
  | .dword, .r2 => (.banked .hl, 0)
  | .dword, .r3 => (.sp, 0)
  | .dword, .r4 => (.banked .ix, 0)
  | .dword, .r5 => (.banked .iy, 0)
  | .dword, .r6 => (.banked .a, 0)

/-- The index/stack-pointer class (10_state.md R34): SP, IX and IY, whose indirect operands carry a displacement. -/
def isIndexClass : RegCode → Bool
  | .r0 | .r1 | .r2 | .r6 => false
  | .r3 | .r4 | .r5 => true

/-- The register codes that the implicit operands use: A (10_state.md R33, code 6 at every size). -/
abbrev codeA : RegCode := .r6

/-- B at Word size, the counter of the I/O block forms and of DJNZ (code 0). -/
abbrev codeB : RegCode := .r0

/-- C at Word size, the port of the I/O block forms (code 1). -/
abbrev codeC : RegCode := .r1

/-- BC at DWord size (code 0). -/
abbrev codeBC : RegCode := .r0

/-- DE at DWord size (code 1). -/
abbrev codeDE : RegCode := .r1

/-- HL at DWord size (code 2). -/
abbrev codeHL : RegCode := .r2

/-- SP at DWord size (code 3). -/
abbrev codeSP : RegCode := .r3

end Sys2Proof.Machine
end

