-- ==== Sys2Proof/WellFormed.lean ====
section
/-! DEFINITION. Which terms of `Instr` are instructions: the checks that the decoder makes on sizes and registers
(30_encoding.md R133) and the presence of a displacement (30_encoding.md R107). The type itself rules out the rest: an
immediate has its operand's width, a load target is a register, a return has no target. -/

namespace Sys2Proof

/-- A displacement is present exactly when the base is of the index/stack-pointer class (20_memory.md R82). -/
def MemRef.wf : MemRef → Bool
  | .ind base disp => disp.isSome == Machine.isIndexClass base
  | .direct _ => true

/-- Both directions of format RM hold one address operand. -/
def RMOperands.wf {sz : Size} : RMOperands sz → Bool
  | .load _ m => m.wf
  | .store m _ => m.wf

/-- PUSH and POP need DWord (30_encoding.md R133). -/
def Size.isDWord : Size → Bool
  | .byte | .word => false
  | .dword => true

/-- EXH, EXT, MLT, DIV and SDIV need Word or DWord (30_encoding.md R133). -/
def Size.hasHalves : Size → Bool
  | .byte => false
  | .word | .dword => true

/-- The views that exist in the alternate bank: all but SP (30_encoding.md R133, 10_state.md R36). -/
def hasAlternate (sz : Size) (c : RegCode) : Bool :=
  match (Machine.viewSlot sz c).1 with
  | .banked _ => true
  | .sp => false

/-- The well-formed instructions: exactly those that some encoding stands for. -/
def Instr.wf : Instr → Bool
  | .ldR _ _ _ => true
  | .exR _ _ _ => true
  | .addR _ _ _ => true
  | .adcR _ _ _ => true
  | .subR _ _ _ => true
  | .sbcR _ _ _ => true
  | .cpR _ _ _ => true
  | .andR _ _ _ => true
  | .orR _ _ _ => true
  | .xorR _ _ _ => true
  | .tstR _ _ _ => true
  | .bitR _ _ _ => true
  | .setR _ _ _ => true
  | .resR _ _ _ => true
  | .rlcR _ _ _ => true
  | .rrcR _ _ _ => true
  | .rlR _ _ _ => true
  | .rrR _ _ _ => true
  | .slaR _ _ _ => true
  | .sraR _ _ _ => true
  | .srlR _ _ _ => true
  | .ldRM _ ops => ops.wf
  | .exRM _ ops => ops.wf
  | .addRM _ ops => ops.wf
  | .adcRM _ ops => ops.wf
  | .subRM _ ops => ops.wf
  | .sbcRM _ ops => ops.wf
  | .cpRM _ ops => ops.wf
  | .andRM _ ops => ops.wf
  | .orRM _ ops => ops.wf
  | .xorRM _ ops => ops.wf
  | .tstRM _ ops => ops.wf
  | .bitRM _ ops => ops.wf
  | .setRM _ ops => ops.wf
  | .resRM _ ops => ops.wf
  | .rlcRM _ ops => ops.wf
  | .rrcRM _ ops => ops.wf
  | .rlRM _ ops => ops.wf
  | .rrRM _ ops => ops.wf
  | .slaRM _ ops => ops.wf
  | .sraRM _ ops => ops.wf
  | .srlRM _ ops => ops.wf
  | .inRM _ _ m => m.wf
  | .outRM _ m _ => m.wf
  | .exAltUR sz r => hasAlternate sz r
  | .exhUR sz _ => sz.hasHalves
  | .pushUR sz _ => sz.isDWord
  | .popUR sz _ => sz.isDWord
  | .incUR _ _ => true
  | .decUR _ _ => true
  | .negUR _ _ => true
  | .extUR sz _ => sz.hasHalves
  | .mltUR sz _ => sz.hasHalves
  | .divUR sz _ => sz.hasHalves
  | .sdivUR sz _ => sz.hasHalves
  | .cplUR _ _ => true
  | .exhUM sz m => sz.hasHalves && m.wf
  | .pushUM sz m => sz.isDWord && m.wf
  | .popUM sz m => sz.isDWord && m.wf
  | .incUM _ m => m.wf
  | .decUM _ m => m.wf
  | .negUM _ m => m.wf
  | .extUM sz m => sz.hasHalves && m.wf
  | .mltUM sz m => sz.hasHalves && m.wf
  | .divUM sz m => sz.hasHalves && m.wf
  | .sdivUM sz m => sz.hasHalves && m.wf
  | .cplUM _ m => m.wf
  | .jp _ _ => true
  | .jrS8 _ _ => true
  | .jr _ _ => true
  | .call _ _ => true
  | .callrS8 _ _ => true
  | .callr _ _ => true
  | .ret _ => true
  | .reti _ => true
  | .retn _ => true
  | .ldi _ => true
  | .ldd _ => true
  | .ldir _ => true
  | .lddr _ => true
  | .cpi _ => true
  | .cpd _ => true
  | .cpir _ => true
  | .cpdr _ => true
  | .tsi _ => true
  | .tsd _ => true
  | .tsir _ => true
  | .tsdr _ => true
  | .ini _ => true
  | .ind _ => true
  | .inir _ => true
  | .indr _ => true
  | .outi _ => true
  | .outd _ => true
  | .outir _ => true
  | .outdr _ => true
  | .exx => true
  | .exi => true
  | .rst _ => true
  | .daa => true
  | .ldINN _ => true
  | .ldRA => true
  | .ldAR => true
  | .halt => true
  | .nop => true
  | .djnz _ => true
  | .janz _ => true

end Sys2Proof
end

