-- ==== Sys2Proof/Decode.lean ====
section
/-! DEFINITION. The decoder of `IM8000-REF` (30_encoding.md), total on any bytes, its refusals by name, and after it the
encoder, written from the same tables. Every selector value is the reference instantiation's (92_eei_decisions.md D1).
DESIGN CHOICE (unsafe for the repository's own tables): log entry 1. -/

namespace Sys2Proof

open Machine

/-- The fields an encoding error names (60_exceptions.md R501). -/
inductive DecodeField where
  | subgroup | op | branchOp | condition | family | nullaryOp | singleByteOp | size | reserved | dst | loadTarget | reg
  | sizeForOp | noAlternate
  deriving DecidableEq, Repr

/-- The numeric codes of the fields (60_exceptions.md R501, 92_eei_decisions.md D53). -/
def DecodeField.code : DecodeField → Nat
  | .subgroup => 1
  | .op => 2
  | .branchOp => 3
  | .condition => 4
  | .family => 5
  | .nullaryOp => 6
  | .singleByteOp => 7
  | .size => 8
  | .reserved => 9
  | .dst => 10
  | .loadTarget => 11
  | .reg => 12
  | .sizeForOp => 13
  | .noAlternate => 14

/-! ## The tables -/

/-- `SIZE_CODE` (30_encoding.md R108): 11 is no size. -/
def sizeOf : Nat → Option Size
  | 0 => some .byte
  | 1 => some .word
  | 2 => some .dword
  | _ => none

/-- The register codes (10_state.md R33): 7 never names a register (30_encoding.md R106). -/
def regOf : Nat → Option RegCode
  | 0 => some .r0
  | 1 => some .r1
  | 2 => some .r2
  | 3 => some .r3
  | 4 => some .r4
  | 5 => some .r5
  | 6 => some .r6
  | _ => none

/-- `COND_CODE` (30_encoding.md R141). -/
def condOf : Nat → Option Cond
  | 0 => some .nz
  | 1 => some .z
  | 2 => some .nc
  | 3 => some .c
  | 4 => some .po
  | 5 => some .pe
  | 6 => some .p
  | 7 => some .m
  | 8 => some .always
  | _ => none

/-- `R_OP` (30_encoding.md R112). -/
def rCtor : Nat → Option ((sz : Size) → RegCode → Src sz → Instr)
  | 0 => some .ldR
  | 1 => some .exR
  | 2 => some .addR
  | 3 => some .adcR
  | 4 => some .subR
  | 5 => some .sbcR
  | 6 => some .cpR
  | 7 => some .andR
  | 8 => some .orR
  | 9 => some .xorR
  | 10 => some .tstR
  | 11 => some .bitR
  | 12 => some .setR
  | 13 => some .resR
  | 14 => some .rlcR
  | 15 => some .rrcR
  | 16 => some .rlR
  | 17 => some .rrR
  | 18 => some .slaR
  | 19 => some .sraR
  | 20 => some .srlR
  | _ => none

/-- `RM_OP` 0 to 20 (30_encoding.md R121); 21 is IN or OUT by the direction and is decoded apart. -/
def rmCtor : Nat → Option ((sz : Size) → RMOperands sz → Instr)
  | 0 => some .ldRM
  | 1 => some .exRM
  | 2 => some .addRM
  | 3 => some .adcRM
  | 4 => some .subRM
  | 5 => some .sbcRM
  | 6 => some .cpRM
  | 7 => some .andRM
  | 8 => some .orRM
  | 9 => some .xorRM
  | 10 => some .tstRM
  | 11 => some .bitRM
  | 12 => some .setRM
  | 13 => some .resRM
  | 14 => some .rlcRM
  | 15 => some .rrcRM
  | 16 => some .rlRM
  | 17 => some .rrRM
  | 18 => some .slaRM
  | 19 => some .sraRM
  | 20 => some .srlRM
  | _ => none

/-- `U_OP` for format UR (30_encoding.md R130). -/
def urCtor : Nat → Option (Size → RegCode → Instr)
  | 0 => some .exAltUR
  | 1 => some .exhUR
  | 2 => some .pushUR
  | 3 => some .popUR
  | 4 => some .incUR
  | 5 => some .decUR
  | 6 => some .negUR
  | 7 => some .extUR
  | 8 => some .mltUR
  | 9 => some .divUR
  | 10 => some .sdivUR
  | 11 => some .cplUR
  | _ => none

/-- `U_OP` for format UM (30_encoding.md R130): the same selectors but EX_Alt. -/
def umCtor : Nat → Option (Size → MemRef → Instr)
  | 1 => some .exhUM
  | 2 => some .pushUM
  | 3 => some .popUM
  | 4 => some .incUM
  | 5 => some .decUM
  | 6 => some .negUM
  | 7 => some .extUM
  | 8 => some .mltUM
  | 9 => some .divUM
  | 10 => some .sdivUM
  | 11 => some .cplUM
  | _ => none

/-- `BR_OP` 0 to 5 (30_encoding.md R140), each with the size its mnemonic implies (R142). -/
def jumpCtor : Nat → Option ((sz : Size) × (Cond → Src sz → Instr))
  | 0 => some ⟨.dword, .jp⟩
  | 1 => some ⟨.byte, .jrS8⟩
  | 2 => some ⟨.word, .jr⟩
  | 3 => some ⟨.dword, .call⟩
  | 4 => some ⟨.byte, .callrS8⟩
  | 5 => some ⟨.word, .callr⟩
  | _ => none

/-- `BR_OP` 6 to 8 (30_encoding.md R140). -/
def retCtor : Nat → Option (Cond → Instr)
  | 6 => some .ret
  | 7 => some .reti
  | 8 => some .retn
  | _ => none

/-- The block family's ops, bits 15:10 (30_encoding.md R151). -/
def blockCtor : Nat → Option (Size → Instr)
  | 0 => some .ldi
  | 1 => some .ldd
  | 2 => some .ldir
  | 3 => some .lddr
  | 4 => some .cpi
  | 5 => some .cpd
  | 6 => some .cpir
  | 7 => some .cpdr
  | 8 => some .tsi
  | 9 => some .tsd
  | 10 => some .tsir
  | 11 => some .tsdr
  | 12 => some .ini
  | 13 => some .ind
  | 14 => some .inir
  | 15 => some .indr
  | 16 => some .outi
  | 17 => some .outd
  | 18 => some .outir
  | 19 => some .outdr
  | _ => none

/-! ## Operands -/

/-- The immediate of size `sz` at offset `off` of the instruction (30_encoding.md R105). -/
def immAt (sz : Size) (off : Nat) (f : Nat → Byte) : BitVec sz.bits := ofBytes sz fun k => f (off + k)

/-- A source code: a register, or for 0b111 the immediate at offset `off` (30_encoding.md R106). -/
def srcAt (sz : Size) (code off : Nat) (f : Nat → Byte) : Src sz :=
  match regOf code with
  | some c => .reg c
  | none => .imm (immAt sz off f)

/-- An address code (30_encoding.md R107), whose trailing field stands right after the base word. -/
def memAt (code : Nat) (f : Nat → Byte) : MemRef :=
  match regOf code with
  | some c => .ind c (if isIndexClass c then some (immAt .word 2 f) else none)
  | none => .direct (immAt .dword 2 f)

/-- The number of trailing bytes of an address operand (30_encoding.md R104). -/
def MemRef.trailing : MemRef → Nat
  | .ind base _ => if isIndexClass base then 2 else 0
  | .direct _ => 4

/-- The number of trailing bytes of a source operand (30_encoding.md R104). -/
def Src.trailing {sz : Size} : Src sz → Nat
  | .reg _ => 0
  | .imm _ => sz.bytes

/-- The number of trailing bytes of format RM's operands (30_encoding.md R122). -/
def RMOperands.trailing {sz : Size} : RMOperands sz → Nat
  | .load _ m => m.trailing
  | .store m q => m.trailing + q.trailing

/-! ## The formats, each with its checks in the order of 30_encoding.md R163 -/

/-- Format R (30_encoding.md R110-R113). -/
def decodeR (w : BaseWord) (f : Nat → Byte) : Except DecodeField Instr :=
  match rCtor (bits w 2 6) with
  | none => .error .op
  | some k =>
    match sizeOf (bits w 8 2) with
    | none => .error .size
    | some sz =>
      match regOf (bits w 10 3) with
      | none => .error .dst
      | some d => .ok (k sz d (srcAt sz (bits w 13 3) 2 f))

/-- The two directions of format RM (30_encoding.md R122, R123): `dir` is bit 7, `r` bits 12:10, `a` bits 15:13. -/
def rmAt (sz : Size) (dir r a : Nat) (f : Nat → Byte) : Except DecodeField (RMOperands sz) :=
  let m := memAt a f
  match dir with
  | 0 => .ok (.store m (srcAt sz r (2 + m.trailing) f))
  | _ =>
    match regOf r with
    | none => .error .loadTarget
    | some c => .ok (.load c m)

/-- IN for a load, OUT for a store (30_encoding.md R121). -/
def inOut (sz : Size) : RMOperands sz → Instr
  | .load r m => .inRM sz r m
  | .store m q => .outRM sz m q

/-- `RM_OP` with op 21 (30_encoding.md R121). -/
def rmCtorAll (op : Nat) : Option ((sz : Size) → RMOperands sz → Instr) :=
  match op with
  | 21 => some inOut
  | op => rmCtor op

/-- Format RM (30_encoding.md R120-R123). -/
def decodeRM (w : BaseWord) (f : Nat → Byte) : Except DecodeField Instr :=
  match rmCtorAll (bits w 2 5) with
  | none => .error .op
  | some k =>
    match sizeOf (bits w 8 2) with
    | none => .error .size
    | some sz =>
      match rmAt sz (bits w 7 1) (bits w 10 3) (bits w 13 3) f with
      | .error e => .error e
      | .ok ops => .ok (k sz ops)

/-- The unary selector `sel_hi * 8 + sel_lo` (30_encoding.md R130). -/
def unarySel (w : BaseWord) : Nat := bits w 4 4 * 8 + bits w 13 3

/-- The size legality of a unary selector (30_encoding.md R133): PUSH and POP need DWord; EXH, EXT, MLT, DIV and SDIV need
Word or DWord. -/
def unarySizeLegal (sel : Nat) (sz : Size) : Bool :=
  match sel with
  | 2 | 3 => sz.isDWord
  | 1 | 7 | 8 | 9 | 10 => sz.hasHalves
  | _ => true

/-- Format UR (30_encoding.md R130, R131, R133). -/
def decodeUR (w : BaseWord) : Except DecodeField Instr :=
  match urCtor (unarySel w) with
  | none => .error .op
  | some k =>
    match sizeOf (bits w 8 2) with
    | none => .error .size
    | some sz =>
      match regOf (bits w 10 3) with
      | none => .error .reg
      | some r =>
        if unarySizeLegal (unarySel w) sz then
          if unarySel w == 0 && !hasAlternate sz r then .error .noAlternate else .ok (k sz r)
        else .error .sizeForOp

/-- Format UM (30_encoding.md R130, R132, R133). -/
def decodeUM (w : BaseWord) (f : Nat → Byte) : Except DecodeField Instr :=
  match umCtor (unarySel w) with
  | none => .error .op
  | some k =>
    match sizeOf (bits w 8 2) with
    | none => .error .size
    | some sz =>
      if unarySizeLegal (unarySel w) sz then .ok (k sz (memAt (bits w 10 3) f)) else .error .sizeForOp

/-- Format BR (30_encoding.md R140-R143). -/
def decodeBR (w : BaseWord) (f : Nat → Byte) : Except DecodeField Instr :=
  match jumpCtor (bits w 4 5) with
  | some ⟨sz, k⟩ =>
    match condOf (bits w 9 4) with
    | none => .error .condition
    | some cc => .ok (k cc (srcAt sz (bits w 13 3) 2 f))
  | none =>
    match retCtor (bits w 4 5) with
    | none => .error .branchOp
    | some k =>
      match condOf (bits w 9 4) with
      | none => .error .condition
      | some cc => if bits w 13 3 = 0 then .ok (k cc) else .error .reserved

/-- The block family (30_encoding.md R151). -/
def decodeBlock (w : BaseWord) : Except DecodeField Instr :=
  match blockCtor (bits w 10 6) with
  | none => .error .nullaryOp
  | some k =>
    match sizeOf (bits w 8 2) with
    | none => .error .size
    | some sz => .ok (k sz)

/-- The exact ops of the other families, bits 15:8 (30_encoding.md R152-R155). -/
def decodeExact (family op : Nat) (f : Nat → Byte) : Except DecodeField Instr :=
  match family, op with
  | 1, 0 => .ok .exx
  | 1, 1 => .ok .exi
  | 2, 0 => .ok (.rst (immAt .byte 2 f))
  | 3, 0 => .ok .daa
  | 4, 0 => .ok (.ldINN (immAt .dword 2 f))
  | 4, 1 => .ok .ldRA
  | 4, 2 => .ok .ldAR
  | 4, 3 => .ok .halt
  | _, _ => .error .nullaryOp

/-- Format NUL (30_encoding.md R150-R156). -/
def decodeNUL (w : BaseWord) (f : Nat → Byte) : Except DecodeField Instr :=
  match bits w 4 4 with
  | 0 => decodeBlock w
  | 1 => decodeExact 1 (bits w 8 8) f
  | 2 => decodeExact 2 (bits w 8 8) f
  | 3 => decodeExact 3 (bits w 8 8) f
  | 4 => decodeExact 4 (bits w 8 8) f
  | _ => .error .family

/-- Format SB (30_encoding.md R160, R161). -/
def decodeSB (w : BaseWord) : Except DecodeField Instr :=
  match bits w 12 4 with
  | 0 => if bits w 4 8 = 0 then .ok .nop else .error .reserved
  | 1 => .ok (.djnz (BitVec.ofNat 8 (bits w 4 8)))
  | 2 => .ok (.janz (BitVec.ofNat 8 (bits w 4 8)))
  | _ => .error .singleByteOp

/-- Classification by group and subgroup (30_encoding.md R102). -/
def decodeWord (w : BaseWord) (f : Nat → Byte) : Except DecodeField Instr :=
  match bits w 0 2, bits w 2 2 with
  | 0, _ => decodeR w f
  | 1, _ => decodeRM w f
  | 2, 0 => decodeUR w
  | 2, 1 => decodeUM w f
  | 2, 2 => decodeBR w f
  | 2, _ => decodeNUL w f
  | _, 3 => decodeSB w
  | _, _ => .error .subgroup

/-- The base word of the bytes `f 0`, `f 1`, ... (30_encoding.md R101). -/
def baseWordAt (f : Nat → Byte) : BaseWord := ofBytes .word f

/-- The decoder (30_encoding.md R100): `f k` is the byte at BaseAddress + k. It is total: every base word gives one
instruction or one named error (R162). -/
def decode (f : Nat → Byte) : Except DecodeField Instr := decodeWord (baseWordAt f) f

/-- The decoder on an instruction whose bits are `w`, bit 0 the lowest bit of the first byte, every bit from `nbits` on 0. -/
def decodeTableWord (nbits w : Nat) : Option Instr :=
  match decode fun k => BitVec.ofNat 8 (w % 2 ^ nbits / 256 ^ k) with
  | .ok i => some i
  | .error _ => none

/-! ## The encoder -/

/-- The code of a size (30_encoding.md R108). -/
def Size.code : Size → Nat
  | .byte => 0
  | .word => 1
  | .dword => 2

/-- The code of a register (10_state.md R33). -/
def RegCode.code : RegCode → Nat
  | .r0 => 0
  | .r1 => 1
  | .r2 => 2
  | .r3 => 3
  | .r4 => 4
  | .r5 => 5
  | .r6 => 6

/-- The code of a condition (30_encoding.md R141). -/
def Cond.code : Cond → Nat
  | .nz => 0
  | .z => 1
  | .nc => 2
  | .c => 3
  | .po => 4
  | .pe => 5
  | .p => 6
  | .m => 7
  | .always => 8

/-- The code of a source operand: 0b111 for an immediate (30_encoding.md R106). -/
def Src.code {sz : Size} : Src sz → Nat
  | .reg c => c.code
  | .imm _ => 7

/-- The code of an address operand: 0b111 for a direct address (30_encoding.md R106). -/
def MemRef.code : MemRef → Nat
  | .ind base _ => base.code
  | .direct _ => 7

/-- The trailing bytes of a source operand (30_encoding.md R105). -/
def Src.bytes {sz : Size} : Src sz → List Byte
  | .reg _ => []
  | .imm v => toBytes sz v

/-- The trailing bytes of an address operand (30_encoding.md R105). -/
def MemRef.bytes : MemRef → List Byte
  | .ind _ none => []
  | .ind _ (some d) => toBytes .word d
  | .direct a => toBytes .dword a

/-- Format R (30_encoding.md R110). -/
def encR (op : Nat) (sz : Size) (d : RegCode) (s : Src sz) : BaseWord × List Byte :=
  (BitVec.ofNat 16 (4 * op + 256 * sz.code + 1024 * d.code + 8192 * s.code), s.bytes)

/-- Format RM (30_encoding.md R120): a displacement or direct address stands before an immediate (R105). -/
def encRM (op : Nat) (sz : Size) : RMOperands sz → BaseWord × List Byte
  | .load r m => (BitVec.ofNat 16 (1 + 4 * op + 128 + 256 * sz.code + 1024 * r.code + 8192 * m.code), m.bytes)
  | .store m q => (BitVec.ofNat 16 (1 + 4 * op + 256 * sz.code + 1024 * q.code + 8192 * m.code), m.bytes ++ q.bytes)

/-- The layout of formats UR and UM (30_encoding.md R130); `sub` is the subgroup. -/
def unaryWord (sub sel : Nat) (sz : Size) (code : Nat) : BaseWord :=
  BitVec.ofNat 16 (2 + 4 * sub + 16 * (sel / 8) + 256 * sz.code + 1024 * code + 8192 * (sel % 8))

/-- Format UR. -/
def encUR (sel : Nat) (sz : Size) (r : RegCode) : BaseWord × List Byte := (unaryWord 0 sel sz r.code, [])

/-- Format UM. -/
def encUM (sel : Nat) (sz : Size) (m : MemRef) : BaseWord × List Byte := (unaryWord 1 sel sz m.code, m.bytes)

/-- Format BR (30_encoding.md R140) with a target operand. -/
def encJump (op : Nat) (cc : Cond) {sz : Size} (t : Src sz) : BaseWord × List Byte :=
  (BitVec.ofNat 16 (10 + 16 * op + 512 * cc.code + 8192 * t.code), t.bytes)

/-- Format BR without a target: bits 15:13 are 0 (30_encoding.md R143). -/
def encRet (op : Nat) (cc : Cond) : BaseWord × List Byte := (BitVec.ofNat 16 (10 + 16 * op + 512 * cc.code), [])

/-- Format NUL, the block family (30_encoding.md R151). -/
def encBlock (op : Nat) (sz : Size) : BaseWord × List Byte := (BitVec.ofNat 16 (14 + 256 * sz.code + 1024 * op), [])

/-- Format NUL, the other families (30_encoding.md R150). -/
def encExact (family op : Nat) (tail : List Byte) : BaseWord × List Byte :=
  (BitVec.ofNat 16 (14 + 16 * family + 256 * op), tail)

/-- Format SB (30_encoding.md R160). -/
def encSB (op : Nat) (disp : Byte) : BaseWord × List Byte := (BitVec.ofNat 16 (15 + 16 * disp.toNat + 4096 * op), [])

/-- The base word and the trailing bytes of an instruction. -/
def encodeParts : Instr → BaseWord × List Byte
  | .ldR sz d s => encR 0 sz d s
  | .exR sz d s => encR 1 sz d s
  | .addR sz d s => encR 2 sz d s
  | .adcR sz d s => encR 3 sz d s
  | .subR sz d s => encR 4 sz d s
  | .sbcR sz d s => encR 5 sz d s
  | .cpR sz d s => encR 6 sz d s
  | .andR sz d s => encR 7 sz d s
  | .orR sz d s => encR 8 sz d s
  | .xorR sz d s => encR 9 sz d s
  | .tstR sz d s => encR 10 sz d s
  | .bitR sz d s => encR 11 sz d s
  | .setR sz d s => encR 12 sz d s
  | .resR sz d s => encR 13 sz d s
  | .rlcR sz d s => encR 14 sz d s
  | .rrcR sz d s => encR 15 sz d s
  | .rlR sz d s => encR 16 sz d s
  | .rrR sz d s => encR 17 sz d s
  | .slaR sz d s => encR 18 sz d s
  | .sraR sz d s => encR 19 sz d s
  | .srlR sz d s => encR 20 sz d s
  | .ldRM sz ops => encRM 0 sz ops
  | .exRM sz ops => encRM 1 sz ops
  | .addRM sz ops => encRM 2 sz ops
  | .adcRM sz ops => encRM 3 sz ops
  | .subRM sz ops => encRM 4 sz ops
  | .sbcRM sz ops => encRM 5 sz ops
  | .cpRM sz ops => encRM 6 sz ops
  | .andRM sz ops => encRM 7 sz ops
  | .orRM sz ops => encRM 8 sz ops
  | .xorRM sz ops => encRM 9 sz ops
  | .tstRM sz ops => encRM 10 sz ops
  | .bitRM sz ops => encRM 11 sz ops
  | .setRM sz ops => encRM 12 sz ops
  | .resRM sz ops => encRM 13 sz ops
  | .rlcRM sz ops => encRM 14 sz ops
  | .rrcRM sz ops => encRM 15 sz ops
  | .rlRM sz ops => encRM 16 sz ops
  | .rrRM sz ops => encRM 17 sz ops
  | .slaRM sz ops => encRM 18 sz ops
  | .sraRM sz ops => encRM 19 sz ops
  | .srlRM sz ops => encRM 20 sz ops
  | .inRM sz r m => encRM 21 sz (.load r m)
  | .outRM sz m q => encRM 21 sz (.store m q)
  | .exAltUR sz r => encUR 0 sz r
  | .exhUR sz r => encUR 1 sz r
  | .pushUR sz r => encUR 2 sz r
  | .popUR sz r => encUR 3 sz r
  | .incUR sz r => encUR 4 sz r
  | .decUR sz r => encUR 5 sz r
  | .negUR sz r => encUR 6 sz r
  | .extUR sz r => encUR 7 sz r
  | .mltUR sz r => encUR 8 sz r
  | .divUR sz r => encUR 9 sz r
  | .sdivUR sz r => encUR 10 sz r
  | .cplUR sz r => encUR 11 sz r
  | .exhUM sz m => encUM 1 sz m
  | .pushUM sz m => encUM 2 sz m
  | .popUM sz m => encUM 3 sz m
  | .incUM sz m => encUM 4 sz m
  | .decUM sz m => encUM 5 sz m
  | .negUM sz m => encUM 6 sz m
  | .extUM sz m => encUM 7 sz m
  | .mltUM sz m => encUM 8 sz m
  | .divUM sz m => encUM 9 sz m
  | .sdivUM sz m => encUM 10 sz m
  | .cplUM sz m => encUM 11 sz m
  | .jp cc t => encJump 0 cc t
  | .jrS8 cc t => encJump 1 cc t
  | .jr cc t => encJump 2 cc t
  | .call cc t => encJump 3 cc t
  | .callrS8 cc t => encJump 4 cc t
  | .callr cc t => encJump 5 cc t
  | .ret cc => encRet 6 cc
  | .reti cc => encRet 7 cc
  | .retn cc => encRet 8 cc
  | .ldi sz => encBlock 0 sz
  | .ldd sz => encBlock 1 sz
  | .ldir sz => encBlock 2 sz
  | .lddr sz => encBlock 3 sz
  | .cpi sz => encBlock 4 sz
  | .cpd sz => encBlock 5 sz
  | .cpir sz => encBlock 6 sz
  | .cpdr sz => encBlock 7 sz
  | .tsi sz => encBlock 8 sz
  | .tsd sz => encBlock 9 sz
  | .tsir sz => encBlock 10 sz
  | .tsdr sz => encBlock 11 sz
  | .ini sz => encBlock 12 sz
  | .ind sz => encBlock 13 sz
  | .inir sz => encBlock 14 sz
  | .indr sz => encBlock 15 sz
  | .outi sz => encBlock 16 sz
  | .outd sz => encBlock 17 sz
  | .outir sz => encBlock 18 sz
  | .outdr sz => encBlock 19 sz
  | .exx => encExact 1 0 []
  | .exi => encExact 1 1 []
  | .rst imm => encExact 2 0 (toBytes .byte imm)
  | .daa => encExact 3 0 []
  | .ldINN imm => encExact 4 0 (toBytes .dword imm)
  | .ldRA => encExact 4 1 []
  | .ldAR => encExact 4 2 []
  | .halt => encExact 4 3 []
  | .nop => encSB 0 0
  | .djnz d => encSB 1 d
  | .janz d => encSB 2 d

/-- The base word of an instruction. -/
def baseWord (i : Instr) : BaseWord := (encodeParts i).1

/-- The bytes of an instruction, the first at its BaseAddress: "always exactly the bytes consumed" (00_scope.md R16). -/
def encode (i : Instr) : List Byte := toBytes .word (baseWord i) ++ (encodeParts i).2

/-- The length of an instruction in bytes (30_encoding.md R104). -/
def instrLength : Instr → Nat
  | .ldR _ _ s | .exR _ _ s | .addR _ _ s | .adcR _ _ s | .subR _ _ s | .sbcR _ _ s | .cpR _ _ s | .andR _ _ s
  | .orR _ _ s | .xorR _ _ s | .tstR _ _ s | .bitR _ _ s | .setR _ _ s | .resR _ _ s | .rlcR _ _ s | .rrcR _ _ s
  | .rlR _ _ s | .rrR _ _ s | .slaR _ _ s | .sraR _ _ s | .srlR _ _ s => 2 + s.trailing
  | .ldRM _ ops | .exRM _ ops | .addRM _ ops | .adcRM _ ops | .subRM _ ops | .sbcRM _ ops | .cpRM _ ops
  | .andRM _ ops | .orRM _ ops | .xorRM _ ops | .tstRM _ ops | .bitRM _ ops | .setRM _ ops | .resRM _ ops
  | .rlcRM _ ops | .rrcRM _ ops | .rlRM _ ops | .rrRM _ ops | .slaRM _ ops | .sraRM _ ops | .srlRM _ ops => 2 + ops.trailing
  | .inRM _ _ m => 2 + m.trailing
  | .outRM _ m q => 2 + m.trailing + q.trailing
  | .exAltUR _ _ | .exhUR _ _ | .pushUR _ _ | .popUR _ _ | .incUR _ _ | .decUR _ _ | .negUR _ _ | .extUR _ _
  | .mltUR _ _ | .divUR _ _ | .sdivUR _ _ | .cplUR _ _ => 2
  | .exhUM _ m | .pushUM _ m | .popUM _ m | .incUM _ m | .decUM _ m | .negUM _ m | .extUM _ m | .mltUM _ m
  | .divUM _ m | .sdivUM _ m | .cplUM _ m => 2 + m.trailing
  | .jp _ t | .jrS8 _ t | .jr _ t | .call _ t | .callrS8 _ t | .callr _ t => 2 + t.trailing
  | .ret _ | .reti _ | .retn _ | .ldi _ | .ldd _ | .ldir _ | .lddr _ | .cpi _ | .cpd _ | .cpir _ | .cpdr _ | .tsi _
  | .tsd _ | .tsir _ | .tsdr _ | .ini _ | .ind _ | .inir _ | .indr _ | .outi _ | .outd _ | .outir _ | .outdr _ => 2
  | .rst _ => 3
  | .ldINN _ => 6
  | .exx | .exi | .daa | .ldRA | .ldAR | .halt | .nop | .djnz _ | .janz _ => 2

/-- The display mnemonic of an instruction (30_encoding.md R164; the operand text is out of scope, 00_scope.md R7(c)). -/
def mnemonic : Instr → String
  | .ldR _ _ _ | .ldRM _ _ => "LD"
  | .exR _ _ _ | .exRM _ _ => "EX"
  | .addR _ _ _ | .addRM _ _ => "ADD"
  | .adcR _ _ _ | .adcRM _ _ => "ADC"
  | .subR _ _ _ | .subRM _ _ => "SUB"
  | .sbcR _ _ _ | .sbcRM _ _ => "SBC"
  | .cpR _ _ _ | .cpRM _ _ => "CP"
  | .andR _ _ _ | .andRM _ _ => "AND"
  | .orR _ _ _ | .orRM _ _ => "OR"
  | .xorR _ _ _ | .xorRM _ _ => "XOR"
  | .tstR _ _ _ | .tstRM _ _ => "TST"
  | .bitR _ _ _ | .bitRM _ _ => "BIT"
  | .setR _ _ _ | .setRM _ _ => "SET"
  | .resR _ _ _ | .resRM _ _ => "RES"
  | .rlcR _ _ _ | .rlcRM _ _ => "RLC"
  | .rrcR _ _ _ | .rrcRM _ _ => "RRC"
  | .rlR _ _ _ | .rlRM _ _ => "RL"
  | .rrR _ _ _ | .rrRM _ _ => "RR"
  | .slaR _ _ _ | .slaRM _ _ => "SLA"
  | .sraR _ _ _ | .sraRM _ _ => "SRA"
  | .srlR _ _ _ | .srlRM _ _ => "SRL"
  | .inRM _ _ _ => "IN"
  | .outRM _ _ _ => "OUT"
  | .exAltUR _ _ => "EX_Alt"
  | .exhUR _ _ | .exhUM _ _ => "EXH"
  | .pushUR _ _ | .pushUM _ _ => "PUSH"
  | .popUR _ _ | .popUM _ _ => "POP"
  | .incUR _ _ | .incUM _ _ => "INC"
  | .decUR _ _ | .decUM _ _ => "DEC"
  | .negUR _ _ | .negUM _ _ => "NEG"
  | .extUR _ _ | .extUM _ _ => "EXT"
  | .mltUR _ _ | .mltUM _ _ => "MLT"
  | .divUR _ _ | .divUM _ _ => "DIV"
  | .sdivUR _ _ | .sdivUM _ _ => "SDIV"
  | .cplUR _ _ | .cplUM _ _ => "CPL"
  | .jp _ _ => "JP"
  | .jrS8 _ _ => "JR_s8"
  | .jr _ _ => "JR"
  | .call _ _ => "CALL"
  | .callrS8 _ _ => "CALLR_s8"
  | .callr _ _ => "CALLR"
  | .ret _ => "RET"
  | .reti _ => "RETI"
  | .retn _ => "RETN"
  | .ldi _ => "LDI"
  | .ldd _ => "LDD"
  | .ldir _ => "LDIR"
  | .lddr _ => "LDDR"
  | .cpi _ => "CPI"
  | .cpd _ => "CPD"
  | .cpir _ => "CPIR"
  | .cpdr _ => "CPDR"
  | .tsi _ => "TSI"
  | .tsd _ => "TSD"
  | .tsir _ => "TSIR"
  | .tsdr _ => "TSDR"
  | .ini _ => "INI"
  | .ind _ => "IND"
  | .inir _ => "INIR"
  | .indr _ => "INDR"
  | .outi _ => "OUTI"
  | .outd _ => "OUTD"
  | .outir _ => "OUTIR"
  | .outdr _ => "OUTDR"
  | .exx => "EXX"
  | .exi => "EXI"
  | .rst _ => "RST"
  | .daa => "DAA"
  | .ldINN _ => "LD_I_NN"
  | .ldRA => "LD_R_A"
  | .ldAR => "LD_A_R"
  | .halt => "HALT"
  | .nop => "NOP"
  | .djnz _ => "DJNZ"
  | .janz _ => "JANZ"

end Sys2Proof
end

