-- ==== Sys2Proof/Machine/Memory.lean ====
section
/-! DEFINITION. The RAM of a bus (20_memory.md R70-R76): 2^32 bytes, held as a list of the cells that differ from what
an unlisted address reads as, in ONE canonical form. The memory bus and the I/O bus each hold one (the "identical contract"
of R71). Which addresses are RAM and which belong to a device is the device map's (Machine/State.lean, Ops.lean). -/

namespace Sys2Proof.Machine

/-- The RAM of one bus: (address, byte) pairs. -/
abbrev Memory := List Host.Cell

/-- What an address that no cell lists reads as. 92_eei_decisions.md D9: "initially 0".
DESIGN CHOICE (unsafe): log entry 2. -/
def Memory.unlisted : Byte := 0

/-- The canonical form from address `lo` on: addresses at least `lo`, strictly rising and below 2^32, and no cell that an
unlisted address reads as. -/
def Memory.wfFrom (lo : Nat) : Memory → Bool
  | [] => true
  | (a, b) :: m => decide (lo ≤ a) && decide (a < 2 ^ 32) && b != Memory.unlisted && Memory.wfFrom (a + 1) m

/-- The canonical form. -/
def Memory.wf (m : Memory) : Bool := Memory.wfFrom 0 m

/-- The byte at an address. -/
def Memory.read : Memory → Nat → Byte
  | [], _ => Memory.unlisted
  | (k, b) :: m, a => if k = a then b else Memory.read m a

/-- The contents without the cells of an address. -/
def Memory.erase : Memory → Nat → Memory
  | [], _ => []
  | (k, b) :: m, a => if k = a then Memory.erase m a else (k, b) :: Memory.erase m a

/-- Put a cell in its place in the order of addresses. -/
def Memory.insert : Memory → Nat → Byte → Memory
  | [], a, b => [(a, b)]
  | (k, c) :: m, a, b => if a < k then (a, b) :: (k, c) :: m else (k, c) :: Memory.insert m a b

/-- Write the byte at an address; writing what an unlisted address reads as removes the cell. -/
def Memory.write (m : Memory) (a : Nat) (b : Byte) : Memory :=
  if b = Memory.unlisted then m.erase a else (m.erase a).insert a b

/-- The address of byte `k` of an access at `a`: `trunc_32(a + k)` (20_memory.md R72, 92_eei_decisions.md D8). -/
def byteAddr (a : DWord) (k : Nat) : Nat := (a + BitVec.ofNat 32 k).toNat

/-- The RAM after a write of `v` at `a`, byte by byte in ascending order (20_memory.md R73): the bytes that belong to a device
do not go to RAM. -/
def Memory.writeRam (m : Memory) (device : Nat → Bool) (sz : Size) (a : DWord) (v : BitVec sz.bits) : Memory :=
  (List.range sz.bytes).foldl (fun m k => if device (byteAddr a k) then m else m.write (byteAddr a k) (byteOf v k)) m

/-- Store a list of bytes at consecutive addresses from `a` on. -/
def Memory.storeBytes (m : Memory) (a : DWord) : List Byte → Memory
  | [] => m
  | b :: bs => (m.write a.toNat b).storeBytes (a + 1) bs

end Sys2Proof.Machine
end

