-- ==== Sys2Proof/Machine/State.lean ====
section
/-! DEFINITION. The architectural state (10_state.md R30), as plain data, and the state after reset
(70_reset_and_hazards.md R600). -/

namespace Sys2Proof.Machine

/-- The kinds of a contract violation (60_exceptions.md R502). -/
inductive ContractKind where
  /-- EX with an immediate operand 2 (30_encoding.md R166). -/
  | writeToImmediate
  /-- An operand count or kind the mnemonic does not take: only terms of `Instr` that no encoding stands for. -/
  | operandKind
  /-- A register target outside the enumeration: never raised, the register codes are closed (10_state.md R35). -/
  | unmappedTarget
  deriving DecidableEq, Repr

/-- The numeric codes of the kinds (60_exceptions.md R502, 92_eei_decisions.md D53). -/
def ContractKind.code : ContractKind → Nat
  | .writeToImmediate => 1
  | .operandKind => 2
  | .unmappedTarget => 3

/-- The two error classes (60_exceptions.md R500). An error is RECORDED in the state's `fault` field, and the step that raises
it answers a next state, because the spec describes the state it leaves (R500, R503) and what a later step does (R514); so no
step answers the host's outcome `fault`. Safe: log entry 5. -/
inductive Fault where
  /-- An encoding error, raised by the decoder (R501). Safe: the block stops. -/
  | decodeError (field : DecodeField)
  /-- A contract violation, raised by an instruction's meaning before any write (R502). Safe: the block stops. -/
  | contractViolation (kind : ContractKind)
  deriving DecidableEq, Repr

/-- Why the model would give an instruction no meaning. -/
inductive Refusal where
  /-- Raised by an arm of `exec` whose instruction has no meaning yet: none has this now. Safe. -/
  | notModelled (mnemonic : String)
  deriving DecidableEq, Repr

/-- What `fault` records (60_exceptions.md R500): the error's identity, the BaseAddress and the base word. -/
structure FaultRecord where
  error : Fault
  base : DWord
  word : BaseWord
  deriving DecidableEq, Repr

/-- One bank of registers (10_state.md R30, R36). B, D and H are the high halves of BC, DE and HL. -/
structure Bank where
  a : DWord
  bc : DWord
  de : DWord
  hl : DWord
  ix : DWord
  iy : DWord
  deriving DecidableEq, Repr

/-- A range of byte addresses of one bus that a device answers (00_scope.md R7(a), 20_memory.md R70). -/
structure Window where
  base : Nat
  size : Nat
  deriving DecidableEq, Repr

/-- Which addresses of each bus belong to devices: the open parameter `BUS` as data (20_memory.md R70, R71,
92_eei_decisions.md D9). Every other address is plain RAM; one window over the whole space leaves no RAM. No instruction
changes it. -/
structure DeviceMap where
  mem : List Window
  io : List Window
  deriving DecidableEq, Repr

/-- The state: every element of 10_state.md R30, then the two external buses (20_memory.md R70, R71). -/
structure State where
  /-- The primary bank (10_state.md R36). -/
  bank : Bank
  /-- The alternate bank (10_state.md R36). -/
  alt : Bank
  /-- The stack pointer (10_state.md R38). -/
  sp : DWord
  /-- The program counter (10_state.md R37). -/
  pc : DWord
  /-- The flag register F (10_state.md R39, R40). -/
  f : Byte
  /-- I (10_state.md R43). -/
  i : DWord
  /-- R (10_state.md R44). -/
  r : Byte
  /-- The shadow of the interrupt-enable flag (10_state.md R42). -/
  iff2 : Byte
  /-- The latch HALT sets (10_state.md R45). -/
  halted : Bool
  /-- The first error's record (10_state.md R46). -/
  fault : Option FaultRecord
  /-- The RAM of the memory bus (20_memory.md R70, R75). -/
  mem : Memory
  /-- The RAM of the I/O bus (20_memory.md R71, R75). -/
  io : Memory
  /-- The MODEL's own field: which addresses belong to devices (the open parameter `BUS`). DESIGN CHOICE: log entry 2. -/
  devices : DeviceMap
  /-- The MODEL's own field: the single-byte transfers that devices have seen, newest first (20_memory.md R79); what the free
  value `Config.deviceAnswer` is applied to. DESIGN CHOICE: log entry 3. -/
  transfers : List Transfer
  deriving DecidableEq, Repr

/-- Every bit of a bank 0. -/
def Bank.zero : Bank := { a := 0, bc := 0, de := 0, hl := 0, ix := 0, iy := 0 }

/-- The block with every element of 10_state.md R30 at 0 (70_reset_and_hazards.md R600), PC too, on the given buses. -/
def State.cleared (mem io : Memory) (devices : DeviceMap) (transfers : List Transfer) : State where
  bank := Bank.zero
  alt := Bank.zero
  sp := 0
  pc := 0
  f := 0
  i := 0
  r := 0
  iff2 := 0
  halted := false
  fault := none
  mem := mem
  io := io
  devices := devices
  transfers := transfers

/-- The machine right after reset, with nothing listed in either RAM and no device: the dword at the reset vector is 0, and so is PC.
Any other contents and devices: `hostReset`. -/
def State.reset : State := State.cleared [] [] { mem := [], io := [] } []

end Sys2Proof.Machine
end

