-- ==== Sys2Proof/Machine/Flags.lean ====
section
/-! DEFINITION. The flag register and every flag computation (10_state.md R39-R42, 40_arith.md R201-R205). -/

namespace Sys2Proof.Machine

/-- The flags that F holds (10_state.md R40). -/
inductive Flag where
  | s | z | ie | h | pv | n | c
  deriving DecidableEq, Repr

/-- `FLAG_POS` (10_state.md R40). -/
def Flag.pos : Flag → Nat
  | .s => 7
  | .z => 6
  | .ie => 5
  | .h => 4
  | .pv => 2
  | .n => 1
  | .c => 0

/-- A byte with bit `k` set to `b`. -/
def putBit (v : Byte) (k : Nat) (b : Bool) : Byte := if b then v ||| ((1 : Byte) <<< k) else v &&& ~~~((1 : Byte) <<< k)

/-- `F.X` (00_scope.md R11, 10_state.md R39). -/
def getFlag (x : Flag) (s : State) : Bool := s.f.getLsbD x.pos

/-- `SetFlag` (10_state.md R39, R42): setting IE also mirrors into the shadow IFF2. No instruction uses it for IE. -/
def setFlag (x : Flag) (b : Bool) (s : State) : State :=
  match x with
  | .ie => { s with f := putBit s.f Flag.ie.pos b, iff2 := if b then 1 else 0 }
  | x => { s with f := putBit s.f x.pos b }

/-- `RestoreIFF1()` (10_state.md R42): F.IE <- IFF2[0]. IFF2 itself is not written (92_eei_decisions.md D46).
DEDUCED: log entry 10. -/
def restoreIFF1 (s : State) : State := { s with f := putBit s.f Flag.ie.pos (s.iff2.getLsbD 0) }

/-- What an instruction writes to the six ALU flags: `none` leaves the flag unchanged, a "-" of 10_state.md R41. -/
structure FlagWrite where
  s : Option Bool := none
  z : Option Bool := none
  h : Option Bool := none
  pv : Option Bool := none
  n : Option Bool := none
  c : Option Bool := none
  deriving DecidableEq, Repr

/-- Write one flag, or leave it. -/
def putFlag? (x : Flag) (b : Option Bool) (v : Byte) : Byte :=
  match b with
  | none => v
  | some b => putBit v x.pos b

/-- F with the ALU flags of `w` written. -/
def FlagWrite.apply (w : FlagWrite) (v : Byte) : Byte :=
  putFlag? .s w.s (putFlag? .z w.z (putFlag? .h w.h (putFlag? .pv w.pv (putFlag? .n w.n (putFlag? .c w.c v)))))

/-- Write the ALU flags of `w`. -/
def putFlags (w : FlagWrite) (s : State) : State := { s with f := w.apply s.f }

/-! ## The computations -/

/-- The number of 1 bits of a value. -/
def popCount {w : Nat} (v : BitVec w) : Nat := (List.range w).countP fun k => v.getLsbD k

/-- Parity (40_arith.md R201): true when the number of 1 bits is even. -/
def parity {w : Nat} (v : BitVec w) : Bool := popCount v % 2 == 0

/-- `SZ(r)` (40_arith.md R202). -/
def szFlags {w : Nat} (r : BitVec w) : FlagWrite := { s := some r.msb, z := some (r == 0) }

/-- The half-carry at width `sz` (40_arith.md R203-R205): the byte formula at Byte, `HC_WIDE` above. -/
def halfCarry (hc : HcWide) (sz : Size) (bit3 : Bool) : Option Bool :=
  match sz, hc with
  | .byte, _ => some bit3
  | _, .clear => some false
  | _, .keep => none
  | _, .bit3 => some bit3

/-- `trunc_w(a + b + cin)` (40_arith.md R203). -/
def addResult {w : Nat} (a b : BitVec w) (cin : Bool) : BitVec w := BitVec.ofNat w (a.toNat + b.toNat + cin.toNat)

/-- `trunc_w(a - b - bin)` (40_arith.md R204). -/
def subResult {w : Nat} (a b : BitVec w) (bin : Bool) : BitVec w :=
  BitVec.ofInt w ((a.toNat : Int) - b.toNat - bin.toNat)

/-- `AddFlags(a, b, cin)` (40_arith.md R203). -/
def addFlags (hc : HcWide) (sz : Size) (a b : BitVec sz.bits) (cin : Bool) : FlagWrite :=
  let r := addResult a b cin
  { szFlags r with
    h := halfCarry hc sz (decide (a.toNat % 16 + b.toNat % 16 + cin.toNat > 15))
    pv := some ((a ^^^ r) &&& (b ^^^ r)).msb
    n := some false
    c := some (decide (2 ^ sz.bits ≤ a.toNat + b.toNat + cin.toNat)) }

/-- `SubFlags(a, b, bin)` (40_arith.md R204). -/
def subFlags (hc : HcWide) (sz : Size) (a b : BitVec sz.bits) (bin : Bool) : FlagWrite :=
  let r := subResult a b bin
  { szFlags r with
    h := halfCarry hc sz (decide (a.toNat % 16 < b.toNat % 16 + bin.toNat))
    pv := some ((a ^^^ b) &&& (a ^^^ r)).msb
    n := some true
    c := some (decide (a.toNat < b.toNat + bin.toNat)) }

/-- The flags of the logic family (41_logic.md R250-R254): S, Z and parity of the result, the family's H, N = 0 and C = 0. -/
def logicFlags {w : Nat} (h : Bool) (r : BitVec w) : FlagWrite :=
  { szFlags r with h := some h, pv := some (parity r), n := some false, c := some false }

/-- The flags of the shift family (42_shift_rotate.md R280): C is the last bit shifted out, or the old C for amount 0. -/
def shiftFlags {w : Nat} (r : BitVec w) (carry : Bool) : FlagWrite :=
  { szFlags r with h := some false, pv := some (parity r), n := some false, c := some carry }

/-- Condition test (46_stack_branch.md R390). -/
def holds (cond : Cond) (s : State) : Bool :=
  match cond with
  | .nz => !getFlag .z s
  | .z => getFlag .z s
  | .nc => !getFlag .c s
  | .c => getFlag .c s
  | .po => !getFlag .pv s
  | .pe => getFlag .pv s
  | .p => !getFlag .s s
  | .m => getFlag .s s
  | .always => true

end Sys2Proof.Machine
end

