-- ==== Sys2Proof/Machine/Ops.lean ====
section
/-! DEFINITION. The named operations over the buses, PC, the stack, and the taking of an error
(20_memory.md R72-R74, 46_stack_branch.md R391, 60_exceptions.md R500, 30_encoding.md R165). -/

namespace Sys2Proof.Machine

/-! ## The two buses (20_memory.md R70, R71) -/

/-- The device windows of a bus. -/
def windowsOf (sp : Space) (s : State) : List Window :=
  match sp with
  | .mem => s.devices.mem
  | .io => s.devices.io

/-- Whether a byte address of a bus belongs to a device. -/
def isDevice (sp : Space) (s : State) (a : Nat) : Bool :=
  (windowsOf sp s).any fun w => decide (w.base ≤ a) && decide (a < w.base + w.size)

/-- The RAM of a bus. -/
def ramOf (sp : Space) (s : State) : Memory :=
  match sp with
  | .mem => s.mem
  | .io => s.io

/-- `readByte` (20_memory.md R70): what the bus returns for one byte now. -/
def busByte (sp : Space) (s : State) (a : Nat) : Byte :=
  if isDevice sp s a then Config.deviceAnswer s.transfers sp a else (ramOf sp s).read a

/-- What devices see of a read of `n` bytes at `a`, in ascending address order (20_memory.md R72, R79), newest first. -/
def readTransfers (sp : Space) (a : DWord) (s : State) : Nat → List Transfer
  | 0 => []
  | n + 1 => (if isDevice sp s (byteAddr a n) then [.read sp (byteAddr a n)] else []) ++ readTransfers sp a s n

/-- What devices see of a write of the bytes `g 0`, `g 1`, ... at `a` (20_memory.md R73, R79), newest first. -/
def writeTransfers (sp : Space) (a : DWord) (g : Nat → Byte) (s : State) : Nat → List Transfer
  | 0 => []
  | n + 1 =>
    (if isDevice sp s (byteAddr a n) then [.write sp (byteAddr a n) (g n)] else []) ++ writeTransfers sp a g s n

/-- What a read of `n` bytes at `a` leaves: the devices among them have seen it (20_memory.md R79); RAM shows no trace. -/
def afterRead (sp : Space) (a : DWord) (n : Nat) (s : State) : State :=
  { s with transfers := readTransfers sp a s n ++ s.transfers }

/-- Byte `k` of a read at `a`, transferred after the bytes before it (20_memory.md R72). -/
def busByteAt (sp : Space) (a : DWord) (s : State) (k : Nat) : Byte := busByte sp (afterRead sp a k s) (byteAddr a k)

/-- The value of a read (20_memory.md R72, R74). -/
def busRead (sp : Space) (sz : Size) (a : DWord) (s : State) : BitVec sz.bits := ofBytes sz (busByteAt sp a s)

/-- A write, byte by byte in ascending order (20_memory.md R73, R74): to RAM, or to the device that the address belongs to. -/
def busWrite (sp : Space) (sz : Size) (a : DWord) (v : BitVec sz.bits) (s : State) : State :=
  match sp with
  | .mem => { s with
      mem := s.mem.writeRam (isDevice .mem s) sz a v
      transfers := writeTransfers .mem a (byteOf v) s sz.bytes ++ s.transfers }
  | .io => { s with
      io := s.io.writeRam (isDevice .io s) sz a v
      transfers := writeTransfers .io a (byteOf v) s sz.bytes ++ s.transfers }

/-- The value of `MemRead(a, n)` (20_memory.md R72). -/
def memRead (sz : Size) (a : DWord) (s : State) : BitVec sz.bits := busRead .mem sz a s

/-- What `MemRead(a, n)` leaves (20_memory.md R79). -/
def memTouch (sz : Size) (a : DWord) (s : State) : State := afterRead .mem a sz.bytes s

/-- `MemWrite(a, n, v)` (20_memory.md R73). -/
def memWrite (sz : Size) (a : DWord) (v : BitVec sz.bits) (s : State) : State := busWrite .mem sz a v s

/-- The value of `IORead(a, n)` (20_memory.md R74). -/
def ioRead (sz : Size) (a : DWord) (s : State) : BitVec sz.bits := busRead .io sz a s

/-- What `IORead(a, n)` leaves (20_memory.md R79). -/
def ioTouch (sz : Size) (a : DWord) (s : State) : State := afterRead .io a sz.bytes s

/-- `IOWrite(a, n, v)` (20_memory.md R74). -/
def ioWrite (sz : Size) (a : DWord) (v : BitVec sz.bits) (s : State) : State := busWrite .io sz a v s

/-! ## The program counter -/

/-- `pc <- target` (00_scope.md R11). -/
def setPC (target : DWord) (s : State) : State := { s with pc := target }

/-- The advance before the handler runs: PC is BaseAddress + length mod 2^32 (30_encoding.md R165, 10_state.md R37). -/
def advance (i : Instr) (s : State) : State := setPC (s.pc + BitVec.ofNat 32 (instrLength i)) s

/-- PC plus a sign-extended displacement (46_stack_branch.md R401, R402, R411). -/
def relTarget {w : Nat} (disp : BitVec w) (s : State) : DWord := s.pc + disp.signExtend 32

/-! ## The stack (46_stack_branch.md R391) -/

/-- `push32(v)`: predecrement, then write. -/
def push32 (v : DWord) (s : State) : State := memWrite .dword (s.sp - 4) v { s with sp := s.sp - 4 }

/-- The value of `pop32()`. -/
def popValue (s : State) : DWord := memRead .dword s.sp s

/-- What `pop32()` leaves: the dword at SP has been read, and SP is postincremented. -/
def popSP (s : State) : State := { memTouch .dword s.sp s with sp := s.sp + 4 }

/-! ## Errors -/

/-- Raising an error (60_exceptions.md R500, R503): `fault` is set to the error's identity with BaseAddress and base word, and
nothing else changes. PC of `s` is BaseAddress. -/
def raiseError (e : Fault) (word : BaseWord) (s : State) : State :=
  { s with fault := some { error := e, base := s.pc, word := word } }

/-- A contract violation of the instruction `i` (60_exceptions.md R502), raised before any write. -/
def violation (k : ContractKind) (i : Instr) (s : State) : Host.Outcome State Fault Refusal :=
  .next (raiseError (.contractViolation k) (baseWord i) s)

/-! ## The step's parts (30_encoding.md R165) -/

/-- A halted or faulted block takes no step (10_state.md R45, R46; 60_exceptions.md R514). -/
def stopped (s : State) : Bool := s.halted || s.fault.isSome

/-- The byte at BaseAddress + k of the instruction at PC, fetched after the bytes before it (30_encoding.md R100, R105). -/
def fetchByte (s : State) (k : Nat) : Byte := busByteAt .mem s.pc s k

/-- What the fetch of `n` bytes at PC leaves (20_memory.md R79, R89). -/
def fetched (n : Nat) (s : State) : State := afterRead .mem s.pc n s

/-- The instruction that `Decode(pc)` gives (30_encoding.md R100): it reads the memory bus as it is now (20_memory.md R89). -/
def decodeAtPC (s : State) : Except DecodeField Instr := decode (fetchByte s)

/-- What a decode error leaves (60_exceptions.md R501, R503): the base word, and nothing after it, has been fetched. -/
def raiseDecodeError (e : DecodeField) (s : State) : State :=
  raiseError (.decodeError e) (baseWordAt (fetchByte s)) (fetched 2 s)

/-! ## The host's reset -/

/-- `reset` of a machine in state `s` (70_reset_and_hazards.md R600): it clears every element, reads the reset vector, "four byte reads,
addresses 0, 1, 2, 3", into PC, and writes nothing to either bus. -/
def hostReset (s : State) : State :=
  let t := State.cleared s.mem s.io s.devices s.transfers
  { memTouch .dword 0 t with pc := memRead .dword 0 t }

end Sys2Proof.Machine
end

