-- ==== Sys2Proof/Machine/Operands.lean ====
section
/-! DEFINITION. The register file's views and the operand multiplexer (10_state.md R31-R36, 20_memory.md R80-R83). -/

namespace Sys2Proof.Machine

/-! ## The register file -/

/-- A storage of one bank. -/
def Bank.get (k : Bank) : BankReg → DWord
  | .a => k.a
  | .bc => k.bc
  | .de => k.de
  | .hl => k.hl
  | .ix => k.ix
  | .iy => k.iy

/-- A bank with one storage written. -/
def Bank.set (k : Bank) (n : BankReg) (v : DWord) : Bank :=
  match n with
  | .a => { k with a := v }
  | .bc => { k with bc := v }
  | .de => { k with de := v }
  | .hl => { k with hl := v }
  | .ix => { k with ix := v }
  | .iy => { k with iy := v }

/-- A storage that register codes reach: always the primary bank's (10_state.md R33), or SP. -/
def readStore (n : RegName) (s : State) : DWord :=
  match n with
  | .banked b => s.bank.get b
  | .sp => s.sp

/-- Write such a storage. -/
def writeStore (n : RegName) (v : DWord) (s : State) : State :=
  match n with
  | .banked b => { s with bank := s.bank.set b v }
  | .sp => { s with sp := v }

/-- The bits of a view in its storage (10_state.md R31). -/
def viewGet (lo w : Nat) (x : DWord) : BitVec w := x.extractLsb' lo w

/-- A storage with exactly the bits of one view replaced (10_state.md R32). -/
def viewPut (lo : Nat) {w : Nat} (x : DWord) (v : BitVec w) : DWord :=
  (x &&& ~~~((BitVec.allOnes w).setWidth 32 <<< lo)) ||| (v.setWidth 32 <<< lo)

/-- `x[REG(size, code)]` (10_state.md R32, R33). -/
def readReg (sz : Size) (c : RegCode) (s : State) : BitVec sz.bits :=
  viewGet (viewSlot sz c).2 sz.bits (readStore (viewSlot sz c).1 s)

/-- `x[REG(size, code)] <- v` (10_state.md R32): every other bit of the register file is unchanged. -/
def writeReg (sz : Size) (c : RegCode) (v : BitVec sz.bits) (s : State) : State :=
  writeStore (viewSlot sz c).1 (viewPut (viewSlot sz c).2 (readStore (viewSlot sz c).1 s) v) s

/-- Exchange the bits of one view between the two banks (47_load_exchange_system.md R440). -/
def swapView (n : BankReg) (lo w : Nat) (s : State) : State :=
  let x := s.bank.get n
  let y := s.alt.get n
  { s with
    bank := s.bank.set n (viewPut lo x (viewGet lo w y))
    alt := s.alt.set n (viewPut lo y (viewGet lo w x)) }

/-- Exchange whole storages between the two banks (47_load_exchange_system.md R441, R442). -/
def swapStores (ns : List BankReg) (s : State) : State := ns.foldl (fun s n => swapView n 0 32 s) s

/-! ## Operands -/

/-- An operand that can be written: a register view or a memory location (20_memory.md R81). -/
inductive Place where
  | reg (c : RegCode)
  | mem (m : MemRef)
  deriving DecidableEq, Repr

/-- An operand that is read: a place, or an immediate (20_memory.md R80). -/
inductive Operand (sz : Size) where
  | place (p : Place)
  | imm (v : BitVec sz.bits)
  deriving DecidableEq, Repr

/-- The operand a source code stands for (30_encoding.md R111, R122). -/
def srcOperand {sz : Size} : Src sz → Operand sz
  | .reg c => .place (.reg c)
  | .imm v => .imm v

/-- Operand 1 of format RM, the destination (30_encoding.md R122). -/
def rmDst {sz : Size} : RMOperands sz → Place
  | .load r _ => .reg r
  | .store m _ => .mem m

/-- Operand 2 of format RM, the source (30_encoding.md R122). -/
def rmSrc {sz : Size} : RMOperands sz → Operand sz
  | .load _ m => .place (.mem m)
  | .store _ q => srcOperand q

/-- The effective address (20_memory.md R82), formed from the register values of `s`. -/
def effAddr (m : MemRef) (s : State) : DWord :=
  match m with
  | .ind base none => readReg .dword base s
  | .ind base (some d) => readReg .dword base s + d.signExtend 32
  | .direct a => a

/-- `ReadOp` of a place (20_memory.md R80). -/
def readPlace (sz : Size) (p : Place) (s : State) : BitVec sz.bits :=
  match p with
  | .reg c => readReg sz c s
  | .mem m => memRead sz (effAddr m s) s

/-- `ReadOp` (20_memory.md R80). -/
def readOp (sz : Size) (o : Operand sz) (s : State) : BitVec sz.bits :=
  match o with
  | .place p => readPlace sz p s
  | .imm v => v

/-- What devices see of `ReadOp` of a place, newest first (20_memory.md R79, R80). -/
def placeReads (sz : Size) (p : Place) (s : State) : List Transfer :=
  match p with
  | .reg _ => []
  | .mem m => readTransfers .mem (effAddr m s) s sz.bytes

/-- What devices see of `ReadOp`, newest first. -/
def operandReads (sz : Size) (o : Operand sz) (s : State) : List Transfer :=
  match o with
  | .place p => placeReads sz p s
  | .imm _ => []

/-- What `ReadOp` of a place leaves. -/
def touchPlace (sz : Size) (p : Place) (s : State) : State := { s with transfers := placeReads sz p s ++ s.transfers }

/-- What `ReadOp` leaves. -/
def touchOp (sz : Size) (o : Operand sz) (s : State) : State := { s with transfers := operandReads sz o s ++ s.transfers }

/-- `ReadOp` of a source code (a register's value or the immediate itself). -/
def readSrc {sz : Size} (q : Src sz) (s : State) : BitVec sz.bits := readOp sz (srcOperand q) s

/-- `WriteOp` (20_memory.md R81), the effective address formed now (R83). An immediate is no place: the one instruction that
would write one raises its violation first (30_encoding.md R166). -/
def writePlace (sz : Size) (p : Place) (v : BitVec sz.bits) (s : State) : State :=
  match p with
  | .reg c => writeReg sz c v s
  | .mem m => memWrite sz (effAddr m s) v s

end Sys2Proof.Machine
end

