-- ==== Sys2Proof/Machine/Alu.lean ====
section
/-! DEFINITION. The shared operations of the ALU families: the binary and unary frames (40_arith.md R200), shifts and rotates
(42_shift_rotate.md R280-R288), bits (43_bit.md R313), DAA (44_bcd_halfwidth.md R330) and the packed half-width pairs
(R331). -/

namespace Sys2Proof.Machine

/-! ## Frames (40_arith.md R200, 20_memory.md R83) -/

/-- A binary operation that writes operand 1: what it computes is a function of the two values and F. -/
def binaryOp (sz : Size) (o1 : Place) (o2 : Operand sz)
    (g : BitVec sz.bits → BitVec sz.bits → State → BitVec sz.bits × FlagWrite) (s : State) : State :=
  let s₁ := touchPlace sz o1 s
  let s₂ := touchOp sz o2 s₁
  let res := g (readPlace sz o1 s) (readOp sz o2 s₁) s₂
  putFlags res.2 (writePlace sz o1 res.1 s₂)

/-- A binary operation that writes flags alone (CP, TST, BIT). -/
def testOp (sz : Size) (o1 : Place) (o2 : Operand sz)
    (g : BitVec sz.bits → BitVec sz.bits → FlagWrite) (s : State) : State :=
  let s₁ := touchPlace sz o1 s
  putFlags (g (readPlace sz o1 s) (readOp sz o2 s₁)) (touchOp sz o2 s₁)

/-- A unary operation that reads and writes operand 1. -/
def unaryOp (sz : Size) (o1 : Place) (g : BitVec sz.bits → BitVec sz.bits × FlagWrite) (s : State) : State :=
  let res := g (readPlace sz o1 s)
  putFlags res.2 (writePlace sz o1 res.1 (touchPlace sz o1 s))

/-! ## Arithmetic (40_arith.md) -/

/-- ADD (R210). -/
def aluAdd (sz : Size) (a b : BitVec sz.bits) (_ : State) : BitVec sz.bits × FlagWrite :=
  (addResult a b false, addFlags Config.hcWide sz a b false)

/-- ADC (R211): the carry-in is F.C as it was before the instruction. -/
def aluAdc (sz : Size) (a b : BitVec sz.bits) (s : State) : BitVec sz.bits × FlagWrite :=
  (addResult a b (getFlag .c s), addFlags Config.hcWide sz a b (getFlag .c s))

/-- SUB (R220). -/
def aluSub (sz : Size) (a b : BitVec sz.bits) (_ : State) : BitVec sz.bits × FlagWrite :=
  (subResult a b false, subFlags Config.hcWide sz a b false)

/-- SBC (R221). -/
def aluSbc (sz : Size) (a b : BitVec sz.bits) (s : State) : BitVec sz.bits × FlagWrite :=
  (subResult a b (getFlag .c s), subFlags Config.hcWide sz a b (getFlag .c s))

/-- CP (R222). -/
def aluCp (sz : Size) (a b : BitVec sz.bits) : FlagWrite := subFlags Config.hcWide sz a b false

/-- INC (R212): it writes C too. -/
def aluInc (sz : Size) (a : BitVec sz.bits) : BitVec sz.bits × FlagWrite :=
  (addResult a 1 false, addFlags Config.hcWide sz a 1 false)

/-- DEC (R223): it writes C too. -/
def aluDec (sz : Size) (a : BitVec sz.bits) : BitVec sz.bits × FlagWrite :=
  (subResult a 1 false, subFlags Config.hcWide sz a 1 false)

/-- NEG (R224): 0 - a. -/
def aluNeg (sz : Size) (a : BitVec sz.bits) : BitVec sz.bits × FlagWrite :=
  (subResult 0 a false, subFlags Config.hcWide sz 0 a false)

/-! ## Logic (41_logic.md) -/

/-- AND (R250): H = 1. -/
def aluAnd (sz : Size) (a b : BitVec sz.bits) (_ : State) : BitVec sz.bits × FlagWrite :=
  (a &&& b, logicFlags true (a &&& b))

/-- OR (R251). -/
def aluOr (sz : Size) (a b : BitVec sz.bits) (_ : State) : BitVec sz.bits × FlagWrite :=
  (a ||| b, logicFlags false (a ||| b))

/-- XOR (R252). -/
def aluXor (sz : Size) (a b : BitVec sz.bits) (_ : State) : BitVec sz.bits × FlagWrite :=
  (a ^^^ b, logicFlags false (a ^^^ b))

/-- TST (R253): AND's value, H = 0. -/
def aluTst (sz : Size) (a b : BitVec sz.bits) : FlagWrite := logicFlags false (a &&& b)

/-- CPL (R254). -/
def aluCpl (sz : Size) (a : BitVec sz.bits) : BitVec sz.bits × FlagWrite := (~~~a, logicFlags false (~~~a))

/-! ## Shifts and rotates (42_shift_rotate.md) -/

/-- The seven operations of the family. -/
inductive ShiftOp where
  | rlc | rrc | rl | rr | sla | sra | srl
  deriving DecidableEq, Repr

/-- The closed forms for an amount of at least 1 (42_shift_rotate.md R288); `n - w` cases are cut before a shift, so that no
value wider than the operand is formed. DEDUCED: log entry 11. -/
def shiftClosed {w : Nat} (op : ShiftOp) (n : Nat) (v : BitVec w) (c : Bool) : BitVec w × Bool :=
  match op with
  | .rlc => (v.rotateLeft n, (v.rotateLeft n).getLsbD 0)
  | .rrc => (v.rotateRight n, (v.rotateRight n).msb)
  | .rl => (((BitVec.cons c v).rotateLeft n).setWidth w, ((BitVec.cons c v).rotateLeft n).msb)
  | .rr => (((v.concat c).rotateRight n).extractLsb' 1 w, ((v.concat c).rotateRight n).getLsbD 0)
  | .sla => (if n < w then v <<< n else 0, if n ≤ w then v.getLsbD (w - n) else false)
  | .sra => if n < w then (v.sshiftRight n, v.getLsbD (n - 1)) else (if v.msb then BitVec.allOnes w else 0, v.msb)
  | .srl => (if n < w then v >>> n else 0, if n ≤ w then v.getLsbD (n - 1) else false)

/-- The loop of 42_shift_rotate.md R280 in closed form: amount 0 leaves the value and the carry. -/
def shiftValue {w : Nat} (op : ShiftOp) (n : Nat) (v : BitVec w) (c : Bool) : BitVec w × Bool :=
  if n = 0 then (v, c) else shiftClosed op n v c

/-- One step of an operation (42_shift_rotate.md R281-R287): the new value and the bit shifted out. -/
def shiftStep {w : Nat} (op : ShiftOp) (v : BitVec w) (c : Bool) : BitVec w × Bool :=
  match op with
  | .rlc => ((v <<< 1) ||| (BitVec.ofBool v.msb).setWidth w, v.msb)
  | .rrc => ((v >>> 1) ||| ((BitVec.ofBool (v.getLsbD 0)).setWidth w <<< (w - 1)), v.getLsbD 0)
  | .rl => ((v <<< 1) ||| (BitVec.ofBool c).setWidth w, v.msb)
  | .rr => ((v >>> 1) ||| ((BitVec.ofBool c).setWidth w <<< (w - 1)), v.getLsbD 0)
  | .sla => (v <<< 1, v.msb)
  | .sra => ((v >>> 1) ||| ((BitVec.ofBool v.msb).setWidth w <<< (w - 1)), v.getLsbD 0)
  | .srl => (v >>> 1, v.getLsbD 0)

/-- The loop as 42_shift_rotate.md R280 writes it: `repeat n times: (v, c) <- step_op(v, c)`. -/
def shiftLoop {w : Nat} (op : ShiftOp) : Nat → BitVec w → Bool → BitVec w × Bool
  | 0, v, c => (v, c)
  | n + 1, v, c => shiftLoop op n (shiftStep op v c).1 (shiftStep op v c).2

/-- The shift frame (42_shift_rotate.md R280): the amount is operand 2, unsigned, not masked. -/
def aluShift (op : ShiftOp) (sz : Size) (v n : BitVec sz.bits) (s : State) : BitVec sz.bits × FlagWrite :=
  let res := shiftValue op n.toNat v (getFlag .c s)
  (res.1, shiftFlags res.1 res.2)

/-! ## Bits (43_bit.md) -/

/-- The bit index (43_bit.md R313): the low 3, 4 or 5 bits of operand 2, which is its value modulo the width. -/
def bitIndex (sz : Size) (b : BitVec sz.bits) : Nat := b.toNat % sz.bits

/-- BIT (R310): Z is the complement of the bit; H and N are cleared. -/
def aluBit (sz : Size) (a b : BitVec sz.bits) : FlagWrite :=
  { z := some (!a.getLsbD (bitIndex sz b)), h := some false, n := some false }

/-- SET (R311). -/
def aluSet (sz : Size) (a b : BitVec sz.bits) (_ : State) : BitVec sz.bits × FlagWrite :=
  (a ||| (1#sz.bits <<< bitIndex sz b), {})

/-- RES (R312). -/
def aluRes (sz : Size) (a b : BitVec sz.bits) (_ : State) : BitVec sz.bits × FlagWrite :=
  (a &&& ~~~(1#sz.bits <<< bitIndex sz b), {})

/-! ## DAA (44_bcd_halfwidth.md R330) -/

/-- The carry DAA leaves. -/
def daaCarry (a : Byte) (c : Bool) : Bool := c || decide (a.toNat > 0x99)

/-- The correction DAA applies. -/
def daaCorr (a : Byte) (c h : Bool) : Byte :=
  (if h || decide (a.toNat % 16 > 9) then 0x06 else 0) ||| (if daaCarry a c then 0x60 else 0)

/-- The corrected byte. -/
def daaResult (a : Byte) (c h n : Bool) : Byte := if n then a - daaCorr a c h else a + daaCorr a c h

/-- The half-carry of the correction. -/
def daaHalf (a : Byte) (c h n : Bool) : Bool :=
  if n then decide (a.toNat % 16 < (daaCorr a c h).toNat % 16)
  else decide (a.toNat % 16 + (daaCorr a c h).toNat % 16 > 15)

/-- The flags DAA writes: N is unchanged. -/
def daaFlags (a : Byte) (c h n : Bool) : FlagWrite :=
  let r := daaResult a c h n
  { szFlags r with h := some (daaHalf a c h n), pv := some (parity r), c := some (daaCarry a c) }

/-! ## Half-width pairs (44_bcd_halfwidth.md R331) -/

/-- `h = w / 2`. -/
def halfBits (sz : Size) : Nat := sz.bits / 2

/-- `lo(v)`. -/
def loHalf (sz : Size) (v : BitVec sz.bits) : Nat := v.toNat % 2 ^ halfBits sz

/-- `hi(v)`. -/
def hiHalf (sz : Size) (v : BitVec sz.bits) : Nat := v.toNat / 2 ^ halfBits sz

/-- `pack(x, y)`: x in the high half, each truncated to half width. -/
def packHalves (sz : Size) (x y : Int) : BitVec sz.bits :=
  BitVec.ofInt sz.bits (x % 2 ^ halfBits sz * 2 ^ halfBits sz + y % 2 ^ halfBits sz)

/-- A half read as a two's-complement number. -/
def signedHalf (sz : Size) (n : Nat) : Int := if n < 2 ^ (halfBits sz - 1) then n else (n : Int) - 2 ^ halfBits sz

/-- MLT (R332): the unsigned product of the halves. -/
def aluMlt (sz : Size) (v : BitVec sz.bits) : BitVec sz.bits × FlagWrite :=
  (BitVec.ofNat sz.bits (loHalf sz v * hiHalf sz v), {})

/-- EXT (R340): the low half sign-extended. -/
def aluExt (sz : Size) (v : BitVec sz.bits) : BitVec sz.bits × FlagWrite :=
  (BitVec.ofInt sz.bits (signedHalf sz (loHalf sz v)), {})

/-- EXH (R341): the halves exchanged. -/
def aluExh (sz : Size) (v : BitVec sz.bits) : BitVec sz.bits × FlagWrite :=
  (packHalves sz (loHalf sz v) (hiHalf sz v), {})

/-- DIV's value (R333): remainder in the high half, quotient in the low half. -/
def divValue (sz : Size) (v : BitVec sz.bits) : BitVec sz.bits :=
  packHalves sz ((hiHalf sz v % loHalf sz v : Nat) : Int) ((hiHalf sz v / loHalf sz v : Nat) : Int)

/-- SDIV's value (R334): the quotient truncated toward zero, the remainder with the dividend's sign. -/
def sdivValue (sz : Size) (v : BitVec sz.bits) : BitVec sz.bits :=
  let n := signedHalf sz (hiHalf sz v)
  let d := signedHalf sz (loHalf sz v)
  packHalves sz (n - n.tdiv d * d) (n.tdiv d)

/-- The frame of DIV and SDIV (R333, R334): a divisor of 0 writes nothing but PV = 1. -/
def divideOp (sz : Size) (o1 : Place) (g : BitVec sz.bits → BitVec sz.bits) (s : State) : State :=
  let v := readPlace sz o1 s
  let s₁ := touchPlace sz o1 s
  if loHalf sz v = 0 then putFlags { pv := some true } s₁
  else putFlags { pv := some false } (writePlace sz o1 (g v) s₁)

/-- An instruction on half-width pairs (30_encoding.md R133): the decoder lets only Word and DWord through. A Byte term stands for
no encoding and raises OperandKind (60_exceptions.md R502). Log entry 9. -/
def halvesOnly (i : Instr) (sz : Size) (g : State → State) (s : State) : Host.Outcome State Fault Refusal :=
  match sz with
  | .byte => violation .operandKind i s
  | .word | .dword => .next (g (advance i s))

end Sys2Proof.Machine
end

