-- ==== Sys2Proof/Machine/Arith.lean ====
section
/-! DEFINITION. The arithmetic family: ADD, ADC, INC, SUB, SBC, CP, DEC, NEG (40_arith.md). Its errors are the decoder's. -/

namespace Sys2Proof.Machine

/-- ADD, format R (40_arith.md R210). -/
def execAddR (sz : Size) (dst : RegCode) (src : Src sz) (s : State) : Host.Outcome State Fault Refusal :=
  .next (binaryOp sz (.reg dst) (srcOperand src) (aluAdd sz) (advance (.addR sz dst src) s))

/-- ADD, format RM (40_arith.md R210). -/
def execAddRM (sz : Size) (ops : RMOperands sz) (s : State) : Host.Outcome State Fault Refusal :=
  .next (binaryOp sz (rmDst ops) (rmSrc ops) (aluAdd sz) (advance (.addRM sz ops) s))

/-- ADC, format R (40_arith.md R211). -/
def execAdcR (sz : Size) (dst : RegCode) (src : Src sz) (s : State) : Host.Outcome State Fault Refusal :=
  .next (binaryOp sz (.reg dst) (srcOperand src) (aluAdc sz) (advance (.adcR sz dst src) s))

/-- ADC, format RM (40_arith.md R211). -/
def execAdcRM (sz : Size) (ops : RMOperands sz) (s : State) : Host.Outcome State Fault Refusal :=
  .next (binaryOp sz (rmDst ops) (rmSrc ops) (aluAdc sz) (advance (.adcRM sz ops) s))

/-- SUB, format R (40_arith.md R220). -/
def execSubR (sz : Size) (dst : RegCode) (src : Src sz) (s : State) : Host.Outcome State Fault Refusal :=
  .next (binaryOp sz (.reg dst) (srcOperand src) (aluSub sz) (advance (.subR sz dst src) s))

/-- SUB, format RM (40_arith.md R220). -/
def execSubRM (sz : Size) (ops : RMOperands sz) (s : State) : Host.Outcome State Fault Refusal :=
  .next (binaryOp sz (rmDst ops) (rmSrc ops) (aluSub sz) (advance (.subRM sz ops) s))

/-- SBC, format R (40_arith.md R221). -/
def execSbcR (sz : Size) (dst : RegCode) (src : Src sz) (s : State) : Host.Outcome State Fault Refusal :=
  .next (binaryOp sz (.reg dst) (srcOperand src) (aluSbc sz) (advance (.sbcR sz dst src) s))

/-- SBC, format RM (40_arith.md R221). -/
def execSbcRM (sz : Size) (ops : RMOperands sz) (s : State) : Host.Outcome State Fault Refusal :=
  .next (binaryOp sz (rmDst ops) (rmSrc ops) (aluSbc sz) (advance (.sbcRM sz ops) s))

/-- CP, format R (40_arith.md R222). -/
def execCpR (sz : Size) (dst : RegCode) (src : Src sz) (s : State) : Host.Outcome State Fault Refusal :=
  .next (testOp sz (.reg dst) (srcOperand src) (aluCp sz) (advance (.cpR sz dst src) s))

/-- CP, format RM (40_arith.md R222). -/
def execCpRM (sz : Size) (ops : RMOperands sz) (s : State) : Host.Outcome State Fault Refusal :=
  .next (testOp sz (rmDst ops) (rmSrc ops) (aluCp sz) (advance (.cpRM sz ops) s))

/-- INC, format UR (40_arith.md R212). -/
def execIncUR (sz : Size) (r : RegCode) (s : State) : Host.Outcome State Fault Refusal :=
  .next (unaryOp sz (.reg r) (aluInc sz) (advance (.incUR sz r) s))

/-- INC, format UM (40_arith.md R212). -/
def execIncUM (sz : Size) (m : MemRef) (s : State) : Host.Outcome State Fault Refusal :=
  .next (unaryOp sz (.mem m) (aluInc sz) (advance (.incUM sz m) s))

/-- DEC, format UR (40_arith.md R223). -/
def execDecUR (sz : Size) (r : RegCode) (s : State) : Host.Outcome State Fault Refusal :=
  .next (unaryOp sz (.reg r) (aluDec sz) (advance (.decUR sz r) s))

/-- DEC, format UM (40_arith.md R223). -/
def execDecUM (sz : Size) (m : MemRef) (s : State) : Host.Outcome State Fault Refusal :=
  .next (unaryOp sz (.mem m) (aluDec sz) (advance (.decUM sz m) s))

/-- NEG, format UR (40_arith.md R224). -/
def execNegUR (sz : Size) (r : RegCode) (s : State) : Host.Outcome State Fault Refusal :=
  .next (unaryOp sz (.reg r) (aluNeg sz) (advance (.negUR sz r) s))

/-- NEG, format UM (40_arith.md R224). -/
def execNegUM (sz : Size) (m : MemRef) (s : State) : Host.Outcome State Fault Refusal :=
  .next (unaryOp sz (.mem m) (aluNeg sz) (advance (.negUM sz m) s))

end Sys2Proof.Machine
end

