-- ==== Sys2Proof/Machine/Bit.lean ====
section
/-! DEFINITION. The bit family: BIT, SET, RES (43_bit.md). -/

namespace Sys2Proof.Machine

/-- BIT, format R (43_bit.md R310). -/
def execBitR (sz : Size) (dst : RegCode) (src : Src sz) (s : State) : Host.Outcome State Fault Refusal :=
  .next (testOp sz (.reg dst) (srcOperand src) (aluBit sz) (advance (.bitR sz dst src) s))

/-- BIT, format RM (43_bit.md R310). -/
def execBitRM (sz : Size) (ops : RMOperands sz) (s : State) : Host.Outcome State Fault Refusal :=
  .next (testOp sz (rmDst ops) (rmSrc ops) (aluBit sz) (advance (.bitRM sz ops) s))

/-- SET, format R (43_bit.md R311). -/
def execSetR (sz : Size) (dst : RegCode) (src : Src sz) (s : State) : Host.Outcome State Fault Refusal :=
  .next (binaryOp sz (.reg dst) (srcOperand src) (aluSet sz) (advance (.setR sz dst src) s))

/-- SET, format RM (43_bit.md R311). -/
def execSetRM (sz : Size) (ops : RMOperands sz) (s : State) : Host.Outcome State Fault Refusal :=
  .next (binaryOp sz (rmDst ops) (rmSrc ops) (aluSet sz) (advance (.setRM sz ops) s))

/-- RES, format R (43_bit.md R312). -/
def execResR (sz : Size) (dst : RegCode) (src : Src sz) (s : State) : Host.Outcome State Fault Refusal :=
  .next (binaryOp sz (.reg dst) (srcOperand src) (aluRes sz) (advance (.resR sz dst src) s))

/-- RES, format RM (43_bit.md R312). -/
def execResRM (sz : Size) (ops : RMOperands sz) (s : State) : Host.Outcome State Fault Refusal :=
  .next (binaryOp sz (rmDst ops) (rmSrc ops) (aluRes sz) (advance (.resRM sz ops) s))

end Sys2Proof.Machine
end

