-- ==== Sys2Proof/Machine/Block.lean ====
section
/-! DEFINITION. The block family (45_block.md): one element a step; the repeating forms move PC back to their own address. -/

namespace Sys2Proof.Machine

/-- `δ`: plus or minus the element size, modulo 2^32 (45_block.md R360). -/
def elemDelta (up : Bool) (sz : Size) : DWord := if up then BitVec.ofNat 32 sz.bytes else -BitVec.ofNat 32 sz.bytes

/-- The port of the I/O forms: `zext32(C.W)` (45_block.md R360). -/
def blockPort (s : State) : DWord := (readReg .word codeC s).setWidth 32

/-- HL stepped by the element size. -/
def stepHL (up : Bool) (sz : Size) (s : State) : State :=
  writeReg .dword codeHL (readReg .dword codeHL s + elemDelta up sz) s

/-- DE stepped by the element size. -/
def stepDE (up : Bool) (sz : Size) (s : State) : State :=
  writeReg .dword codeDE (readReg .dword codeDE s + elemDelta up sz) s

/-- The counter BC decremented, modulo 2^32. -/
def countBC (s : State) : State := writeReg .dword codeBC (readReg .dword codeBC s - 1) s

/-- The counter B.W decremented, modulo 2^16. -/
def countB (s : State) : State := writeReg .word codeB (readReg .word codeB s - 1) s

/-- The counter test of the LD, CP and TST forms: BC is not 0. -/
def moreBC (s : State) : Bool := readReg .dword codeBC s != 0

/-- The counter test of the I/O forms: B.W is not 0. -/
def moreB (s : State) : Bool := readReg .word codeB s != 0

/-- `elem_LD(δ)` (45_block.md R360). -/
def elemLD (up : Bool) (sz : Size) (s : State) : State :=
  let v := memRead sz (readReg .dword codeHL s) s
  let t := countBC (stepDE up sz (stepHL up sz (memWrite sz (readReg .dword codeDE s) v
    (memTouch sz (readReg .dword codeHL s) s))))
  putFlags { pv := some (moreBC t) } t

/-- `elem_CP(δ)` (45_block.md R360): S, Z, H and N from A - (HL); C unchanged. -/
def elemCP (up : Bool) (sz : Size) (s : State) : State :=
  let v := memRead sz (readReg .dword codeHL s) s
  let fl := subFlags Config.hcWide sz (readReg sz codeA s) v false
  let t := countBC (stepHL up sz (memTouch sz (readReg .dword codeHL s) s))
  putFlags { fl with c := none, pv := some (moreBC t) } t

/-- `elem_TS(δ)` (45_block.md R360): S and Z from A AND (HL), H = 0, N = 0; C unchanged. -/
def elemTS (up : Bool) (sz : Size) (s : State) : State :=
  let v := memRead sz (readReg .dword codeHL s) s
  let t := countBC (stepHL up sz (memTouch sz (readReg .dword codeHL s) s))
  putFlags { szFlags (readReg sz codeA s &&& v) with h := some false, n := some false, pv := some (moreBC t) } t

/-- `elem_IN(δ)` (45_block.md R360): only Z is written. -/
def elemIN (up : Bool) (sz : Size) (s : State) : State :=
  let v := ioRead sz (blockPort s) s
  let t := countB (stepHL up sz (memWrite sz (readReg .dword codeHL s) v (ioTouch sz (blockPort s) s)))
  putFlags { z := some (!moreB t) } t

/-- `elem_OUT(δ)` (45_block.md R360): only Z is written. -/
def elemOUT (up : Bool) (sz : Size) (s : State) : State :=
  let v := memRead sz (readReg .dword codeHL s) s
  let t := countB (stepHL up sz (ioWrite sz (blockPort s) v (memTouch sz (readReg .dword codeHL s) s)))
  putFlags { z := some (!moreB t) } t

/-- The rewind (45_block.md R361): PC <- PC - length, which is BaseAddress, while the counter is not 0. -/
def rewindIf (more : State → Bool) (s : State) : State := if more s then setPC (s.pc - 2) s else s

/-- LDI (45_block.md R362). -/
def execLdi (sz : Size) (s : State) : Host.Outcome State Fault Refusal :=
  .next (elemLD true sz (advance (.ldi sz) s))

/-- LDD (45_block.md R363). -/
def execLdd (sz : Size) (s : State) : Host.Outcome State Fault Refusal :=
  .next (elemLD false sz (advance (.ldd sz) s))

/-- LDIR (45_block.md R364). -/
def execLdir (sz : Size) (s : State) : Host.Outcome State Fault Refusal :=
  .next (rewindIf moreBC (elemLD true sz (advance (.ldir sz) s)))

/-- LDDR (45_block.md R365). -/
def execLddr (sz : Size) (s : State) : Host.Outcome State Fault Refusal :=
  .next (rewindIf moreBC (elemLD false sz (advance (.lddr sz) s)))

/-- CPI (45_block.md R366). -/
def execCpi (sz : Size) (s : State) : Host.Outcome State Fault Refusal :=
  .next (elemCP true sz (advance (.cpi sz) s))

/-- CPD (45_block.md R367). -/
def execCpd (sz : Size) (s : State) : Host.Outcome State Fault Refusal :=
  .next (elemCP false sz (advance (.cpd sz) s))

/-- CPIR (45_block.md R368). -/
def execCpir (sz : Size) (s : State) : Host.Outcome State Fault Refusal :=
  .next (rewindIf moreBC (elemCP true sz (advance (.cpir sz) s)))

/-- CPDR (45_block.md R369). -/
def execCpdr (sz : Size) (s : State) : Host.Outcome State Fault Refusal :=
  .next (rewindIf moreBC (elemCP false sz (advance (.cpdr sz) s)))

/-- TSI (45_block.md R370). -/
def execTsi (sz : Size) (s : State) : Host.Outcome State Fault Refusal :=
  .next (elemTS true sz (advance (.tsi sz) s))

/-- TSD (45_block.md R371). -/
def execTsd (sz : Size) (s : State) : Host.Outcome State Fault Refusal :=
  .next (elemTS false sz (advance (.tsd sz) s))

/-- TSIR (45_block.md R372). -/
def execTsir (sz : Size) (s : State) : Host.Outcome State Fault Refusal :=
  .next (rewindIf moreBC (elemTS true sz (advance (.tsir sz) s)))

/-- TSDR (45_block.md R373). -/
def execTsdr (sz : Size) (s : State) : Host.Outcome State Fault Refusal :=
  .next (rewindIf moreBC (elemTS false sz (advance (.tsdr sz) s)))

/-- INI (45_block.md R374). -/
def execIni (sz : Size) (s : State) : Host.Outcome State Fault Refusal :=
  .next (elemIN true sz (advance (.ini sz) s))

/-- IND (45_block.md R375). -/
def execInd (sz : Size) (s : State) : Host.Outcome State Fault Refusal :=
  .next (elemIN false sz (advance (.ind sz) s))

/-- INIR (45_block.md R376). -/
def execInir (sz : Size) (s : State) : Host.Outcome State Fault Refusal :=
  .next (rewindIf moreB (elemIN true sz (advance (.inir sz) s)))

/-- INDR (45_block.md R377). -/
def execIndr (sz : Size) (s : State) : Host.Outcome State Fault Refusal :=
  .next (rewindIf moreB (elemIN false sz (advance (.indr sz) s)))

/-- OUTI (45_block.md R378). -/
def execOuti (sz : Size) (s : State) : Host.Outcome State Fault Refusal :=
  .next (elemOUT true sz (advance (.outi sz) s))

/-- OUTD (45_block.md R379). -/
def execOutd (sz : Size) (s : State) : Host.Outcome State Fault Refusal :=
  .next (elemOUT false sz (advance (.outd sz) s))

/-- OUTIR (45_block.md R380). -/
def execOutir (sz : Size) (s : State) : Host.Outcome State Fault Refusal :=
  .next (rewindIf moreB (elemOUT true sz (advance (.outir sz) s)))

/-- OUTDR (45_block.md R381). -/
def execOutdr (sz : Size) (s : State) : Host.Outcome State Fault Refusal :=
  .next (rewindIf moreB (elemOUT false sz (advance (.outdr sz) s)))

end Sys2Proof.Machine
end

