-- ==== Sys2Proof/Machine/Control.lean ====
section
/-! DEFINITION. The stack and control-transfer family (46_stack_branch.md). PC is the already-advanced value (30_encoding.md R165). -/

namespace Sys2Proof.Machine

/-- An instruction that exists at DWord only (30_encoding.md R133): the decoder lets no other size through. Another term stands for no
encoding and raises OperandKind (60_exceptions.md R502). Log entry 9. -/
def dwordOnly (i : Instr) (sz : Size) (g : State → State) (s : State) : Host.Outcome State Fault Refusal :=
  match sz with
  | .byte | .word => violation .operandKind i s
  | .dword => .next (g (advance i s))

/-- PUSH (46_stack_branch.md R392): the operand is read before SP moves. -/
def pushOp (o1 : Place) (s : State) : State := push32 (readPlace .dword o1 s) (touchPlace .dword o1 s)

/-- POP (46_stack_branch.md R393): the operand's address is formed from the incremented SP. -/
def popOp (o1 : Place) (s : State) : State := writePlace .dword o1 (popValue s) (popSP s)

/-- A jump (46_stack_branch.md R394, R400-R402). -/
def jumpOp (cond : Cond) (target : DWord) (s : State) : State := if holds cond s then setPC target s else s

/-- A call (46_stack_branch.md R403-R405): the target is taken before the push. -/
def callOp (cond : Cond) (target : DWord) (s : State) : State :=
  if holds cond s then setPC target (push32 s.pc s) else s

/-- The body of a taken return (46_stack_branch.md R406): `PC <- pop32()`. -/
def returnOp (s : State) : State := setPC (popValue s) (popSP s)

/-- PUSH, format UR (46_stack_branch.md R392). -/
def execPushUR (sz : Size) (r : RegCode) (s : State) : Host.Outcome State Fault Refusal :=
  dwordOnly (.pushUR sz r) sz (pushOp (.reg r)) s

/-- PUSH, format UM (46_stack_branch.md R392). -/
def execPushUM (sz : Size) (m : MemRef) (s : State) : Host.Outcome State Fault Refusal :=
  dwordOnly (.pushUM sz m) sz (pushOp (.mem m)) s

/-- POP, format UR (46_stack_branch.md R393). -/
def execPopUR (sz : Size) (r : RegCode) (s : State) : Host.Outcome State Fault Refusal :=
  dwordOnly (.popUR sz r) sz (popOp (.reg r)) s

/-- POP, format UM (46_stack_branch.md R393). -/
def execPopUM (sz : Size) (m : MemRef) (s : State) : Host.Outcome State Fault Refusal :=
  dwordOnly (.popUM sz m) sz (popOp (.mem m)) s

/-- JP (46_stack_branch.md R400). -/
def execJp (cond : Cond) (t : Src .dword) (s : State) : Host.Outcome State Fault Refusal :=
  let u := advance (.jp cond t) s
  .next (jumpOp cond (readSrc t u) u)

/-- JR_s8 (46_stack_branch.md R401). -/
def execJrS8 (cond : Cond) (t : Src .byte) (s : State) : Host.Outcome State Fault Refusal :=
  let u := advance (.jrS8 cond t) s
  .next (jumpOp cond (relTarget (readSrc t u) u) u)

/-- JR (46_stack_branch.md R402). -/
def execJr (cond : Cond) (t : Src .word) (s : State) : Host.Outcome State Fault Refusal :=
  let u := advance (.jr cond t) s
  .next (jumpOp cond (relTarget (readSrc t u) u) u)

/-- CALL (46_stack_branch.md R403). -/
def execCall (cond : Cond) (t : Src .dword) (s : State) : Host.Outcome State Fault Refusal :=
  let u := advance (.call cond t) s
  .next (callOp cond (readSrc t u) u)

/-- CALLR_s8 (46_stack_branch.md R404). -/
def execCallrS8 (cond : Cond) (t : Src .byte) (s : State) : Host.Outcome State Fault Refusal :=
  let u := advance (.callrS8 cond t) s
  .next (callOp cond (relTarget (readSrc t u) u) u)

/-- CALLR (46_stack_branch.md R405). -/
def execCallr (cond : Cond) (t : Src .word) (s : State) : Host.Outcome State Fault Refusal :=
  let u := advance (.callr cond t) s
  .next (callOp cond (relTarget (readSrc t u) u) u)

/-- RET (46_stack_branch.md R406). -/
def execRet (cond : Cond) (s : State) : Host.Outcome State Fault Refusal :=
  let u := advance (.ret cond) s
  .next (if holds cond u then returnOp u else u)

/-- RETI: nothing more than RET (46_stack_branch.md R407). -/
def execReti (cond : Cond) (s : State) : Host.Outcome State Fault Refusal :=
  let u := advance (.reti cond) s
  .next (if holds cond u then returnOp u else u)

/-- RETN: and IE <- IFF2[0] (46_stack_branch.md R408). -/
def execRetn (cond : Cond) (s : State) : Host.Outcome State Fault Refusal :=
  let u := advance (.retn cond) s
  .next (if holds cond u then restoreIFF1 (returnOp u) else u)

/-- RST (46_stack_branch.md R410): always unconditional. -/
def execRst (imm : Byte) (s : State) : Host.Outcome State Fault Refusal :=
  let u := advance (.rst imm) s
  .next (setPC (imm.setWidth 32) (push32 u.pc u))

/-- DJNZ (46_stack_branch.md R411): no flag is touched. -/
def execDjnz (disp : Byte) (s : State) : Host.Outcome State Fault Refusal :=
  let u := advance (.djnz disp) s
  let b := readReg .word codeB u - 1
  let t := writeReg .word codeB b u
  .next (if b != 0 then setPC (relTarget disp u) t else t)

/-- JANZ (46_stack_branch.md R412): the test is on A itself. -/
def execJanz (disp : Byte) (s : State) : Host.Outcome State Fault Refusal :=
  let u := advance (.janz disp) s
  .next (if readReg .dword codeA u != 0 then setPC (relTarget disp u) u else u)

end Sys2Proof.Machine
end

