-- ==== Sys2Proof/Machine/Half.lean ====
section
/-! DEFINITION. The BCD and half-width family: DAA, MLT, DIV, SDIV, EXT, EXH (44_bcd_halfwidth.md). -/

namespace Sys2Proof.Machine

/-- DAA (44_bcd_halfwidth.md R330): A[31:8] is neither read nor written. -/
def execDaa (s : State) : Host.Outcome State Fault Refusal :=
  let t := advance .daa s
  let a := readReg .byte codeA t
  let c := getFlag .c t
  let h := getFlag .h t
  let n := getFlag .n t
  .next (putFlags (daaFlags a c h n) (writeReg .byte codeA (daaResult a c h n) t))

/-- MLT, format UR (44_bcd_halfwidth.md R332). -/
def execMltUR (sz : Size) (r : RegCode) (s : State) : Host.Outcome State Fault Refusal :=
  halvesOnly (.mltUR sz r) sz (unaryOp sz (.reg r) (aluMlt sz)) s

/-- MLT, format UM (44_bcd_halfwidth.md R332). -/
def execMltUM (sz : Size) (m : MemRef) (s : State) : Host.Outcome State Fault Refusal :=
  halvesOnly (.mltUM sz m) sz (unaryOp sz (.mem m) (aluMlt sz)) s

/-- DIV, format UR (44_bcd_halfwidth.md R333). -/
def execDivUR (sz : Size) (r : RegCode) (s : State) : Host.Outcome State Fault Refusal :=
  halvesOnly (.divUR sz r) sz (divideOp sz (.reg r) (divValue sz)) s

/-- DIV, format UM (44_bcd_halfwidth.md R333). -/
def execDivUM (sz : Size) (m : MemRef) (s : State) : Host.Outcome State Fault Refusal :=
  halvesOnly (.divUM sz m) sz (divideOp sz (.mem m) (divValue sz)) s

/-- SDIV, format UR (44_bcd_halfwidth.md R334). -/
def execSdivUR (sz : Size) (r : RegCode) (s : State) : Host.Outcome State Fault Refusal :=
  halvesOnly (.sdivUR sz r) sz (divideOp sz (.reg r) (sdivValue sz)) s

/-- SDIV, format UM (44_bcd_halfwidth.md R334). -/
def execSdivUM (sz : Size) (m : MemRef) (s : State) : Host.Outcome State Fault Refusal :=
  halvesOnly (.sdivUM sz m) sz (divideOp sz (.mem m) (sdivValue sz)) s

/-- EXT, format UR (44_bcd_halfwidth.md R340). -/
def execExtUR (sz : Size) (r : RegCode) (s : State) : Host.Outcome State Fault Refusal :=
  halvesOnly (.extUR sz r) sz (unaryOp sz (.reg r) (aluExt sz)) s

/-- EXT, format UM (44_bcd_halfwidth.md R340). -/
def execExtUM (sz : Size) (m : MemRef) (s : State) : Host.Outcome State Fault Refusal :=
  halvesOnly (.extUM sz m) sz (unaryOp sz (.mem m) (aluExt sz)) s

/-- EXH, format UR (44_bcd_halfwidth.md R341). -/
def execExhUR (sz : Size) (r : RegCode) (s : State) : Host.Outcome State Fault Refusal :=
  halvesOnly (.exhUR sz r) sz (unaryOp sz (.reg r) (aluExh sz)) s

/-- EXH, format UM (44_bcd_halfwidth.md R341). -/
def execExhUM (sz : Size) (m : MemRef) (s : State) : Host.Outcome State Fault Refusal :=
  halvesOnly (.exhUM sz m) sz (unaryOp sz (.mem m) (aluExh sz)) s

end Sys2Proof.Machine
end

