-- ==== Sys2Proof/Machine/LoadSys.lean ====
section
/-! DEFINITION. The load, exchange, I/O and system family (47_load_exchange_system.md). No instruction here writes a flag. -/

namespace Sys2Proof.Machine

/-- LD (R430): operand 1 is not read. -/
def loadOp (sz : Size) (o1 : Place) (o2 : Operand sz) (s : State) : State :=
  writePlace sz o1 (readOp sz o2 s) (touchOp sz o2 s)

/-- EX on two places (R431): two reads, then two writes, each address formed at its access. -/
def exchangePlaces (sz : Size) (p q : Place) (s : State) : State :=
  let s₁ := touchPlace sz p s
  let s₂ := touchPlace sz q s₁
  writePlace sz q (readPlace sz p s) (writePlace sz p (readPlace sz q s₁) s₂)

/-- EX (R431): an immediate operand 2 raises WriteToImmediate before any access (30_encoding.md R166, 60_exceptions.md R502). -/
def exchangeOp (i : Instr) (sz : Size) (o1 : Place) (o2 : Operand sz) (s : State) : Host.Outcome State Fault Refusal :=
  match o2 with
  | .imm _ => violation .writeToImmediate i s
  | .place q => .next (exchangePlaces sz o1 q (advance i s))

/-- LD, format R (R430). -/
def execLdR (sz : Size) (dst : RegCode) (src : Src sz) (s : State) : Host.Outcome State Fault Refusal :=
  .next (loadOp sz (.reg dst) (srcOperand src) (advance (.ldR sz dst src) s))

/-- LD, format RM (R430). -/
def execLdRM (sz : Size) (ops : RMOperands sz) (s : State) : Host.Outcome State Fault Refusal :=
  .next (loadOp sz (rmDst ops) (rmSrc ops) (advance (.ldRM sz ops) s))

/-- EX, format R (R431). -/
def execExR (sz : Size) (dst : RegCode) (src : Src sz) (s : State) : Host.Outcome State Fault Refusal :=
  exchangeOp (.exR sz dst src) sz (.reg dst) (srcOperand src) s

/-- EX, format RM (R431). -/
def execExRM (sz : Size) (ops : RMOperands sz) (s : State) : Host.Outcome State Fault Refusal :=
  exchangeOp (.exRM sz ops) sz (rmDst ops) (rmSrc ops) s

/-- IN (R434): only the I/O bus is accessed. -/
def execInRM (sz : Size) (r : RegCode) (port : MemRef) (s : State) : Host.Outcome State Fault Refusal :=
  let u := advance (.inRM sz r port) s
  .next (writeReg sz r (ioRead sz (effAddr port u) u) (ioTouch sz (effAddr port u) u))

/-- OUT (R435). -/
def execOutRM (sz : Size) (port : MemRef) (src : Src sz) (s : State) : Host.Outcome State Fault Refusal :=
  let u := advance (.outRM sz port src) s
  .next (ioWrite sz (effAddr port u) (readSrc src u) u)

/-- EX_Alt (R440): only the view's bits are exchanged. SP is not banked; a term with it stands for no encoding (30_encoding.md R133)
and raises OperandKind. Log entry 9. -/
def execExAltUR (sz : Size) (r : RegCode) (s : State) : Host.Outcome State Fault Refusal :=
  match (viewSlot sz r).1 with
  | .banked b => .next (swapView b (viewSlot sz r).2 sz.bits (advance (.exAltUR sz r) s))
  | .sp => violation .operandKind (.exAltUR sz r) s

/-- EXX (R441). -/
def execExx (s : State) : Host.Outcome State Fault Refusal := .next (swapStores [.bc, .de, .hl] (advance .exx s))

/-- EXI (R442). -/
def execExi (s : State) : Host.Outcome State Fault Refusal := .next (swapStores [.ix, .iy] (advance .exi s))

/-- LD_I_NN (R450). -/
def execLdINN (imm : DWord) (s : State) : Host.Outcome State Fault Refusal :=
  let u := advance (.ldINN imm) s
  .next { u with i := imm }

/-- LD_R_A (R451). -/
def execLdRA (s : State) : Host.Outcome State Fault Refusal :=
  let u := advance .ldRA s
  .next { u with r := readReg .byte codeA u }

/-- LD_A_R (R452): A[31:8] unchanged. -/
def execLdAR (s : State) : Host.Outcome State Fault Refusal :=
  let u := advance .ldAR s
  .next (writeReg .byte codeA u.r u)

/-- NOP (R460): the PC advance is its only effect. -/
def execNop (s : State) : Host.Outcome State Fault Refusal := .next (advance .nop s)

/-- HALT (R461): PC stays at BaseAddress + 2. -/
def execHalt (s : State) : Host.Outcome State Fault Refusal :=
  let u := advance .halt s
  .next { u with halted := true }

end Sys2Proof.Machine
end

