-- ==== Sys2Proof/Machine/Logic.lean ====
section
/-! DEFINITION. The logic family: AND, OR, XOR, TST, CPL (41_logic.md). -/

namespace Sys2Proof.Machine

/-- AND, format R (41_logic.md R250). -/
def execAndR (sz : Size) (dst : RegCode) (src : Src sz) (s : State) : Host.Outcome State Fault Refusal :=
  .next (binaryOp sz (.reg dst) (srcOperand src) (aluAnd sz) (advance (.andR sz dst src) s))

/-- AND, format RM (41_logic.md R250). -/
def execAndRM (sz : Size) (ops : RMOperands sz) (s : State) : Host.Outcome State Fault Refusal :=
  .next (binaryOp sz (rmDst ops) (rmSrc ops) (aluAnd sz) (advance (.andRM sz ops) s))

/-- OR, format R (41_logic.md R251). -/
def execOrR (sz : Size) (dst : RegCode) (src : Src sz) (s : State) : Host.Outcome State Fault Refusal :=
  .next (binaryOp sz (.reg dst) (srcOperand src) (aluOr sz) (advance (.orR sz dst src) s))

/-- OR, format RM (41_logic.md R251). -/
def execOrRM (sz : Size) (ops : RMOperands sz) (s : State) : Host.Outcome State Fault Refusal :=
  .next (binaryOp sz (rmDst ops) (rmSrc ops) (aluOr sz) (advance (.orRM sz ops) s))

/-- XOR, format R (41_logic.md R252). -/
def execXorR (sz : Size) (dst : RegCode) (src : Src sz) (s : State) : Host.Outcome State Fault Refusal :=
  .next (binaryOp sz (.reg dst) (srcOperand src) (aluXor sz) (advance (.xorR sz dst src) s))

/-- XOR, format RM (41_logic.md R252). -/
def execXorRM (sz : Size) (ops : RMOperands sz) (s : State) : Host.Outcome State Fault Refusal :=
  .next (binaryOp sz (rmDst ops) (rmSrc ops) (aluXor sz) (advance (.xorRM sz ops) s))

/-- TST, format R (41_logic.md R253). -/
def execTstR (sz : Size) (dst : RegCode) (src : Src sz) (s : State) : Host.Outcome State Fault Refusal :=
  .next (testOp sz (.reg dst) (srcOperand src) (aluTst sz) (advance (.tstR sz dst src) s))

/-- TST, format RM (41_logic.md R253). -/
def execTstRM (sz : Size) (ops : RMOperands sz) (s : State) : Host.Outcome State Fault Refusal :=
  .next (testOp sz (rmDst ops) (rmSrc ops) (aluTst sz) (advance (.tstRM sz ops) s))

/-- CPL, format UR (41_logic.md R254). -/
def execCplUR (sz : Size) (r : RegCode) (s : State) : Host.Outcome State Fault Refusal :=
  .next (unaryOp sz (.reg r) (aluCpl sz) (advance (.cplUR sz r) s))

/-- CPL, format UM (41_logic.md R254). -/
def execCplUM (sz : Size) (m : MemRef) (s : State) : Host.Outcome State Fault Refusal :=
  .next (unaryOp sz (.mem m) (aluCpl sz) (advance (.cplUM sz m) s))

end Sys2Proof.Machine
end

