-- ==== Sys2Proof/Machine/Shift.lean ====
section
/-! DEFINITION. The shift and rotate family (42_shift_rotate.md), each over the frame of R280. -/

namespace Sys2Proof.Machine

/-- RLC, format R (42_shift_rotate.md R281). -/
def execRlcR (sz : Size) (dst : RegCode) (src : Src sz) (s : State) : Host.Outcome State Fault Refusal :=
  .next (binaryOp sz (.reg dst) (srcOperand src) (aluShift .rlc sz) (advance (.rlcR sz dst src) s))

/-- RLC, format RM (42_shift_rotate.md R281). -/
def execRlcRM (sz : Size) (ops : RMOperands sz) (s : State) : Host.Outcome State Fault Refusal :=
  .next (binaryOp sz (rmDst ops) (rmSrc ops) (aluShift .rlc sz) (advance (.rlcRM sz ops) s))

/-- RRC, format R (42_shift_rotate.md R282). -/
def execRrcR (sz : Size) (dst : RegCode) (src : Src sz) (s : State) : Host.Outcome State Fault Refusal :=
  .next (binaryOp sz (.reg dst) (srcOperand src) (aluShift .rrc sz) (advance (.rrcR sz dst src) s))

/-- RRC, format RM (42_shift_rotate.md R282). -/
def execRrcRM (sz : Size) (ops : RMOperands sz) (s : State) : Host.Outcome State Fault Refusal :=
  .next (binaryOp sz (rmDst ops) (rmSrc ops) (aluShift .rrc sz) (advance (.rrcRM sz ops) s))

/-- RL, format R (42_shift_rotate.md R283). -/
def execRlR (sz : Size) (dst : RegCode) (src : Src sz) (s : State) : Host.Outcome State Fault Refusal :=
  .next (binaryOp sz (.reg dst) (srcOperand src) (aluShift .rl sz) (advance (.rlR sz dst src) s))

/-- RL, format RM (42_shift_rotate.md R283). -/
def execRlRM (sz : Size) (ops : RMOperands sz) (s : State) : Host.Outcome State Fault Refusal :=
  .next (binaryOp sz (rmDst ops) (rmSrc ops) (aluShift .rl sz) (advance (.rlRM sz ops) s))

/-- RR, format R (42_shift_rotate.md R284). -/
def execRrR (sz : Size) (dst : RegCode) (src : Src sz) (s : State) : Host.Outcome State Fault Refusal :=
  .next (binaryOp sz (.reg dst) (srcOperand src) (aluShift .rr sz) (advance (.rrR sz dst src) s))

/-- RR, format RM (42_shift_rotate.md R284). -/
def execRrRM (sz : Size) (ops : RMOperands sz) (s : State) : Host.Outcome State Fault Refusal :=
  .next (binaryOp sz (rmDst ops) (rmSrc ops) (aluShift .rr sz) (advance (.rrRM sz ops) s))

/-- SLA, format R (42_shift_rotate.md R285). -/
def execSlaR (sz : Size) (dst : RegCode) (src : Src sz) (s : State) : Host.Outcome State Fault Refusal :=
  .next (binaryOp sz (.reg dst) (srcOperand src) (aluShift .sla sz) (advance (.slaR sz dst src) s))

/-- SLA, format RM (42_shift_rotate.md R285). -/
def execSlaRM (sz : Size) (ops : RMOperands sz) (s : State) : Host.Outcome State Fault Refusal :=
  .next (binaryOp sz (rmDst ops) (rmSrc ops) (aluShift .sla sz) (advance (.slaRM sz ops) s))

/-- SRA, format R (42_shift_rotate.md R286). -/
def execSraR (sz : Size) (dst : RegCode) (src : Src sz) (s : State) : Host.Outcome State Fault Refusal :=
  .next (binaryOp sz (.reg dst) (srcOperand src) (aluShift .sra sz) (advance (.sraR sz dst src) s))

/-- SRA, format RM (42_shift_rotate.md R286). -/
def execSraRM (sz : Size) (ops : RMOperands sz) (s : State) : Host.Outcome State Fault Refusal :=
  .next (binaryOp sz (rmDst ops) (rmSrc ops) (aluShift .sra sz) (advance (.sraRM sz ops) s))

/-- SRL, format R (42_shift_rotate.md R287). -/
def execSrlR (sz : Size) (dst : RegCode) (src : Src sz) (s : State) : Host.Outcome State Fault Refusal :=
  .next (binaryOp sz (.reg dst) (srcOperand src) (aluShift .srl sz) (advance (.srlR sz dst src) s))

/-- SRL, format RM (42_shift_rotate.md R287). -/
def execSrlRM (sz : Size) (ops : RMOperands sz) (s : State) : Host.Outcome State Fault Refusal :=
  .next (binaryOp sz (rmDst ops) (rmSrc ops) (aluShift .srl sz) (advance (.srlRM sz ops) s))

end Sys2Proof.Machine
end

