-- ==== Sys2Proof/Machine/Dispatch.lean ====
section
/-! DEFINITION. `exec`: each constructor of `Instr` to its meaning. -/

namespace Sys2Proof.Machine

/-- The meaning of an instruction at a state whose PC is the instruction's BaseAddress (30_encoding.md R165; log entry 8). -/
def exec (i : Instr) (s : State) : Host.Outcome State Fault Refusal :=
  match i with
  | .ldR sz dst src => Sys2Proof.Machine.execLdR sz dst src s
  | .exR sz dst src => Sys2Proof.Machine.execExR sz dst src s
  | .addR sz dst src => Sys2Proof.Machine.execAddR sz dst src s
  | .adcR sz dst src => Sys2Proof.Machine.execAdcR sz dst src s
  | .subR sz dst src => Sys2Proof.Machine.execSubR sz dst src s
  | .sbcR sz dst src => Sys2Proof.Machine.execSbcR sz dst src s
  | .cpR sz dst src => Sys2Proof.Machine.execCpR sz dst src s
  | .andR sz dst src => Sys2Proof.Machine.execAndR sz dst src s
  | .orR sz dst src => Sys2Proof.Machine.execOrR sz dst src s
  | .xorR sz dst src => Sys2Proof.Machine.execXorR sz dst src s
  | .tstR sz dst src => Sys2Proof.Machine.execTstR sz dst src s
  | .bitR sz dst src => Sys2Proof.Machine.execBitR sz dst src s
  | .setR sz dst src => Sys2Proof.Machine.execSetR sz dst src s
  | .resR sz dst src => Sys2Proof.Machine.execResR sz dst src s
  | .rlcR sz dst src => Sys2Proof.Machine.execRlcR sz dst src s
  | .rrcR sz dst src => Sys2Proof.Machine.execRrcR sz dst src s
  | .rlR sz dst src => Sys2Proof.Machine.execRlR sz dst src s
  | .rrR sz dst src => Sys2Proof.Machine.execRrR sz dst src s
  | .slaR sz dst src => Sys2Proof.Machine.execSlaR sz dst src s
  | .sraR sz dst src => Sys2Proof.Machine.execSraR sz dst src s
  | .srlR sz dst src => Sys2Proof.Machine.execSrlR sz dst src s
  | .ldRM sz ops => Sys2Proof.Machine.execLdRM sz ops s
  | .exRM sz ops => Sys2Proof.Machine.execExRM sz ops s
  | .addRM sz ops => Sys2Proof.Machine.execAddRM sz ops s
  | .adcRM sz ops => Sys2Proof.Machine.execAdcRM sz ops s
  | .subRM sz ops => Sys2Proof.Machine.execSubRM sz ops s
  | .sbcRM sz ops => Sys2Proof.Machine.execSbcRM sz ops s
  | .cpRM sz ops => Sys2Proof.Machine.execCpRM sz ops s
  | .andRM sz ops => Sys2Proof.Machine.execAndRM sz ops s
  | .orRM sz ops => Sys2Proof.Machine.execOrRM sz ops s
  | .xorRM sz ops => Sys2Proof.Machine.execXorRM sz ops s
  | .tstRM sz ops => Sys2Proof.Machine.execTstRM sz ops s
  | .bitRM sz ops => Sys2Proof.Machine.execBitRM sz ops s
  | .setRM sz ops => Sys2Proof.Machine.execSetRM sz ops s
  | .resRM sz ops => Sys2Proof.Machine.execResRM sz ops s
  | .rlcRM sz ops => Sys2Proof.Machine.execRlcRM sz ops s
  | .rrcRM sz ops => Sys2Proof.Machine.execRrcRM sz ops s
  | .rlRM sz ops => Sys2Proof.Machine.execRlRM sz ops s
  | .rrRM sz ops => Sys2Proof.Machine.execRrRM sz ops s
  | .slaRM sz ops => Sys2Proof.Machine.execSlaRM sz ops s
  | .sraRM sz ops => Sys2Proof.Machine.execSraRM sz ops s
  | .srlRM sz ops => Sys2Proof.Machine.execSrlRM sz ops s
  | .inRM sz r port => Sys2Proof.Machine.execInRM sz r port s
  | .outRM sz port src => Sys2Proof.Machine.execOutRM sz port src s
  | .exAltUR sz r => Sys2Proof.Machine.execExAltUR sz r s
  | .exhUR sz r => Sys2Proof.Machine.execExhUR sz r s
  | .pushUR sz r => Sys2Proof.Machine.execPushUR sz r s
  | .popUR sz r => Sys2Proof.Machine.execPopUR sz r s
  | .incUR sz r => Sys2Proof.Machine.execIncUR sz r s
  | .decUR sz r => Sys2Proof.Machine.execDecUR sz r s
  | .negUR sz r => Sys2Proof.Machine.execNegUR sz r s
  | .extUR sz r => Sys2Proof.Machine.execExtUR sz r s
  | .mltUR sz r => Sys2Proof.Machine.execMltUR sz r s
  | .divUR sz r => Sys2Proof.Machine.execDivUR sz r s
  | .sdivUR sz r => Sys2Proof.Machine.execSdivUR sz r s
  | .cplUR sz r => Sys2Proof.Machine.execCplUR sz r s
  | .exhUM sz m => Sys2Proof.Machine.execExhUM sz m s
  | .pushUM sz m => Sys2Proof.Machine.execPushUM sz m s
  | .popUM sz m => Sys2Proof.Machine.execPopUM sz m s
  | .incUM sz m => Sys2Proof.Machine.execIncUM sz m s
  | .decUM sz m => Sys2Proof.Machine.execDecUM sz m s
  | .negUM sz m => Sys2Proof.Machine.execNegUM sz m s
  | .extUM sz m => Sys2Proof.Machine.execExtUM sz m s
  | .mltUM sz m => Sys2Proof.Machine.execMltUM sz m s
  | .divUM sz m => Sys2Proof.Machine.execDivUM sz m s
  | .sdivUM sz m => Sys2Proof.Machine.execSdivUM sz m s
  | .cplUM sz m => Sys2Proof.Machine.execCplUM sz m s
  | .jp cond t => Sys2Proof.Machine.execJp cond t s
  | .jrS8 cond t => Sys2Proof.Machine.execJrS8 cond t s
  | .jr cond t => Sys2Proof.Machine.execJr cond t s
  | .call cond t => Sys2Proof.Machine.execCall cond t s
  | .callrS8 cond t => Sys2Proof.Machine.execCallrS8 cond t s
  | .callr cond t => Sys2Proof.Machine.execCallr cond t s
  | .ret cond => Sys2Proof.Machine.execRet cond s
  | .reti cond => Sys2Proof.Machine.execReti cond s
  | .retn cond => Sys2Proof.Machine.execRetn cond s
  | .ldi sz => Sys2Proof.Machine.execLdi sz s
  | .ldd sz => Sys2Proof.Machine.execLdd sz s
  | .ldir sz => Sys2Proof.Machine.execLdir sz s
  | .lddr sz => Sys2Proof.Machine.execLddr sz s
  | .cpi sz => Sys2Proof.Machine.execCpi sz s
  | .cpd sz => Sys2Proof.Machine.execCpd sz s
  | .cpir sz => Sys2Proof.Machine.execCpir sz s
  | .cpdr sz => Sys2Proof.Machine.execCpdr sz s
  | .tsi sz => Sys2Proof.Machine.execTsi sz s
  | .tsd sz => Sys2Proof.Machine.execTsd sz s
  | .tsir sz => Sys2Proof.Machine.execTsir sz s
  | .tsdr sz => Sys2Proof.Machine.execTsdr sz s
  | .ini sz => Sys2Proof.Machine.execIni sz s
  | .ind sz => Sys2Proof.Machine.execInd sz s
  | .inir sz => Sys2Proof.Machine.execInir sz s
  | .indr sz => Sys2Proof.Machine.execIndr sz s
  | .outi sz => Sys2Proof.Machine.execOuti sz s
  | .outd sz => Sys2Proof.Machine.execOutd sz s
  | .outir sz => Sys2Proof.Machine.execOutir sz s
  | .outdr sz => Sys2Proof.Machine.execOutdr sz s
  | .exx => Sys2Proof.Machine.execExx s
  | .exi => Sys2Proof.Machine.execExi s
  | .rst imm => Sys2Proof.Machine.execRst imm s
  | .daa => Sys2Proof.Machine.execDaa s
  | .ldINN imm => Sys2Proof.Machine.execLdINN imm s
  | .ldRA => Sys2Proof.Machine.execLdRA s
  | .ldAR => Sys2Proof.Machine.execLdAR s
  | .halt => Sys2Proof.Machine.execHalt s
  | .nop => Sys2Proof.Machine.execNop s
  | .djnz disp => Sys2Proof.Machine.execDjnz disp s
  | .janz disp => Sys2Proof.Machine.execJanz disp s

end Sys2Proof.Machine
end

