-- ==== Sys2Proof/Machine/Step.lean ====
section
/-! DEFINITION. One step of the block (30_encoding.md R165). -/

namespace Sys2Proof.Machine

/-- One step: a halted or faulted block does nothing (60_exceptions.md R514); otherwise decode at PC, and either record the
encoding error or run the instruction, all of whose bytes have been fetched. -/
def step (s : State) : Host.Outcome State Fault Refusal :=
  if stopped s then .next s
  else
    match decodeAtPC s with
    | .error e => .next (raiseDecodeError e s)
    | .ok i => exec i (fetched (instrLength i) s)

/-- The bytes of an instruction whose bits are `w`, bit 0 the lowest bit of the first byte, 0 from `nbits` on: as many as the
longest instruction has, 10 (30_encoding.md R104). -/
def fetchBytes (nbits w : Nat) : List Byte :=
  (List.range 10).map fun k => BitVec.ofNat 8 (w % 2 ^ nbits / 256 ^ k)

/-- `s` with that instruction stored at PC, where the next step fetches it; a stopped block is let go, since it fetches nothing, and
the memory bus has no device, so that PC's bytes are RAM. Log entry 12. -/
def State.withFetchWord (s : State) (nbits w : Nat) : State :=
  { s with mem := s.mem.storeBytes s.pc (fetchBytes nbits w), devices := { s.devices with mem := [] }, halted := false, fault := none }

end Sys2Proof.Machine
end

