-- ==== Sys2Proof/Machine/Cycles.lean ====
section
/-! DEFINITION. The cycle output of a step (70_reset_and_hazards.md R620-R622), in T-cycles. It is an output to the host, not
state (60_exceptions.md R511, R514), and no functional rule depends on it; so it is a function of the state before the step.
The three surcharges are free values of Config. Log entry 7. -/

namespace Sys2Proof.Machine

/-- The bus cost of one access (R621); "aligned" is an even address (92_eei_decisions.md D54). -/
def busCost (sz : Size) (a : DWord) : Nat :=
  match sz with
  | .byte => 3
  | .word => if a.getLsbD 0 then 6 else 3
  | .dword => if a.getLsbD 0 then 9 else 6

/-- The trailing fields of an address operand (30_encoding.md R105). -/
def memFields : MemRef → List Size
  | .ind _ none => []
  | .ind _ (some _) => [.word]
  | .direct _ => [.dword]

/-- The trailing fields of a source operand. -/
def srcFields {sz : Size} : Src sz → List Size
  | .reg _ => []
  | .imm _ => [sz]

/-- The trailing fields of format RM's operands, in their order (30_encoding.md R105). -/
def rmFields {sz : Size} : RMOperands sz → List Size
  | .load _ m => memFields m
  | .store m q => memFields m ++ srcFields q

/-- The trailing fields of an instruction. -/
def trailingFields : Instr → List Size
  | .ldR _ _ q | .exR _ _ q | .addR _ _ q | .adcR _ _ q | .subR _ _ q | .sbcR _ _ q | .cpR _ _ q | .andR _ _ q
  | .orR _ _ q | .xorR _ _ q | .tstR _ _ q | .bitR _ _ q | .setR _ _ q | .resR _ _ q | .rlcR _ _ q | .rrcR _ _ q
  | .rlR _ _ q | .rrR _ _ q | .slaR _ _ q | .sraR _ _ q | .srlR _ _ q => srcFields q
  | .ldRM _ ops | .exRM _ ops | .addRM _ ops | .adcRM _ ops | .subRM _ ops | .sbcRM _ ops | .cpRM _ ops
  | .andRM _ ops | .orRM _ ops | .xorRM _ ops | .tstRM _ ops | .bitRM _ ops | .setRM _ ops | .resRM _ ops
  | .rlcRM _ ops | .rrcRM _ ops | .rlRM _ ops | .rrRM _ ops | .slaRM _ ops | .sraRM _ ops | .srlRM _ ops => rmFields ops
  | .inRM _ _ m => memFields m
  | .outRM _ m q => memFields m ++ srcFields q
  | .exAltUR _ _ | .exhUR _ _ | .pushUR _ _ | .popUR _ _ | .incUR _ _ | .decUR _ _ | .negUR _ _ | .extUR _ _
  | .mltUR _ _ | .divUR _ _ | .sdivUR _ _ | .cplUR _ _ => []
  | .exhUM _ m | .pushUM _ m | .popUM _ m | .incUM _ m | .decUM _ m | .negUM _ m | .extUM _ m | .mltUM _ m
  | .divUM _ m | .sdivUM _ m | .cplUM _ m => memFields m
  | .jp _ t | .jrS8 _ t | .jr _ t | .call _ t | .callrS8 _ t | .callr _ t => srcFields t
  | .ret _ | .reti _ | .retn _ | .ldi _ | .ldd _ | .ldir _ | .lddr _ | .cpi _ | .cpd _ | .cpir _ | .cpdr _ | .tsi _
  | .tsd _ | .tsir _ | .tsdr _ | .ini _ | .ind _ | .inir _ | .indr _ | .outi _ | .outd _ | .outir _ | .outdr _ => []
  | .rst _ => [.byte]
  | .ldINN _ => [.dword]
  | .exx | .exi | .daa | .ldRA | .ldAR | .halt | .nop | .djnz _ | .janz _ => []

/-- The bus cost of fields at consecutive addresses from `a` on. -/
def fieldsCost (a : DWord) : List Size → Nat
  | [] => 0
  | z :: zs => busCost z a + fieldsCost (a + BitVec.ofNat 32 z.bytes) zs

/-- `FetchCycles` (R620): the base word at BaseAddress, then each trailing field at its address. -/
def fetchCycles (i : Instr) (base : DWord) : Nat := fieldsCost base (.word :: trailingFields i)

/-- `DWORD_SURCHARGE`, paid once by an ALU operation at DWord (R622). -/
def dwordCost : Size → Nat
  | .byte | .word => 0
  | .dword => Config.dwordSurcharge

/-- The cost of one access to a place: registers cost 0 (R621). -/
def placeCost (sz : Size) (p : Place) (s : State) : Nat :=
  match p with
  | .reg _ => 0
  | .mem m => busCost sz (effAddr m s)

/-- The cost of reading an operand: immediates cost 0 (R621). -/
def operandCost (sz : Size) (o : Operand sz) (s : State) : Nat :=
  match o with
  | .place p => placeCost sz p s
  | .imm _ => 0

/-- Reading both operands and writing operand 1. -/
def binaryAccesses (sz : Size) (o1 : Place) (o2 : Operand sz) (s : State) : Nat :=
  placeCost sz o1 s + operandCost sz o2 s + placeCost sz o1 s

/-- A binary ALU operation that writes (R622). -/
def binaryCost (sz : Size) (o1 : Place) (o2 : Operand sz) (s : State) : Nat :=
  1 + binaryAccesses sz o1 o2 s + dwordCost sz

/-- A binary ALU operation that only tests: operand 1 is not written. -/
def testCost (sz : Size) (o1 : Place) (o2 : Operand sz) (s : State) : Nat :=
  1 + placeCost sz o1 s + operandCost sz o2 s + dwordCost sz

/-- A shift or rotate: one more cycle, and the surcharge at DWord, an iteration (R622). -/
def shiftCost (sz : Size) (o1 : Place) (o2 : Operand sz) (s : State) : Nat :=
  1 + binaryAccesses sz o1 o2 s + (readOp sz o2 s).toNat * (1 + dwordCost sz)

/-- LD: operand 1 is not read. -/
def loadCost (sz : Size) (o1 : Place) (o2 : Operand sz) (s : State) : Nat :=
  1 + operandCost sz o2 s + placeCost sz o1 s

/-- EX: two reads, then two writes, the second at the address formed after the first. -/
def exchangeCost (sz : Size) (o1 : Place) (o2 : Operand sz) (s : State) : Nat :=
  match o2 with
  | .imm _ => 0
  | .place q =>
    1 + placeCost sz o1 s + placeCost sz q s + placeCost sz o1 s
      + placeCost sz q (writePlace sz o1 (readPlace sz q s) s)

/-- A unary ALU operation (R622). -/
def unaryCost (sz : Size) (o1 : Place) (s : State) : Nat := 1 + placeCost sz o1 s + placeCost sz o1 s + dwordCost sz

/-- The iterations of MLT, DIV and SDIV (R622). -/
def mulDivIterations (sz : Size) (o1 : Place) (s : State) : Nat :=
  sz.bits + Config.mulDivPopCost * popCount (readPlace sz o1 s)

/-- DIV and SDIV: a divisor of 0 writes nothing. -/
def divideCost (sz : Size) (o1 : Place) (s : State) : Nat :=
  1 + placeCost sz o1 s + (if loHalf sz (readPlace sz o1 s) = 0 then 0 else placeCost sz o1 s) + dwordCost sz
    + mulDivIterations sz o1 s

/-- MLT. -/
def mltCost (sz : Size) (o1 : Place) (s : State) : Nat := unaryCost sz o1 s + mulDivIterations sz o1 s

/-- PUSH: the operand and the stack. -/
def pushCost (o1 : Place) (s : State) : Nat := 1 + placeCost .dword o1 s + busCost .dword (s.sp - 4)

/-- POP: the stack, then the operand at the address formed from the incremented SP. -/
def popCost (o1 : Place) (s : State) : Nat := 1 + busCost .dword s.sp + placeCost .dword o1 (popSP s)

/-- The memory access of a block element at HL. -/
def atHL (sz : Size) (s : State) : Nat := busCost sz (readReg .dword codeHL s)

/-- The elements' costs (45_block.md R360). -/
def elemCostLD (sz : Size) (s : State) : Nat := 1 + atHL sz s + busCost sz (readReg .dword codeDE s)

/-- CP and TS elements are ALU operations (R622). -/
def elemCostTest (sz : Size) (s : State) : Nat := 1 + atHL sz s + dwordCost sz

/-- IN and OUT elements: one port access and one memory access. -/
def elemCostIO (sz : Size) (s : State) : Nat := 1 + busCost sz (blockPort s) + atHL sz s

/-- The extra cycle of a rewind on BC (R622). -/
def rewindCostBC (s : State) : Nat := if moreBC (countBC s) then 1 else 0

/-- The extra cycle of a rewind on B.W (R622). -/
def rewindCostB (s : State) : Nat := if moreB (countB s) then 1 else 0

/-- Format BR: nothing when the condition is false, else the surcharge and nothing more (R622). -/
def branchCost (op : BranchOp) (cond : Cond) (s : State) : Nat := if holds cond s then Config.branchSurcharge op else 0

/-- `ExecCycles` (R622) of an instruction that runs. -/
def execCycles (i : Instr) (s : State) : Nat :=
  match i with
  | .ldR sz d q => loadCost sz (.reg d) (srcOperand q) s
  | .ldRM sz ops => loadCost sz (rmDst ops) (rmSrc ops) s
  | .exR sz d q => exchangeCost sz (.reg d) (srcOperand q) s
  | .exRM sz ops => exchangeCost sz (rmDst ops) (rmSrc ops) s
  | .addR sz d q | .adcR sz d q | .subR sz d q | .sbcR sz d q | .andR sz d q | .orR sz d q | .xorR sz d q
  | .setR sz d q | .resR sz d q => binaryCost sz (.reg d) (srcOperand q) s
  | .addRM sz ops | .adcRM sz ops | .subRM sz ops | .sbcRM sz ops | .andRM sz ops | .orRM sz ops | .xorRM sz ops
  | .setRM sz ops | .resRM sz ops => binaryCost sz (rmDst ops) (rmSrc ops) s
  | .cpR sz d q | .tstR sz d q | .bitR sz d q => testCost sz (.reg d) (srcOperand q) s
  | .cpRM sz ops | .tstRM sz ops | .bitRM sz ops => testCost sz (rmDst ops) (rmSrc ops) s
  | .rlcR sz d q | .rrcR sz d q | .rlR sz d q | .rrR sz d q | .slaR sz d q | .sraR sz d q | .srlR sz d q => shiftCost sz (.reg d) (srcOperand q) s
  | .rlcRM sz ops | .rrcRM sz ops | .rlRM sz ops | .rrRM sz ops | .slaRM sz ops | .sraRM sz ops | .srlRM sz ops => shiftCost sz (rmDst ops) (rmSrc ops) s
  | .inRM sz _ m => 1 + busCost sz (effAddr m s)
  | .outRM sz m _ => 1 + busCost sz (effAddr m s)
  | .exAltUR _ _ => 1
  | .pushUR _ r => pushCost (.reg r) s
  | .pushUM _ m => pushCost (.mem m) s
  | .popUR _ r => popCost (.reg r) s
  | .popUM _ m => popCost (.mem m) s
  | .exhUR sz r | .incUR sz r | .decUR sz r | .negUR sz r | .extUR sz r | .cplUR sz r => unaryCost sz (.reg r) s
  | .exhUM sz m | .incUM sz m | .decUM sz m | .negUM sz m | .extUM sz m | .cplUM sz m => unaryCost sz (.mem m) s
  | .mltUR sz r => mltCost sz (.reg r) s
  | .mltUM sz m => mltCost sz (.mem m) s
  | .divUR sz r | .sdivUR sz r => divideCost sz (.reg r) s
  | .divUM sz m | .sdivUM sz m => divideCost sz (.mem m) s
  | .jp cond _ => branchCost .jp cond s
  | .jrS8 cond _ => branchCost .jrS8 cond s
  | .jr cond _ => branchCost .jr cond s
  | .call cond _ => branchCost .call cond s
  | .callrS8 cond _ => branchCost .callrS8 cond s
  | .callr cond _ => branchCost .callr cond s
  | .ret cond => branchCost .ret cond s
  | .reti cond => branchCost .reti cond s
  | .retn cond => branchCost .retn cond s
  | .ldi sz | .ldd sz => elemCostLD sz s
  | .ldir sz | .lddr sz => elemCostLD sz s + rewindCostBC s
  | .cpi sz | .cpd sz | .tsi sz | .tsd sz => elemCostTest sz s
  | .cpir sz | .cpdr sz | .tsir sz | .tsdr sz => elemCostTest sz s + rewindCostBC s
  | .ini sz | .ind sz | .outi sz | .outd sz => elemCostIO sz s
  | .inir sz | .indr sz | .outir sz | .outdr sz => elemCostIO sz s + rewindCostB s
  | .rst _ => 1 + busCost .dword (s.sp - 4)
  | .exx | .exi | .daa | .ldINN _ | .ldRA | .ldAR | .halt | .nop | .djnz _ | .janz _ => 1

/-- The cycle count a step returns (R620): 0 for a halted or faulted block and for a step that raises an error. -/
def cycleOutput (s : State) : Nat :=
  if stopped s then 0
  else
    match decodeAtPC s with
    | .error _ => 0
    | .ok i =>
      let u := fetched (instrLength i) s
      match exec i u with
      | .next t => if t.fault.isSome then 0 else fetchCycles i s.pc + execCycles i u
      | .fault _ => 0
      | .refused _ => 0

/-- What the host gets from one step (60_exceptions.md R514): the step's outcome and its cycle count. -/
def stepWithCycles (s : State) : Host.Outcome State Fault Refusal × Nat := (step s, cycleOutput s)

end Sys2Proof.Machine
end

