-- ==== Sys2Proof/Safety.lean ====
section
/-! DEFINITION. The words that statements use: what an instruction leaves unchanged, what it writes, and the invariant of the
machine. Nothing here is part of the machine. -/

namespace Sys2Proof.Machine

/-! ## What stays -/

/-- Every byte of the memory bus's RAM reads as before. -/
def MemSame (s t : State) : Prop := ∀ a : Nat, t.mem.read a = s.mem.read a

/-- Every byte of the I/O bus's RAM reads as before. -/
def IOSame (s t : State) : Prop := ∀ a : Nat, t.io.read a = s.io.read a

/-- Devices have seen exactly these transfers more, newest first (20_memory.md R79). -/
def Seen (l : List Transfer) (s t : State) : Prop := t.transfers = l ++ s.transfers

/-- Every register that a register code reaches is unchanged. -/
def RegsSame (s t : State) : Prop := ∀ n : RegName, readStore n t = readStore n s

/-- Every bit of every register that a register code reaches is unchanged, but for the bits of one view (10_state.md R32). -/
def RegsSameOutside (sz : Size) (c : RegCode) (s t : State) : Prop :=
  ∀ (n : RegName) (k : Nat),
    ¬(n = (viewSlot sz c).1 ∧ (viewSlot sz c).2 ≤ k ∧ k < (viewSlot sz c).2 + sz.bits) →
      (readStore n t).getLsbD k = (readStore n s).getLsbD k

/-- The alternate bank, I, R, IFF2, `halted` and `fault` are unchanged, and so is the device map. -/
def SystemSame (s t : State) : Prop :=
  t.alt = s.alt ∧ t.i = s.i ∧ t.r = s.r ∧ t.iff2 = s.iff2 ∧ t.halted = s.halted ∧ t.fault = s.fault ∧
    t.devices = s.devices

/-- A flag is unchanged. -/
def FlagSame (x : Flag) (s t : State) : Prop := getFlag x t = getFlag x s

/-- IE and the unused bit 3 of F are unchanged (10_state.md R40, R41). -/
def RestOfFSame (s t : State) : Prop := FlagSame .ie s t ∧ t.f.getLsbD 3 = s.f.getLsbD 3

/-- PC is the address of the next instruction (10_state.md R37). -/
def AtNext (i : Instr) (s t : State) : Prop := t.pc = s.pc + BitVec.ofNat 32 (instrLength i)

/-! ## What is written -/

/-- The six ALU flags have these values, and the rest of F is unchanged. -/
def AluFlagsAre (s t : State) (fs fz fh fpv fn fc : Bool) : Prop :=
  getFlag .s t = fs ∧ getFlag .z t = fz ∧ getFlag .h t = fh ∧ getFlag .pv t = fpv ∧ getFlag .n t = fn ∧
    getFlag .c t = fc ∧ RestOfFSame s t

/-- The bytes of `v`, the low byte first, are at the addresses from `a` on (20_memory.md R73), those addresses that belong to a
device excepted, which see a transfer instead; every other byte of the bus's RAM reads as before. -/
def StoredAt (sp : Space) (sz : Size) (a : DWord) (v : BitVec sz.bits) (s t : State) : Prop :=
  (∀ k, k < sz.bytes → (ramOf sp t).read (byteAddr a k) =
    if isDevice sp s (byteAddr a k) then (ramOf sp s).read (byteAddr a k) else v.extractLsb' (8 * k) 8) ∧
  ∀ b : Nat, (∀ k, k < sz.bytes → b ≠ byteAddr a k) → (ramOf sp t).read b = (ramOf sp s).read b

/-- Exactly one place is written, with the value `v`: a register view, every other register bit and every byte of memory
unchanged; or the bytes at the place's effective address, every other byte and every register unchanged. -/
def OnlyPlaceWritten (sz : Size) (p : Place) (v : BitVec sz.bits) (s t : State) : Prop :=
  match p with
  | .reg c => readReg sz c t = v ∧ RegsSameOutside sz c s t ∧ MemSame s t
  | .mem m => StoredAt .mem sz (effAddr m s) v s t ∧ RegsSame s t

/-! ## What devices see -/

/-- What devices see of a read of a value (20_memory.md R72, R79). -/
def readsAt (sp : Space) (sz : Size) (a : DWord) (s : State) : List Transfer := readTransfers sp a s sz.bytes

/-- What devices see of a write of a value (20_memory.md R73, R79). -/
def writesAt (sp : Space) (sz : Size) (a : DWord) (v : BitVec sz.bits) (s : State) : List Transfer :=
  writeTransfers sp a (fun k => v.extractLsb' (8 * k) 8) s sz.bytes

/-- What devices see of a write to a place. -/
def placeWrites (sz : Size) (p : Place) (v : BitVec sz.bits) (s : State) : List Transfer :=
  match p with
  | .reg _ => []
  | .mem m => writesAt .mem sz (effAddr m s) v s

/-- What devices see of the reads of both operands, operand 1 read first (20_memory.md R83). -/
def bothReads (sz : Size) (o1 : Place) (o2 : Operand sz) (s : State) : List Transfer :=
  operandReads sz o2 s ++ placeReads sz o1 s

/-- The reads given, then the write of one place, and no access more. -/
def WritesAfter (reads : List Transfer) (sz : Size) (p : Place) (v : BitVec sz.bits) (s t : State) : Prop :=
  OnlyPlaceWritten sz p v s t ∧ Seen (placeWrites sz p v s ++ reads) s t

/-- The reads given and no access more: no register that a code reaches and no byte of memory is written. -/
def WritesNothing (reads : List Transfer) (s t : State) : Prop := RegsSame s t ∧ MemSame s t ∧ Seen reads s t

/-- The half-carry that the add and subtract families leave (40_arith.md R203-R205): the bit-3 formula at Byte, `HC_WIDE`
above. -/
def halfCarryLeft (sz : Size) (bit3 old : Bool) : Bool :=
  match sz, Config.hcWide with
  | .byte, _ => bit3
  | _, .clear => false
  | _, .keep => old
  | _, .bit3 => bit3

/-- Nothing outside PC, the destination and the flags moves: the alternate bank, the system registers and the I/O RAM are
unchanged, and PC is at the next instruction. -/
def Elsewhere (i : Instr) (s t : State) : Prop := AtNext i s t ∧ SystemSame s t ∧ IOSame s t

/-- A carry as a value of any width. -/
def carryIn (w : Nat) (c : Bool) : BitVec w := (BitVec.ofBool c).setWidth w

/-- The flags of 40_arith.md R203 for `a + b + cin`. -/
def AddFlagsLeft (sz : Size) (a b : BitVec sz.bits) (cin : Bool) (s t : State) : Prop :=
  let r := a + b + carryIn sz.bits cin
  AluFlagsAre s t r.msb (r == 0)
    (halfCarryLeft sz (decide (a.toNat % 16 + b.toNat % 16 + cin.toNat > 15)) (getFlag .h s))
    ((a ^^^ r) &&& (b ^^^ r)).msb false (decide (a.toNat + b.toNat + cin.toNat ≥ 2 ^ sz.bits))

/-- The flags of 40_arith.md R204 for `a - b - bin`. -/
def SubFlagsLeft (sz : Size) (a b : BitVec sz.bits) (bin : Bool) (s t : State) : Prop :=
  let r := a - b - carryIn sz.bits bin
  AluFlagsAre s t r.msb (r == 0) (halfCarryLeft sz (decide (a.toNat % 16 < b.toNat % 16 + bin.toNat)) (getFlag .h s))
    ((a ^^^ b) &&& (a ^^^ r)).msb true (decide (a.toNat < b.toNat + bin.toNat))

/-- An addition into a place after the reads given: the sum, its flags, nothing else. -/
def AddsInto (reads : List Transfer) (sz : Size) (o1 : Place) (a b : BitVec sz.bits) (cin : Bool) (i : Instr) (s t : State) :
    Prop :=
  WritesAfter reads sz o1 (a + b + carryIn sz.bits cin) s t ∧ AddFlagsLeft sz a b cin s t ∧ Elsewhere i s t

/-- A subtraction into a place after the reads given: the difference, its flags, nothing else. -/
def SubtractsInto (reads : List Transfer) (sz : Size) (o1 : Place) (a b : BitVec sz.bits) (bin : Bool) (i : Instr)
    (s t : State) : Prop :=
  WritesAfter reads sz o1 (a - b - carryIn sz.bits bin) s t ∧ SubFlagsLeft sz a b bin s t ∧ Elsewhere i s t

/-- The flags of the logic and shift families: S, Z and parity of the result, H and C as given, N = 0. -/
def ResultFlagsLeft {w : Nat} (r : BitVec w) (h c : Bool) (s t : State) : Prop :=
  AluFlagsAre s t r.msb (r == 0) h (decide ((List.range w).countP (fun k => r.getLsbD k) % 2 = 0)) false c

/-- A logic or shift result into a place after the reads given: its flags, nothing else. -/
def ResultInto (reads : List Transfer) (sz : Size) (o1 : Place) (r : BitVec sz.bits) (h c : Bool) (i : Instr) (s t : State) :
    Prop :=
  WritesAfter reads sz o1 r s t ∧ ResultFlagsLeft r h c s t ∧ Elsewhere i s t

/-- A value into a place after the reads given; no flag is written. -/
def CopiesInto (reads : List Transfer) (sz : Size) (o1 : Place) (v : BitVec sz.bits) (i : Instr) (s t : State) : Prop :=
  WritesAfter reads sz o1 v s t ∧ t.f = s.f ∧ Elsewhere i s t

/-- The low half of an operand, as a number (44_bcd_halfwidth.md R331). -/
def lowHalf (sz : Size) (v : BitVec sz.bits) : BitVec (sz.bits / 2) := v.extractLsb' 0 (sz.bits / 2)

/-- The high half of an operand, as a number (44_bcd_halfwidth.md R331). -/
def highHalf (sz : Size) (v : BitVec sz.bits) : BitVec (sz.bits / 2) := v.extractLsb' (sz.bits / 2) (sz.bits / 2)

/-- `pack(x, y)` (44_bcd_halfwidth.md R331). -/
def packed (sz : Size) (x y : BitVec (sz.bits / 2)) : BitVec sz.bits := (x ++ y).setWidth sz.bits

/-- A pointer moved by one element, up or down (45_block.md R360). -/
def movedBy (up : Bool) (n : Nat) (x : DWord) : DWord := if up then x + BitVec.ofNat 32 n else x - BitVec.ofNat 32 n

/-- PC after a block instruction at `s`: back at its own address while a repeating form has elements left, else at the next
instruction (45_block.md R361). -/
def BlockPC (repeats more : Bool) (s t : State) : Prop := t.pc = if repeats && more then s.pc else s.pc + 2

/-- The state after running `i` `n` times in a row, where each run answers a next state. -/
def execTimes (i : Instr) : Nat → State → Option State
  | 0, s => some s
  | n + 1, s =>
    match exec i s with
    | .next t => execTimes i n t
    | .fault _ | .refused _ => none

/-- How often a counter of width `w` counts down before it is 0: a counter of 0 counts 2^w times. -/
def countedTimes (w count : Nat) : Nat := if count = 0 then 2 ^ w else count

/-- A transfer on the I/O bus. -/
def onIo : Transfer → Bool
  | .read sp _ => sp == .io
  | .write sp _ _ => sp == .io

/-! ## Statement shapes -/

/-- Both rows of a two-operand mnemonic, format R and format RM with selector `op`, complete at every state, with the given
relation between their operands, the state before and the state after. -/
def BinaryForms (op : Nat) (mkR : (sz : Size) → RegCode → Src sz → Instr) (mkRM : (sz : Size) → RMOperands sz → Instr)
    (P : (sz : Size) → Place → Operand sz → Instr → State → State → Prop) : Prop :=
  (∀ (sz : Size) (d : RegCode) (q : Src sz) (s : State),
    bits (baseWord (mkR sz d q)) 0 2 = 0 ∧ bits (baseWord (mkR sz d q)) 2 6 = op ∧
      ∃ t, exec (mkR sz d q) s = .next t ∧ P sz (.reg d) (srcOperand q) (mkR sz d q) s t) ∧
  (∀ (sz : Size) (ops : RMOperands sz) (s : State),
    bits (baseWord (mkRM sz ops)) 0 2 = 1 ∧ bits (baseWord (mkRM sz ops)) 2 5 = op ∧
      ∃ t, exec (mkRM sz ops) s = .next t ∧ P sz (rmDst ops) (rmSrc ops) (mkRM sz ops) s t)

/-- Both rows of a one-operand mnemonic, formats UR and UM with selector `sel`, complete at every state for the sizes that `ok`
admits, with the given relation. -/
def UnaryForms (sel : Nat) (mkUR : Size → RegCode → Instr) (mkUM : Size → MemRef → Instr) (ok : Size → Bool)
    (P : Size → Place → Instr → State → State → Prop) : Prop :=
  (∀ (sz : Size) (r : RegCode) (s : State), ok sz = true →
    bits (baseWord (mkUR sz r)) 0 4 = 2 ∧ unarySel (baseWord (mkUR sz r)) = sel ∧
      ∃ t, exec (mkUR sz r) s = .next t ∧ P sz (.reg r) (mkUR sz r) s t) ∧
  (∀ (sz : Size) (m : MemRef) (s : State), ok sz = true →
    bits (baseWord (mkUM sz m)) 0 4 = 6 ∧ unarySel (baseWord (mkUM sz m)) = sel ∧
      ∃ t, exec (mkUM sz m) s = .next t ∧ P sz (.mem m) (mkUM sz m) s t)

/-- A block instruction with op `op` completes at every state, with the given relation. -/
def BlockForm (op : Nat) (mk : Size → Instr) (P : Size → State → State → Prop) : Prop :=
  ∀ (sz : Size) (s : State),
    bits (baseWord (mk sz)) 0 8 = 14 ∧ bits (baseWord (mk sz)) 10 6 = op ∧ ∃ t, exec (mk sz) s = .next t ∧ P sz s t

/-- A jump or call with selector `op` completes at every state, with the given relation. -/
def JumpForm (op : Nat) (sz : Size) (mk : Cond → Src sz → Instr) (P : Cond → Src sz → Instr → State → State → Prop) :
    Prop :=
  ∀ (cc : Cond) (q : Src sz) (s : State),
    bits (baseWord (mk cc q)) 0 4 = 10 ∧ bits (baseWord (mk cc q)) 4 5 = op ∧
      ∃ t, exec (mk cc q) s = .next t ∧ P cc q (mk cc q) s t

/-- The address after the instruction at `s` (30_encoding.md R165). -/
def nextPC (i : Instr) (s : State) : DWord := s.pc + BitVec.ofNat 32 (instrLength i)

/-! ## The encoding checks -/

/-- The checks of a base word in the order in which they run (30_encoding.md R163), each with the field that its failure names
(60_exceptions.md R501): true where it fails. -/
def encodingChecks (w : BaseWord) : List (Bool × DecodeField) :=
  let isR := bits w 0 2 == 0
  let isRM := bits w 0 2 == 1
  let isUR := bits w 0 4 == 2
  let isUM := bits w 0 4 == 6
  let isBR := bits w 0 4 == 10
  let isNUL := bits w 0 4 == 14
  let isSB := bits w 0 4 == 15
  let sel := bits w 4 4 * 8 + bits w 13 3
  let isBlock := isNUL && bits w 4 4 == 0
  let assigned := match bits w 4 4 with
    | 0 => 20
    | 1 => 2
    | 2 => 1
    | 3 => 1
    | _ => 4
  let exactOp := if isBlock then bits w 10 6 else bits w 8 8
  [ (bits w 0 2 == 3 && bits w 2 2 != 3, .subgroup),
    (isR && decide (20 < bits w 2 6), .op),
    (isRM && decide (21 < bits w 2 5), .op),
    (isUR && decide (11 < sel), .op),
    (isUM && (sel == 0 || decide (11 < sel)), .op),
    (isBR && decide (8 < bits w 4 5), .branchOp),
    (isNUL && decide (4 < bits w 4 4), .family),
    (isNUL && decide (assigned ≤ exactOp), .nullaryOp),
    (isSB && decide (2 < bits w 12 4), .singleByteOp),
    (isBR && decide (8 < bits w 9 4), .condition),
    ((isR || isRM || isUR || isUM || isBlock) && bits w 8 2 == 3, .size),
    (isBR && decide (6 ≤ bits w 4 5) && bits w 13 3 != 0, .reserved),
    (isSB && bits w 12 4 == 0 && bits w 4 8 != 0, .reserved),
    (isR && bits w 10 3 == 7, .dst),
    (isRM && bits w 7 1 == 1 && bits w 10 3 == 7, .loadTarget),
    (isUR && bits w 10 3 == 7, .reg),
    ((isUR || isUM) && (sel == 2 || sel == 3) && bits w 8 2 != 2, .sizeForOp),
    ((isUR || isUM) && (sel == 1 || (decide (7 ≤ sel) && decide (sel ≤ 10))) && bits w 8 2 == 0, .sizeForOp),
    (isUR && sel == 0 && bits w 8 2 == 2 && bits w 10 3 == 3, .noAlternate) ]

/-! ## The invariant -/

/-- What every reachable state keeps: the RAM of both buses in canonical form; not both halted and faulted (60_exceptions.md
R506); bit 3 of F clear (10_state.md R40); IFF2 holding 0 or 1 (92_eei_decisions.md D6). -/
def Inv (s : State) : Prop :=
  s.mem.wf = true ∧ s.io.wf = true ∧ ¬(s.halted = true ∧ s.fault.isSome = true) ∧ s.f.getLsbD 3 = false ∧
    (s.iff2 = 0 ∨ s.iff2 = 1)

end Sys2Proof.Machine
end

