-- ==== Sys2Proof/Certificates/Slice0/Obligations.lean ====
section
/-! DEFINITION. The statements for the provers. Each says what the machine does, from the numbered rules of spec/. The words
they use stand in Safety.lean. -/

open Sys2Proof Sys2Proof.Machine

/-! ## Arithmetic (40_arith.md) -/

/-- R210, R211, R203: ADD and ADC write the sum modulo 2^w and the flags of `AddFlags`, and nothing else. That ADC adds the
old C is the spec's own decision D52 ("from general knowledge, not in source"). The bus sees the accesses of R83 and no more,
each byte once (R79; the device map and the record of transfers are the model's, log entries 2 and 3). -/
def Obligations.AddAndAdcSumFlagsFrame : Prop :=
  BinaryForms 2 .addR .addRM (fun sz o1 o2 i s t =>
    AddsInto (bothReads sz o1 o2 s) sz o1 (readPlace sz o1 s) (readOp sz o2 s) false i s t) ∧
  BinaryForms 3 .adcR .adcRM (fun sz o1 o2 i s t =>
    AddsInto (bothReads sz o1 o2 s) sz o1 (readPlace sz o1 s) (readOp sz o2 s) (getFlag .c s) i s t)

/-- R220, R221, R204: SUB and SBC write the difference modulo 2^w and the flags of `SubFlags`, and nothing else. That SBC
subtracts the old C is the spec's own decision D52 ("from general knowledge, not in source"). The bus sees the accesses of R83
and no more, each byte once (R79; the device map and the record of transfers are the model's, log entries 2 and 3). -/
def Obligations.SubAndSbcDifferenceFlagsFrame : Prop :=
  BinaryForms 4 .subR .subRM (fun sz o1 o2 i s t =>
    SubtractsInto (bothReads sz o1 o2 s) sz o1 (readPlace sz o1 s) (readOp sz o2 s) false i s t) ∧
  BinaryForms 5 .sbcR .sbcRM (fun sz o1 o2 i s t =>
    SubtractsInto (bothReads sz o1 o2 s) sz o1 (readPlace sz o1 s) (readOp sz o2 s) (getFlag .c s) i s t)

/-- R222: CP leaves SUB's flags and writes no operand. The bus sees the accesses of R83 and no more, each byte once (R79; the
device map and the record of transfers are the model's, log entries 2 and 3). -/
def Obligations.CpComparesWithoutWriting : Prop :=
  BinaryForms 6 .cpR .cpRM (fun sz o1 o2 i s t =>
    WritesNothing (bothReads sz o1 o2 s) s t ∧ SubFlagsLeft sz (readPlace sz o1 s) (readOp sz o2 s) false s t ∧
      Elsewhere i s t)

/-- R212, R223, R224: INC adds 1, DEC subtracts 1, NEG subtracts from 0; each writes all six ALU flags, C too. NEG's meaning
is the spec's own decision D52 ("from general knowledge, not in source"). The bus sees the accesses of R83 and no more, each
byte once (R79; the device map and the record of transfers are the model's, log entries 2 and 3). -/
def Obligations.IncDecNegResultFlagsFrame : Prop :=
  UnaryForms 4 .incUR .incUM (fun _ => true) (fun sz o1 i s t =>
    AddsInto (placeReads sz o1 s) sz o1 (readPlace sz o1 s) 1 false i s t) ∧
  UnaryForms 5 .decUR .decUM (fun _ => true) (fun sz o1 i s t =>
    SubtractsInto (placeReads sz o1 s) sz o1 (readPlace sz o1 s) 1 false i s t) ∧
  UnaryForms 6 .negUR .negUM (fun _ => true) (fun sz o1 i s t =>
    SubtractsInto (placeReads sz o1 s) sz o1 0 (readPlace sz o1 s) false i s t)

/-- R203, R204: PV of the add and subtract families is set exactly when the exact signed result does not fit in w bits. -/
def Obligations.OverflowFlagIsSignedOverflow : Prop :=
  ∀ (hc : HcWide) (sz : Size) (a b : BitVec sz.bits) (c : Bool),
    (addFlags hc sz a b c).pv =
      some (decide (a.toInt + b.toInt + c.toNat < -2 ^ (sz.bits - 1) ∨ 2 ^ (sz.bits - 1) ≤ a.toInt + b.toInt + c.toNat)) ∧
    (subFlags hc sz a b c).pv =
      some (decide (a.toInt - b.toInt - c.toNat < -2 ^ (sz.bits - 1) ∨ 2 ^ (sz.bits - 1) ≤ a.toInt - b.toInt - c.toNat))

/-! ## Logic (41_logic.md) -/

/-- R250, R251, R252: AND, OR and XOR write the bitwise result; S, Z and parity come from it, H is 1 for AND alone. The bus
sees the accesses of R83 and no more, each byte once (R79; the device map and the record of transfers are the model's, log
entries 2 and 3). -/
def Obligations.AndOrXorResultFlagsFrame : Prop :=
  BinaryForms 7 .andR .andRM (fun sz o1 o2 i s t =>
    ResultInto (bothReads sz o1 o2 s) sz o1 (readPlace sz o1 s &&& readOp sz o2 s) true false i s t) ∧
  BinaryForms 8 .orR .orRM (fun sz o1 o2 i s t =>
    ResultInto (bothReads sz o1 o2 s) sz o1 (readPlace sz o1 s ||| readOp sz o2 s) false false i s t) ∧
  BinaryForms 9 .xorR .xorRM (fun sz o1 o2 i s t =>
    ResultInto (bothReads sz o1 o2 s) sz o1 (readPlace sz o1 s ^^^ readOp sz o2 s) false false i s t)

/-- R253, R254: TST leaves the flags of the conjunction with H = 0 and writes no operand; CPL complements its operand, a
meaning that is the spec's own decision D52 ("from general knowledge, not in source"). The bus sees the accesses of R83 and no
more, each byte once (R79; the device map and the record of transfers are the model's, log entries 2 and 3). -/
def Obligations.TstAndCplResultFlagsFrame : Prop :=
  BinaryForms 10 .tstR .tstRM (fun sz o1 o2 i s t =>
    WritesNothing (bothReads sz o1 o2 s) s t ∧ ResultFlagsLeft (readPlace sz o1 s &&& readOp sz o2 s) false false s t ∧
      Elsewhere i s t) ∧
  UnaryForms 11 .cplUR .cplUM (fun _ => true) (fun sz o1 i s t =>
    ResultInto (placeReads sz o1 s) sz o1 (~~~readPlace sz o1 s) false false i s t)

/-! ## Shifts and rotates (42_shift_rotate.md) -/

/-- R280 to R287: each shift and rotate leaves what the loop of its one-step function leaves, with the amount read from
operand 2, unsigned and not masked; amount 0 keeps the value and C. The one-step functions are the spec's own decisions D13
and D30, from the lineage. The bus sees the accesses of R83 and no more, each byte once (R79; the device map and the record of
transfers are the model's, log entries 2 and 3). -/
def Obligations.ShiftsRunTheLoopOfR280 : Prop :=
  let loops (op : ShiftOp) (sz : Size) (o1 : Place) (o2 : Operand sz) (i : Instr) (s t : State) : Prop :=
    let res := shiftLoop op (readOp sz o2 s).toNat (readPlace sz o1 s) (getFlag .c s)
    ResultInto (bothReads sz o1 o2 s) sz o1 res.1 false res.2 i s t
  BinaryForms 14 .rlcR .rlcRM (loops .rlc) ∧ BinaryForms 15 .rrcR .rrcRM (loops .rrc) ∧
  BinaryForms 16 .rlR .rlRM (loops .rl) ∧ BinaryForms 17 .rrR .rrRM (loops .rr) ∧
  BinaryForms 18 .slaR .slaRM (loops .sla) ∧ BinaryForms 19 .sraR .sraRM (loops .sra) ∧
  BinaryForms 20 .srlR .srlRM (loops .srl)

/-- 42_shift_rotate.md section 1, the closed forms that the spec marks as its own inference ("derived: from rules
R280-R287"): they equal the loop of R280 for every amount of at least 1, at every width. -/
def Obligations.ShiftClosedFormsEqualTheLoop : Prop :=
  ∀ (w n : Nat) (v : BitVec w) (c : Bool), 0 < w → 1 ≤ n →
    shiftLoop .rlc n v c = (v.rotateLeft (n % w), (v.rotateLeft (n % w)).getLsbD 0) ∧
    shiftLoop .rrc n v c = (v.rotateRight (n % w), (v.rotateRight (n % w)).getLsbD (w - 1)) ∧
    (let x := (BitVec.ofBool c ++ v).rotateLeft (n % (1 + w));
      shiftLoop .rl n v c = (x.extractLsb' 0 w, x.getLsbD w)) ∧
    (let x := (v ++ BitVec.ofBool c).rotateRight (n % (w + 1));
      shiftLoop .rr n v c = (x.extractLsb' 1 w, x.getLsbD 0)) ∧
    shiftLoop .sla n v c =
      (if n < w then (v <<< n, v.getLsbD (w - n)) else if n = w then (0, v.getLsbD 0) else (0, false)) ∧
    shiftLoop .srl n v c =
      (if n < w then (v >>> n, v.getLsbD (n - 1)) else if n = w then (0, v.getLsbD (w - 1)) else (0, false)) ∧
    shiftLoop .sra n v c =
      (if n < w then (v.sshiftRight n, v.getLsbD (n - 1))
       else (if v.getLsbD (w - 1) then BitVec.allOnes w else 0, v.getLsbD (w - 1)))

/-! ## Bits (43_bit.md) -/

/-- R310 to R313: BIT sets Z to the complement of the selected bit, clears H and N, and leaves S, PV, C and every operand; SET
and RES change exactly the selected bit of operand 1 and no flag. The index is operand 2 modulo the width. The bus sees the
accesses of R83 and no more, each byte once (R79; the device map and the record of transfers are the model's, log entries 2
and 3). -/
def Obligations.BitSetAndResUseOneBit : Prop :=
  let index (sz : Size) (o2 : Operand sz) (s : State) : Nat := (readOp sz o2 s).toNat % 2 ^ (2 + sz.bytes.log2 + 1)
  BinaryForms 11 .bitR .bitRM (fun sz o1 o2 i s t =>
    WritesNothing (bothReads sz o1 o2 s) s t ∧
    AluFlagsAre s t (getFlag .s s) (!(readPlace sz o1 s).getLsbD (index sz o2 s)) false (getFlag .pv s) false (getFlag .c s) ∧
    Elsewhere i s t) ∧
  BinaryForms 12 .setR .setRM (fun sz o1 o2 i s t =>
    CopiesInto (bothReads sz o1 o2 s) sz o1 (readPlace sz o1 s ||| BitVec.twoPow sz.bits (index sz o2 s)) i s t) ∧
  BinaryForms 13 .resR .resRM (fun sz o1 o2 i s t =>
    CopiesInto (bothReads sz o1 o2 s) sz o1 (readPlace sz o1 s &&& ~~~BitVec.twoPow sz.bits (index sz o2 s)) i s t)

/-! ## BCD and half-width (44_bcd_halfwidth.md) -/

/-- R330: what DAA writes to A.B and to the flags; A[31:8], every other register and memory are unchanged, no device sees a transfer. The thresholds, C
and H are the spec's own decision D34 ("from general knowledge, not in source"). -/
def Obligations.DaaCorrectsTheAccumulator : Prop :=
  ∀ s : State,
    let a := s.bank.a.extractLsb' 0 8
    let c := getFlag .c s
    let h := getFlag .h s
    let n := getFlag .n s
    let c' := decide (c = true ∨ a.toNat > 0x99)
    let low := if h = true ∨ a.toNat % 16 > 9 then 6 else 0
    let corr := low + if c' then 0x60 else 0
    let r := if n then a - BitVec.ofNat 8 corr else a + BitVec.ofNat 8 corr
    let h' := if n then decide (a.toNat % 16 < low) else decide (a.toNat % 16 + low > 15)
    baseWord .daa = 0x003E ∧
      ∃ t, exec .daa s = .next t ∧
        t.bank = { s.bank with a := s.bank.a.extractLsb' 8 24 ++ r } ∧ t.sp = s.sp ∧
        AluFlagsAre s t r.msb (r == 0) h' (decide ((List.range 8).countP (fun k => r.getLsbD k) % 2 = 0)) n c' ∧
        MemSame s t ∧ Seen [] s t ∧ Elsewhere .daa s t

/-- R330 (the property of 95_test_vectors.md 1.4): for packed-BCD bytes x and y, ADD then DAA leaves the BCD of (x + y) mod
100 with C = (x + y ≥ 100), and SUB then DAA the BCD of (x - y) mod 100 with C = (x < y). -/
def Obligations.DaaAfterAddOrSubIsDecimal : Prop :=
  let bcd (x : Nat) : Byte := BitVec.ofNat 8 (x / 10 * 16 + x % 10)
  ∀ (s : State) (x y : Nat), x < 100 → y < 100 → readReg .byte codeA s = bcd x →
    (∃ t u, exec (.addR .byte codeA (.imm (bcd y))) s = .next t ∧ exec .daa t = .next u ∧
      readReg .byte codeA u = bcd ((x + y) % 100) ∧ getFlag .c u = decide (100 ≤ x + y)) ∧
    (∃ t u, exec (.subR .byte codeA (.imm (bcd y))) s = .next t ∧ exec .daa t = .next u ∧
      readReg .byte codeA u = bcd ((x + 100 - y) % 100) ∧ getFlag .c u = decide (x < y))

/-- R332, R340, R341: MLT writes the unsigned product of the halves, EXT the sign-extended low half, EXH the halves exchanged;
no flag is written. The bus sees the accesses of R83 and no more, each byte once (R79; the device map and the record of
transfers are the model's, log entries 2 and 3). -/
def Obligations.MltExtExhResultFrame : Prop :=
  UnaryForms 8 .mltUR .mltUM Size.hasHalves (fun sz o1 i s t =>
    let v := readPlace sz o1 s
    CopiesInto (placeReads sz o1 s) sz o1 (BitVec.ofNat sz.bits ((lowHalf sz v).toNat * (highHalf sz v).toNat)) i s t) ∧
  UnaryForms 7 .extUR .extUM Size.hasHalves (fun sz o1 i s t =>
    CopiesInto (placeReads sz o1 s) sz o1 ((lowHalf sz (readPlace sz o1 s)).signExtend sz.bits) i s t) ∧
  UnaryForms 1 .exhUR .exhUM Size.hasHalves (fun sz o1 i s t =>
    let v := readPlace sz o1 s
    CopiesInto (placeReads sz o1 s) sz o1 (packed sz (lowHalf sz v) (highHalf sz v)) i s t)

/-- R333, R334, R504: DIV and SDIV divide the high half by the low half, remainder high and quotient low, SDIV truncating
toward zero; a divisor of 0 writes no operand; PV says which, and no other flag is written. SDIV's truncation is "from general
knowledge, not in source" (R334). The bus sees the accesses of R83 and no more, each byte once (R79; the device map and the
record of transfers are the model's, log entries 2 and 3). -/
def Obligations.DivAndSdivResultFrame : Prop :=
  let divides (g : (sz : Size) → BitVec sz.bits → BitVec sz.bits) (sz : Size) (o1 : Place) (i : Instr) (s t : State) : Prop :=
    let v := readPlace sz o1 s
    let zero := lowHalf sz v == 0
    (if zero then WritesNothing (placeReads sz o1 s) s t else WritesAfter (placeReads sz o1 s) sz o1 (g sz v) s t) ∧
      AluFlagsAre s t (getFlag .s s) (getFlag .z s) (getFlag .h s) zero (getFlag .n s) (getFlag .c s) ∧ Elsewhere i s t
  UnaryForms 9 .divUR .divUM Size.hasHalves (divides fun sz v =>
    packed sz (highHalf sz v % lowHalf sz v) (highHalf sz v / lowHalf sz v)) ∧
  UnaryForms 10 .sdivUR .sdivUM Size.hasHalves (divides fun sz v =>
    let n := (highHalf sz v).toInt
    let d := (lowHalf sz v).toInt
    packed sz (BitVec.ofInt _ (n - n.tdiv d * d)) (BitVec.ofInt _ (n.tdiv d)))

/-! ## Block instructions (45_block.md) -/

/-- R360 to R365: LDI, LDD, LDIR and LDDR copy one element from (HL) to (DE), move both pointers by the element size, count BC
down, write PV alone, and the repeating forms move PC back while BC is not 0. The bus sees these accesses and no more, each
byte once (R79; the device map and the record of transfers are the model's, log entries 2 and 3). -/
def Obligations.BlockLoadCopiesOneElement : Prop :=
  let step (up repeats : Bool) (sz : Size) (s t : State) : Prop :=
    let n := s.bank.bc - 1
    let v := memRead sz s.bank.hl s
    t.bank = { s.bank with hl := movedBy up sz.bytes s.bank.hl, de := movedBy up sz.bytes s.bank.de, bc := n } ∧
      t.sp = s.sp ∧
      StoredAt .mem sz s.bank.de v s t ∧ Seen (writesAt .mem sz s.bank.de v s ++ readsAt .mem sz s.bank.hl s) s t ∧
      AluFlagsAre s t (getFlag .s s) (getFlag .z s) (getFlag .h s) (n != 0) (getFlag .n s) (getFlag .c s) ∧
      BlockPC repeats (n != 0) s t ∧ SystemSame s t ∧ IOSame s t
  BlockForm 0 .ldi (step true false) ∧ BlockForm 1 .ldd (step false false) ∧
  BlockForm 2 .ldir (step true true) ∧ BlockForm 3 .lddr (step false true)

/-- R360, R361, R366 to R369: CPI, CPD, CPIR and CPDR compare A with the element at HL: S, Z, H and N of the subtraction, PV
from BC, C unchanged; nothing is stored; the repeating forms stop only when BC reaches 0. The bus sees these accesses and no
more, each byte once (R79; the device map and the record of transfers are the model's, log entries 2 and 3). -/
def Obligations.BlockCompareTestsOneElement : Prop :=
  let step (up repeats : Bool) (sz : Size) (s t : State) : Prop :=
    let n := s.bank.bc - 1
    let a := readReg sz codeA s
    let v := memRead sz s.bank.hl s
    t.bank = { s.bank with hl := movedBy up sz.bytes s.bank.hl, bc := n } ∧ t.sp = s.sp ∧ MemSame s t ∧
      Seen (readsAt .mem sz s.bank.hl s) s t ∧
      AluFlagsAre s t (a - v).msb (a == v) (halfCarryLeft sz (decide (a.toNat % 16 < v.toNat % 16)) (getFlag .h s))
        (n != 0) true (getFlag .c s) ∧
      BlockPC repeats (n != 0) s t ∧ SystemSame s t ∧ IOSame s t
  BlockForm 4 .cpi (step true false) ∧ BlockForm 5 .cpd (step false false) ∧
  BlockForm 6 .cpir (step true true) ∧ BlockForm 7 .cpdr (step false true)

/-- R360, R361, R370 to R373: TSI, TSD, TSIR and TSDR test A against the element at HL: S and Z of the conjunction, H = 0, N =
0, PV from BC, C unchanged; nothing is stored. The bus sees these accesses and no more, each byte once (R79; the device map
and the record of transfers are the model's, log entries 2 and 3). -/
def Obligations.BlockTestTestsOneElement : Prop :=
  let step (up repeats : Bool) (sz : Size) (s t : State) : Prop :=
    let n := s.bank.bc - 1
    let r := readReg sz codeA s &&& memRead sz s.bank.hl s
    t.bank = { s.bank with hl := movedBy up sz.bytes s.bank.hl, bc := n } ∧ t.sp = s.sp ∧ MemSame s t ∧
      Seen (readsAt .mem sz s.bank.hl s) s t ∧
      AluFlagsAre s t r.msb (r == 0) false (n != 0) false (getFlag .c s) ∧
      BlockPC repeats (n != 0) s t ∧ SystemSame s t ∧ IOSame s t
  BlockForm 8 .tsi (step true false) ∧ BlockForm 9 .tsd (step false false) ∧
  BlockForm 10 .tsir (step true true) ∧ BlockForm 11 .tsdr (step false true)

/-- R360, R361, R374 to R377: INI, IND, INIR and INDR store one element from the port C.W at (HL), move HL, count B.W down,
write Z alone, and the repeating forms move PC back while B.W is not 0. The bus sees these accesses and no more, each byte
once (R79; the device map and the record of transfers are the model's, log entries 2 and 3). -/
def Obligations.BlockInputStoresOneElement : Prop :=
  let step (up repeats : Bool) (sz : Size) (s t : State) : Prop :=
    let n := s.bank.bc.extractLsb' 16 16 - 1
    let c := s.bank.bc.extractLsb' 0 16
    let v := ioRead sz (c.setWidth 32) s
    t.bank = { s.bank with hl := movedBy up sz.bytes s.bank.hl, bc := n ++ c } ∧ t.sp = s.sp ∧
      StoredAt .mem sz s.bank.hl v s t ∧
      Seen (writesAt .mem sz s.bank.hl v s ++ readsAt .io sz (c.setWidth 32) s) s t ∧
      AluFlagsAre s t (getFlag .s s) (n == 0) (getFlag .h s) (getFlag .pv s) (getFlag .n s) (getFlag .c s) ∧
      BlockPC repeats (n != 0) s t ∧ SystemSame s t ∧ IOSame s t
  BlockForm 12 .ini (step true false) ∧ BlockForm 13 .ind (step false false) ∧
  BlockForm 14 .inir (step true true) ∧ BlockForm 15 .indr (step false true)

/-- R360, R361, R378 to R381: OUTI, OUTD, OUTIR and OUTDR write one element from (HL) to the port C.W, move HL, count B.W
down, write Z alone, and the repeating forms move PC back while B.W is not 0. The bus sees these accesses and no more, each
byte once (R79; the device map and the record of transfers are the model's, log entries 2 and 3). -/
def Obligations.BlockOutputWritesOneElement : Prop :=
  let step (up repeats : Bool) (sz : Size) (s t : State) : Prop :=
    let n := s.bank.bc.extractLsb' 16 16 - 1
    let c := s.bank.bc.extractLsb' 0 16
    let v := memRead sz s.bank.hl s
    t.bank = { s.bank with hl := movedBy up sz.bytes s.bank.hl, bc := n ++ c } ∧ t.sp = s.sp ∧ MemSame s t ∧
      StoredAt .io sz (c.setWidth 32) v s t ∧
      Seen (writesAt .io sz (c.setWidth 32) v s ++ readsAt .mem sz s.bank.hl s) s t ∧
      AluFlagsAre s t (getFlag .s s) (n == 0) (getFlag .h s) (getFlag .pv s) (getFlag .n s) (getFlag .c s) ∧
      BlockPC repeats (n != 0) s t ∧ SystemSame s t
  BlockForm 16 .outi (step true false) ∧ BlockForm 17 .outd (step false false) ∧
  BlockForm 18 .outir (step true true) ∧ BlockForm 19 .outdr (step false true)

/-- R361: a repeating form runs as many times as its counter counts, BC = 0 counting as 2^32 and B.W = 0 as 2^16, with PC
back at its own address before the last time and at the next instruction after it. -/
def Obligations.RepeatingFormsRunTheCounter : Prop :=
  let runs (i : Instr) (s : State) (count : Nat) (left : State → Nat) (w : Nat) : Prop :=
    ∀ n, 1 ≤ n → n ≤ countedTimes w count →
      ∃ t, execTimes i n s = some t ∧ left t = (countedTimes w count - n) % 2 ^ w ∧
        t.pc = (if n = countedTimes w count then s.pc + 2 else s.pc)
  ∀ (sz : Size) (s : State),
    (∀ i ∈ [Instr.ldir sz, .lddr sz, .cpir sz, .cpdr sz, .tsir sz, .tsdr sz],
      runs i s s.bank.bc.toNat (fun t => t.bank.bc.toNat) 32) ∧
    (∀ i ∈ [Instr.inir sz, .indr sz, .outir sz, .outdr sz],
      runs i s (s.bank.bc.toNat / 2 ^ 16) (fun t => t.bank.bc.toNat / 2 ^ 16) 16)

/-! ## Stack and control transfer (46_stack_branch.md) -/

/-- R391, R392: PUSH stores its operand, read before SP moves, at SP - 4, and SP becomes that address. The bus sees these
accesses and no more, each byte once (R79; the device map and the record of transfers are the model's, log entries 2 and 3). -/
def Obligations.PushStoresBelowSp : Prop :=
  UnaryForms 2 .pushUR .pushUM Size.isDWord (fun _ o1 i s t =>
    let v := readPlace .dword o1 s
    t.bank = s.bank ∧ t.sp = s.sp - 4 ∧ StoredAt .mem .dword (s.sp - 4) v s t ∧
      Seen (writesAt .mem .dword (s.sp - 4) v s ++ placeReads .dword o1 s) s t ∧ t.f = s.f ∧ Elsewhere i s t)

/-- R391, R393: POP takes the dword at SP, adds 4 to SP, and then writes its operand: POP SP leaves the popped value, and an
address is formed from the incremented SP. The bus sees these accesses and no more, each byte once (R79; the device map and
the record of transfers are the model's, log entries 2 and 3). -/
def Obligations.PopLoadsFromSp : Prop :=
  (∀ (r : RegCode) (s : State), unarySel (baseWord (.popUR .dword r)) = 3 ∧
    ∃ t, exec (.popUR .dword r) s = .next t ∧ readReg .dword r t = memRead .dword s.sp s ∧
      (∀ c, c ≠ r → readReg .dword c t = if c = codeSP then s.sp + 4 else readReg .dword c s) ∧
      MemSame s t ∧ Seen (readsAt .mem .dword s.sp s) s t ∧ t.f = s.f ∧ Elsewhere (.popUR .dword r) s t) ∧
  (∀ (m : MemRef) (s : State), unarySel (baseWord (.popUM .dword m)) = 3 ∧
    ∃ t, exec (.popUM .dword m) s = .next t ∧ t.bank = s.bank ∧ t.sp = s.sp + 4 ∧
      (let a := effAddr m { s with sp := s.sp + 4 };
        let v := memRead .dword s.sp s;
        StoredAt .mem .dword a v s t ∧ Seen (writesAt .mem .dword a v s ++ readsAt .mem .dword s.sp s) s t) ∧
      t.f = s.f ∧ Elsewhere (.popUM .dword m) s t)

/-- R393 (the property of 95_test_vectors.md 1.7): PUSH of any register and then POP of it leaves every other register as it
was, SP too, and leaves that register as it was where the four bytes below SP are RAM. (A device there answers as it will:
R70; the device map is the model's, log entry 2.) -/
def Obligations.PushThenPopRestores : Prop :=
  ∀ (r : RegCode) (s : State), ∃ t u,
    exec (.pushUR .dword r) s = .next t ∧ exec (.popUR .dword r) t = .next u ∧
      (∀ c, c ≠ r → readReg .dword c u = readReg .dword c s) ∧
      ((∀ k, k < 4 → isDevice .mem s (byteAddr (s.sp - 4) k) = false) → RegsSame s u) ∧
      u.f = s.f ∧ SystemSame s u

/-- R390, R394, R400, R401, R402: JP, JR_s8 and JR set PC to their target when the condition holds, and only advance PC when
it does not; they change nothing else. -/
def Obligations.JumpsGoToTheirTargets : Prop :=
  let jumps {sz : Size} (target : Src sz → Instr → State → DWord) (cc : Cond) (q : Src sz) (i : Instr) (s t : State) : Prop :=
    t = { s with pc := if holds cc s then target q i s else nextPC i s }
  JumpForm 0 .dword .jp (jumps fun q _ s => readSrc q s) ∧
  JumpForm 1 .byte .jrS8 (jumps fun q i s => nextPC i s + (readSrc q s).signExtend 32) ∧
  JumpForm 2 .word .jr (jumps fun q i s => nextPC i s + (readSrc q s).signExtend 32)

/-- R403, R404, R405, R410: CALL, CALLR_s8 and CALLR push the address of the next instruction and go to a target taken before
the push, when the condition holds; otherwise they only advance PC. RST pushes BaseAddress + 3 and goes to its zero-extended
byte. The bus sees these accesses and no more, each byte once (R79; the device map and the record of transfers are the
model's, log entries 2 and 3). -/
def Obligations.CallsAndRstPushAndGo : Prop :=
  let calls {sz : Size} (target : Src sz → Instr → State → DWord) (cc : Cond) (q : Src sz) (i : Instr) (s t : State) : Prop :=
    if holds cc s then
      t.pc = target q i s ∧ t.sp = s.sp - 4 ∧ t.bank = s.bank ∧ StoredAt .mem .dword (s.sp - 4) (nextPC i s) s t ∧
        Seen (writesAt .mem .dword (s.sp - 4) (nextPC i s) s) s t ∧ t.f = s.f ∧ SystemSame s t ∧ IOSame s t
    else t = { s with pc := nextPC i s }
  JumpForm 3 .dword .call (calls fun q _ s => readSrc q s) ∧
  JumpForm 4 .byte .callrS8 (calls fun q i s => nextPC i s + (readSrc q s).signExtend 32) ∧
  JumpForm 5 .word .callr (calls fun q i s => nextPC i s + (readSrc q s).signExtend 32) ∧
  ∀ (imm : Byte) (s : State), baseWord (.rst imm) = 0x002E ∧
    ∃ t, exec (.rst imm) s = .next t ∧ t.pc = imm.setWidth 32 ∧ t.sp = s.sp - 4 ∧ t.bank = s.bank ∧
      StoredAt .mem .dword (s.sp - 4) (s.pc + 3) s t ∧ Seen (writesAt .mem .dword (s.sp - 4) (s.pc + 3) s) s t ∧
      t.f = s.f ∧ SystemSame s t ∧ IOSame s t

/-- R406, R407, R408: RET, RETI and RETN take PC from the stack when the condition holds; RETN also copies bit 0 of IFF2 into
IE; otherwise they only advance PC. That RETN leaves IFF2 itself is the model's reading (log entry 10). The bus sees these
accesses and no more, each byte once (R79; the device map and the record of transfers are the model's, log entries 2 and 3). -/
def Obligations.ReturnsTakePcFromTheStack : Prop :=
  let returns (mk : Cond → Instr) (op : Nat) (restores : Bool) : Prop := ∀ (cc : Cond) (s : State),
    bits (baseWord (mk cc)) 0 9 = 10 + 16 * op ∧ bits (baseWord (mk cc)) 13 3 = 0 ∧
      ∃ t, exec (mk cc) s = .next t ∧ RegsSameOutside .dword codeSP s t ∧ MemSame s t ∧ SystemSame s t ∧ IOSame s t ∧
        Seen (if holds cc s then readsAt .mem .dword s.sp s else []) s t ∧
        (∀ x, x ≠ Flag.ie → FlagSame x s t) ∧ t.f.getLsbD 3 = s.f.getLsbD 3 ∧
        (if holds cc s then
          t.pc = memRead .dword s.sp s ∧ t.sp = s.sp + 4 ∧
            getFlag .ie t = if restores then s.iff2.getLsbD 0 else getFlag .ie s
        else t.pc = s.pc + 2 ∧ t.sp = s.sp ∧ FlagSame .ie s t)
  returns .ret 6 false ∧ returns .reti 7 false ∧ returns .retn 8 true

/-- R411, R412: DJNZ decrements B.W alone and branches while it is not 0; JANZ branches when A.D is not 0; neither touches a
flag. -/
def Obligations.DjnzAndJanzBranch : Prop :=
  ∀ (disp : Byte) (s : State),
    (let b := s.bank.bc.extractLsb' 16 16 - 1;
      bits (baseWord (.djnz disp)) 12 4 = 1 ∧ bits (baseWord (.djnz disp)) 4 8 = disp.toNat ∧
        exec (.djnz disp) s = .next { s with
          bank := { s.bank with bc := b ++ s.bank.bc.extractLsb' 0 16 }
          pc := if b = 0 then s.pc + 2 else s.pc + 2 + disp.signExtend 32 }) ∧
    (bits (baseWord (.janz disp)) 12 4 = 2 ∧ bits (baseWord (.janz disp)) 4 8 = disp.toNat ∧
      exec (.janz disp) s = .next { s with pc := if s.bank.a = 0 then s.pc + 2 else s.pc + 2 + disp.signExtend 32 })

/-! ## Load, exchange, I/O and system (47_load_exchange_system.md) -/

/-- R430: LD copies operand 2 to operand 1, at the operand size alone, and writes no flag; operand 1 is not read. The bus sees
the accesses of R83 and no more, each byte once (R79; the device map and the record of transfers are the model's, log entries
2 and 3). -/
def Obligations.LdCopiesTheSource : Prop :=
  BinaryForms 0 .ldR .ldRM (fun sz o1 o2 i s t =>
    CopiesInto (operandReads sz o2 s) sz o1 (readOp sz o2 s) i s t)

/-- R431: EX of two registers exchanges the views; every other bit of the register file is unchanged,
and neither bus is accessed. -/
def Obligations.ExExchangesRegisters : Prop :=
  ∀ (sz : Size) (d c : RegCode) (s : State),
    bits (baseWord (.exR sz d (.reg c))) 2 6 = 1 ∧
    ∃ t, exec (.exR sz d (.reg c)) s = .next t ∧ readReg sz d t = readReg sz c s ∧ readReg sz c t = readReg sz d s ∧
      (∀ (n : RegName) (k : Nat),
        (∀ x ∈ [d, c], ¬(n = (viewSlot sz x).1 ∧ (viewSlot sz x).2 ≤ k ∧ k < (viewSlot sz x).2 + sz.bits)) →
          (readStore n t).getLsbD k = (readStore n s).getLsbD k) ∧
      MemSame s t ∧ Seen [] s t ∧ t.f = s.f ∧ Elsewhere (.exR sz d (.reg c)) s t

/-- R431, R83: EX of a register and memory exchanges the two values. With the register first, the memory write uses the
address formed after the register was written; with memory first, the address both accesses form is the same. The bus sees the
accesses of R83 and no more, each byte once (R79; the device map and the record of transfers are the model's, log entries 2
and 3). -/
def Obligations.ExExchangesRegisterAndMemory : Prop :=
  let exchanged (sz : Size) (r : RegCode) (m : MemRef) (a : DWord) (i : Instr) (s t : State) : Prop :=
    readReg sz r t = memRead sz (effAddr m s) s ∧ RegsSameOutside sz r s t ∧
      StoredAt .mem sz a (readReg sz r s) s t ∧
      Seen (writesAt .mem sz a (readReg sz r s) s ++ readsAt .mem sz (effAddr m s) s) s t ∧ t.f = s.f ∧ Elsewhere i s t
  ∀ (sz : Size) (r : RegCode) (m : MemRef) (s : State),
    (∃ t, exec (.exRM sz (.load r m)) s = .next t ∧
      exchanged sz r m (effAddr m (writeReg sz r (memRead sz (effAddr m s) s) s)) (.exRM sz (.load r m)) s t) ∧
    (∃ t, exec (.exRM sz (.store m (.reg r))) s = .next t ∧
      exchanged sz r m (effAddr m s) (.exRM sz (.store m (.reg r))) s t)

/-- R431, R166, R502, R503: EX with an immediate operand 2 records WriteToImmediate with BaseAddress and base word, and
changes nothing else, PC included. -/
def Obligations.ExOfAnImmediateIsAViolation : Prop :=
  let raises (i : Instr) (s : State) : Prop := exec i s = .next { s with
    fault := some { error := .contractViolation .writeToImmediate, base := s.pc, word := baseWord i } }
  ∀ (sz : Size) (v : BitVec sz.bits) (s : State),
    (∀ d : RegCode, raises (.exR sz d (.imm v)) s) ∧ (∀ m : MemRef, raises (.exRM sz (.store m (.imm v))) s)

/-- R434: IN loads the register view from the I/O bus at its effective address, with one read there; memory and flags are
untouched. The bus sees these accesses and no more, each byte once (R79; the device map and the record of transfers are the
model's, log entries 2 and 3). -/
def Obligations.InLoadsFromTheIoBus : Prop :=
  ∀ (sz : Size) (r : RegCode) (m : MemRef) (s : State),
    bits (baseWord (.inRM sz r m)) 0 8 = 0xD5 ∧
    ∃ t, exec (.inRM sz r m) s = .next t ∧ readReg sz r t = ioRead sz (effAddr m s) s ∧ RegsSameOutside sz r s t ∧
      Seen (readsAt .io sz (effAddr m s) s) s t ∧ MemSame s t ∧ t.f = s.f ∧ Elsewhere (.inRM sz r m) s t

/-- R435: OUT writes its register or immediate to the I/O bus at its effective address, and reads neither bus; registers,
memory and flags are untouched. The bus sees these accesses and no more, each byte once (R79; the device map and the record of
transfers are the model's, log entries 2 and 3). -/
def Obligations.OutWritesToTheIoBus : Prop :=
  ∀ (sz : Size) (m : MemRef) (q : Src sz) (s : State),
    bits (baseWord (.outRM sz m q)) 0 8 = 0x55 ∧
    ∃ t, exec (.outRM sz m q) s = .next t ∧ StoredAt .io sz (effAddr m s) (readSrc q s) s t ∧
      Seen (writesAt .io sz (effAddr m s) (readSrc q s) s) s t ∧ RegsSame s t ∧ MemSame s t ∧ t.f = s.f ∧
      SystemSame s t ∧ AtNext (.outRM sz m q) s t

/-- R440: EX_Alt exchanges exactly the bits of one view between the two banks. -/
def Obligations.ExAltExchangesOneView : Prop :=
  ∀ (sz : Size) (r : RegCode) (s : State) (b : BankReg), (viewSlot sz r).1 = .banked b →
    let lo := (viewSlot sz r).2
    ∃ t, exec (.exAltUR sz r) s = .next t ∧
      (t.bank.get b).extractLsb' lo sz.bits = (s.alt.get b).extractLsb' lo sz.bits ∧
      (t.alt.get b).extractLsb' lo sz.bits = (s.bank.get b).extractLsb' lo sz.bits ∧
      (∀ (n : BankReg) (k : Nat), ¬(n = b ∧ lo ≤ k ∧ k < lo + sz.bits) →
        (t.bank.get n).getLsbD k = (s.bank.get n).getLsbD k ∧ (t.alt.get n).getLsbD k = (s.alt.get n).getLsbD k) ∧
      t = { s with bank := t.bank, alt := t.alt, pc := s.pc + 2 }

/-- R441, R442: EXX exchanges BC, DE and HL with the alternate bank and EXI IX and IY; nothing else changes. EXX's register
set is "from general knowledge, not in source" (R441). -/
def Obligations.ExxAndExiExchangeTheBanks : Prop :=
  ∀ s : State,
    baseWord .exx = 0x001E ∧ baseWord .exi = 0x011E ∧
    exec .exx s = .next { s with
      bank := { s.bank with bc := s.alt.bc, de := s.alt.de, hl := s.alt.hl }
      alt := { s.alt with bc := s.bank.bc, de := s.bank.de, hl := s.bank.hl }
      pc := s.pc + 2 } ∧
    exec .exi s = .next { s with
      bank := { s.bank with ix := s.alt.ix, iy := s.alt.iy }
      alt := { s.alt with ix := s.bank.ix, iy := s.bank.iy }
      pc := s.pc + 2 }

/-- R450, R451, R452, R460, R461: LD_I_NN loads I, LD_R_A copies A.B to R, LD_A_R copies R to A.B and leaves A[31:8], NOP
only advances PC, HALT sets `halted`; nothing else changes, and no flag is written. -/
def Obligations.SystemInstructionsResults : Prop :=
  ∀ (imm : DWord) (s : State),
    (baseWord (.ldINN imm) = 0x004E ∧ exec (.ldINN imm) s = .next { s with i := imm, pc := s.pc + 6 }) ∧
    (baseWord .ldRA = 0x014E ∧ exec .ldRA s = .next { s with r := s.bank.a.extractLsb' 0 8, pc := s.pc + 2 }) ∧
    (baseWord .ldAR = 0x024E ∧ exec .ldAR s = .next { s with
      bank := { s.bank with a := s.bank.a.extractLsb' 8 24 ++ s.r }, pc := s.pc + 2 }) ∧
    (baseWord .nop = 0x000F ∧ exec .nop s = .next { s with pc := s.pc + 2 }) ∧
    (baseWord .halt = 0x034E ∧ exec .halt s = .next { s with halted := true, pc := s.pc + 2 })

/-! ## The register file and the buses -/

/-- R31, R33: the view that each register code selects at each size, as bits of the storages; at DWord the codes reach BC,
DE, HL, SP, IX, IY and A. -/
def Obligations.RegisterCodesSelectTheirViews : Prop :=
  ∀ s : State,
    (readReg .byte .r0 s = s.bank.bc.extractLsb' 16 8 ∧ readReg .byte .r1 s = s.bank.bc.extractLsb' 0 8 ∧
      readReg .byte .r2 s = s.bank.de.extractLsb' 16 8 ∧ readReg .byte .r3 s = s.bank.de.extractLsb' 0 8 ∧
      readReg .byte .r4 s = s.bank.hl.extractLsb' 16 8 ∧ readReg .byte .r5 s = s.bank.hl.extractLsb' 0 8 ∧
      readReg .byte .r6 s = s.bank.a.extractLsb' 0 8) ∧
    (readReg .word .r0 s = s.bank.bc.extractLsb' 16 16 ∧ readReg .word .r1 s = s.bank.bc.extractLsb' 0 16 ∧
      readReg .word .r2 s = s.bank.de.extractLsb' 16 16 ∧ readReg .word .r3 s = s.bank.de.extractLsb' 0 16 ∧
      readReg .word .r4 s = s.bank.hl.extractLsb' 16 16 ∧ readReg .word .r5 s = s.bank.hl.extractLsb' 0 16 ∧
      readReg .word .r6 s = s.bank.a.extractLsb' 0 16) ∧
    (readReg .dword .r0 s = s.bank.bc ∧ readReg .dword .r1 s = s.bank.de ∧ readReg .dword .r2 s = s.bank.hl ∧
      readReg .dword .r3 s = s.sp ∧ readReg .dword .r4 s = s.bank.ix ∧ readReg .dword .r5 s = s.bank.iy ∧
      readReg .dword .r6 s = s.bank.a)

/-- R34, R82, R107: the effective address: the base register's value for BC, DE, HL and A; that of SP, IX or IY plus the
sign-extended displacement, modulo 2^32; the direct address itself. -/
def Obligations.EffectiveAddresses : Prop :=
  ∀ (s : State) (d : BitVec 16) (a : DWord),
    (effAddr (.ind .r0 none) s = s.bank.bc ∧ effAddr (.ind .r1 none) s = s.bank.de ∧
      effAddr (.ind .r2 none) s = s.bank.hl ∧ effAddr (.ind .r6 none) s = s.bank.a) ∧
    ((effAddr (.ind .r3 (some d)) s).toInt = (s.sp.toInt + d.toInt).bmod (2 ^ 32) ∧
      (effAddr (.ind .r4 (some d)) s).toInt = (s.bank.ix.toInt + d.toInt).bmod (2 ^ 32) ∧
      (effAddr (.ind .r5 (some d)) s).toInt = (s.bank.iy.toInt + d.toInt).bmod (2 ^ 32)) ∧
    effAddr (.direct a) s = a

/-- R40, R390: the conditions test Z, C, PV and S at bits 6, 0, 2 and 7 of F, and the ninth always holds. The meanings are
the spec's own decision D17, from the lineage. -/
def Obligations.ConditionsTestTheirFlags : Prop :=
  ∀ s : State,
    holds .nz s = !s.f.getLsbD 6 ∧ holds .z s = s.f.getLsbD 6 ∧ holds .nc s = !s.f.getLsbD 0 ∧ holds .c s = s.f.getLsbD 0 ∧
    holds .po s = !s.f.getLsbD 2 ∧ holds .pe s = s.f.getLsbD 2 ∧ holds .p s = !s.f.getLsbD 7 ∧ holds .m s = s.f.getLsbD 7 ∧
    holds .always s = true

/-- R32: a view written reads back, and every other bit of the register file is unchanged; so a view that shares no bit is
too. -/
def Obligations.ViewsShareStorage : Prop :=
  ∀ (sz : Size) (c : RegCode) (v : BitVec sz.bits) (s : State),
    readReg sz c (writeReg sz c v s) = v ∧ RegsSameOutside sz c s (writeReg sz c v s) ∧
      ∃ b p, writeReg sz c v s = { s with bank := b, sp := p }

/-- R70 to R74, R79, R86: on both buses, byte k of a read is what the address a + k answers: RAM its byte, a device an answer
that is free and that may depend on every transfer so far, the read's earlier bytes included; a write stores byte k of its
value there, or hands it to the device; every other byte of RAM is left, and devices see one transfer a byte, in ascending
order, addresses wrapping at 2^32. That each address is RAM throughout or a device throughout, by a map that is free, is the
model's form of the parameter BUS (log entries 2 and 3). -/
def Obligations.MemoryIsLittleEndian : Prop :=
  let accesses (sp : Space) (rd : (sz : Size) → DWord → State → BitVec sz.bits)
      (wr : (sz : Size) → DWord → BitVec sz.bits → State → State) : Prop :=
    ∀ (sz : Size) (a : DWord) (v : BitVec sz.bits) (s : State),
      let at_ (k : Nat) : Nat := (a.toNat + k) % 2 ^ 32
      let device (k : Nat) : Bool := isDevice sp s (at_ k)
      let t := wr sz a v s
      (∀ k < sz.bytes, (rd sz a s).extractLsb' (8 * k) 8 =
        if device k then
          Config.deviceAnswer
            (((List.range k).filter device).reverse.map (fun j => Transfer.read sp (at_ j)) ++ s.transfers) sp (at_ k)
        else (ramOf sp s).read (at_ k)) ∧
      (∀ k < sz.bytes, (ramOf sp t).read (at_ k) =
        if device k then (ramOf sp s).read (at_ k) else v.extractLsb' (8 * k) 8) ∧
      (∀ b : Nat, (∀ k < sz.bytes, b ≠ at_ k) → (ramOf sp t).read b = (ramOf sp s).read b) ∧
      readsAt sp sz a s = ((List.range sz.bytes).filter device).reverse.map (fun j => .read sp (at_ j)) ∧
      t.transfers = ((List.range sz.bytes).filter device).reverse.map
        (fun j => .write sp (at_ j) (v.extractLsb' (8 * j) 8)) ++ s.transfers
  accesses .mem memRead memWrite ∧ accesses .io ioRead ioWrite

/-- R89, R611: a fetch sees the bytes that memory holds now: after bytes equal to an instruction's encoding have been stored
at PC, in RAM (by the model's device map, log entry 2), the next step runs that instruction. The spec marks R89 and R611 as
its own inferences ("derived: from rule R86"). -/
def Obligations.StoredInstructionRunsNext : Prop :=
  ∀ (i : Instr) (s : State), i.wf = true → stopped s = false →
    (∀ k < (encode i).length, isDevice .mem s (byteAddr s.pc k) = false) →
    let u := { s with mem := s.mem.storeBytes s.pc (encode i) }
    step u = exec i u

/-! ## Decoding (30_encoding.md) -/

/-- R100 to R162: decoding the encoding of a well-formed instruction gives it back, whatever bytes follow. -/
def Obligations.DecodeEncodeRoundTrip : Prop :=
  ∀ (i : Instr) (f : Nat → Byte), i.wf = true → (∀ k < (encode i).length, f k = (encode i).getD k 0) → decode f = .ok i

/-- R162: what decodes is well-formed, and its encoding is exactly the bytes consumed: each encoding has one meaning. -/
def Obligations.EncodeDecodeRoundTrip : Prop :=
  ∀ (i : Instr) (f : Nat → Byte), decode f = .ok i →
    i.wf = true ∧ (encode i).length = instrLength i ∧ ∀ k < (encode i).length, f k = (encode i).getD k 0

/-- R104, marked by the spec as its own inference ("derived: from rules R105-R107" and others): the base word alone decides
the length, which is one of eight; and it decides whether an instruction decodes and to which mnemonic. -/
def Obligations.BaseWordDecidesLengthAndMnemonic : Prop :=
  ∀ f g : Nat → Byte, f 0 = g 0 → f 1 = g 1 → ∀ i, decode f = .ok i →
    instrLength i ∈ [2, 3, 4, 5, 6, 7, 8, 10] ∧
    ∃ j, decode g = .ok j ∧ instrLength j = instrLength i ∧ baseWord j = baseWord i ∧ mnemonic j = mnemonic i

/-- R162, R163, R501: decoding fails exactly when a check of the spec's list fails on the base word, and reports the first
that does, in the order of R163: subgroup, selectors, condition, size code, reserved bits, register codes, size legality. -/
def Obligations.DecodeErrorsFollowTheCheckOrder : Prop :=
  ∀ (f : Nat → Byte) (e : DecodeField),
    decode f = .error e ↔ (encodingChecks (f 1 ++ f 0)).find? (fun c => c.1) = some (true, e)

/-- A few words written out from their encodings decode as they should (95_test_vectors.md section 2): a sanity statement. -/
def Obligations.SampleWordsDecode : Prop :=
  decodeTableWord 16 0x1808 = some (.addR .byte .r6 (.reg .r0)) ∧
  decodeTableWord 32 0x00089A81 = some (.ldRM .dword (.load .r6 (.ind .r4 (some 8)))) ∧
  decodeTableWord 64 0x123400001000FD01 = some (.ldRM .word (.store (.direct 0x1000) (.imm 0x1234))) ∧
  decodeTableWord 16 0x4A02 = some (.pushUR .dword .r2) ∧
  decodeTableWord 48 0x00001000E20A = some (.jp .z (.imm 0x1000)) ∧
  decodeTableWord 16 0x1F6F = some (.djnz 0xF6) ∧
  decodeTableWord 16 0x080E = some (.ldir .byte) ∧
  decodeTableWord 16 0x18D5 = some (.inRM .byte .r6 (.ind .r0 none)) ∧
  decodeTableWord 16 0x306A = none

/-! ## The step and the whole machine -/

/-- R165, R79: a block that is not stopped runs the instruction its decoder reads at PC, after its bytes have been fetched
from the memory bus, each once and in order. (The record of the fetch's transfers is the model's, log entry 3.) -/
def Obligations.StepRunsTheDecodedInstruction : Prop :=
  ∀ (s : State) (i : Instr), stopped s = false → decodeAtPC s = .ok i →
    step s = exec i { s with transfers := readTransfers .mem s.pc s (instrLength i) ++ s.transfers }

/-- R45, R46, R514: a step on a halted or faulted block does nothing and returns 0 cycles. -/
def Obligations.StoppedBlockTakesNoStep : Prop :=
  ∀ s : State, s.halted = true ∨ s.fault ≠ none → step s = .next s ∧ cycleOutput s = 0

/-- R500, R501, R503: an encoding error sets `fault` to its identity with BaseAddress and base word, and changes nothing else
in the block; what it has fetched, in the model's record (log entry 3), is the base word alone. The step returns 0 cycles
(R620, the spec's decision D54). -/
def Obligations.EncodingErrorsArePrecise : Prop :=
  ∀ (s : State) (e : DecodeField), stopped s = false → decodeAtPC s = .error e →
    step s = .next { s with
      fault := some { error := .decodeError e, base := s.pc, word := memRead .word s.pc s }
      transfers := readsAt .mem .word s.pc s ++ s.transfers } ∧ cycleOutput s = 0

/-- R503, R507: a step that changes `fault` changes nothing else in the block, and the block takes no step after it. What it has
read of the bus, in the model's record (log entry 3), is the base word where decoding fails, else the whole instruction (R503). -/
def Obligations.FaultingStepsStopTheBlock : Prop :=
  ∀ s t : State, step s = .next t → t.fault ≠ s.fault →
    (let n := match decodeAtPC s with
        | .error _ => 2
        | .ok i => instrLength i
      t = { s with fault := t.fault, transfers := readTransfers .mem s.pc s n ++ s.transfers }) ∧
      step t = .next t

/-- The model's reading (log entry 5): no step of any state answers the host's fault or refused outcome. An erroring step
answers the state that R500 describes, a stopped block its own state (R514). -/
def Obligations.EveryStepAnswersANextState : Prop := ∀ s : State, ∃ t, step s = .next t

/-- R600: a reset clears every register of both banks, SP, F, I, R, IFF2, `halted` and `fault`, loads PC from the dword at
address 0 with four byte reads, and writes neither bus. (The record of the reads is the model's, log entry 3.) -/
def Obligations.ResetClearsAndLoadsPc : Prop :=
  ∀ s : State, hostReset s =
    { bank := ⟨0, 0, 0, 0, 0, 0⟩, alt := ⟨0, 0, 0, 0, 0, 0⟩, sp := 0, pc := memRead .dword 0 s, f := 0, i := 0, r := 0,
      iff2 := 0, halted := false, fault := none, mem := s.mem, io := s.io, devices := s.devices
      transfers := readsAt .mem .dword 0 s ++ s.transfers }

/-- The state after reset meets the invariant. -/
def Obligations.ResetMeetsTheInvariant : Prop := Inv State.reset

/-- Every step keeps the invariant: canonical bus contents, not both halted and faulted (R506), bit 3 of F clear (R40), IFF2
0 or 1 (D6). The canonical form is the model's (log entry 2). -/
def Obligations.StepKeepsTheInvariant : Prop := ∀ s t : State, Inv s → step s = .next t → Inv t

/-- 10_state.md section 4, what the spec marks as its own inference ("derived: from this rule"): once IE and IFF2 are both 0,
as reset leaves them, every step keeps both 0. -/
def Obligations.InterruptEnableStaysClear : Prop :=
  ∀ s t : State, getFlag .ie s = false → s.iff2 = 0 → step s = .next t → getFlag .ie t = false ∧ t.iff2 = 0

/-- R33, R43, R44, R45: I changes only by LD_I_NN (R43), R only by LD_R_A (R44), the alternate bank only by EX_Alt, EXX and EXI
(R33), `halted` only by HALT (R45). IFF2 changes by nothing, RETN included: the model's reading (log entry 10), from R505 and
D46. -/
def Obligations.SystemStateHasOneWriter : Prop :=
  ∀ (i : Instr) (s t : State), exec i s = .next t →
    t.iff2 = s.iff2 ∧
    (t.i ≠ s.i → ∃ imm, i = .ldINN imm) ∧ (t.r ≠ s.r → i = .ldRA) ∧
    (t.alt ≠ s.alt → i = .exx ∨ i = .exi ∨ ∃ sz r, i = .exAltUR sz r) ∧ (t.halted ≠ s.halted → i = .halt)

/-- R71: only IN, OUT and the block I/O instructions touch the I/O bus, in its RAM or with a transfer that a device there
sees. Of the model's own fields (log entries 2 and 3), no instruction changes the device map, and the transfers only grow. -/
def Obligations.OnlyIoInstructionsTouchTheIoBus : Prop :=
  ∀ (i : Instr) (s t : State), exec i s = .next t →
    t.devices = s.devices ∧ ∃ l, Seen l s t ∧ (t.io ≠ s.io ∨ l.any onIo = true →
      mnemonic i ∈ ["IN", "OUT", "INI", "IND", "INIR", "INDR", "OUTI", "OUTD", "OUTIR", "OUTDR"])

/-- R41: the instructions that the flag table does not name leave all of F, and of all instructions only RETN writes IE. -/
def Obligations.OtherInstructionsLeaveEveryFlag : Prop :=
  ∀ (i : Instr) (s t : State), exec i s = .next t →
    (mnemonic i ∈ ["LD", "EX", "IN", "OUT", "EX_Alt", "EXX", "EXI", "EXH", "EXT", "MLT", "PUSH", "POP", "SET", "RES", "JP", "JR_s8",
        "JR", "CALL", "CALLR_s8", "CALLR", "RET", "RETI", "RST", "DJNZ", "JANZ", "LD_I_NN", "LD_R_A", "LD_A_R", "NOP", "HALT"] →
      t.f = s.f) ∧
    (getFlag .ie t ≠ getFlag .ie s → mnemonic i = "RETN") ∧ t.f.getLsbD 3 = s.f.getLsbD 3

/-- R620, R622: a BR instruction whose condition is false costs exactly FetchCycles, and one whose condition holds
FetchCycles plus its surcharge. -/
def Obligations.BranchCostsFetchPlusSurcharge : Prop :=
  ∀ (s : State) (i : Instr) (cc : Cond) (op : BranchOp), stopped s = false → decodeAtPC s = .ok i →
    (i = .ret cc ∧ op = .ret ∨ i = .reti cc ∧ op = .reti ∨ i = .retn cc ∧ op = .retn ∨
      (∃ q, i = .jp cc q) ∧ op = .jp ∨ (∃ q, i = .jrS8 cc q) ∧ op = .jrS8 ∨ (∃ q, i = .jr cc q) ∧ op = .jr ∨
      (∃ q, i = .call cc q) ∧ op = .call ∨ (∃ q, i = .callrS8 cc q) ∧ op = .callrS8 ∨
      (∃ q, i = .callr cc q) ∧ op = .callr) →
    cycleOutput s = fetchCycles i s.pc + if holds cc s then Config.branchSurcharge op else 0
end

