-- ==== Sys2Proof/Laws/State.lean ====
section
/-! SUPPORT. One lemma a field and update of the state: what each named operation leaves in each field; and what each read of the
state gives after an update that leaves what it reads. Later proofs cite these instead of unfolding a record update. -/

namespace Sys2Proof.Machine

/-! ## `setPC` -/

@[simp] theorem setPC_bank (p : DWord) (s : State) :
    (setPC p s).bank = s.bank := rfl
@[simp] theorem setPC_alt (p : DWord) (s : State) :
    (setPC p s).alt = s.alt := rfl
@[simp] theorem setPC_sp (p : DWord) (s : State) :
    (setPC p s).sp = s.sp := rfl
@[simp] theorem setPC_pc (p : DWord) (s : State) :
    (setPC p s).pc = p := rfl
@[simp] theorem setPC_f (p : DWord) (s : State) :
    (setPC p s).f = s.f := rfl
@[simp] theorem setPC_i (p : DWord) (s : State) :
    (setPC p s).i = s.i := rfl
@[simp] theorem setPC_r (p : DWord) (s : State) :
    (setPC p s).r = s.r := rfl
@[simp] theorem setPC_iff2 (p : DWord) (s : State) :
    (setPC p s).iff2 = s.iff2 := rfl
@[simp] theorem setPC_halted (p : DWord) (s : State) :
    (setPC p s).halted = s.halted := rfl
@[simp] theorem setPC_fault (p : DWord) (s : State) :
    (setPC p s).fault = s.fault := rfl
@[simp] theorem setPC_mem (p : DWord) (s : State) :
    (setPC p s).mem = s.mem := rfl
@[simp] theorem setPC_io (p : DWord) (s : State) :
    (setPC p s).io = s.io := rfl
@[simp] theorem setPC_devices (p : DWord) (s : State) :
    (setPC p s).devices = s.devices := rfl
@[simp] theorem setPC_transfers (p : DWord) (s : State) :
    (setPC p s).transfers = s.transfers := rfl

/-! ## `advance` -/

@[simp] theorem advance_bank (j : Instr) (s : State) :
    (advance j s).bank = s.bank := rfl
@[simp] theorem advance_alt (j : Instr) (s : State) :
    (advance j s).alt = s.alt := rfl
@[simp] theorem advance_sp (j : Instr) (s : State) :
    (advance j s).sp = s.sp := rfl
@[simp] theorem advance_pc (j : Instr) (s : State) :
    (advance j s).pc = s.pc + BitVec.ofNat 32 (instrLength j) := rfl
@[simp] theorem advance_f (j : Instr) (s : State) :
    (advance j s).f = s.f := rfl
@[simp] theorem advance_i (j : Instr) (s : State) :
    (advance j s).i = s.i := rfl
@[simp] theorem advance_r (j : Instr) (s : State) :
    (advance j s).r = s.r := rfl
@[simp] theorem advance_iff2 (j : Instr) (s : State) :
    (advance j s).iff2 = s.iff2 := rfl
@[simp] theorem advance_halted (j : Instr) (s : State) :
    (advance j s).halted = s.halted := rfl
@[simp] theorem advance_fault (j : Instr) (s : State) :
    (advance j s).fault = s.fault := rfl
@[simp] theorem advance_mem (j : Instr) (s : State) :
    (advance j s).mem = s.mem := rfl
@[simp] theorem advance_io (j : Instr) (s : State) :
    (advance j s).io = s.io := rfl
@[simp] theorem advance_devices (j : Instr) (s : State) :
    (advance j s).devices = s.devices := rfl
@[simp] theorem advance_transfers (j : Instr) (s : State) :
    (advance j s).transfers = s.transfers := rfl

/-! ## `afterRead` -/

@[simp] theorem afterRead_bank (sp : Space) (a : DWord) (n : Nat) (s : State) :
    (afterRead sp a n s).bank = s.bank := rfl
@[simp] theorem afterRead_alt (sp : Space) (a : DWord) (n : Nat) (s : State) :
    (afterRead sp a n s).alt = s.alt := rfl
@[simp] theorem afterRead_sp (sp : Space) (a : DWord) (n : Nat) (s : State) :
    (afterRead sp a n s).sp = s.sp := rfl
@[simp] theorem afterRead_pc (sp : Space) (a : DWord) (n : Nat) (s : State) :
    (afterRead sp a n s).pc = s.pc := rfl
@[simp] theorem afterRead_f (sp : Space) (a : DWord) (n : Nat) (s : State) :
    (afterRead sp a n s).f = s.f := rfl
@[simp] theorem afterRead_i (sp : Space) (a : DWord) (n : Nat) (s : State) :
    (afterRead sp a n s).i = s.i := rfl
@[simp] theorem afterRead_r (sp : Space) (a : DWord) (n : Nat) (s : State) :
    (afterRead sp a n s).r = s.r := rfl
@[simp] theorem afterRead_iff2 (sp : Space) (a : DWord) (n : Nat) (s : State) :
    (afterRead sp a n s).iff2 = s.iff2 := rfl
@[simp] theorem afterRead_halted (sp : Space) (a : DWord) (n : Nat) (s : State) :
    (afterRead sp a n s).halted = s.halted := rfl
@[simp] theorem afterRead_fault (sp : Space) (a : DWord) (n : Nat) (s : State) :
    (afterRead sp a n s).fault = s.fault := rfl
@[simp] theorem afterRead_mem (sp : Space) (a : DWord) (n : Nat) (s : State) :
    (afterRead sp a n s).mem = s.mem := rfl
@[simp] theorem afterRead_io (sp : Space) (a : DWord) (n : Nat) (s : State) :
    (afterRead sp a n s).io = s.io := rfl
@[simp] theorem afterRead_devices (sp : Space) (a : DWord) (n : Nat) (s : State) :
    (afterRead sp a n s).devices = s.devices := rfl
@[simp] theorem afterRead_transfers (sp : Space) (a : DWord) (n : Nat) (s : State) :
    (afterRead sp a n s).transfers = readTransfers sp a s n ++ s.transfers := rfl

/-! ## `fetched` -/

@[simp] theorem fetched_bank (n : Nat) (s : State) :
    (fetched n s).bank = s.bank := rfl
@[simp] theorem fetched_alt (n : Nat) (s : State) :
    (fetched n s).alt = s.alt := rfl
@[simp] theorem fetched_sp (n : Nat) (s : State) :
    (fetched n s).sp = s.sp := rfl
@[simp] theorem fetched_pc (n : Nat) (s : State) :
    (fetched n s).pc = s.pc := rfl
@[simp] theorem fetched_f (n : Nat) (s : State) :
    (fetched n s).f = s.f := rfl
@[simp] theorem fetched_i (n : Nat) (s : State) :
    (fetched n s).i = s.i := rfl
@[simp] theorem fetched_r (n : Nat) (s : State) :
    (fetched n s).r = s.r := rfl
@[simp] theorem fetched_iff2 (n : Nat) (s : State) :
    (fetched n s).iff2 = s.iff2 := rfl
@[simp] theorem fetched_halted (n : Nat) (s : State) :
    (fetched n s).halted = s.halted := rfl
@[simp] theorem fetched_fault (n : Nat) (s : State) :
    (fetched n s).fault = s.fault := rfl
@[simp] theorem fetched_mem (n : Nat) (s : State) :
    (fetched n s).mem = s.mem := rfl
@[simp] theorem fetched_io (n : Nat) (s : State) :
    (fetched n s).io = s.io := rfl
@[simp] theorem fetched_devices (n : Nat) (s : State) :
    (fetched n s).devices = s.devices := rfl
@[simp] theorem fetched_transfers (n : Nat) (s : State) :
    (fetched n s).transfers = readTransfers .mem s.pc s n ++ s.transfers := rfl

/-! ## `memTouch` -/

@[simp] theorem memTouch_bank (sz : Size) (a : DWord) (s : State) :
    (memTouch sz a s).bank = s.bank := rfl
@[simp] theorem memTouch_alt (sz : Size) (a : DWord) (s : State) :
    (memTouch sz a s).alt = s.alt := rfl
@[simp] theorem memTouch_sp (sz : Size) (a : DWord) (s : State) :
    (memTouch sz a s).sp = s.sp := rfl
@[simp] theorem memTouch_pc (sz : Size) (a : DWord) (s : State) :
    (memTouch sz a s).pc = s.pc := rfl
@[simp] theorem memTouch_f (sz : Size) (a : DWord) (s : State) :
    (memTouch sz a s).f = s.f := rfl
@[simp] theorem memTouch_i (sz : Size) (a : DWord) (s : State) :
    (memTouch sz a s).i = s.i := rfl
@[simp] theorem memTouch_r (sz : Size) (a : DWord) (s : State) :
    (memTouch sz a s).r = s.r := rfl
@[simp] theorem memTouch_iff2 (sz : Size) (a : DWord) (s : State) :
    (memTouch sz a s).iff2 = s.iff2 := rfl
@[simp] theorem memTouch_halted (sz : Size) (a : DWord) (s : State) :
    (memTouch sz a s).halted = s.halted := rfl
@[simp] theorem memTouch_fault (sz : Size) (a : DWord) (s : State) :
    (memTouch sz a s).fault = s.fault := rfl
@[simp] theorem memTouch_mem (sz : Size) (a : DWord) (s : State) :
    (memTouch sz a s).mem = s.mem := rfl
@[simp] theorem memTouch_io (sz : Size) (a : DWord) (s : State) :
    (memTouch sz a s).io = s.io := rfl
@[simp] theorem memTouch_devices (sz : Size) (a : DWord) (s : State) :
    (memTouch sz a s).devices = s.devices := rfl
@[simp] theorem memTouch_transfers (sz : Size) (a : DWord) (s : State) :
    (memTouch sz a s).transfers = readsAt .mem sz a s ++ s.transfers := rfl

/-! ## `ioTouch` -/

@[simp] theorem ioTouch_bank (sz : Size) (a : DWord) (s : State) :
    (ioTouch sz a s).bank = s.bank := rfl
@[simp] theorem ioTouch_alt (sz : Size) (a : DWord) (s : State) :
    (ioTouch sz a s).alt = s.alt := rfl
@[simp] theorem ioTouch_sp (sz : Size) (a : DWord) (s : State) :
    (ioTouch sz a s).sp = s.sp := rfl
@[simp] theorem ioTouch_pc (sz : Size) (a : DWord) (s : State) :
    (ioTouch sz a s).pc = s.pc := rfl
@[simp] theorem ioTouch_f (sz : Size) (a : DWord) (s : State) :
    (ioTouch sz a s).f = s.f := rfl
@[simp] theorem ioTouch_i (sz : Size) (a : DWord) (s : State) :
    (ioTouch sz a s).i = s.i := rfl
@[simp] theorem ioTouch_r (sz : Size) (a : DWord) (s : State) :
    (ioTouch sz a s).r = s.r := rfl
@[simp] theorem ioTouch_iff2 (sz : Size) (a : DWord) (s : State) :
    (ioTouch sz a s).iff2 = s.iff2 := rfl
@[simp] theorem ioTouch_halted (sz : Size) (a : DWord) (s : State) :
    (ioTouch sz a s).halted = s.halted := rfl
@[simp] theorem ioTouch_fault (sz : Size) (a : DWord) (s : State) :
    (ioTouch sz a s).fault = s.fault := rfl
@[simp] theorem ioTouch_mem (sz : Size) (a : DWord) (s : State) :
    (ioTouch sz a s).mem = s.mem := rfl
@[simp] theorem ioTouch_io (sz : Size) (a : DWord) (s : State) :
    (ioTouch sz a s).io = s.io := rfl
@[simp] theorem ioTouch_devices (sz : Size) (a : DWord) (s : State) :
    (ioTouch sz a s).devices = s.devices := rfl
@[simp] theorem ioTouch_transfers (sz : Size) (a : DWord) (s : State) :
    (ioTouch sz a s).transfers = readsAt .io sz a s ++ s.transfers := rfl

/-! ## `touchPlace` -/

@[simp] theorem touchPlace_bank (sz : Size) (p : Place) (s : State) :
    (touchPlace sz p s).bank = s.bank := rfl
@[simp] theorem touchPlace_alt (sz : Size) (p : Place) (s : State) :
    (touchPlace sz p s).alt = s.alt := rfl
@[simp] theorem touchPlace_sp (sz : Size) (p : Place) (s : State) :
    (touchPlace sz p s).sp = s.sp := rfl
@[simp] theorem touchPlace_pc (sz : Size) (p : Place) (s : State) :
    (touchPlace sz p s).pc = s.pc := rfl
@[simp] theorem touchPlace_f (sz : Size) (p : Place) (s : State) :
    (touchPlace sz p s).f = s.f := rfl
@[simp] theorem touchPlace_i (sz : Size) (p : Place) (s : State) :
    (touchPlace sz p s).i = s.i := rfl
@[simp] theorem touchPlace_r (sz : Size) (p : Place) (s : State) :
    (touchPlace sz p s).r = s.r := rfl
@[simp] theorem touchPlace_iff2 (sz : Size) (p : Place) (s : State) :
    (touchPlace sz p s).iff2 = s.iff2 := rfl
@[simp] theorem touchPlace_halted (sz : Size) (p : Place) (s : State) :
    (touchPlace sz p s).halted = s.halted := rfl
@[simp] theorem touchPlace_fault (sz : Size) (p : Place) (s : State) :
    (touchPlace sz p s).fault = s.fault := rfl
@[simp] theorem touchPlace_mem (sz : Size) (p : Place) (s : State) :
    (touchPlace sz p s).mem = s.mem := rfl
@[simp] theorem touchPlace_io (sz : Size) (p : Place) (s : State) :
    (touchPlace sz p s).io = s.io := rfl
@[simp] theorem touchPlace_devices (sz : Size) (p : Place) (s : State) :
    (touchPlace sz p s).devices = s.devices := rfl
@[simp] theorem touchPlace_transfers (sz : Size) (p : Place) (s : State) :
    (touchPlace sz p s).transfers = placeReads sz p s ++ s.transfers := rfl

/-! ## `touchOp` -/

@[simp] theorem touchOp_bank (sz : Size) (o : Operand sz) (s : State) :
    (touchOp sz o s).bank = s.bank := rfl
@[simp] theorem touchOp_alt (sz : Size) (o : Operand sz) (s : State) :
    (touchOp sz o s).alt = s.alt := rfl
@[simp] theorem touchOp_sp (sz : Size) (o : Operand sz) (s : State) :
    (touchOp sz o s).sp = s.sp := rfl
@[simp] theorem touchOp_pc (sz : Size) (o : Operand sz) (s : State) :
    (touchOp sz o s).pc = s.pc := rfl
@[simp] theorem touchOp_f (sz : Size) (o : Operand sz) (s : State) :
    (touchOp sz o s).f = s.f := rfl
@[simp] theorem touchOp_i (sz : Size) (o : Operand sz) (s : State) :
    (touchOp sz o s).i = s.i := rfl
@[simp] theorem touchOp_r (sz : Size) (o : Operand sz) (s : State) :
    (touchOp sz o s).r = s.r := rfl
@[simp] theorem touchOp_iff2 (sz : Size) (o : Operand sz) (s : State) :
    (touchOp sz o s).iff2 = s.iff2 := rfl
@[simp] theorem touchOp_halted (sz : Size) (o : Operand sz) (s : State) :
    (touchOp sz o s).halted = s.halted := rfl
@[simp] theorem touchOp_fault (sz : Size) (o : Operand sz) (s : State) :
    (touchOp sz o s).fault = s.fault := rfl
@[simp] theorem touchOp_mem (sz : Size) (o : Operand sz) (s : State) :
    (touchOp sz o s).mem = s.mem := rfl
@[simp] theorem touchOp_io (sz : Size) (o : Operand sz) (s : State) :
    (touchOp sz o s).io = s.io := rfl
@[simp] theorem touchOp_devices (sz : Size) (o : Operand sz) (s : State) :
    (touchOp sz o s).devices = s.devices := rfl
@[simp] theorem touchOp_transfers (sz : Size) (o : Operand sz) (s : State) :
    (touchOp sz o s).transfers = operandReads sz o s ++ s.transfers := rfl

/-! ## `memWrite` -/

@[simp] theorem memWrite_bank (sz : Size) (a : DWord) (v : BitVec sz.bits) (s : State) :
    (memWrite sz a v s).bank = s.bank := rfl
@[simp] theorem memWrite_alt (sz : Size) (a : DWord) (v : BitVec sz.bits) (s : State) :
    (memWrite sz a v s).alt = s.alt := rfl
@[simp] theorem memWrite_sp (sz : Size) (a : DWord) (v : BitVec sz.bits) (s : State) :
    (memWrite sz a v s).sp = s.sp := rfl
@[simp] theorem memWrite_pc (sz : Size) (a : DWord) (v : BitVec sz.bits) (s : State) :
    (memWrite sz a v s).pc = s.pc := rfl
@[simp] theorem memWrite_f (sz : Size) (a : DWord) (v : BitVec sz.bits) (s : State) :
    (memWrite sz a v s).f = s.f := rfl
@[simp] theorem memWrite_i (sz : Size) (a : DWord) (v : BitVec sz.bits) (s : State) :
    (memWrite sz a v s).i = s.i := rfl
@[simp] theorem memWrite_r (sz : Size) (a : DWord) (v : BitVec sz.bits) (s : State) :
    (memWrite sz a v s).r = s.r := rfl
@[simp] theorem memWrite_iff2 (sz : Size) (a : DWord) (v : BitVec sz.bits) (s : State) :
    (memWrite sz a v s).iff2 = s.iff2 := rfl
@[simp] theorem memWrite_halted (sz : Size) (a : DWord) (v : BitVec sz.bits) (s : State) :
    (memWrite sz a v s).halted = s.halted := rfl
@[simp] theorem memWrite_fault (sz : Size) (a : DWord) (v : BitVec sz.bits) (s : State) :
    (memWrite sz a v s).fault = s.fault := rfl
@[simp] theorem memWrite_mem (sz : Size) (a : DWord) (v : BitVec sz.bits) (s : State) :
    (memWrite sz a v s).mem = s.mem.writeRam (isDevice .mem s) sz a v := rfl
@[simp] theorem memWrite_io (sz : Size) (a : DWord) (v : BitVec sz.bits) (s : State) :
    (memWrite sz a v s).io = s.io := rfl
@[simp] theorem memWrite_devices (sz : Size) (a : DWord) (v : BitVec sz.bits) (s : State) :
    (memWrite sz a v s).devices = s.devices := rfl
@[simp] theorem memWrite_transfers (sz : Size) (a : DWord) (v : BitVec sz.bits) (s : State) :
    (memWrite sz a v s).transfers = writesAt .mem sz a v s ++ s.transfers := rfl

/-! ## `ioWrite` -/

@[simp] theorem ioWrite_bank (sz : Size) (a : DWord) (v : BitVec sz.bits) (s : State) :
    (ioWrite sz a v s).bank = s.bank := rfl
@[simp] theorem ioWrite_alt (sz : Size) (a : DWord) (v : BitVec sz.bits) (s : State) :
    (ioWrite sz a v s).alt = s.alt := rfl
@[simp] theorem ioWrite_sp (sz : Size) (a : DWord) (v : BitVec sz.bits) (s : State) :
    (ioWrite sz a v s).sp = s.sp := rfl
@[simp] theorem ioWrite_pc (sz : Size) (a : DWord) (v : BitVec sz.bits) (s : State) :
    (ioWrite sz a v s).pc = s.pc := rfl
@[simp] theorem ioWrite_f (sz : Size) (a : DWord) (v : BitVec sz.bits) (s : State) :
    (ioWrite sz a v s).f = s.f := rfl
@[simp] theorem ioWrite_i (sz : Size) (a : DWord) (v : BitVec sz.bits) (s : State) :
    (ioWrite sz a v s).i = s.i := rfl
@[simp] theorem ioWrite_r (sz : Size) (a : DWord) (v : BitVec sz.bits) (s : State) :
    (ioWrite sz a v s).r = s.r := rfl
@[simp] theorem ioWrite_iff2 (sz : Size) (a : DWord) (v : BitVec sz.bits) (s : State) :
    (ioWrite sz a v s).iff2 = s.iff2 := rfl
@[simp] theorem ioWrite_halted (sz : Size) (a : DWord) (v : BitVec sz.bits) (s : State) :
    (ioWrite sz a v s).halted = s.halted := rfl
@[simp] theorem ioWrite_fault (sz : Size) (a : DWord) (v : BitVec sz.bits) (s : State) :
    (ioWrite sz a v s).fault = s.fault := rfl
@[simp] theorem ioWrite_mem (sz : Size) (a : DWord) (v : BitVec sz.bits) (s : State) :
    (ioWrite sz a v s).mem = s.mem := rfl
@[simp] theorem ioWrite_io (sz : Size) (a : DWord) (v : BitVec sz.bits) (s : State) :
    (ioWrite sz a v s).io = s.io.writeRam (isDevice .io s) sz a v := rfl
@[simp] theorem ioWrite_devices (sz : Size) (a : DWord) (v : BitVec sz.bits) (s : State) :
    (ioWrite sz a v s).devices = s.devices := rfl
@[simp] theorem ioWrite_transfers (sz : Size) (a : DWord) (v : BitVec sz.bits) (s : State) :
    (ioWrite sz a v s).transfers = writesAt .io sz a v s ++ s.transfers := rfl

/-! ## `popSP` -/

@[simp] theorem popSP_bank (s : State) :
    (popSP s).bank = s.bank := rfl
@[simp] theorem popSP_alt (s : State) :
    (popSP s).alt = s.alt := rfl
@[simp] theorem popSP_sp (s : State) :
    (popSP s).sp = s.sp + 4 := rfl
@[simp] theorem popSP_pc (s : State) :
    (popSP s).pc = s.pc := rfl
@[simp] theorem popSP_f (s : State) :
    (popSP s).f = s.f := rfl
@[simp] theorem popSP_i (s : State) :
    (popSP s).i = s.i := rfl
@[simp] theorem popSP_r (s : State) :
    (popSP s).r = s.r := rfl
@[simp] theorem popSP_iff2 (s : State) :
    (popSP s).iff2 = s.iff2 := rfl
@[simp] theorem popSP_halted (s : State) :
    (popSP s).halted = s.halted := rfl
@[simp] theorem popSP_fault (s : State) :
    (popSP s).fault = s.fault := rfl
@[simp] theorem popSP_mem (s : State) :
    (popSP s).mem = s.mem := rfl
@[simp] theorem popSP_io (s : State) :
    (popSP s).io = s.io := rfl
@[simp] theorem popSP_devices (s : State) :
    (popSP s).devices = s.devices := rfl
@[simp] theorem popSP_transfers (s : State) :
    (popSP s).transfers = readsAt .mem .dword s.sp s ++ s.transfers := rfl

/-! ## `push32` -/

@[simp] theorem push32_bank (v : DWord) (s : State) :
    (push32 v s).bank = s.bank := rfl
@[simp] theorem push32_alt (v : DWord) (s : State) :
    (push32 v s).alt = s.alt := rfl
@[simp] theorem push32_sp (v : DWord) (s : State) :
    (push32 v s).sp = s.sp - 4 := rfl
@[simp] theorem push32_pc (v : DWord) (s : State) :
    (push32 v s).pc = s.pc := rfl
@[simp] theorem push32_f (v : DWord) (s : State) :
    (push32 v s).f = s.f := rfl
@[simp] theorem push32_i (v : DWord) (s : State) :
    (push32 v s).i = s.i := rfl
@[simp] theorem push32_r (v : DWord) (s : State) :
    (push32 v s).r = s.r := rfl
@[simp] theorem push32_iff2 (v : DWord) (s : State) :
    (push32 v s).iff2 = s.iff2 := rfl
@[simp] theorem push32_halted (v : DWord) (s : State) :
    (push32 v s).halted = s.halted := rfl
@[simp] theorem push32_fault (v : DWord) (s : State) :
    (push32 v s).fault = s.fault := rfl
@[simp] theorem push32_mem (v : DWord) (s : State) :
    (push32 v s).mem = s.mem.writeRam (isDevice .mem s) .dword (s.sp - 4) v := rfl
@[simp] theorem push32_io (v : DWord) (s : State) :
    (push32 v s).io = s.io := rfl
@[simp] theorem push32_devices (v : DWord) (s : State) :
    (push32 v s).devices = s.devices := rfl
@[simp] theorem push32_transfers (v : DWord) (s : State) :
    (push32 v s).transfers = writesAt .mem .dword (s.sp - 4) v s ++ s.transfers := rfl

/-! ## `putFlags` -/

@[simp] theorem putFlags_bank (w : FlagWrite) (s : State) :
    (putFlags w s).bank = s.bank := rfl
@[simp] theorem putFlags_alt (w : FlagWrite) (s : State) :
    (putFlags w s).alt = s.alt := rfl
@[simp] theorem putFlags_sp (w : FlagWrite) (s : State) :
    (putFlags w s).sp = s.sp := rfl
@[simp] theorem putFlags_pc (w : FlagWrite) (s : State) :
    (putFlags w s).pc = s.pc := rfl
@[simp] theorem putFlags_f (w : FlagWrite) (s : State) :
    (putFlags w s).f = w.apply s.f := rfl
@[simp] theorem putFlags_i (w : FlagWrite) (s : State) :
    (putFlags w s).i = s.i := rfl
@[simp] theorem putFlags_r (w : FlagWrite) (s : State) :
    (putFlags w s).r = s.r := rfl
@[simp] theorem putFlags_iff2 (w : FlagWrite) (s : State) :
    (putFlags w s).iff2 = s.iff2 := rfl
@[simp] theorem putFlags_halted (w : FlagWrite) (s : State) :
    (putFlags w s).halted = s.halted := rfl
@[simp] theorem putFlags_fault (w : FlagWrite) (s : State) :
    (putFlags w s).fault = s.fault := rfl
@[simp] theorem putFlags_mem (w : FlagWrite) (s : State) :
    (putFlags w s).mem = s.mem := rfl
@[simp] theorem putFlags_io (w : FlagWrite) (s : State) :
    (putFlags w s).io = s.io := rfl
@[simp] theorem putFlags_devices (w : FlagWrite) (s : State) :
    (putFlags w s).devices = s.devices := rfl
@[simp] theorem putFlags_transfers (w : FlagWrite) (s : State) :
    (putFlags w s).transfers = s.transfers := rfl

/-! ## `restoreIFF1` -/

@[simp] theorem restoreIFF1_bank (s : State) :
    (restoreIFF1 s).bank = s.bank := rfl
@[simp] theorem restoreIFF1_alt (s : State) :
    (restoreIFF1 s).alt = s.alt := rfl
@[simp] theorem restoreIFF1_sp (s : State) :
    (restoreIFF1 s).sp = s.sp := rfl
@[simp] theorem restoreIFF1_pc (s : State) :
    (restoreIFF1 s).pc = s.pc := rfl
@[simp] theorem restoreIFF1_f (s : State) :
    (restoreIFF1 s).f = putBit s.f 5 (s.iff2.getLsbD 0) := rfl
@[simp] theorem restoreIFF1_i (s : State) :
    (restoreIFF1 s).i = s.i := rfl
@[simp] theorem restoreIFF1_r (s : State) :
    (restoreIFF1 s).r = s.r := rfl
@[simp] theorem restoreIFF1_iff2 (s : State) :
    (restoreIFF1 s).iff2 = s.iff2 := rfl
@[simp] theorem restoreIFF1_halted (s : State) :
    (restoreIFF1 s).halted = s.halted := rfl
@[simp] theorem restoreIFF1_fault (s : State) :
    (restoreIFF1 s).fault = s.fault := rfl
@[simp] theorem restoreIFF1_mem (s : State) :
    (restoreIFF1 s).mem = s.mem := rfl
@[simp] theorem restoreIFF1_io (s : State) :
    (restoreIFF1 s).io = s.io := rfl
@[simp] theorem restoreIFF1_devices (s : State) :
    (restoreIFF1 s).devices = s.devices := rfl
@[simp] theorem restoreIFF1_transfers (s : State) :
    (restoreIFF1 s).transfers = s.transfers := rfl

/-! ## `raiseError` -/

@[simp] theorem raiseError_bank (e : Fault) (w : BaseWord) (s : State) :
    (raiseError e w s).bank = s.bank := rfl
@[simp] theorem raiseError_alt (e : Fault) (w : BaseWord) (s : State) :
    (raiseError e w s).alt = s.alt := rfl
@[simp] theorem raiseError_sp (e : Fault) (w : BaseWord) (s : State) :
    (raiseError e w s).sp = s.sp := rfl
@[simp] theorem raiseError_pc (e : Fault) (w : BaseWord) (s : State) :
    (raiseError e w s).pc = s.pc := rfl
@[simp] theorem raiseError_f (e : Fault) (w : BaseWord) (s : State) :
    (raiseError e w s).f = s.f := rfl
@[simp] theorem raiseError_i (e : Fault) (w : BaseWord) (s : State) :
    (raiseError e w s).i = s.i := rfl
@[simp] theorem raiseError_r (e : Fault) (w : BaseWord) (s : State) :
    (raiseError e w s).r = s.r := rfl
@[simp] theorem raiseError_iff2 (e : Fault) (w : BaseWord) (s : State) :
    (raiseError e w s).iff2 = s.iff2 := rfl
@[simp] theorem raiseError_halted (e : Fault) (w : BaseWord) (s : State) :
    (raiseError e w s).halted = s.halted := rfl
@[simp] theorem raiseError_fault (e : Fault) (w : BaseWord) (s : State) :
    (raiseError e w s).fault = some { error := e, base := s.pc, word := w } := rfl
@[simp] theorem raiseError_mem (e : Fault) (w : BaseWord) (s : State) :
    (raiseError e w s).mem = s.mem := rfl
@[simp] theorem raiseError_io (e : Fault) (w : BaseWord) (s : State) :
    (raiseError e w s).io = s.io := rfl
@[simp] theorem raiseError_devices (e : Fault) (w : BaseWord) (s : State) :
    (raiseError e w s).devices = s.devices := rfl
@[simp] theorem raiseError_transfers (e : Fault) (w : BaseWord) (s : State) :
    (raiseError e w s).transfers = s.transfers := rfl

/-! ## `swapView` -/

@[simp] theorem swapView_sp (n : BankReg) (lo w : Nat) (s : State) :
    (swapView n lo w s).sp = s.sp := rfl
@[simp] theorem swapView_pc (n : BankReg) (lo w : Nat) (s : State) :
    (swapView n lo w s).pc = s.pc := rfl
@[simp] theorem swapView_f (n : BankReg) (lo w : Nat) (s : State) :
    (swapView n lo w s).f = s.f := rfl
@[simp] theorem swapView_i (n : BankReg) (lo w : Nat) (s : State) :
    (swapView n lo w s).i = s.i := rfl
@[simp] theorem swapView_r (n : BankReg) (lo w : Nat) (s : State) :
    (swapView n lo w s).r = s.r := rfl
@[simp] theorem swapView_iff2 (n : BankReg) (lo w : Nat) (s : State) :
    (swapView n lo w s).iff2 = s.iff2 := rfl
@[simp] theorem swapView_halted (n : BankReg) (lo w : Nat) (s : State) :
    (swapView n lo w s).halted = s.halted := rfl
@[simp] theorem swapView_fault (n : BankReg) (lo w : Nat) (s : State) :
    (swapView n lo w s).fault = s.fault := rfl
@[simp] theorem swapView_mem (n : BankReg) (lo w : Nat) (s : State) :
    (swapView n lo w s).mem = s.mem := rfl
@[simp] theorem swapView_io (n : BankReg) (lo w : Nat) (s : State) :
    (swapView n lo w s).io = s.io := rfl
@[simp] theorem swapView_devices (n : BankReg) (lo w : Nat) (s : State) :
    (swapView n lo w s).devices = s.devices := rfl
@[simp] theorem swapView_transfers (n : BankReg) (lo w : Nat) (s : State) :
    (swapView n lo w s).transfers = s.transfers := rfl

/-! ## `writeStore` -/

@[simp] theorem writeStore_alt (n : RegName) (v : DWord) (s : State) :
    (writeStore n v s).alt = s.alt := by cases n <;> rfl
@[simp] theorem writeStore_pc (n : RegName) (v : DWord) (s : State) :
    (writeStore n v s).pc = s.pc := by cases n <;> rfl
@[simp] theorem writeStore_f (n : RegName) (v : DWord) (s : State) :
    (writeStore n v s).f = s.f := by cases n <;> rfl
@[simp] theorem writeStore_i (n : RegName) (v : DWord) (s : State) :
    (writeStore n v s).i = s.i := by cases n <;> rfl
@[simp] theorem writeStore_r (n : RegName) (v : DWord) (s : State) :
    (writeStore n v s).r = s.r := by cases n <;> rfl
@[simp] theorem writeStore_iff2 (n : RegName) (v : DWord) (s : State) :
    (writeStore n v s).iff2 = s.iff2 := by cases n <;> rfl
@[simp] theorem writeStore_halted (n : RegName) (v : DWord) (s : State) :
    (writeStore n v s).halted = s.halted := by cases n <;> rfl
@[simp] theorem writeStore_fault (n : RegName) (v : DWord) (s : State) :
    (writeStore n v s).fault = s.fault := by cases n <;> rfl
@[simp] theorem writeStore_mem (n : RegName) (v : DWord) (s : State) :
    (writeStore n v s).mem = s.mem := by cases n <;> rfl
@[simp] theorem writeStore_io (n : RegName) (v : DWord) (s : State) :
    (writeStore n v s).io = s.io := by cases n <;> rfl
@[simp] theorem writeStore_devices (n : RegName) (v : DWord) (s : State) :
    (writeStore n v s).devices = s.devices := by cases n <;> rfl
@[simp] theorem writeStore_transfers (n : RegName) (v : DWord) (s : State) :
    (writeStore n v s).transfers = s.transfers := by cases n <;> rfl

/-! ## `writeReg` -/

@[simp] theorem writeReg_alt (sz : Size) (c : RegCode) (v : BitVec sz.bits) (s : State) :
    (writeReg sz c v s).alt = s.alt := writeStore_alt _ _ s
@[simp] theorem writeReg_pc (sz : Size) (c : RegCode) (v : BitVec sz.bits) (s : State) :
    (writeReg sz c v s).pc = s.pc := writeStore_pc _ _ s
@[simp] theorem writeReg_f (sz : Size) (c : RegCode) (v : BitVec sz.bits) (s : State) :
    (writeReg sz c v s).f = s.f := writeStore_f _ _ s
@[simp] theorem writeReg_i (sz : Size) (c : RegCode) (v : BitVec sz.bits) (s : State) :
    (writeReg sz c v s).i = s.i := writeStore_i _ _ s
@[simp] theorem writeReg_r (sz : Size) (c : RegCode) (v : BitVec sz.bits) (s : State) :
    (writeReg sz c v s).r = s.r := writeStore_r _ _ s
@[simp] theorem writeReg_iff2 (sz : Size) (c : RegCode) (v : BitVec sz.bits) (s : State) :
    (writeReg sz c v s).iff2 = s.iff2 := writeStore_iff2 _ _ s
@[simp] theorem writeReg_halted (sz : Size) (c : RegCode) (v : BitVec sz.bits) (s : State) :
    (writeReg sz c v s).halted = s.halted := writeStore_halted _ _ s
@[simp] theorem writeReg_fault (sz : Size) (c : RegCode) (v : BitVec sz.bits) (s : State) :
    (writeReg sz c v s).fault = s.fault := writeStore_fault _ _ s
@[simp] theorem writeReg_mem (sz : Size) (c : RegCode) (v : BitVec sz.bits) (s : State) :
    (writeReg sz c v s).mem = s.mem := writeStore_mem _ _ s
@[simp] theorem writeReg_io (sz : Size) (c : RegCode) (v : BitVec sz.bits) (s : State) :
    (writeReg sz c v s).io = s.io := writeStore_io _ _ s
@[simp] theorem writeReg_devices (sz : Size) (c : RegCode) (v : BitVec sz.bits) (s : State) :
    (writeReg sz c v s).devices = s.devices := writeStore_devices _ _ s
@[simp] theorem writeReg_transfers (sz : Size) (c : RegCode) (v : BitVec sz.bits) (s : State) :
    (writeReg sz c v s).transfers = s.transfers := writeStore_transfers _ _ s

/-! ## `writePlace` -/

@[simp] theorem writePlace_alt (sz : Size) (p : Place) (v : BitVec sz.bits) (s : State) :
    (writePlace sz p v s).alt = s.alt := by cases p <;> simp [writePlace]
@[simp] theorem writePlace_pc (sz : Size) (p : Place) (v : BitVec sz.bits) (s : State) :
    (writePlace sz p v s).pc = s.pc := by cases p <;> simp [writePlace]
@[simp] theorem writePlace_f (sz : Size) (p : Place) (v : BitVec sz.bits) (s : State) :
    (writePlace sz p v s).f = s.f := by cases p <;> simp [writePlace]
@[simp] theorem writePlace_i (sz : Size) (p : Place) (v : BitVec sz.bits) (s : State) :
    (writePlace sz p v s).i = s.i := by cases p <;> simp [writePlace]
@[simp] theorem writePlace_r (sz : Size) (p : Place) (v : BitVec sz.bits) (s : State) :
    (writePlace sz p v s).r = s.r := by cases p <;> simp [writePlace]
@[simp] theorem writePlace_iff2 (sz : Size) (p : Place) (v : BitVec sz.bits) (s : State) :
    (writePlace sz p v s).iff2 = s.iff2 := by cases p <;> simp [writePlace]
@[simp] theorem writePlace_halted (sz : Size) (p : Place) (v : BitVec sz.bits) (s : State) :
    (writePlace sz p v s).halted = s.halted := by cases p <;> simp [writePlace]
@[simp] theorem writePlace_fault (sz : Size) (p : Place) (v : BitVec sz.bits) (s : State) :
    (writePlace sz p v s).fault = s.fault := by cases p <;> simp [writePlace]
@[simp] theorem writePlace_io (sz : Size) (p : Place) (v : BitVec sz.bits) (s : State) :
    (writePlace sz p v s).io = s.io := by cases p <;> simp [writePlace]
@[simp] theorem writePlace_devices (sz : Size) (p : Place) (v : BitVec sz.bits) (s : State) :
    (writePlace sz p v s).devices = s.devices := by cases p <;> simp [writePlace]
@[simp] theorem writePlace_transfers (sz : Size) (p : Place) (v : BitVec sz.bits) (s : State) :
    (writePlace sz p v s).transfers = placeWrites sz p v s ++ s.transfers := by cases p <;> simp [writePlace, placeWrites]

/-! ## What a read depends on -/

theorem isDevice_congr (sp : Space) {s t : State} (h : t.devices = s.devices) (a : Nat) : isDevice sp t a = isDevice sp s a := by
  cases sp <;> simp [isDevice, windowsOf, h]

theorem readTransfers_congr (sp : Space) (a : DWord) {s t : State} (h : t.devices = s.devices) (n : Nat) :
    readTransfers sp a t n = readTransfers sp a s n := by
  induction n with
  | zero => rfl
  | succ n ih => simp [readTransfers, isDevice_congr sp h, ih]

theorem writeTransfers_congr (sp : Space) (a : DWord) (g : Nat → Byte) {s t : State} (h : t.devices = s.devices) (n : Nat) :
    writeTransfers sp a g t n = writeTransfers sp a g s n := by
  induction n with
  | zero => rfl
  | succ n ih => simp [writeTransfers, isDevice_congr sp h, ih]

theorem readsAt_congr (sp : Space) (sz : Size) (a : DWord) {s t : State} (h : t.devices = s.devices) :
    readsAt sp sz a t = readsAt sp sz a s := readTransfers_congr sp a h sz.bytes

theorem writesAt_congr (sp : Space) (sz : Size) (a : DWord) (v : BitVec sz.bits) {s t : State} (h : t.devices = s.devices) :
    writesAt sp sz a v t = writesAt sp sz a v s := writeTransfers_congr sp a _ h sz.bytes

theorem readStore_congr {s t : State} (hb : t.bank = s.bank) (hs : t.sp = s.sp) (n : RegName) :
    readStore n t = readStore n s := by
  cases n <;> simp [readStore, hb, hs]

theorem readReg_congr {s t : State} (hb : t.bank = s.bank) (hs : t.sp = s.sp) (sz : Size) (c : RegCode) :
    readReg sz c t = readReg sz c s := by
  simp [readReg, readStore_congr hb hs]

theorem effAddr_congr {s t : State} (hb : t.bank = s.bank) (hs : t.sp = s.sp) (m : MemRef) : effAddr m t = effAddr m s := by
  cases m with
  | direct _ => rfl
  | ind b d => cases d <;> simp [effAddr, readReg_congr hb hs]

/-- A byte of a read depends on the device map, the bus's RAM and the transfers so far, and on nothing else. -/
theorem busByteAt_congr {sp : Space} {s t : State} (hd : t.devices = s.devices) (hr : ramOf sp t = ramOf sp s)
    (ht : t.transfers = s.transfers) (a : DWord) (k : Nat) : busByteAt sp a t k = busByteAt sp a s k := by
  have r : ∀ u : State, ramOf sp (afterRead sp a k u) = ramOf sp u := fun u => by cases sp <;> rfl
  have d : ∀ (u : State) (x : Nat), isDevice sp (afterRead sp a k u) x = isDevice sp u x := fun u x => isDevice_congr sp rfl x
  simp only [busByteAt, busByte, r, d, afterRead_transfers, hr, ht, isDevice_congr sp hd, readTransfers_congr sp a hd]

theorem busRead_congr {sp : Space} {s t : State} (hd : t.devices = s.devices) (hr : ramOf sp t = ramOf sp s)
    (ht : t.transfers = s.transfers) (sz : Size) (a : DWord) : busRead sp sz a t = busRead sp sz a s := by
  rw [busRead, busRead, funext (busByteAt_congr hd hr ht a)]

theorem memRead_congr {s t : State} (hd : t.devices = s.devices) (hr : t.mem = s.mem) (ht : t.transfers = s.transfers)
    (sz : Size) (a : DWord) : memRead sz a t = memRead sz a s := busRead_congr (sp := .mem) hd hr ht sz a

theorem ioRead_congr {s t : State} (hd : t.devices = s.devices) (hr : t.io = s.io) (ht : t.transfers = s.transfers)
    (sz : Size) (a : DWord) : ioRead sz a t = ioRead sz a s := busRead_congr (sp := .io) hd hr ht sz a

theorem readPlace_congr {s t : State} (hb : t.bank = s.bank) (hs : t.sp = s.sp) (hd : t.devices = s.devices)
    (hr : t.mem = s.mem) (ht : t.transfers = s.transfers) (sz : Size) (p : Place) : readPlace sz p t = readPlace sz p s := by
  cases p with
  | reg c => exact readReg_congr hb hs sz c
  | mem m => simp only [readPlace, effAddr_congr hb hs, memRead_congr hd hr ht]

theorem readOp_congr {s t : State} (hb : t.bank = s.bank) (hs : t.sp = s.sp) (hd : t.devices = s.devices)
    (hr : t.mem = s.mem) (ht : t.transfers = s.transfers) (sz : Size) (o : Operand sz) : readOp sz o t = readOp sz o s := by
  cases o with
  | place p => exact readPlace_congr hb hs hd hr ht sz p
  | imm v => rfl

theorem placeReads_congr {s t : State} (hb : t.bank = s.bank) (hs : t.sp = s.sp) (hd : t.devices = s.devices) (sz : Size)
    (p : Place) : placeReads sz p t = placeReads sz p s := by
  cases p with
  | reg _ => rfl
  | mem m => simp only [placeReads, effAddr_congr hb hs, readTransfers_congr .mem _ hd]

theorem operandReads_congr {s t : State} (hb : t.bank = s.bank) (hs : t.sp = s.sp) (hd : t.devices = s.devices) (sz : Size)
    (o : Operand sz) : operandReads sz o t = operandReads sz o s := by
  cases o with
  | place p => exact placeReads_congr hb hs hd sz p
  | imm _ => rfl

theorem placeWrites_congr {s t : State} (hb : t.bank = s.bank) (hs : t.sp = s.sp) (hd : t.devices = s.devices) (sz : Size)
    (p : Place) (v : BitVec sz.bits) : placeWrites sz p v t = placeWrites sz p v s := by
  cases p with
  | reg _ => rfl
  | mem m => simp only [placeWrites, effAddr_congr hb hs, writesAt_congr .mem sz _ v hd]

/-! ## What devices see of each operand -/

@[simp] theorem placeReads_reg (sz : Size) (c : RegCode) (s : State) : placeReads sz (.reg c) s = [] := rfl
@[simp] theorem placeReads_mem (sz : Size) (m : MemRef) (s : State) :
    placeReads sz (.mem m) s = readsAt .mem sz (effAddr m s) s := rfl
@[simp] theorem placeWrites_reg (sz : Size) (c : RegCode) (v : BitVec sz.bits) (s : State) :
    placeWrites sz (.reg c) v s = [] := rfl
@[simp] theorem placeWrites_mem (sz : Size) (m : MemRef) (v : BitVec sz.bits) (s : State) :
    placeWrites sz (.mem m) v s = writesAt .mem sz (effAddr m s) v s := rfl
@[simp] theorem operandReads_imm (sz : Size) (v : BitVec sz.bits) (s : State) : operandReads sz (.imm v) s = [] := rfl
@[simp] theorem operandReads_place (sz : Size) (p : Place) (s : State) :
    operandReads sz (.place p) s = placeReads sz p s := rfl

/-! ## Reads of an updated state -/

@[simp] theorem readStore_setPC (n' : RegName) (p : DWord) (s : State) :
    readStore n' (setPC p s) = readStore n' s := readStore_congr rfl rfl n'
@[simp] theorem readStore_advance (n' : RegName) (j : Instr) (s : State) :
    readStore n' (advance j s) = readStore n' s := readStore_congr rfl rfl n'
@[simp] theorem readStore_afterRead (n' : RegName) (sp : Space) (a : DWord) (n : Nat) (s : State) :
    readStore n' (afterRead sp a n s) = readStore n' s := readStore_congr rfl rfl n'
@[simp] theorem readStore_fetched (n' : RegName) (n : Nat) (s : State) :
    readStore n' (fetched n s) = readStore n' s := readStore_congr rfl rfl n'
@[simp] theorem readStore_memTouch (n' : RegName) (sz : Size) (a : DWord) (s : State) :
    readStore n' (memTouch sz a s) = readStore n' s := readStore_congr rfl rfl n'
@[simp] theorem readStore_ioTouch (n' : RegName) (sz : Size) (a : DWord) (s : State) :
    readStore n' (ioTouch sz a s) = readStore n' s := readStore_congr rfl rfl n'
@[simp] theorem readStore_touchPlace (n' : RegName) (sz : Size) (p : Place) (s : State) :
    readStore n' (touchPlace sz p s) = readStore n' s := readStore_congr rfl rfl n'
@[simp] theorem readStore_touchOp (n' : RegName) (sz : Size) (o : Operand sz) (s : State) :
    readStore n' (touchOp sz o s) = readStore n' s := readStore_congr rfl rfl n'
@[simp] theorem readStore_memWrite (n' : RegName) (sz : Size) (a : DWord) (v : BitVec sz.bits) (s : State) :
    readStore n' (memWrite sz a v s) = readStore n' s := readStore_congr rfl rfl n'
@[simp] theorem readStore_ioWrite (n' : RegName) (sz : Size) (a : DWord) (v : BitVec sz.bits) (s : State) :
    readStore n' (ioWrite sz a v s) = readStore n' s := readStore_congr rfl rfl n'
@[simp] theorem readStore_putFlags (n' : RegName) (w : FlagWrite) (s : State) :
    readStore n' (putFlags w s) = readStore n' s := readStore_congr rfl rfl n'
@[simp] theorem readStore_restoreIFF1 (n' : RegName) (s : State) :
    readStore n' (restoreIFF1 s) = readStore n' s := readStore_congr rfl rfl n'
@[simp] theorem readStore_raiseError (n' : RegName) (e : Fault) (w : BaseWord) (s : State) :
    readStore n' (raiseError e w s) = readStore n' s := readStore_congr rfl rfl n'

@[simp] theorem readReg_setPC (z : Size) (c' : RegCode) (p : DWord) (s : State) :
    readReg z c' (setPC p s) = readReg z c' s := readReg_congr rfl rfl z c'
@[simp] theorem readReg_advance (z : Size) (c' : RegCode) (j : Instr) (s : State) :
    readReg z c' (advance j s) = readReg z c' s := readReg_congr rfl rfl z c'
@[simp] theorem readReg_afterRead (z : Size) (c' : RegCode) (sp : Space) (a : DWord) (n : Nat) (s : State) :
    readReg z c' (afterRead sp a n s) = readReg z c' s := readReg_congr rfl rfl z c'
@[simp] theorem readReg_fetched (z : Size) (c' : RegCode) (n : Nat) (s : State) :
    readReg z c' (fetched n s) = readReg z c' s := readReg_congr rfl rfl z c'
@[simp] theorem readReg_memTouch (z : Size) (c' : RegCode) (sz : Size) (a : DWord) (s : State) :
    readReg z c' (memTouch sz a s) = readReg z c' s := readReg_congr rfl rfl z c'
@[simp] theorem readReg_ioTouch (z : Size) (c' : RegCode) (sz : Size) (a : DWord) (s : State) :
    readReg z c' (ioTouch sz a s) = readReg z c' s := readReg_congr rfl rfl z c'
@[simp] theorem readReg_touchPlace (z : Size) (c' : RegCode) (sz : Size) (p : Place) (s : State) :
    readReg z c' (touchPlace sz p s) = readReg z c' s := readReg_congr rfl rfl z c'
@[simp] theorem readReg_touchOp (z : Size) (c' : RegCode) (sz : Size) (o : Operand sz) (s : State) :
    readReg z c' (touchOp sz o s) = readReg z c' s := readReg_congr rfl rfl z c'
@[simp] theorem readReg_memWrite (z : Size) (c' : RegCode) (sz : Size) (a : DWord) (v : BitVec sz.bits) (s : State) :
    readReg z c' (memWrite sz a v s) = readReg z c' s := readReg_congr rfl rfl z c'
@[simp] theorem readReg_ioWrite (z : Size) (c' : RegCode) (sz : Size) (a : DWord) (v : BitVec sz.bits) (s : State) :
    readReg z c' (ioWrite sz a v s) = readReg z c' s := readReg_congr rfl rfl z c'
@[simp] theorem readReg_putFlags (z : Size) (c' : RegCode) (w : FlagWrite) (s : State) :
    readReg z c' (putFlags w s) = readReg z c' s := readReg_congr rfl rfl z c'
@[simp] theorem readReg_restoreIFF1 (z : Size) (c' : RegCode) (s : State) :
    readReg z c' (restoreIFF1 s) = readReg z c' s := readReg_congr rfl rfl z c'
@[simp] theorem readReg_raiseError (z : Size) (c' : RegCode) (e : Fault) (w : BaseWord) (s : State) :
    readReg z c' (raiseError e w s) = readReg z c' s := readReg_congr rfl rfl z c'

@[simp] theorem effAddr_setPC (m' : MemRef) (p : DWord) (s : State) :
    effAddr m' (setPC p s) = effAddr m' s := effAddr_congr rfl rfl m'
@[simp] theorem effAddr_advance (m' : MemRef) (j : Instr) (s : State) :
    effAddr m' (advance j s) = effAddr m' s := effAddr_congr rfl rfl m'
@[simp] theorem effAddr_afterRead (m' : MemRef) (sp : Space) (a : DWord) (n : Nat) (s : State) :
    effAddr m' (afterRead sp a n s) = effAddr m' s := effAddr_congr rfl rfl m'
@[simp] theorem effAddr_fetched (m' : MemRef) (n : Nat) (s : State) :
    effAddr m' (fetched n s) = effAddr m' s := effAddr_congr rfl rfl m'
@[simp] theorem effAddr_memTouch (m' : MemRef) (sz : Size) (a : DWord) (s : State) :
    effAddr m' (memTouch sz a s) = effAddr m' s := effAddr_congr rfl rfl m'
@[simp] theorem effAddr_ioTouch (m' : MemRef) (sz : Size) (a : DWord) (s : State) :
    effAddr m' (ioTouch sz a s) = effAddr m' s := effAddr_congr rfl rfl m'
@[simp] theorem effAddr_touchPlace (m' : MemRef) (sz : Size) (p : Place) (s : State) :
    effAddr m' (touchPlace sz p s) = effAddr m' s := effAddr_congr rfl rfl m'
@[simp] theorem effAddr_touchOp (m' : MemRef) (sz : Size) (o : Operand sz) (s : State) :
    effAddr m' (touchOp sz o s) = effAddr m' s := effAddr_congr rfl rfl m'
@[simp] theorem effAddr_memWrite (m' : MemRef) (sz : Size) (a : DWord) (v : BitVec sz.bits) (s : State) :
    effAddr m' (memWrite sz a v s) = effAddr m' s := effAddr_congr rfl rfl m'
@[simp] theorem effAddr_ioWrite (m' : MemRef) (sz : Size) (a : DWord) (v : BitVec sz.bits) (s : State) :
    effAddr m' (ioWrite sz a v s) = effAddr m' s := effAddr_congr rfl rfl m'
@[simp] theorem effAddr_putFlags (m' : MemRef) (w : FlagWrite) (s : State) :
    effAddr m' (putFlags w s) = effAddr m' s := effAddr_congr rfl rfl m'
@[simp] theorem effAddr_restoreIFF1 (m' : MemRef) (s : State) :
    effAddr m' (restoreIFF1 s) = effAddr m' s := effAddr_congr rfl rfl m'
@[simp] theorem effAddr_raiseError (m' : MemRef) (e : Fault) (w : BaseWord) (s : State) :
    effAddr m' (raiseError e w s) = effAddr m' s := effAddr_congr rfl rfl m'

@[simp] theorem isDevice_setPC (q' : Space) (x' : Nat) (p : DWord) (s : State) :
    isDevice q' (setPC p s) x' = isDevice q' s x' := isDevice_congr q' rfl x'
@[simp] theorem isDevice_advance (q' : Space) (x' : Nat) (j : Instr) (s : State) :
    isDevice q' (advance j s) x' = isDevice q' s x' := isDevice_congr q' rfl x'
@[simp] theorem isDevice_afterRead (q' : Space) (x' : Nat) (sp : Space) (a : DWord) (n : Nat) (s : State) :
    isDevice q' (afterRead sp a n s) x' = isDevice q' s x' := isDevice_congr q' rfl x'
@[simp] theorem isDevice_fetched (q' : Space) (x' : Nat) (n : Nat) (s : State) :
    isDevice q' (fetched n s) x' = isDevice q' s x' := isDevice_congr q' rfl x'
@[simp] theorem isDevice_memTouch (q' : Space) (x' : Nat) (sz : Size) (a : DWord) (s : State) :
    isDevice q' (memTouch sz a s) x' = isDevice q' s x' := isDevice_congr q' rfl x'
@[simp] theorem isDevice_ioTouch (q' : Space) (x' : Nat) (sz : Size) (a : DWord) (s : State) :
    isDevice q' (ioTouch sz a s) x' = isDevice q' s x' := isDevice_congr q' rfl x'
@[simp] theorem isDevice_touchPlace (q' : Space) (x' : Nat) (sz : Size) (p : Place) (s : State) :
    isDevice q' (touchPlace sz p s) x' = isDevice q' s x' := isDevice_congr q' rfl x'
@[simp] theorem isDevice_touchOp (q' : Space) (x' : Nat) (sz : Size) (o : Operand sz) (s : State) :
    isDevice q' (touchOp sz o s) x' = isDevice q' s x' := isDevice_congr q' rfl x'
@[simp] theorem isDevice_memWrite (q' : Space) (x' : Nat) (sz : Size) (a : DWord) (v : BitVec sz.bits) (s : State) :
    isDevice q' (memWrite sz a v s) x' = isDevice q' s x' := isDevice_congr q' rfl x'
@[simp] theorem isDevice_ioWrite (q' : Space) (x' : Nat) (sz : Size) (a : DWord) (v : BitVec sz.bits) (s : State) :
    isDevice q' (ioWrite sz a v s) x' = isDevice q' s x' := isDevice_congr q' rfl x'
@[simp] theorem isDevice_popSP (q' : Space) (x' : Nat) (s : State) :
    isDevice q' (popSP s) x' = isDevice q' s x' := isDevice_congr q' rfl x'
@[simp] theorem isDevice_push32 (q' : Space) (x' : Nat) (v : DWord) (s : State) :
    isDevice q' (push32 v s) x' = isDevice q' s x' := isDevice_congr q' rfl x'
@[simp] theorem isDevice_putFlags (q' : Space) (x' : Nat) (w : FlagWrite) (s : State) :
    isDevice q' (putFlags w s) x' = isDevice q' s x' := isDevice_congr q' rfl x'
@[simp] theorem isDevice_restoreIFF1 (q' : Space) (x' : Nat) (s : State) :
    isDevice q' (restoreIFF1 s) x' = isDevice q' s x' := isDevice_congr q' rfl x'
@[simp] theorem isDevice_raiseError (q' : Space) (x' : Nat) (e : Fault) (w : BaseWord) (s : State) :
    isDevice q' (raiseError e w s) x' = isDevice q' s x' := isDevice_congr q' rfl x'
@[simp] theorem isDevice_swapView (q' : Space) (x' : Nat) (n : BankReg) (lo w : Nat) (s : State) :
    isDevice q' (swapView n lo w s) x' = isDevice q' s x' := isDevice_congr q' rfl x'
@[simp] theorem isDevice_writeStore (q' : Space) (x' : Nat) (n : RegName) (v : DWord) (s : State) :
    isDevice q' (writeStore n v s) x' = isDevice q' s x' := isDevice_congr q' (writeStore_devices _ _ _) x'
@[simp] theorem isDevice_writeReg (q' : Space) (x' : Nat) (sz : Size) (c : RegCode) (v : BitVec sz.bits) (s : State) :
    isDevice q' (writeReg sz c v s) x' = isDevice q' s x' := isDevice_congr q' (writeReg_devices _ _ _ _) x'
@[simp] theorem isDevice_writePlace (q' : Space) (x' : Nat) (sz : Size) (p : Place) (v : BitVec sz.bits) (s : State) :
    isDevice q' (writePlace sz p v s) x' = isDevice q' s x' := isDevice_congr q' (writePlace_devices _ _ _ _) x'

@[simp] theorem readsAt_setPC (q' : Space) (z : Size) (x' : DWord) (p : DWord) (s : State) :
    readsAt q' z x' (setPC p s) = readsAt q' z x' s := readsAt_congr q' z x' rfl
@[simp] theorem readsAt_advance (q' : Space) (z : Size) (x' : DWord) (j : Instr) (s : State) :
    readsAt q' z x' (advance j s) = readsAt q' z x' s := readsAt_congr q' z x' rfl
@[simp] theorem readsAt_afterRead (q' : Space) (z : Size) (x' : DWord) (sp : Space) (a : DWord) (n : Nat) (s : State) :
    readsAt q' z x' (afterRead sp a n s) = readsAt q' z x' s := readsAt_congr q' z x' rfl
@[simp] theorem readsAt_fetched (q' : Space) (z : Size) (x' : DWord) (n : Nat) (s : State) :
    readsAt q' z x' (fetched n s) = readsAt q' z x' s := readsAt_congr q' z x' rfl
@[simp] theorem readsAt_memTouch (q' : Space) (z : Size) (x' : DWord) (sz : Size) (a : DWord) (s : State) :
    readsAt q' z x' (memTouch sz a s) = readsAt q' z x' s := readsAt_congr q' z x' rfl
@[simp] theorem readsAt_ioTouch (q' : Space) (z : Size) (x' : DWord) (sz : Size) (a : DWord) (s : State) :
    readsAt q' z x' (ioTouch sz a s) = readsAt q' z x' s := readsAt_congr q' z x' rfl
@[simp] theorem readsAt_touchPlace (q' : Space) (z : Size) (x' : DWord) (sz : Size) (p : Place) (s : State) :
    readsAt q' z x' (touchPlace sz p s) = readsAt q' z x' s := readsAt_congr q' z x' rfl
@[simp] theorem readsAt_touchOp (q' : Space) (z : Size) (x' : DWord) (sz : Size) (o : Operand sz) (s : State) :
    readsAt q' z x' (touchOp sz o s) = readsAt q' z x' s := readsAt_congr q' z x' rfl
@[simp] theorem readsAt_memWrite (q' : Space) (z : Size) (x' : DWord) (sz : Size) (a : DWord) (v : BitVec sz.bits) (s : State) :
    readsAt q' z x' (memWrite sz a v s) = readsAt q' z x' s := readsAt_congr q' z x' rfl
@[simp] theorem readsAt_ioWrite (q' : Space) (z : Size) (x' : DWord) (sz : Size) (a : DWord) (v : BitVec sz.bits) (s : State) :
    readsAt q' z x' (ioWrite sz a v s) = readsAt q' z x' s := readsAt_congr q' z x' rfl
@[simp] theorem readsAt_popSP (q' : Space) (z : Size) (x' : DWord) (s : State) :
    readsAt q' z x' (popSP s) = readsAt q' z x' s := readsAt_congr q' z x' rfl
@[simp] theorem readsAt_push32 (q' : Space) (z : Size) (x' : DWord) (v : DWord) (s : State) :
    readsAt q' z x' (push32 v s) = readsAt q' z x' s := readsAt_congr q' z x' rfl
@[simp] theorem readsAt_putFlags (q' : Space) (z : Size) (x' : DWord) (w : FlagWrite) (s : State) :
    readsAt q' z x' (putFlags w s) = readsAt q' z x' s := readsAt_congr q' z x' rfl
@[simp] theorem readsAt_restoreIFF1 (q' : Space) (z : Size) (x' : DWord) (s : State) :
    readsAt q' z x' (restoreIFF1 s) = readsAt q' z x' s := readsAt_congr q' z x' rfl
@[simp] theorem readsAt_raiseError (q' : Space) (z : Size) (x' : DWord) (e : Fault) (w : BaseWord) (s : State) :
    readsAt q' z x' (raiseError e w s) = readsAt q' z x' s := readsAt_congr q' z x' rfl
@[simp] theorem readsAt_swapView (q' : Space) (z : Size) (x' : DWord) (n : BankReg) (lo w : Nat) (s : State) :
    readsAt q' z x' (swapView n lo w s) = readsAt q' z x' s := readsAt_congr q' z x' rfl
@[simp] theorem readsAt_writeStore (q' : Space) (z : Size) (x' : DWord) (n : RegName) (v : DWord) (s : State) :
    readsAt q' z x' (writeStore n v s) = readsAt q' z x' s := readsAt_congr q' z x' (writeStore_devices _ _ _)
@[simp] theorem readsAt_writeReg (q' : Space) (z : Size) (x' : DWord) (sz : Size) (c : RegCode) (v : BitVec sz.bits) (s : State) :
    readsAt q' z x' (writeReg sz c v s) = readsAt q' z x' s := readsAt_congr q' z x' (writeReg_devices _ _ _ _)
@[simp] theorem readsAt_writePlace (q' : Space) (z : Size) (x' : DWord) (sz : Size) (p : Place) (v : BitVec sz.bits) (s : State) :
    readsAt q' z x' (writePlace sz p v s) = readsAt q' z x' s := readsAt_congr q' z x' (writePlace_devices _ _ _ _)

@[simp] theorem writesAt_setPC (q' : Space) (z : Size) (x' : DWord) (y' : BitVec z.bits) (p : DWord) (s : State) :
    writesAt q' z x' y' (setPC p s) = writesAt q' z x' y' s := writesAt_congr q' z x' y' rfl
@[simp] theorem writesAt_advance (q' : Space) (z : Size) (x' : DWord) (y' : BitVec z.bits) (j : Instr) (s : State) :
    writesAt q' z x' y' (advance j s) = writesAt q' z x' y' s := writesAt_congr q' z x' y' rfl
@[simp] theorem writesAt_afterRead (q' : Space) (z : Size) (x' : DWord) (y' : BitVec z.bits) (sp : Space) (a : DWord) (n : Nat) (s : State) :
    writesAt q' z x' y' (afterRead sp a n s) = writesAt q' z x' y' s := writesAt_congr q' z x' y' rfl
@[simp] theorem writesAt_fetched (q' : Space) (z : Size) (x' : DWord) (y' : BitVec z.bits) (n : Nat) (s : State) :
    writesAt q' z x' y' (fetched n s) = writesAt q' z x' y' s := writesAt_congr q' z x' y' rfl
@[simp] theorem writesAt_memTouch (q' : Space) (z : Size) (x' : DWord) (y' : BitVec z.bits) (sz : Size) (a : DWord) (s : State) :
    writesAt q' z x' y' (memTouch sz a s) = writesAt q' z x' y' s := writesAt_congr q' z x' y' rfl
@[simp] theorem writesAt_ioTouch (q' : Space) (z : Size) (x' : DWord) (y' : BitVec z.bits) (sz : Size) (a : DWord) (s : State) :
    writesAt q' z x' y' (ioTouch sz a s) = writesAt q' z x' y' s := writesAt_congr q' z x' y' rfl
@[simp] theorem writesAt_touchPlace (q' : Space) (z : Size) (x' : DWord) (y' : BitVec z.bits) (sz : Size) (p : Place) (s : State) :
    writesAt q' z x' y' (touchPlace sz p s) = writesAt q' z x' y' s := writesAt_congr q' z x' y' rfl
@[simp] theorem writesAt_touchOp (q' : Space) (z : Size) (x' : DWord) (y' : BitVec z.bits) (sz : Size) (o : Operand sz) (s : State) :
    writesAt q' z x' y' (touchOp sz o s) = writesAt q' z x' y' s := writesAt_congr q' z x' y' rfl
@[simp] theorem writesAt_memWrite (q' : Space) (z : Size) (x' : DWord) (y' : BitVec z.bits) (sz : Size) (a : DWord) (v : BitVec sz.bits) (s : State) :
    writesAt q' z x' y' (memWrite sz a v s) = writesAt q' z x' y' s := writesAt_congr q' z x' y' rfl
@[simp] theorem writesAt_ioWrite (q' : Space) (z : Size) (x' : DWord) (y' : BitVec z.bits) (sz : Size) (a : DWord) (v : BitVec sz.bits) (s : State) :
    writesAt q' z x' y' (ioWrite sz a v s) = writesAt q' z x' y' s := writesAt_congr q' z x' y' rfl
@[simp] theorem writesAt_popSP (q' : Space) (z : Size) (x' : DWord) (y' : BitVec z.bits) (s : State) :
    writesAt q' z x' y' (popSP s) = writesAt q' z x' y' s := writesAt_congr q' z x' y' rfl
@[simp] theorem writesAt_push32 (q' : Space) (z : Size) (x' : DWord) (y' : BitVec z.bits) (v : DWord) (s : State) :
    writesAt q' z x' y' (push32 v s) = writesAt q' z x' y' s := writesAt_congr q' z x' y' rfl
@[simp] theorem writesAt_putFlags (q' : Space) (z : Size) (x' : DWord) (y' : BitVec z.bits) (w : FlagWrite) (s : State) :
    writesAt q' z x' y' (putFlags w s) = writesAt q' z x' y' s := writesAt_congr q' z x' y' rfl
@[simp] theorem writesAt_restoreIFF1 (q' : Space) (z : Size) (x' : DWord) (y' : BitVec z.bits) (s : State) :
    writesAt q' z x' y' (restoreIFF1 s) = writesAt q' z x' y' s := writesAt_congr q' z x' y' rfl
@[simp] theorem writesAt_raiseError (q' : Space) (z : Size) (x' : DWord) (y' : BitVec z.bits) (e : Fault) (w : BaseWord) (s : State) :
    writesAt q' z x' y' (raiseError e w s) = writesAt q' z x' y' s := writesAt_congr q' z x' y' rfl
@[simp] theorem writesAt_swapView (q' : Space) (z : Size) (x' : DWord) (y' : BitVec z.bits) (n : BankReg) (lo w : Nat) (s : State) :
    writesAt q' z x' y' (swapView n lo w s) = writesAt q' z x' y' s := writesAt_congr q' z x' y' rfl
@[simp] theorem writesAt_writeStore (q' : Space) (z : Size) (x' : DWord) (y' : BitVec z.bits) (n : RegName) (v : DWord) (s : State) :
    writesAt q' z x' y' (writeStore n v s) = writesAt q' z x' y' s := writesAt_congr q' z x' y' (writeStore_devices _ _ _)
@[simp] theorem writesAt_writeReg (q' : Space) (z : Size) (x' : DWord) (y' : BitVec z.bits) (sz : Size) (c : RegCode) (v : BitVec sz.bits) (s : State) :
    writesAt q' z x' y' (writeReg sz c v s) = writesAt q' z x' y' s := writesAt_congr q' z x' y' (writeReg_devices _ _ _ _)
@[simp] theorem writesAt_writePlace (q' : Space) (z : Size) (x' : DWord) (y' : BitVec z.bits) (sz : Size) (p : Place) (v : BitVec sz.bits) (s : State) :
    writesAt q' z x' y' (writePlace sz p v s) = writesAt q' z x' y' s := writesAt_congr q' z x' y' (writePlace_devices _ _ _ _)

@[simp] theorem memRead_setPC (z : Size) (x' : DWord) (p : DWord) (s : State) :
    memRead z x' (setPC p s) = memRead z x' s := memRead_congr rfl rfl rfl z x'
@[simp] theorem memRead_advance (z : Size) (x' : DWord) (j : Instr) (s : State) :
    memRead z x' (advance j s) = memRead z x' s := memRead_congr rfl rfl rfl z x'
@[simp] theorem memRead_putFlags (z : Size) (x' : DWord) (w : FlagWrite) (s : State) :
    memRead z x' (putFlags w s) = memRead z x' s := memRead_congr rfl rfl rfl z x'
@[simp] theorem memRead_restoreIFF1 (z : Size) (x' : DWord) (s : State) :
    memRead z x' (restoreIFF1 s) = memRead z x' s := memRead_congr rfl rfl rfl z x'
@[simp] theorem memRead_raiseError (z : Size) (x' : DWord) (e : Fault) (w : BaseWord) (s : State) :
    memRead z x' (raiseError e w s) = memRead z x' s := memRead_congr rfl rfl rfl z x'
@[simp] theorem memRead_swapView (z : Size) (x' : DWord) (n : BankReg) (lo w : Nat) (s : State) :
    memRead z x' (swapView n lo w s) = memRead z x' s := memRead_congr rfl rfl rfl z x'
@[simp] theorem memRead_writeStore (z : Size) (x' : DWord) (n : RegName) (v : DWord) (s : State) :
    memRead z x' (writeStore n v s) = memRead z x' s := memRead_congr (writeStore_devices _ _ _) (writeStore_mem _ _ _) (writeStore_transfers _ _ _) z x'
@[simp] theorem memRead_writeReg (z : Size) (x' : DWord) (sz : Size) (c : RegCode) (v : BitVec sz.bits) (s : State) :
    memRead z x' (writeReg sz c v s) = memRead z x' s := memRead_congr (writeReg_devices _ _ _ _) (writeReg_mem _ _ _ _) (writeReg_transfers _ _ _ _) z x'

@[simp] theorem ioRead_setPC (z : Size) (x' : DWord) (p : DWord) (s : State) :
    ioRead z x' (setPC p s) = ioRead z x' s := ioRead_congr rfl rfl rfl z x'
@[simp] theorem ioRead_advance (z : Size) (x' : DWord) (j : Instr) (s : State) :
    ioRead z x' (advance j s) = ioRead z x' s := ioRead_congr rfl rfl rfl z x'
@[simp] theorem ioRead_putFlags (z : Size) (x' : DWord) (w : FlagWrite) (s : State) :
    ioRead z x' (putFlags w s) = ioRead z x' s := ioRead_congr rfl rfl rfl z x'
@[simp] theorem ioRead_restoreIFF1 (z : Size) (x' : DWord) (s : State) :
    ioRead z x' (restoreIFF1 s) = ioRead z x' s := ioRead_congr rfl rfl rfl z x'
@[simp] theorem ioRead_raiseError (z : Size) (x' : DWord) (e : Fault) (w : BaseWord) (s : State) :
    ioRead z x' (raiseError e w s) = ioRead z x' s := ioRead_congr rfl rfl rfl z x'
@[simp] theorem ioRead_swapView (z : Size) (x' : DWord) (n : BankReg) (lo w : Nat) (s : State) :
    ioRead z x' (swapView n lo w s) = ioRead z x' s := ioRead_congr rfl rfl rfl z x'
@[simp] theorem ioRead_writeStore (z : Size) (x' : DWord) (n : RegName) (v : DWord) (s : State) :
    ioRead z x' (writeStore n v s) = ioRead z x' s := ioRead_congr (writeStore_devices _ _ _) (writeStore_io _ _ _) (writeStore_transfers _ _ _) z x'
@[simp] theorem ioRead_writeReg (z : Size) (x' : DWord) (sz : Size) (c : RegCode) (v : BitVec sz.bits) (s : State) :
    ioRead z x' (writeReg sz c v s) = ioRead z x' s := ioRead_congr (writeReg_devices _ _ _ _) (writeReg_io _ _ _ _) (writeReg_transfers _ _ _ _) z x'

@[simp] theorem readPlace_setPC (z : Size) (p' : Place) (p : DWord) (s : State) :
    readPlace z p' (setPC p s) = readPlace z p' s := readPlace_congr rfl rfl rfl rfl rfl z p'
@[simp] theorem readPlace_advance (z : Size) (p' : Place) (j : Instr) (s : State) :
    readPlace z p' (advance j s) = readPlace z p' s := readPlace_congr rfl rfl rfl rfl rfl z p'
@[simp] theorem readPlace_putFlags (z : Size) (p' : Place) (w : FlagWrite) (s : State) :
    readPlace z p' (putFlags w s) = readPlace z p' s := readPlace_congr rfl rfl rfl rfl rfl z p'
@[simp] theorem readPlace_restoreIFF1 (z : Size) (p' : Place) (s : State) :
    readPlace z p' (restoreIFF1 s) = readPlace z p' s := readPlace_congr rfl rfl rfl rfl rfl z p'
@[simp] theorem readPlace_raiseError (z : Size) (p' : Place) (e : Fault) (w : BaseWord) (s : State) :
    readPlace z p' (raiseError e w s) = readPlace z p' s := readPlace_congr rfl rfl rfl rfl rfl z p'

@[simp] theorem readOp_setPC (z : Size) (o' : Operand z) (p : DWord) (s : State) :
    readOp z o' (setPC p s) = readOp z o' s := readOp_congr rfl rfl rfl rfl rfl z o'
@[simp] theorem readOp_advance (z : Size) (o' : Operand z) (j : Instr) (s : State) :
    readOp z o' (advance j s) = readOp z o' s := readOp_congr rfl rfl rfl rfl rfl z o'
@[simp] theorem readOp_putFlags (z : Size) (o' : Operand z) (w : FlagWrite) (s : State) :
    readOp z o' (putFlags w s) = readOp z o' s := readOp_congr rfl rfl rfl rfl rfl z o'
@[simp] theorem readOp_restoreIFF1 (z : Size) (o' : Operand z) (s : State) :
    readOp z o' (restoreIFF1 s) = readOp z o' s := readOp_congr rfl rfl rfl rfl rfl z o'
@[simp] theorem readOp_raiseError (z : Size) (o' : Operand z) (e : Fault) (w : BaseWord) (s : State) :
    readOp z o' (raiseError e w s) = readOp z o' s := readOp_congr rfl rfl rfl rfl rfl z o'

@[simp] theorem placeReads_setPC (z : Size) (p' : Place) (p : DWord) (s : State) :
    placeReads z p' (setPC p s) = placeReads z p' s := placeReads_congr (setPC_bank _ _) (setPC_sp _ _) (setPC_devices _ _) z p'
@[simp] theorem placeReads_advance (z : Size) (p' : Place) (j : Instr) (s : State) :
    placeReads z p' (advance j s) = placeReads z p' s := placeReads_congr (advance_bank _ _) (advance_sp _ _) (advance_devices _ _) z p'
@[simp] theorem placeReads_afterRead (z : Size) (p' : Place) (sp : Space) (a : DWord) (n : Nat) (s : State) :
    placeReads z p' (afterRead sp a n s) = placeReads z p' s := placeReads_congr (afterRead_bank _ _ _ _) (afterRead_sp _ _ _ _) (afterRead_devices _ _ _ _) z p'
@[simp] theorem placeReads_fetched (z : Size) (p' : Place) (n : Nat) (s : State) :
    placeReads z p' (fetched n s) = placeReads z p' s := placeReads_congr (fetched_bank _ _) (fetched_sp _ _) (fetched_devices _ _) z p'
@[simp] theorem placeReads_memTouch (z : Size) (p' : Place) (sz : Size) (a : DWord) (s : State) :
    placeReads z p' (memTouch sz a s) = placeReads z p' s := placeReads_congr (memTouch_bank _ _ _) (memTouch_sp _ _ _) (memTouch_devices _ _ _) z p'
@[simp] theorem placeReads_ioTouch (z : Size) (p' : Place) (sz : Size) (a : DWord) (s : State) :
    placeReads z p' (ioTouch sz a s) = placeReads z p' s := placeReads_congr (ioTouch_bank _ _ _) (ioTouch_sp _ _ _) (ioTouch_devices _ _ _) z p'
@[simp] theorem placeReads_touchPlace (z : Size) (p' : Place) (sz : Size) (p : Place) (s : State) :
    placeReads z p' (touchPlace sz p s) = placeReads z p' s := placeReads_congr (touchPlace_bank _ _ _) (touchPlace_sp _ _ _) (touchPlace_devices _ _ _) z p'
@[simp] theorem placeReads_touchOp (z : Size) (p' : Place) (sz : Size) (o : Operand sz) (s : State) :
    placeReads z p' (touchOp sz o s) = placeReads z p' s := placeReads_congr (touchOp_bank _ _ _) (touchOp_sp _ _ _) (touchOp_devices _ _ _) z p'
@[simp] theorem placeReads_memWrite (z : Size) (p' : Place) (sz : Size) (a : DWord) (v : BitVec sz.bits) (s : State) :
    placeReads z p' (memWrite sz a v s) = placeReads z p' s := placeReads_congr (memWrite_bank _ _ _ _) (memWrite_sp _ _ _ _) (memWrite_devices _ _ _ _) z p'
@[simp] theorem placeReads_ioWrite (z : Size) (p' : Place) (sz : Size) (a : DWord) (v : BitVec sz.bits) (s : State) :
    placeReads z p' (ioWrite sz a v s) = placeReads z p' s := placeReads_congr (ioWrite_bank _ _ _ _) (ioWrite_sp _ _ _ _) (ioWrite_devices _ _ _ _) z p'
@[simp] theorem placeReads_putFlags (z : Size) (p' : Place) (w : FlagWrite) (s : State) :
    placeReads z p' (putFlags w s) = placeReads z p' s := placeReads_congr (putFlags_bank _ _) (putFlags_sp _ _) (putFlags_devices _ _) z p'
@[simp] theorem placeReads_restoreIFF1 (z : Size) (p' : Place) (s : State) :
    placeReads z p' (restoreIFF1 s) = placeReads z p' s := placeReads_congr (restoreIFF1_bank _) (restoreIFF1_sp _) (restoreIFF1_devices _) z p'
@[simp] theorem placeReads_raiseError (z : Size) (p' : Place) (e : Fault) (w : BaseWord) (s : State) :
    placeReads z p' (raiseError e w s) = placeReads z p' s := placeReads_congr (raiseError_bank _ _ _) (raiseError_sp _ _ _) (raiseError_devices _ _ _) z p'

@[simp] theorem operandReads_setPC (z : Size) (o' : Operand z) (p : DWord) (s : State) :
    operandReads z o' (setPC p s) = operandReads z o' s := operandReads_congr (setPC_bank _ _) (setPC_sp _ _) (setPC_devices _ _) z o'
@[simp] theorem operandReads_advance (z : Size) (o' : Operand z) (j : Instr) (s : State) :
    operandReads z o' (advance j s) = operandReads z o' s := operandReads_congr (advance_bank _ _) (advance_sp _ _) (advance_devices _ _) z o'
@[simp] theorem operandReads_afterRead (z : Size) (o' : Operand z) (sp : Space) (a : DWord) (n : Nat) (s : State) :
    operandReads z o' (afterRead sp a n s) = operandReads z o' s := operandReads_congr (afterRead_bank _ _ _ _) (afterRead_sp _ _ _ _) (afterRead_devices _ _ _ _) z o'
@[simp] theorem operandReads_fetched (z : Size) (o' : Operand z) (n : Nat) (s : State) :
    operandReads z o' (fetched n s) = operandReads z o' s := operandReads_congr (fetched_bank _ _) (fetched_sp _ _) (fetched_devices _ _) z o'
@[simp] theorem operandReads_memTouch (z : Size) (o' : Operand z) (sz : Size) (a : DWord) (s : State) :
    operandReads z o' (memTouch sz a s) = operandReads z o' s := operandReads_congr (memTouch_bank _ _ _) (memTouch_sp _ _ _) (memTouch_devices _ _ _) z o'
@[simp] theorem operandReads_ioTouch (z : Size) (o' : Operand z) (sz : Size) (a : DWord) (s : State) :
    operandReads z o' (ioTouch sz a s) = operandReads z o' s := operandReads_congr (ioTouch_bank _ _ _) (ioTouch_sp _ _ _) (ioTouch_devices _ _ _) z o'
@[simp] theorem operandReads_touchPlace (z : Size) (o' : Operand z) (sz : Size) (p : Place) (s : State) :
    operandReads z o' (touchPlace sz p s) = operandReads z o' s := operandReads_congr (touchPlace_bank _ _ _) (touchPlace_sp _ _ _) (touchPlace_devices _ _ _) z o'
@[simp] theorem operandReads_touchOp (z : Size) (o' : Operand z) (sz : Size) (o : Operand sz) (s : State) :
    operandReads z o' (touchOp sz o s) = operandReads z o' s := operandReads_congr (touchOp_bank _ _ _) (touchOp_sp _ _ _) (touchOp_devices _ _ _) z o'
@[simp] theorem operandReads_memWrite (z : Size) (o' : Operand z) (sz : Size) (a : DWord) (v : BitVec sz.bits) (s : State) :
    operandReads z o' (memWrite sz a v s) = operandReads z o' s := operandReads_congr (memWrite_bank _ _ _ _) (memWrite_sp _ _ _ _) (memWrite_devices _ _ _ _) z o'
@[simp] theorem operandReads_ioWrite (z : Size) (o' : Operand z) (sz : Size) (a : DWord) (v : BitVec sz.bits) (s : State) :
    operandReads z o' (ioWrite sz a v s) = operandReads z o' s := operandReads_congr (ioWrite_bank _ _ _ _) (ioWrite_sp _ _ _ _) (ioWrite_devices _ _ _ _) z o'
@[simp] theorem operandReads_putFlags (z : Size) (o' : Operand z) (w : FlagWrite) (s : State) :
    operandReads z o' (putFlags w s) = operandReads z o' s := operandReads_congr (putFlags_bank _ _) (putFlags_sp _ _) (putFlags_devices _ _) z o'
@[simp] theorem operandReads_restoreIFF1 (z : Size) (o' : Operand z) (s : State) :
    operandReads z o' (restoreIFF1 s) = operandReads z o' s := operandReads_congr (restoreIFF1_bank _) (restoreIFF1_sp _) (restoreIFF1_devices _) z o'
@[simp] theorem operandReads_raiseError (z : Size) (o' : Operand z) (e : Fault) (w : BaseWord) (s : State) :
    operandReads z o' (raiseError e w s) = operandReads z o' s := operandReads_congr (raiseError_bank _ _ _) (raiseError_sp _ _ _) (raiseError_devices _ _ _) z o'

@[simp] theorem getFlag_setPC (x : Flag) (p : DWord) (s : State) :
    getFlag x (setPC p s) = getFlag x s := by simp [getFlag]
@[simp] theorem getFlag_advance (x : Flag) (j : Instr) (s : State) :
    getFlag x (advance j s) = getFlag x s := by simp [getFlag]
@[simp] theorem getFlag_afterRead (x : Flag) (sp : Space) (a : DWord) (n : Nat) (s : State) :
    getFlag x (afterRead sp a n s) = getFlag x s := by simp [getFlag]
@[simp] theorem getFlag_fetched (x : Flag) (n : Nat) (s : State) :
    getFlag x (fetched n s) = getFlag x s := by simp [getFlag]
@[simp] theorem getFlag_memTouch (x : Flag) (sz : Size) (a : DWord) (s : State) :
    getFlag x (memTouch sz a s) = getFlag x s := by simp [getFlag]
@[simp] theorem getFlag_ioTouch (x : Flag) (sz : Size) (a : DWord) (s : State) :
    getFlag x (ioTouch sz a s) = getFlag x s := by simp [getFlag]
@[simp] theorem getFlag_touchPlace (x : Flag) (sz : Size) (p : Place) (s : State) :
    getFlag x (touchPlace sz p s) = getFlag x s := by simp [getFlag]
@[simp] theorem getFlag_touchOp (x : Flag) (sz : Size) (o : Operand sz) (s : State) :
    getFlag x (touchOp sz o s) = getFlag x s := by simp [getFlag]
@[simp] theorem getFlag_memWrite (x : Flag) (sz : Size) (a : DWord) (v : BitVec sz.bits) (s : State) :
    getFlag x (memWrite sz a v s) = getFlag x s := by simp [getFlag]
@[simp] theorem getFlag_ioWrite (x : Flag) (sz : Size) (a : DWord) (v : BitVec sz.bits) (s : State) :
    getFlag x (ioWrite sz a v s) = getFlag x s := by simp [getFlag]
@[simp] theorem getFlag_popSP (x : Flag) (s : State) :
    getFlag x (popSP s) = getFlag x s := by simp [getFlag]
@[simp] theorem getFlag_push32 (x : Flag) (v : DWord) (s : State) :
    getFlag x (push32 v s) = getFlag x s := by simp [getFlag]
@[simp] theorem getFlag_raiseError (x : Flag) (e : Fault) (w : BaseWord) (s : State) :
    getFlag x (raiseError e w s) = getFlag x s := by simp [getFlag]
@[simp] theorem getFlag_swapView (x : Flag) (n : BankReg) (lo w : Nat) (s : State) :
    getFlag x (swapView n lo w s) = getFlag x s := by simp [getFlag]
@[simp] theorem getFlag_writeStore (x : Flag) (n : RegName) (v : DWord) (s : State) :
    getFlag x (writeStore n v s) = getFlag x s := by simp [getFlag]
@[simp] theorem getFlag_writeReg (x : Flag) (sz : Size) (c : RegCode) (v : BitVec sz.bits) (s : State) :
    getFlag x (writeReg sz c v s) = getFlag x s := by simp [getFlag]
@[simp] theorem getFlag_writePlace (x : Flag) (sz : Size) (p : Place) (v : BitVec sz.bits) (s : State) :
    getFlag x (writePlace sz p v s) = getFlag x s := by simp [getFlag]

@[simp] theorem holds_setPC (cc : Cond) (p : DWord) (s : State) :
    holds cc (setPC p s) = holds cc s := by cases cc <;> simp [holds]
@[simp] theorem holds_advance (cc : Cond) (j : Instr) (s : State) :
    holds cc (advance j s) = holds cc s := by cases cc <;> simp [holds]
@[simp] theorem holds_afterRead (cc : Cond) (sp : Space) (a : DWord) (n : Nat) (s : State) :
    holds cc (afterRead sp a n s) = holds cc s := by cases cc <;> simp [holds]
@[simp] theorem holds_fetched (cc : Cond) (n : Nat) (s : State) :
    holds cc (fetched n s) = holds cc s := by cases cc <;> simp [holds]
@[simp] theorem holds_memTouch (cc : Cond) (sz : Size) (a : DWord) (s : State) :
    holds cc (memTouch sz a s) = holds cc s := by cases cc <;> simp [holds]
@[simp] theorem holds_ioTouch (cc : Cond) (sz : Size) (a : DWord) (s : State) :
    holds cc (ioTouch sz a s) = holds cc s := by cases cc <;> simp [holds]
@[simp] theorem holds_touchPlace (cc : Cond) (sz : Size) (p : Place) (s : State) :
    holds cc (touchPlace sz p s) = holds cc s := by cases cc <;> simp [holds]
@[simp] theorem holds_touchOp (cc : Cond) (sz : Size) (o : Operand sz) (s : State) :
    holds cc (touchOp sz o s) = holds cc s := by cases cc <;> simp [holds]
@[simp] theorem holds_memWrite (cc : Cond) (sz : Size) (a : DWord) (v : BitVec sz.bits) (s : State) :
    holds cc (memWrite sz a v s) = holds cc s := by cases cc <;> simp [holds]
@[simp] theorem holds_ioWrite (cc : Cond) (sz : Size) (a : DWord) (v : BitVec sz.bits) (s : State) :
    holds cc (ioWrite sz a v s) = holds cc s := by cases cc <;> simp [holds]
@[simp] theorem holds_popSP (cc : Cond) (s : State) :
    holds cc (popSP s) = holds cc s := by cases cc <;> simp [holds]
@[simp] theorem holds_push32 (cc : Cond) (v : DWord) (s : State) :
    holds cc (push32 v s) = holds cc s := by cases cc <;> simp [holds]
@[simp] theorem holds_raiseError (cc : Cond) (e : Fault) (w : BaseWord) (s : State) :
    holds cc (raiseError e w s) = holds cc s := by cases cc <;> simp [holds]
@[simp] theorem holds_swapView (cc : Cond) (n : BankReg) (lo w : Nat) (s : State) :
    holds cc (swapView n lo w s) = holds cc s := by cases cc <;> simp [holds]
@[simp] theorem holds_writeStore (cc : Cond) (n : RegName) (v : DWord) (s : State) :
    holds cc (writeStore n v s) = holds cc s := by cases cc <;> simp [holds]
@[simp] theorem holds_writeReg (cc : Cond) (sz : Size) (c : RegCode) (v : BitVec sz.bits) (s : State) :
    holds cc (writeReg sz c v s) = holds cc s := by cases cc <;> simp [holds]
@[simp] theorem holds_writePlace (cc : Cond) (sz : Size) (p : Place) (v : BitVec sz.bits) (s : State) :
    holds cc (writePlace sz p v s) = holds cc s := by cases cc <;> simp [holds]

end Sys2Proof.Machine
end

