-- ==== Sys2Proof/Laws/Flags.lean ====
section
/-! SUPPORT. The bits of F after a write of flags (10_state.md R39-R42). -/

namespace Sys2Proof.Machine

/-- A byte with one bit put: that bit is the value, every other bit is as before. -/
theorem getLsbD_putBit (v : Byte) (k : Nat) (b : Bool) (hk : k < 8) (j : Nat) :
    (putBit v k b).getLsbD j = if j = k then b else v.getLsbD j := by
  by_cases hj : j < 8
  · have h1 : ((1 : Byte) <<< k).getLsbD j = decide (j = k) := by
      rw [BitVec.getLsbD_shiftLeft]
      by_cases hjk : j = k
      · subst hjk; simp [hj]
      · by_cases hlt : j < k
        · simp [hlt, hjk]
        · have : ¬(j - k = 0) := by omega
          simp [hjk, hlt, hj, BitVec.getLsbD_one, this]
    cases b <;>
      simp only [putBit, if_true, Bool.false_eq_true, if_false, BitVec.getLsbD_or, BitVec.getLsbD_and,
        BitVec.getLsbD_not, h1, hj, decide_true, Bool.true_and] <;>
      by_cases hjk : j = k <;> simp [hjk]
  · rw [BitVec.getLsbD_of_ge _ j (by omega), if_neg (by omega), BitVec.getLsbD_of_ge v j (by omega)]

theorem Flag.pos_lt (x : Flag) : x.pos < 8 := by cases x <;> decide

theorem Flag.pos_inj {x y : Flag} (h : x.pos = y.pos) : x = y := by
  cases x <;> cases y <;> first | rfl | exact absurd h (by decide)

theorem getLsbD_putFlag? (x : Flag) (b : Option Bool) (v : Byte) (j : Nat) :
    (putFlag? x b v).getLsbD j = if j = x.pos then b.getD (v.getLsbD j) else v.getLsbD j := by
  cases b with
  | none => simp [putFlag?]
  | some b => simp only [putFlag?, Option.getD_some]; exact getLsbD_putBit v x.pos b x.pos_lt j

/-- What a flag write gives to a flag. -/
def FlagWrite.value (w : FlagWrite) (x : Flag) (old : Bool) : Bool :=
  match x with
  | .s => w.s.getD old
  | .z => w.z.getD old
  | .h => w.h.getD old
  | .pv => w.pv.getD old
  | .n => w.n.getD old
  | .c => w.c.getD old
  | .ie => old

/-- Each flag after a flag write: the written value, or the old one. -/
@[simp] theorem getFlag_putFlags (x : Flag) (w : FlagWrite) (s : State) :
    getFlag x (putFlags w s) = w.value x (getFlag x s) := by
  cases x <;>
    simp only [getFlag, putFlags_f, FlagWrite.apply, getLsbD_putFlag?, Flag.pos, FlagWrite.value, reduceIte,
      Nat.reduceEqDiff, OfNat.ofNat_ne_zero, OfNat.zero_ne_ofNat, one_ne_zero, zero_ne_one, OfNat.ofNat_ne_one,
      OfNat.one_ne_ofNat]

/-- The unused bit 3 of F is never written (10_state.md R40). -/
theorem apply_bit3 (w : FlagWrite) (v : Byte) : (w.apply v).getLsbD 3 = v.getLsbD 3 := by
  simp only [FlagWrite.apply, getLsbD_putFlag?, Flag.pos, reduceIte, Nat.reduceEqDiff, OfNat.ofNat_ne_zero,
    OfNat.ofNat_ne_one]

theorem putFlags_restOfF (w : FlagWrite) (s : State) : RestOfFSame s (putFlags w s) := by
  exact ⟨by simp [FlagSame, FlagWrite.value], apply_bit3 w s.f⟩

/-- A write of nothing leaves F. -/
@[simp] theorem apply_empty (v : Byte) : FlagWrite.apply {} v = v := rfl

/-- RestoreIFF1 writes IE alone. -/
theorem getFlag_restoreIFF1 (x : Flag) (s : State) :
    getFlag x (restoreIFF1 s) = if x = .ie then s.iff2.getLsbD 0 else getFlag x s := by
  cases x <;> simp only [getFlag, restoreIFF1_f, getLsbD_putBit _ 5 _ (by decide), Flag.pos] <;> rfl

/-- A flag update of six values leaves exactly those values. -/
theorem aluFlagsAre_putFlags {s t : State} (w : FlagWrite) (hf : t.f = s.f) :
    AluFlagsAre s (putFlags w t) (w.s.getD (getFlag .s s)) (w.z.getD (getFlag .z s)) (w.h.getD (getFlag .h s))
      (w.pv.getD (getFlag .pv s)) (w.n.getD (getFlag .n s)) (w.c.getD (getFlag .c s)) := by
  have h : ∀ x, getFlag x t = getFlag x s := fun x => by simp [getFlag, hf]
  refine ⟨?_, ?_, ?_, ?_, ?_, ?_, by simp [FlagWrite.value, h, FlagSame], ?_⟩
  · simp [FlagWrite.value, h]
  · simp [FlagWrite.value, h]
  · simp [FlagWrite.value, h]
  · simp [FlagWrite.value, h]
  · simp [FlagWrite.value, h]
  · simp [FlagWrite.value, h]
  · rw [putFlags_f, apply_bit3, hf]

end Sys2Proof.Machine
end

