-- ==== Sys2Proof/Laws/Memory.lean ====
section
/-! SUPPORT. The RAM of a bus: reads after writes, accesses of one size, and the canonical form. -/

namespace Sys2Proof.Machine

/-! ## One byte -/

theorem read_erase_same (m : Memory) (a : Nat) : (m.erase a).read a = Memory.unlisted := by
  induction m with
  | nil => rfl
  | cons c m ih =>
    obtain ⟨k, b⟩ := c
    by_cases h : k = a <;> simp [Memory.erase, Memory.read, h, ih]

theorem read_erase_ne (m : Memory) {a a' : Nat} (h : a' ≠ a) : (m.erase a).read a' = m.read a' := by
  induction m with
  | nil => rfl
  | cons c m ih =>
    obtain ⟨k, b⟩ := c
    by_cases hk : k = a
    · subst hk; simp [Memory.erase, Memory.read, ih, Ne.symm h]
    · simp [Memory.erase, Memory.read, hk, ih]

theorem read_insert_ne (m : Memory) {a a' : Nat} (b : Byte) (h : a' ≠ a) : (m.insert a b).read a' = m.read a' := by
  induction m with
  | nil => simp [Memory.insert, Memory.read, Ne.symm h]
  | cons c m ih =>
    obtain ⟨k, d⟩ := c
    by_cases hk : a < k <;> simp [Memory.insert, Memory.read, hk, ih, Ne.symm h]

/-- A list without cells of `a`, with one put in, reads that one. -/
theorem read_insert_erase (m : Memory) (a : Nat) (b : Byte) : ((m.erase a).insert a b).read a = b := by
  induction m with
  | nil => simp [Memory.erase, Memory.insert, Memory.read]
  | cons c m ih =>
    obtain ⟨k, d⟩ := c
    by_cases hk : k = a
    · simpa [Memory.erase, hk] using ih
    · by_cases hlt : a < k <;> simp [Memory.erase, Memory.insert, Memory.read, hk, hlt, ih]

/-- A byte written is the byte read. -/
@[simp] theorem read_write_same (m : Memory) (a : Nat) (b : Byte) : (m.write a b).read a = b := by
  unfold Memory.write
  split
  · next h => rw [read_erase_same, h]
  · exact read_insert_erase m a b

/-- A write leaves every other address alone. -/
theorem read_write_ne (m : Memory) {a a' : Nat} (b : Byte) (h : a' ≠ a) : (m.write a b).read a' = m.read a' := by
  unfold Memory.write
  split
  · exact read_erase_ne m h
  · rw [read_insert_ne _ _ h, read_erase_ne m h]

theorem read_write (m : Memory) (a a' : Nat) (b : Byte) :
    (m.write a b).read a' = if a' = a then b else m.read a' := by
  split
  · next h => rw [h, read_write_same]
  · next h => exact read_write_ne m b h

/-! ## The canonical form -/

theorem wfFrom_mono {m : Memory} {lo lo' : Nat} (h : m.wfFrom lo = true) (hl : lo' ≤ lo) : m.wfFrom lo' = true := by
  cases m with
  | nil => rfl
  | cons c m =>
    obtain ⟨k, b⟩ := c
    simp only [Memory.wfFrom, Bool.and_eq_true, decide_eq_true_eq] at h ⊢
    obtain ⟨⟨⟨h1, h2⟩, h3⟩, h4⟩ := h
    exact ⟨⟨⟨by omega, h2⟩, h3⟩, h4⟩

theorem erase_wfFrom {m : Memory} {lo : Nat} (a : Nat) (h : m.wfFrom lo = true) : (m.erase a).wfFrom lo = true := by
  induction m generalizing lo with
  | nil => rfl
  | cons c m ih =>
    obtain ⟨k, b⟩ := c
    simp only [Memory.wfFrom, Bool.and_eq_true, decide_eq_true_eq] at h
    obtain ⟨⟨⟨h1, h2⟩, h3⟩, h4⟩ := h
    by_cases hk : k = a
    · simp only [Memory.erase, hk, if_true]
      exact wfFrom_mono (ih (hk ▸ h4)) (by omega)
    · simp only [Memory.erase, hk, if_false, Memory.wfFrom, Bool.and_eq_true, decide_eq_true_eq]
      exact ⟨⟨⟨h1, h2⟩, h3⟩, ih h4⟩

theorem insert_erase_wfFrom {m : Memory} {lo a : Nat} {b : Byte} (hb : b ≠ Memory.unlisted) (ha : a < 2 ^ 32)
    (hlo : lo ≤ a) (h : m.wfFrom lo = true) : ((m.erase a).insert a b).wfFrom lo = true := by
  induction m generalizing lo with
  | nil =>
    simp only [Memory.erase, Memory.insert, Memory.wfFrom, Bool.and_eq_true, decide_eq_true_eq]
    exact ⟨⟨⟨hlo, ha⟩, by simpa using hb⟩, trivial⟩
  | cons c m ih =>
    obtain ⟨k, d⟩ := c
    simp only [Memory.wfFrom, Bool.and_eq_true, decide_eq_true_eq] at h
    obtain ⟨⟨⟨h1, h2⟩, h3⟩, h4⟩ := h
    by_cases hk : k = a
    · subst hk
      simp only [Memory.erase, if_true]
      exact ih hlo (wfFrom_mono h4 (by omega))
    · simp only [Memory.erase, hk, if_false, Memory.insert]
      by_cases hlt : a < k
      · simp only [hlt, if_true, Memory.wfFrom, Bool.and_eq_true, decide_eq_true_eq]
        exact ⟨⟨⟨hlo, ha⟩, by simpa using hb⟩, ⟨⟨by omega, h2⟩, h3⟩, erase_wfFrom a h4⟩
      · simp only [hlt, if_false, Memory.wfFrom, Bool.and_eq_true, decide_eq_true_eq]
        exact ⟨⟨⟨h1, h2⟩, h3⟩, ih (by omega) h4⟩

/-- A write of a byte keeps the canonical form. -/
theorem write_wf {m : Memory} {a : Nat} (b : Byte) (ha : a < 2 ^ 32) (h : m.wf = true) : (m.write a b).wf = true := by
  unfold Memory.write
  split
  · exact erase_wfFrom a h
  · next hb => exact insert_erase_wfFrom hb ha (Nat.zero_le a) h

/-! ## Accesses of one size -/

theorem byteAddr_lt (a : DWord) (k : Nat) : byteAddr a k < 2 ^ 32 := (a + BitVec.ofNat 32 k).isLt

theorem byteAddr_inj {a : DWord} {j k : Nat} (hj : j < 2 ^ 32) (hk : k < 2 ^ 32) (h : byteAddr a j = byteAddr a k) :
    j = k := by
  have h' : a + BitVec.ofNat 32 j = a + BitVec.ofNat 32 k := BitVec.eq_of_toNat_eq h
  have := congrArg BitVec.toNat ((BitVec.add_right_inj a).mp h')
  simp only [BitVec.toNat_ofNat] at this
  omega

theorem Size.bytes_le (sz : Size) : sz.bytes ≤ 4 := by cases sz <;> decide

/-- The RAM after the first `n` bytes of a write: outside them nothing changes. -/
theorem read_foldl_outside (m : Memory) (device : Nat → Bool) (a : DWord) (g : Nat → Byte) (n : Nat) {b : Nat}
    (h : ∀ k, k < n → b ≠ byteAddr a k) :
    ((List.range n).foldl (fun m k => if device (byteAddr a k) then m else m.write (byteAddr a k) (g k)) m).read b =
      m.read b := by
  induction n with
  | zero => rfl
  | succ n ih =>
    rw [List.range_succ, List.foldl_append, List.foldl_cons, List.foldl_nil]
    split
    · exact ih fun k hk => h k (by omega)
    · rw [read_write_ne _ _ (h n (by omega))]
      exact ih fun k hk => h k (by omega)

/-- The RAM after the first `n` bytes of a write: each of them is stored, unless its address is a device's. -/
theorem read_foldl_inside (m : Memory) (device : Nat → Bool) (a : DWord) (g : Nat → Byte) (n : Nat) (hn : n ≤ 4) {k : Nat}
    (hk : k < n) :
    ((List.range n).foldl (fun m k => if device (byteAddr a k) then m else m.write (byteAddr a k) (g k)) m).read
      (byteAddr a k) = if device (byteAddr a k) then m.read (byteAddr a k) else g k := by
  induction n with
  | zero => omega
  | succ n ih =>
    rw [List.range_succ, List.foldl_append, List.foldl_cons, List.foldl_nil]
    by_cases hkn : k = n
    · subst hkn
      have out : ∀ j, j < k → byteAddr a k ≠ byteAddr a j := fun j hj e => by
        have := byteAddr_inj (by omega) (by omega) e
        omega
      split
      · exact read_foldl_outside m device a g k out
      · exact read_write_same _ _ _
    · have ne : byteAddr a k ≠ byteAddr a n := fun e => hkn (byteAddr_inj (by omega) (by omega) e)
      split
      · exact ih (by omega) (by omega)
      · rw [read_write_ne _ _ ne]
        exact ih (by omega) (by omega)

/-- A byte outside the stored ones reads as before. -/
theorem read_writeRam_outside (m : Memory) (device : Nat → Bool) (sz : Size) (a : DWord) (v : BitVec sz.bits) {b : Nat}
    (h : ∀ k, k < sz.bytes → b ≠ byteAddr a k) : (m.writeRam device sz a v).read b = m.read b :=
  read_foldl_outside m device a (byteOf v) sz.bytes h

/-- A stored byte reads as the value's byte, unless its address is a device's. -/
theorem read_writeRam_inside (m : Memory) (device : Nat → Bool) (sz : Size) (a : DWord) (v : BitVec sz.bits) {k : Nat}
    (hk : k < sz.bytes) : (m.writeRam device sz a v).read (byteAddr a k) =
      if device (byteAddr a k) then m.read (byteAddr a k) else byteOf v k :=
  read_foldl_inside m device a (byteOf v) sz.bytes (Size.bytes_le sz) hk

/-- Putting the bytes of a value together gives the value. -/
theorem ofBytes_byteOf (sz : Size) (v : BitVec sz.bits) (g : Nat → Byte) (h : ∀ k, k < sz.bytes → g k = byteOf v k) :
    ofBytes sz g = v := by
  cases sz with
  | byte =>
    simp only [ofBytes, h 0 (by decide), byteOf]
    simp
  | word =>
    simp only [ofBytes, h 0 (by decide), h 1 (by decide), byteOf]
    apply BitVec.eq_of_getLsbD_eq
    intro i hi
    simp only [Size.bits, BitVec.getLsbD_append, BitVec.getLsbD_extractLsb'] at hi ⊢
    by_cases h8 : i < 8
    · simp [h8]
    · simp [h8, show i - 8 < 8 by omega, show 8 + (i - 8) = i by omega]
  | dword =>
    simp only [ofBytes, h 0 (by decide), h 1 (by decide), h 2 (by decide), h 3 (by decide), byteOf]
    apply BitVec.eq_of_getLsbD_eq
    intro i hi
    simp only [Size.bits, BitVec.getLsbD_append, BitVec.getLsbD_extractLsb'] at hi ⊢
    by_cases h8 : i < 8
    · simp [h8]
    · by_cases h16 : i < 16
      · simp [h8, show i - 8 < 8 by omega, show 8 + (i - 8) = i by omega]
      · by_cases h24 : i < 24
        · simp [h8, show ¬(i - 8 < 8) by omega, show i - 8 - 8 < 8 by omega, show 16 + (i - 8 - 8) = i by omega]
        · simp [h8, show ¬(i - 8 < 8) by omega, show ¬(i - 8 - 8 < 8) by omega, show i - 8 - 8 - 8 < 8 by omega,
            show 24 + (i - 8 - 8 - 8) = i by omega]

/-- A write keeps the canonical form. -/
theorem writeRam_wf {m : Memory} (device : Nat → Bool) (sz : Size) (a : DWord) (v : BitVec sz.bits) (h : m.wf = true) :
    (m.writeRam device sz a v).wf = true := by
  unfold Memory.writeRam
  generalize List.range sz.bytes = ks
  induction ks generalizing m with
  | nil => exact h
  | cons k ks ih =>
    rw [List.foldl_cons]
    split
    · exact ih h
    · exact ih (write_wf _ (byteAddr_lt a k) h)

/-- Storing a list of bytes keeps the canonical form. -/
theorem storeBytes_wf {m : Memory} (a : DWord) (bs : List Byte) (h : m.wf = true) : (m.storeBytes a bs).wf = true := by
  induction bs generalizing m a with
  | nil => exact h
  | cons b bs ih => exact ih (a + 1) (write_wf b a.isLt h)

end Sys2Proof.Machine
end

