-- ==== Sys2Proof/Laws/Registers.lean ====
section
/-! SUPPORT. The register file's views: what a read gives after a write (10_state.md R31, R32). -/

namespace Sys2Proof.Machine

/-! ## Storages -/

@[simp] theorem Bank.get_set_same (k : Bank) (n : BankReg) (v : DWord) : (k.set n v).get n = v := by cases n <;> rfl

theorem Bank.get_set_ne (k : Bank) {n n' : BankReg} (v : DWord) (h : n' ≠ n) : (k.set n v).get n' = k.get n' := by
  cases n <;> cases n' <;> first | rfl | exact absurd rfl h

@[simp] theorem Bank.set_get (k : Bank) (n : BankReg) : k.set n (k.get n) = k := by cases n <;> rfl

@[simp] theorem Bank.set_set (k : Bank) (n : BankReg) (v w : DWord) : (k.set n v).set n w = k.set n w := by
  cases n <;> rfl

@[simp] theorem readStore_writeStore_same (n : RegName) (v : DWord) (s : State) :
    readStore n (writeStore n v s) = v := by
  cases n <;> simp [readStore, writeStore]

theorem readStore_writeStore_ne {n n' : RegName} (v : DWord) (s : State) (h : n' ≠ n) :
    readStore n' (writeStore n v s) = readStore n' s := by
  cases n with
  | sp => cases n' with
    | sp => exact absurd rfl h
    | banked b => rfl
  | banked b => cases n' with
    | sp => rfl
    | banked b' =>
      simp only [readStore, writeStore]
      exact Bank.get_set_ne _ _ fun hb => h (hb ▸ rfl)

/-! ## Views -/

/-- Every view lies inside its storage. -/
theorem viewSlot_le (sz : Size) (c : RegCode) : (viewSlot sz c).2 + sz.bits ≤ 32 := by
  cases sz <;> cases c <;> decide

theorem getLsbD_viewGet (lo w : Nat) (x : DWord) (k : Nat) :
    (viewGet lo w x).getLsbD k = (decide (k < w) && x.getLsbD (lo + k)) := by
  simp [viewGet, BitVec.getLsbD_extractLsb']

/-- A storage after a view write: the view's bits are the value's, every other bit is as before. -/
theorem getLsbD_viewPut {lo w : Nat} (x : DWord) (v : BitVec w) (h : lo + w ≤ 32) (k : Nat) :
    (viewPut lo x v).getLsbD k = if lo ≤ k ∧ k < lo + w then v.getLsbD (k - lo) else x.getLsbD k := by
  by_cases hk : k < 32
  · simp only [viewPut, BitVec.getLsbD_or, BitVec.getLsbD_and, BitVec.getLsbD_not, BitVec.getLsbD_shiftLeft,
      BitVec.getLsbD_setWidth, BitVec.getLsbD_allOnes, hk, decide_true, Bool.true_and]
    by_cases h1 : k < lo
    · simp [h1, show ¬(lo ≤ k) by omega]
    · by_cases h2 : k - lo < w
      · simp [h1, h2, show lo ≤ k by omega, show k < lo + w by omega, show k - lo < 32 by omega]
      · simp [h1, h2, show ¬(k < lo + w) by omega, BitVec.getLsbD_of_ge v (k - lo) (by omega)]
  · rw [BitVec.getLsbD_of_ge _ k (by omega), if_neg (by omega), BitVec.getLsbD_of_ge x k (by omega)]

@[simp] theorem viewGet_viewPut {lo w : Nat} (x : DWord) (v : BitVec w) (h : lo + w ≤ 32) :
    viewGet lo w (viewPut lo x v) = v := by
  apply BitVec.eq_of_getLsbD_eq
  intro i hi
  rw [getLsbD_viewGet, getLsbD_viewPut x v h, if_pos (by omega)]
  simp [hi]

/-- A view of a storage is unchanged when its bits are. -/
theorem viewGet_congr {lo w : Nat} {x y : DWord} (h : ∀ k, lo ≤ k → k < lo + w → x.getLsbD k = y.getLsbD k) :
    viewGet lo w x = viewGet lo w y := by
  apply BitVec.eq_of_getLsbD_eq
  intro i hi
  rw [getLsbD_viewGet, getLsbD_viewGet, h (lo + i) (by omega) (by omega)]

/-- A whole-storage view reads the storage. -/
@[simp] theorem viewGet_whole (x : DWord) : viewGet 0 32 x = x := by simp [viewGet]

@[simp] theorem viewPut_whole (x y : DWord) : viewPut 0 x y = y := by
  apply BitVec.eq_of_getLsbD_eq
  intro i hi
  rw [getLsbD_viewPut x y (by omega), if_pos (by omega), Nat.sub_zero]

/-- `Set(t, size, v)` then `Get(t, size)` returns v (10_state.md R32). -/
@[simp] theorem readReg_writeReg_same (sz : Size) (c : RegCode) (v : BitVec sz.bits) (s : State) :
    readReg sz c (writeReg sz c v s) = v := by
  simp [readReg, writeReg, viewSlot_le]

/-- A view write leaves every other bit of the register file unchanged (10_state.md R32). -/
theorem writeReg_regsSameOutside (sz : Size) (c : RegCode) (v : BitVec sz.bits) (s : State) :
    RegsSameOutside sz c s (writeReg sz c v s) := by
  intro n k hk
  unfold writeReg
  by_cases hn : n = (viewSlot sz c).1
  · subst hn
    rw [readStore_writeStore_same, getLsbD_viewPut _ _ (viewSlot_le sz c), if_neg]
    exact fun h => hk ⟨rfl, h⟩
  · rw [readStore_writeStore_ne _ _ hn]

/-- Two views do not share a bit. -/
def ViewsDisjoint (z : Size) (c' : RegCode) (sz : Size) (c : RegCode) : Prop :=
  (viewSlot z c').1 ≠ (viewSlot sz c).1 ∨ (viewSlot z c').2 + z.bits ≤ (viewSlot sz c).2 ∨
    (viewSlot sz c).2 + sz.bits ≤ (viewSlot z c').2

/-- A view that shares no bit with the only view changed is unchanged. -/
theorem readReg_of_outside {sz : Size} {c : RegCode} {s t : State} (h : RegsSameOutside sz c s t) {z : Size}
    {c' : RegCode} (hd : ViewsDisjoint z c' sz c) : readReg z c' t = readReg z c' s := by
  unfold readReg
  apply viewGet_congr
  intro k h1 h2
  apply h
  rintro ⟨hn, h3, h4⟩
  rcases hd with hd | hd | hd
  · exact hd hn
  · omega
  · omega

theorem readReg_writeReg_disjoint {sz : Size} {c : RegCode} (v : BitVec sz.bits) (s : State) {z : Size} {c' : RegCode}
    (hd : ViewsDisjoint z c' sz c) : readReg z c' (writeReg sz c v s) = readReg z c' s :=
  readReg_of_outside (writeReg_regsSameOutside sz c v s) hd

/-- Views of one size are equal or share no bit. -/
theorem viewsDisjoint_of_ne (sz : Size) {c c' : RegCode} (h : c' ≠ c) : ViewsDisjoint sz c' sz c := by
  cases sz <;> cases c <;> cases c' <;>
    first
    | exact absurd rfl h
    | exact .inl (by decide)
    | exact .inr (.inl (by decide))
    | exact .inr (.inr (by decide))

/-- A register of the same size and another code is unchanged. -/
theorem readReg_writeReg_ne (sz : Size) {c c' : RegCode} (v : BitVec sz.bits) (s : State) (h : c' ≠ c) :
    readReg sz c' (writeReg sz c v s) = readReg sz c' s :=
  readReg_writeReg_disjoint v s (viewsDisjoint_of_ne sz h)

/-- Registers are the same when the primary bank and SP are. -/
theorem regsSame_of_eq {s t : State} (hb : t.bank = s.bank) (hs : t.sp = s.sp) : RegsSame s t := by
  intro n
  cases n <;> simp [readStore, hb, hs]

theorem regsSame_refl (s : State) : RegsSame s s := fun _ => rfl

/-- Writing the bits that are there changes nothing. -/
theorem viewPut_viewGet {lo w : Nat} (x : DWord) (h : lo + w ≤ 32) : viewPut lo x (viewGet lo w x) = x := by
  apply BitVec.eq_of_getLsbD_eq
  intro i hi
  rw [getLsbD_viewPut _ _ h]
  split
  · next hk => rw [getLsbD_viewGet, show lo + (i - lo) = i by omega]; simp; omega
  · rfl

/-! ## The views that implicit operands use -/

/-- The low byte of a storage replaced. -/
theorem viewPut_low8 (x : DWord) (v : Byte) : viewPut 0 x v = x.extractLsb' 8 24 ++ v := by
  apply BitVec.eq_of_getLsbD_eq
  intro i hi
  rw [getLsbD_viewPut _ _ (by omega), BitVec.getLsbD_append, BitVec.getLsbD_extractLsb']
  by_cases h : i < 8
  · simp [h]
  · simp [h, show i - 8 < 24 by omega, show 8 + (i - 8) = i by omega]

/-- The high word of a storage replaced. -/
theorem viewPut_high16 (x : DWord) (v : BitVec 16) : viewPut 16 x v = v ++ x.extractLsb' 0 16 := by
  apply BitVec.eq_of_getLsbD_eq
  intro i hi
  rw [getLsbD_viewPut _ _ (by omega), BitVec.getLsbD_append, BitVec.getLsbD_extractLsb']
  by_cases h : i < 16
  · simp [h, show ¬(16 ≤ i) by omega]
  · simp [h, hi, show 16 ≤ i by omega]

/-- A.B (10_state.md R31, R33). -/
theorem readReg_byteA (s : State) : readReg .byte codeA s = s.bank.a.extractLsb' 0 8 := rfl

/-- A.B written: A[31:8] stays. -/
theorem writeReg_byteA (v : Byte) (s : State) :
    writeReg .byte codeA v s = { s with bank := { s.bank with a := s.bank.a.extractLsb' 8 24 ++ v } } := by
  rw [← viewPut_low8]; rfl

/-- B.W is the high half of BC (10_state.md R33). -/
theorem readReg_wordB (s : State) : readReg .word codeB s = s.bank.bc.extractLsb' 16 16 := rfl

/-- C.W is the low half of BC (10_state.md R33). -/
theorem readReg_wordC (s : State) : readReg .word codeC s = s.bank.bc.extractLsb' 0 16 := rfl

/-- B.W written: C stays. -/
theorem writeReg_wordB (v : BitVec 16) (s : State) :
    writeReg .word codeB v s = { s with bank := { s.bank with bc := v ++ s.bank.bc.extractLsb' 0 16 } } := by
  rw [← viewPut_high16]; rfl

@[simp] theorem readReg_dwordA (s : State) : readReg .dword codeA s = s.bank.a := viewGet_whole _
@[simp] theorem readReg_dwordBC (s : State) : readReg .dword codeBC s = s.bank.bc := viewGet_whole _
@[simp] theorem readReg_dwordDE (s : State) : readReg .dword codeDE s = s.bank.de := viewGet_whole _
@[simp] theorem readReg_dwordHL (s : State) : readReg .dword codeHL s = s.bank.hl := viewGet_whole _
@[simp] theorem readReg_dwordSP (s : State) : readReg .dword codeSP s = s.sp := viewGet_whole _

theorem writeReg_dwordBC (v : DWord) (s : State) :
    writeReg .dword codeBC v s = { s with bank := { s.bank with bc := v } } := 
  congrArg (fun x => { s with bank := { s.bank with bc := x } }) (viewPut_whole s.bank.bc v)
theorem writeReg_dwordDE (v : DWord) (s : State) :
    writeReg .dword codeDE v s = { s with bank := { s.bank with de := v } } := 
  congrArg (fun x => { s with bank := { s.bank with de := x } }) (viewPut_whole s.bank.de v)
theorem writeReg_dwordHL (v : DWord) (s : State) :
    writeReg .dword codeHL v s = { s with bank := { s.bank with hl := v } } := 
  congrArg (fun x => { s with bank := { s.bank with hl := x } }) (viewPut_whole s.bank.hl v)

end Sys2Proof.Machine
end

