-- ==== Sys2Proof/Laws/Ops.lean ====
section
/-! SUPPORT. What each shared operation does, said once: what it writes, which flags it leaves, and that nothing else moves. -/

namespace Sys2Proof.Machine

/-! ## The buses -/

/-- Byte `k` of a read: what the device answers after the transfers of the bytes before it, or what RAM holds (20_memory.md R72,
R79). -/
theorem busByteAt_eq (sp : Space) (a : DWord) (s : State) (k : Nat) :
    busByteAt sp a s k = if isDevice sp s (byteAddr a k) then
      Config.deviceAnswer (readTransfers sp a s k ++ s.transfers) sp (byteAddr a k)
    else (ramOf sp s).read (byteAddr a k) := by
  cases sp <;> rfl

theorem byteOf_ofBytes (sz : Size) (g : Nat → Byte) {k : Nat} (hk : k < sz.bytes) : byteOf (ofBytes sz g) k = g k := by
  have e : ∀ {w : Nat} (x : BitVec w) (y : Byte), (x ++ y).extractLsb' 0 8 = y := fun x y => by
    apply BitVec.eq_of_getLsbD_eq
    intro i hi
    simp [BitVec.getLsbD_append, hi]
  have e' : ∀ {w : Nat} (x : BitVec w) (y : Byte) (j : Nat), (x ++ y).extractLsb' (8 + j) 8 = x.extractLsb' j 8 :=
    fun x y j => by
      apply BitVec.eq_of_getLsbD_eq
      intro i hi
      simp [BitVec.getLsbD_append, hi, Nat.add_assoc]
  cases sz with
  | byte =>
    obtain rfl : k = 0 := by simp [Size.bytes] at hk; exact hk
    exact BitVec.extractLsb'_eq_self
  | word =>
    have hk : k < 2 := hk
    obtain rfl | rfl : k = 0 ∨ k = 1 := by omega
    · exact e _ _
    · exact (e' _ _ 0).trans BitVec.extractLsb'_eq_self
  | dword =>
    have hk : k < 4 := hk
    obtain rfl | rfl | rfl | rfl : k = 0 ∨ k = 1 ∨ k = 2 ∨ k = 3 := by omega
    · exact e _ _
    · exact (e' _ _ 0).trans (e _ _)
    · exact (e' _ _ 8).trans ((e' _ _ 0).trans (e _ _))
    · exact (e' _ _ 16).trans ((e' _ _ 8).trans ((e' _ _ 0).trans BitVec.extractLsb'_eq_self))

/-- A read, byte by byte. -/
theorem byteOf_busRead (sp : Space) (sz : Size) (a : DWord) (s : State) {k : Nat} (hk : k < sz.bytes) :
    byteOf (busRead sp sz a s) k = busByteAt sp a s k := byteOf_ofBytes sz _ hk

/-- What a write stores. -/
theorem busWrite_storedAt (sp : Space) (sz : Size) (a : DWord) (v : BitVec sz.bits) (s : State) :
    StoredAt sp sz a v s (busWrite sp sz a v s) := by
  cases sp
  · exact ⟨fun k hk => read_writeRam_inside s.mem _ sz a v hk, fun b h => read_writeRam_outside s.mem _ sz a v h⟩
  · exact ⟨fun k hk => read_writeRam_inside s.io _ sz a v hk, fun b h => read_writeRam_outside s.io _ sz a v h⟩

theorem memWrite_storedAt (sz : Size) (a : DWord) (v : BitVec sz.bits) (s : State) :
    StoredAt .mem sz a v s (memWrite sz a v s) := busWrite_storedAt .mem sz a v s

theorem ioWrite_storedAt (sz : Size) (a : DWord) (v : BitVec sz.bits) (s : State) :
    StoredAt .io sz a v s (ioWrite sz a v s) := busWrite_storedAt .io sz a v s

/-- What a write says depends on the device map and on that bus's RAM alone. -/
theorem StoredAt.congr {sp : Space} {sz : Size} {a : DWord} {v : BitVec sz.bits} {s s' t t' : State}
    (h : StoredAt sp sz a v s t) (hd : s'.devices = s.devices) (hs : ramOf sp s' = ramOf sp s) (ht : ramOf sp t' = ramOf sp t) :
    StoredAt sp sz a v s' t' :=
  ⟨fun k hk => by rw [ht, hs, isDevice_congr sp hd]; exact h.1 k hk, fun b hb => by rw [ht, hs]; exact h.2 b hb⟩

/-- A read of RAM gives what a write of the same size at the same address left there. -/
theorem memRead_of_storedAt {sz : Size} {a : DWord} {v : BitVec sz.bits} {s t : State} (h : StoredAt .mem sz a v s t)
    (hd : t.devices = s.devices) (ram : ∀ k, k < sz.bytes → isDevice .mem s (byteAddr a k) = false) :
    memRead sz a t = v := by
  refine ofBytes_byteOf sz v _ fun k hk => ?_
  rw [busByteAt_eq, isDevice_congr .mem hd, ram k hk]
  have := h.1 k hk
  rw [ram k hk] at this
  exact this

theorem memSame_of_eq {s t : State} (h : t.mem = s.mem) : MemSame s t := fun a => by rw [h]

theorem ioSame_of_eq {s t : State} (h : t.io = s.io) : IOSame s t := fun a => by rw [h]

/-! ## `writePlace` -/

/-- A place written: it alone is written. -/
theorem writePlace_only (sz : Size) (p : Place) (v : BitVec sz.bits) (s : State) :
    OnlyPlaceWritten sz p v s (writePlace sz p v s) := by
  cases p with
  | reg c => exact ⟨readReg_writeReg_same sz c v s, writeReg_regsSameOutside sz c v s, memSame_of_eq (by simp [writePlace])⟩
  | mem m => exact ⟨memWrite_storedAt sz _ v s, fun n => by simp [writePlace]⟩

/-- What a place's write says depends on the registers, the device map and the memory RAM alone. -/
theorem OnlyPlaceWritten.congr {sz : Size} {p : Place} {v : BitVec sz.bits} {s s' t t' : State}
    (h : OnlyPlaceWritten sz p v s t) (hs : s'.bank = s.bank ∧ s'.sp = s.sp ∧ s'.mem = s.mem ∧ s'.devices = s.devices)
    (ht : t'.bank = t.bank ∧ t'.sp = t.sp ∧ t'.mem = t.mem) : OnlyPlaceWritten sz p v s' t' := by
  have r : ∀ n, readStore n s' = readStore n s := readStore_congr hs.1 hs.2.1
  have r' : ∀ n, readStore n t' = readStore n t := readStore_congr ht.1 ht.2.1
  cases p with
  | reg c =>
    obtain ⟨h1, h2, h3⟩ := h
    refine ⟨by simpa [readReg, r'] using h1, fun n k hk => ?_, fun a => ?_⟩
    · rw [r, r']; exact h2 n k hk
    · rw [hs.2.2.1, ht.2.2]; exact h3 a
  | mem m =>
    obtain ⟨h1, h2⟩ := h
    refine ⟨?_, fun n => ?_⟩
    · rw [effAddr_congr hs.1 hs.2.1]
      exact h1.congr hs.2.2.2 hs.2.2.1 ht.2.2
    · rw [r, r']; exact h2 n

/-- A write of a place by `i`, in a state `u` that differs from `s` by the reads given and by PC, flags apart. -/
theorem writePlace_after {i : Instr} {s u : State} {reads : List Transfer} (hu : u = { advance i s with transfers := reads ++ s.transfers })
    (sz : Size) (p : Place) (v : BitVec sz.bits) (w : FlagWrite) :
    WritesAfter reads sz p v s (putFlags w (writePlace sz p v u)) ∧ (putFlags w (writePlace sz p v u)).f = w.apply s.f ∧
      Elsewhere i s (putFlags w (writePlace sz p v u)) := by
  subst hu
  refine ⟨⟨(writePlace_only sz p v { advance i s with transfers := reads ++ s.transfers }).congr ⟨rfl, rfl, rfl, rfl⟩
      ⟨rfl, rfl, rfl⟩, ?_⟩, by simp,
    ?_, ⟨?_, ?_, ?_, ?_, ?_, ?_, ?_⟩, ioSame_of_eq ?_⟩
  · simp only [Seen, putFlags_transfers, writePlace_transfers, List.append_assoc]
    rw [placeWrites_congr (s := s) (t := { advance i s with transfers := reads ++ s.transfers }) rfl rfl rfl]
  all_goals simp [AtNext]

/-- Flags alone written by `i` after the reads given. -/
theorem flags_after {i : Instr} {s u : State} {reads : List Transfer} (hu : u = { advance i s with transfers := reads ++ s.transfers })
    (w : FlagWrite) : WritesNothing reads s (putFlags w u) ∧ Elsewhere i s (putFlags w u) := by
  subst hu
  exact ⟨⟨regsSame_of_eq rfl rfl, memSame_of_eq rfl, rfl⟩, rfl, ⟨rfl, rfl, rfl, rfl, rfl, rfl, rfl⟩, ioSame_of_eq rfl⟩

/-! ## The frames -/

/-- The two operands are not both in memory: no encoding has two memory operands (30_encoding.md R122). -/
def Apart {sz : Size} : Place → Operand sz → Prop
  | .mem _, .place (.mem _) => False
  | .mem _, .place (.reg _) => True
  | .mem _, .imm _ => True
  | .reg _, _ => True

theorem apart_srcOperand {sz : Size} (d : RegCode) (q : Src sz) : Apart (.reg d) (srcOperand q) := trivial

theorem apart_rm {sz : Size} (ops : RMOperands sz) : Apart (rmDst ops) (rmSrc ops) := by
  cases ops with
  | load _ _ => trivial
  | store _ q => cases q <;> trivial

/-- Where the operands are not both in memory, operand 2's value does not depend on operand 1's read. -/
theorem readOp_touchPlace {sz : Size} {o1 : Place} {o2 : Operand sz} (h : Apart o1 o2) (s : State) :
    readOp sz o2 (touchPlace sz o1 s) = readOp sz o2 s := by
  cases o1 with
  | reg c => rfl
  | mem m =>
    cases o2 with
    | imm v => rfl
    | place p =>
      cases p with
      | reg c => exact readReg_touchPlace sz c sz (.mem m) s
      | mem m' => exact h.elim

/-- What the two operand reads of `i` leave. -/
theorem reads_after (i : Instr) (sz : Size) (o1 : Place) (o2 : Operand sz) (s : State) :
    touchOp sz o2 (touchPlace sz o1 (advance i s)) =
      { advance i s with transfers := bothReads sz o1 o2 s ++ s.transfers } := by
  rw [touchOp, operandReads_touchPlace, operandReads_advance]
  simp only [touchPlace, placeReads_advance, bothReads, advance_transfers, List.append_assoc]

theorem placeRead_after (i : Instr) (sz : Size) (o1 : Place) (s : State) :
    touchPlace sz o1 (advance i s) = { advance i s with transfers := placeReads sz o1 s ++ s.transfers } := by
  simp only [touchPlace, placeReads_advance, advance_transfers]

/-- The binary frame: the result in operand 1, the flags that the operation gives, the two reads and the write, nothing else. What
the operation computes may use F of the state it is given, and nothing else of it. -/
theorem binaryOp_spec (i : Instr) (sz : Size) {o1 : Place} {o2 : Operand sz} (ho : Apart o1 o2)
    (g : BitVec sz.bits → BitVec sz.bits → State → BitVec sz.bits × FlagWrite) (s : State)
    {v : BitVec sz.bits} {w : FlagWrite}
    (hg : ∀ u : State, u.f = s.f → g (readPlace sz o1 s) (readOp sz o2 s) u = (v, w)) :
    let t := binaryOp sz o1 o2 g (advance i s)
    WritesAfter (bothReads sz o1 o2 s) sz o1 v s t ∧
      AluFlagsAre s t (w.s.getD (getFlag .s s)) (w.z.getD (getFlag .z s)) (w.h.getD (getFlag .h s))
        (w.pv.getD (getFlag .pv s)) (w.n.getD (getFlag .n s)) (w.c.getD (getFlag .c s)) ∧
      t.f = w.apply s.f ∧ Elsewhere i s t := by
  simp only [binaryOp, readPlace_advance, readOp_touchPlace ho, readOp_advance]
  rw [hg (touchOp sz o2 (touchPlace sz o1 (advance i s))) rfl]
  obtain ⟨h1, h2, h3⟩ := writePlace_after (reads_after i sz o1 o2 s) sz o1 v w
  exact ⟨h1, aluFlagsAre_putFlags w (by simp), h2, h3⟩

/-- The frame of a binary operation that only tests: the flags that the operation gives, the two reads, nothing else. -/
theorem testOp_spec (i : Instr) (sz : Size) {o1 : Place} {o2 : Operand sz} (ho : Apart o1 o2)
    (g : BitVec sz.bits → BitVec sz.bits → FlagWrite) (s : State) :
    let t := testOp sz o1 o2 g (advance i s)
    let w := g (readPlace sz o1 s) (readOp sz o2 s)
    WritesNothing (bothReads sz o1 o2 s) s t ∧
      AluFlagsAre s t (w.s.getD (getFlag .s s)) (w.z.getD (getFlag .z s)) (w.h.getD (getFlag .h s))
        (w.pv.getD (getFlag .pv s)) (w.n.getD (getFlag .n s)) (w.c.getD (getFlag .c s)) ∧
      Elsewhere i s t := by
  simp only [testOp, readPlace_advance, readOp_touchPlace ho, readOp_advance]
  obtain ⟨h1, h2⟩ := flags_after (reads_after i sz o1 o2 s) (g (readPlace sz o1 s) (readOp sz o2 s))
  exact ⟨h1, aluFlagsAre_putFlags _ (by simp), h2⟩

/-- The unary frame: the result in operand 1, the flags that the operation gives, the read and the write, nothing else. -/
theorem unaryOp_spec (i : Instr) (sz : Size) (o1 : Place) (g : BitVec sz.bits → BitVec sz.bits × FlagWrite) (s : State)
    {v : BitVec sz.bits} {w : FlagWrite} (hg : g (readPlace sz o1 s) = (v, w)) :
    let t := unaryOp sz o1 g (advance i s)
    WritesAfter (placeReads sz o1 s) sz o1 v s t ∧
      AluFlagsAre s t (w.s.getD (getFlag .s s)) (w.z.getD (getFlag .z s)) (w.h.getD (getFlag .h s))
        (w.pv.getD (getFlag .pv s)) (w.n.getD (getFlag .n s)) (w.c.getD (getFlag .c s)) ∧
      t.f = w.apply s.f ∧ Elsewhere i s t := by
  simp only [unaryOp, readPlace_advance, hg]
  obtain ⟨h1, h2, h3⟩ := writePlace_after (placeRead_after i sz o1 s) sz o1 v w
  exact ⟨h1, aluFlagsAre_putFlags w (by simp), h2, h3⟩

/-- LD: operand 2's value in operand 1, nothing else. -/
theorem loadOp_spec (i : Instr) (sz : Size) (o1 : Place) (o2 : Operand sz) (s : State) :
    CopiesInto (operandReads sz o2 s) sz o1 (readOp sz o2 s) i s (loadOp sz o1 o2 (advance i s)) := by
  simp only [loadOp, readOp_advance]
  have hu : touchOp sz o2 (advance i s) = { advance i s with transfers := operandReads sz o2 s ++ s.transfers } := by
    simp only [touchOp, operandReads_advance, advance_transfers]
  obtain ⟨h1, h2, h3⟩ := writePlace_after hu sz o1 (readOp sz o2 s) {}
  exact ⟨h1, by simp, h3⟩

/-- DIV and SDIV: the packed result in operand 1 unless the divisor is 0, and PV says which. -/
theorem divideOp_spec (i : Instr) (sz : Size) (o1 : Place) (g : BitVec sz.bits → BitVec sz.bits) (s : State) :
    let t := divideOp sz o1 g (advance i s)
    let v := readPlace sz o1 s
    (if loHalf sz v = 0 then WritesNothing (placeReads sz o1 s) s t else WritesAfter (placeReads sz o1 s) sz o1 (g v) s t) ∧
      AluFlagsAre s t (getFlag .s s) (getFlag .z s) (getFlag .h s) (decide (loHalf sz v = 0)) (getFlag .n s) (getFlag .c s) ∧
      Elsewhere i s t := by
  simp only [divideOp, readPlace_advance]
  by_cases h : loHalf sz (readPlace sz o1 s) = 0
  · simp only [h, if_true, decide_true]
    obtain ⟨h1, h2⟩ := flags_after (placeRead_after i sz o1 s) { pv := some true }
    exact ⟨h1, aluFlagsAre_putFlags _ (by simp), h2⟩
  · simp only [h, if_false, decide_false]
    obtain ⟨h1, -, h3⟩ := writePlace_after (placeRead_after i sz o1 s) sz o1 (g (readPlace sz o1 s)) { pv := some false }
    exact ⟨h1, aluFlagsAre_putFlags _ (by simp), h3⟩

/-! ## The stack -/

/-- `push32`: SP down by 4, the value's bytes at the new SP, that one write, nothing else. -/
theorem push32_spec (v : DWord) (s : State) :
    let t := push32 v s
    t.sp = s.sp - 4 ∧ t.bank = s.bank ∧ StoredAt .mem .dword (s.sp - 4) v s t ∧
      Seen (writesAt .mem .dword (s.sp - 4) v s) s t ∧ t.f = s.f ∧ t.pc = s.pc ∧ SystemSame s t ∧ IOSame s t :=
  ⟨rfl, rfl, (memWrite_storedAt .dword (s.sp - 4) v { s with sp := s.sp - 4 }).congr rfl rfl rfl, rfl, rfl, rfl,
    ⟨rfl, rfl, rfl, rfl, rfl, rfl, rfl⟩, ioSame_of_eq rfl⟩

/-- `pop32`: SP up by 4, that one read, nothing else. -/
theorem popSP_eq (s : State) :
    popSP s = { s with sp := s.sp + 4, transfers := readsAt .mem .dword s.sp s ++ s.transfers } := rfl

end Sys2Proof.Machine
end

