-- ==== Sys2Proof/Laws/Alu.lean ====
section
/-! SUPPORT. The results and flags of the ALU in the terms that statements use. -/

namespace Sys2Proof.Machine

theorem carryIn_toNat {w : Nat} (hw : 0 < w) (cin : Bool) : (carryIn w cin).toNat = cin.toNat := by
  have h2 : 2 ^ 1 ≤ 2 ^ w := Nat.pow_le_pow_right (by decide) hw
  cases cin <;> simp [carryIn]; omega

theorem addResult_eq {w : Nat} (hw : 0 < w) (a b : BitVec w) (cin : Bool) : addResult a b cin = a + b + carryIn w cin := by
  apply BitVec.eq_of_toNat_eq
  simp [addResult, carryIn_toNat hw]

theorem subResult_eq {w : Nat} (hw : 0 < w) (a b : BitVec w) (bin : Bool) : subResult a b bin = a - b - carryIn w bin := by
  have hc := carryIn_toNat hw bin
  have h1 := b.isLt
  have h2 := (carryIn w bin).isLt
  apply BitVec.eq_of_toNat_eq
  rw [subResult, BitVec.toNat_ofInt, BitVec.toNat_sub, BitVec.toNat_sub, Nat.add_mod_mod, ← hc]
  generalize (carryIn w bin).toNat = c at h2
  generalize 2 ^ w = p at h1 h2
  have e : ((a.toNat : Int) - b.toNat - c) = ((p - c + (p - b.toNat + a.toNat) : Nat) : Int) + p * (-2) := by
    push_cast [Nat.cast_sub h1.le, Nat.cast_sub h2.le]; ring
  rw [e, Int.add_mul_emod_self_left, ← Int.natCast_emod, Int.toNat_natCast]

theorem Size.bits_pos (sz : Size) : 0 < sz.bits := by cases sz <;> decide

theorem halfCarry_getD (sz : Size) (b old : Bool) : (halfCarry Config.hcWide sz b).getD old = halfCarryLeft sz b old := by
  unfold halfCarry halfCarryLeft
  cases sz <;> rfl

/-- The values of `AddFlags`. -/
theorem addFlags_left {sz : Size} {a b : BitVec sz.bits} {cin : Bool} {s t : State}
    (h : AluFlagsAre s t ((addFlags Config.hcWide sz a b cin).s.getD (getFlag .s s))
      ((addFlags Config.hcWide sz a b cin).z.getD (getFlag .z s)) ((addFlags Config.hcWide sz a b cin).h.getD (getFlag .h s))
      ((addFlags Config.hcWide sz a b cin).pv.getD (getFlag .pv s)) ((addFlags Config.hcWide sz a b cin).n.getD (getFlag .n s))
      ((addFlags Config.hcWide sz a b cin).c.getD (getFlag .c s))) : AddFlagsLeft sz a b cin s t := by
  simpa only [AddFlagsLeft, addFlags, szFlags, Option.getD_some, halfCarry_getD, addResult_eq (Size.bits_pos sz)] using h

/-- The values of `SubFlags`. -/
theorem subFlags_left {sz : Size} {a b : BitVec sz.bits} {bin : Bool} {s t : State}
    (h : AluFlagsAre s t ((subFlags Config.hcWide sz a b bin).s.getD (getFlag .s s))
      ((subFlags Config.hcWide sz a b bin).z.getD (getFlag .z s)) ((subFlags Config.hcWide sz a b bin).h.getD (getFlag .h s))
      ((subFlags Config.hcWide sz a b bin).pv.getD (getFlag .pv s)) ((subFlags Config.hcWide sz a b bin).n.getD (getFlag .n s))
      ((subFlags Config.hcWide sz a b bin).c.getD (getFlag .c s))) : SubFlagsLeft sz a b bin s t := by
  simpa only [SubFlagsLeft, subFlags, szFlags, Option.getD_some, halfCarry_getD, subResult_eq (Size.bits_pos sz)] using h

/-- An addition in the binary frame. -/
theorem binaryOp_adds (i : Instr) (sz : Size) {o1 : Place} {o2 : Operand sz} (ho : Apart o1 o2)
    (g : BitVec sz.bits → BitVec sz.bits → State → BitVec sz.bits × FlagWrite) (s : State) {a b : BitVec sz.bits} {cin : Bool}
    (hg : ∀ u : State, u.f = s.f →
      g (readPlace sz o1 s) (readOp sz o2 s) u = (addResult a b cin, addFlags Config.hcWide sz a b cin)) :
    AddsInto (bothReads sz o1 o2 s) sz o1 a b cin i s (binaryOp sz o1 o2 g (advance i s)) := by
  obtain ⟨h1, h2, -, h4⟩ := binaryOp_spec i sz ho g s hg
  rw [addResult_eq (Size.bits_pos sz)] at h1
  exact ⟨h1, addFlags_left h2, h4⟩

/-- A subtraction in the binary frame. -/
theorem binaryOp_subtracts (i : Instr) (sz : Size) {o1 : Place} {o2 : Operand sz} (ho : Apart o1 o2)
    (g : BitVec sz.bits → BitVec sz.bits → State → BitVec sz.bits × FlagWrite) (s : State) {a b : BitVec sz.bits} {bin : Bool}
    (hg : ∀ u : State, u.f = s.f →
      g (readPlace sz o1 s) (readOp sz o2 s) u = (subResult a b bin, subFlags Config.hcWide sz a b bin)) :
    SubtractsInto (bothReads sz o1 o2 s) sz o1 a b bin i s (binaryOp sz o1 o2 g (advance i s)) := by
  obtain ⟨h1, h2, -, h4⟩ := binaryOp_spec i sz ho g s hg
  rw [subResult_eq (Size.bits_pos sz)] at h1
  exact ⟨h1, subFlags_left h2, h4⟩

/-- An addition in the unary frame. -/
theorem unaryOp_adds (i : Instr) (sz : Size) (o1 : Place) (g : BitVec sz.bits → BitVec sz.bits × FlagWrite) (s : State)
    {a b : BitVec sz.bits} {cin : Bool} (hg : g (readPlace sz o1 s) = (addResult a b cin, addFlags Config.hcWide sz a b cin)) :
    AddsInto (placeReads sz o1 s) sz o1 a b cin i s (unaryOp sz o1 g (advance i s)) := by
  obtain ⟨h1, h2, -, h4⟩ := unaryOp_spec i sz o1 g s hg
  rw [addResult_eq (Size.bits_pos sz)] at h1
  exact ⟨h1, addFlags_left h2, h4⟩

/-- A subtraction in the unary frame. -/
theorem unaryOp_subtracts (i : Instr) (sz : Size) (o1 : Place) (g : BitVec sz.bits → BitVec sz.bits × FlagWrite) (s : State)
    {a b : BitVec sz.bits} {bin : Bool} (hg : g (readPlace sz o1 s) = (subResult a b bin, subFlags Config.hcWide sz a b bin)) :
    SubtractsInto (placeReads sz o1 s) sz o1 a b bin i s (unaryOp sz o1 g (advance i s)) := by
  obtain ⟨h1, h2, -, h4⟩ := unaryOp_spec i sz o1 g s hg
  rw [subResult_eq (Size.bits_pos sz)] at h1
  exact ⟨h1, subFlags_left h2, h4⟩

theorem parity_eq {w : Nat} (r : BitVec w) :
    parity r = decide ((List.range w).countP (fun k => r.getLsbD k) % 2 = 0) := by
  unfold parity popCount
  rfl

end Sys2Proof.Machine
end

