-- ==== Sys2Proof/Laws/Block.lean ====
section
/-! SUPPORT. One element of each block operation, said once (45_block.md R360, R361). -/

namespace Sys2Proof.Machine

/-! ## Pointers and counters -/

theorem movedBy_eq (up : Bool) (sz : Size) (x : DWord) : x + elemDelta up sz = movedBy up sz.bytes x := by
  cases up
  · exact (BitVec.sub_eq_add_neg x _).symm
  · rfl

theorem stepHL_eq (up : Bool) (sz : Size) (s : State) :
    stepHL up sz s = { s with bank := { s.bank with hl := movedBy up sz.bytes s.bank.hl } } := by
  rw [stepHL, writeReg_dwordHL, readReg_dwordHL, movedBy_eq]

theorem stepDE_eq (up : Bool) (sz : Size) (s : State) :
    stepDE up sz s = { s with bank := { s.bank with de := movedBy up sz.bytes s.bank.de } } := by
  rw [stepDE, writeReg_dwordDE, readReg_dwordDE, movedBy_eq]

theorem countBC_eq (s : State) : countBC s = { s with bank := { s.bank with bc := s.bank.bc - 1 } } := by
  rw [countBC, writeReg_dwordBC, readReg_dwordBC]

theorem countB_eq (s : State) :
    countB s =
      { s with bank := { s.bank with bc := (s.bank.bc.extractLsb' 16 16 - 1) ++ s.bank.bc.extractLsb' 0 16 } } := by
  rw [countB, writeReg_wordB, readReg_wordB]

theorem moreBC_eq (s : State) : moreBC s = (s.bank.bc != 0) := by rw [moreBC, readReg_dwordBC]

theorem moreB_eq (s : State) : moreB s = (s.bank.bc.extractLsb' 16 16 != 0) := rfl

theorem blockPort_eq (s : State) : blockPort s = (s.bank.bc.extractLsb' 0 16).setWidth 32 := rfl

/-- The high word of a value put together from two words. -/
theorem extract_high (x y : BitVec 16) : (x ++ y : DWord).extractLsb' 16 16 = x := by
  apply BitVec.eq_of_getLsbD_eq
  intro i hi
  rw [BitVec.getLsbD_extractLsb', decide_eq_true hi, Bool.true_and, BitVec.getLsbD_append, if_neg (by omega), Nat.add_sub_cancel_left]

/-! ## PC -/

/-- The rewind leaves everything but PC. -/
theorem rewindIf_eq (more : State → Bool) (s : State) :
    rewindIf more s = { s with pc := if more s then s.pc - 2 else s.pc } := by
  unfold rewindIf
  split <;> simp_all [setPC]

/-- PC before, after the advance of a two-byte instruction and the rewind. -/
theorem sub_two_add (x : DWord) : x + BitVec.ofNat 32 2 - 2 = x := by
  exact BitVec.add_sub_cancel x 2#32

/-! ## Elements -/

/-- `elem_LD`: one element read and copied, both pointers moved, BC counted, PV alone written. -/
theorem elemLD_spec (up : Bool) (sz : Size) (s : State) :
    elemLD up sz s =
      putFlags { pv := some (s.bank.bc - 1 != 0) }
        { memWrite sz s.bank.de (memRead sz s.bank.hl s) (memTouch sz s.bank.hl s) with
          bank := { s.bank with
            hl := movedBy up sz.bytes s.bank.hl, de := movedBy up sz.bytes s.bank.de, bc := s.bank.bc - 1 } } := by
  simp only [elemLD, moreBC_eq, countBC_eq, stepDE_eq, stepHL_eq, readReg_dwordHL, readReg_dwordDE, memWrite_bank,
    memTouch_bank]

/-- `elem_CP`: HL moved, BC counted, S, Z, H and N of the comparison, PV of the counter. -/
theorem elemCP_spec (up : Bool) (sz : Size) (s : State) :
    elemCP up sz s =
      putFlags { subFlags Config.hcWide sz (readReg sz codeA s) (memRead sz s.bank.hl s) false with
          c := none, pv := some (s.bank.bc - 1 != 0) }
        { memTouch sz s.bank.hl s with
          bank := { s.bank with hl := movedBy up sz.bytes s.bank.hl, bc := s.bank.bc - 1 } } := by
  simp only [elemCP, moreBC_eq, countBC_eq, stepHL_eq, readReg_dwordHL, memTouch_bank]

/-- `elem_TS`: HL moved, BC counted, S and Z of the conjunction, H = 0, N = 0, PV of the counter. -/
theorem elemTS_spec (up : Bool) (sz : Size) (s : State) :
    elemTS up sz s =
      putFlags { szFlags (readReg sz codeA s &&& memRead sz s.bank.hl s) with
          h := some false, n := some false, pv := some (s.bank.bc - 1 != 0) }
        { memTouch sz s.bank.hl s with
          bank := { s.bank with hl := movedBy up sz.bytes s.bank.hl, bc := s.bank.bc - 1 } } := by
  simp only [elemTS, moreBC_eq, countBC_eq, stepHL_eq, readReg_dwordHL, memTouch_bank]

/-- `elem_IN`: the port's answer stored at HL, HL moved, B.W counted, Z alone written. -/
theorem elemIN_spec (up : Bool) (sz : Size) (s : State) :
    elemIN up sz s =
      putFlags { z := some (s.bank.bc.extractLsb' 16 16 - 1 == 0) }
        { memWrite sz s.bank.hl (ioRead sz ((s.bank.bc.extractLsb' 0 16).setWidth 32) s)
            (ioTouch sz ((s.bank.bc.extractLsb' 0 16).setWidth 32) s) with
          bank := { s.bank with
            hl := movedBy up sz.bytes s.bank.hl
            bc := (s.bank.bc.extractLsb' 16 16 - 1) ++ s.bank.bc.extractLsb' 0 16 } } := by
  simp only [elemIN, moreB_eq, countB_eq, stepHL_eq, readReg_dwordHL, memWrite_bank, ioTouch_bank, blockPort_eq,
    extract_high, bne, Bool.not_not]

/-- `elem_OUT`: the element at HL written to the port, HL moved, B.W counted, Z alone written. -/
theorem elemOUT_spec (up : Bool) (sz : Size) (s : State) :
    elemOUT up sz s =
      putFlags { z := some (s.bank.bc.extractLsb' 16 16 - 1 == 0) }
        { ioWrite sz ((s.bank.bc.extractLsb' 0 16).setWidth 32) (memRead sz s.bank.hl s) (memTouch sz s.bank.hl s) with
          bank := { s.bank with
            hl := movedBy up sz.bytes s.bank.hl
            bc := (s.bank.bc.extractLsb' 16 16 - 1) ++ s.bank.bc.extractLsb' 0 16 } } := by
  simp only [elemOUT, moreB_eq, countB_eq, stepHL_eq, readReg_dwordHL, ioWrite_bank, memTouch_bank, blockPort_eq, extract_high, bne,
    Bool.not_not]

end Sys2Proof.Machine
end

