-- ==== Sys2Proof/Laws/Control.lean ====
section
/-! SUPPORT. What the shared operations of control transfer, of the bank exchanges and of errors can do, each said once. -/

namespace Sys2Proof.Machine

/-- A jump of `i`: to its target where the condition holds, else to the next instruction. -/
theorem jumpOp_advance (i : Instr) (cc : Cond) (target : DWord) (s : State) :
    jumpOp cc target (advance i s) = { s with pc := if holds cc s then target else nextPC i s } := by
  simp only [jumpOp, holds_advance]
  split <;> rfl

/-- A call of `i`: where the condition holds, the address of the next instruction is pushed and PC is the target. -/
theorem callOp_advance (i : Instr) (cc : Cond) (target : DWord) (s : State) :
    let t := callOp cc target (advance i s)
    if holds cc s then
      t.pc = target ∧ t.sp = s.sp - 4 ∧ t.bank = s.bank ∧ StoredAt .mem .dword (s.sp - 4) (nextPC i s) s t ∧
        Seen (writesAt .mem .dword (s.sp - 4) (nextPC i s) s) s t ∧ t.f = s.f ∧ SystemSame s t ∧ IOSame s t
    else t = { s with pc := nextPC i s } := by
  simp only [callOp, holds_advance]
  split
  · obtain ⟨a, b, c, d, e, -, g, h⟩ := push32_spec (advance i s).pc (advance i s)
    exact ⟨rfl, a, b, c.congr rfl rfl rfl, d, e, g, h⟩
  · rfl

/-- A taken return changes PC and SP alone, with one read. -/
theorem returnOp_eq (s : State) : returnOp s = { s with
    pc := memRead .dword s.sp s, sp := s.sp + 4, transfers := readsAt .mem .dword s.sp s ++ s.transfers } := rfl

/-- A decode error records its identity and the base word, which alone has been fetched. -/
theorem raiseDecodeError_eq (e : DecodeField) (s : State) : raiseDecodeError e s = { s with
    fault := some { error := .decodeError e, base := s.pc, word := memRead .word s.pc s }
    transfers := readsAt .mem .word s.pc s ++ s.transfers } := rfl

/-- A relative target is formed from the advanced PC. -/
theorem relTarget_advance {w : Nat} (disp : BitVec w) (i : Instr) (s : State) :
    relTarget disp (advance i s) = nextPC i s + disp.signExtend 32 := rfl

/-- The exchange of a whole storage between the banks. -/
theorem swapView_whole (n : BankReg) (s : State) :
    swapView n 0 32 s = { s with bank := s.bank.set n (s.alt.get n), alt := s.alt.set n (s.bank.get n) } := by
  simp [swapView]

/-- A violation records its identity and changes nothing else. -/
theorem violation_eq (k : ContractKind) (i : Instr) (s : State) :
    violation k i s = .next { s with
      fault := some { error := .contractViolation k, base := s.pc, word := baseWord i } } := rfl

/-- A DWord-only instruction runs at DWord and is a violation otherwise. -/
theorem dwordOnly_cases (i : Instr) (sz : Size) (g : State → State) (s : State) :
    dwordOnly i sz g s = if sz.isDWord then .next (g (advance i s)) else violation .operandKind i s := by
  cases sz <;> rfl

/-- An instruction on halves runs at Word and DWord and is a violation at Byte. -/
theorem halvesOnly_cases (i : Instr) (sz : Size) (g : State → State) (s : State) :
    halvesOnly i sz g s = if sz.hasHalves then .next (g (advance i s)) else violation .operandKind i s := by
  cases sz <;> rfl

end Sys2Proof.Machine
end

