-- ==== Sys2Proof/Laws/Encoding.lean ====
section
/-! SUPPORT. The fields of the encoded base words, the bytes of values, and the lengths of encodings (30_encoding.md). -/

namespace Sys2Proof

open Machine

/-! ## Codes -/

theorem Size.code_lt (sz : Size) : sz.code < 3 := by cases sz <;> decide
theorem RegCode.code_lt (d : RegCode) : d.code < 7 := by cases d <;> decide
theorem Cond.code_lt (cc : Cond) : cc.code < 9 := by cases cc <;> decide
theorem Src.code_lt {sz : Size} (q : Src sz) : q.code < 8 := by
  cases q with
  | reg c => have := c.code_lt; simp only [Src.code]; omega
  | imm v => exact (by decide : 7 < 8)
theorem MemRef.code_lt (m : MemRef) : m.code < 8 := by
  cases m with
  | ind b d => have := b.code_lt; simp only [MemRef.code]; omega
  | direct a => exact (by decide : 7 < 8)

@[simp] theorem sizeOf_code (sz : Size) : sizeOf sz.code = some sz := by cases sz <;> rfl
@[simp] theorem regOf_code (d : RegCode) : regOf d.code = some d := by cases d <;> rfl
@[simp] theorem condOf_code (cc : Cond) : condOf cc.code = some cc := by cases cc <;> rfl

theorem sizeOf_eq {n : Nat} {sz : Size} (h : Sys2Proof.sizeOf n = some sz) : n = sz.code := by
  unfold Sys2Proof.sizeOf at h
  split at h <;> cases h <;> rfl

theorem regOf_eq {n : Nat} {d : RegCode} (h : regOf n = some d) : n = d.code := by
  unfold regOf at h
  split at h <;> cases h <;> rfl

theorem condOf_eq {n : Nat} {cc : Cond} (h : condOf n = some cc) : n = cc.code := by
  unfold condOf at h
  split at h <;> cases h <;> rfl

theorem regOf_none {n : Nat} (hn : n < 8) (h : regOf n = none) : n = 7 := by
  interval_cases n <;> first | rfl | cases h

/-! ## Fields of a base word -/

/-- A field of a word given as a number. -/
theorem bits_ofNat {n : Nat} (h : n < 2 ^ 16) (lo len : Nat) : bits (BitVec.ofNat 16 n) lo len = n / 2 ^ lo % 2 ^ len := by
  simp only [bits, BitVec.toNat_ofNat, Nat.mod_eq_of_lt h]

/-- The fields of a format R word (R110). -/
theorem encR_bits (op : Nat) (hop : op < 64) (sz : Size) (d : RegCode) (q : Src sz) :
    bits (encR op sz d q).1 0 2 = 0 ∧ bits (encR op sz d q).1 2 6 = op ∧ bits (encR op sz d q).1 8 2 = sz.code ∧
      bits (encR op sz d q).1 10 3 = d.code ∧ bits (encR op sz d q).1 13 3 = q.code := by
  have h1 := sz.code_lt
  have h2 := d.code_lt
  have h3 := q.code_lt
  simp only [encR]
  refine ⟨?_, ?_, ?_, ?_, ?_⟩ <;> rw [bits_ofNat (by omega)] <;> omega

/-- The direction of format RM's operands: 1 for a load (R122). -/
def RMOperands.dir {sz : Size} : RMOperands sz → Nat
  | .load _ _ => 1
  | .store _ _ => 0

/-- The code at bits 12:10 of format RM (R120). -/
def RMOperands.regCode {sz : Size} : RMOperands sz → Nat
  | .load r _ => r.code
  | .store _ q => q.code

/-- The address operand of format RM (R122). -/
def RMOperands.memRef {sz : Size} : RMOperands sz → MemRef
  | .load _ m => m
  | .store m _ => m

/-- The fields of a format RM word (R120). -/
theorem encRM_bits (op : Nat) (hop : op < 32) (sz : Size) (ops : RMOperands sz) :
    bits (encRM op sz ops).1 0 2 = 1 ∧ bits (encRM op sz ops).1 2 5 = op ∧ bits (encRM op sz ops).1 7 1 = ops.dir ∧
      bits (encRM op sz ops).1 8 2 = sz.code ∧ bits (encRM op sz ops).1 10 3 = ops.regCode ∧
      bits (encRM op sz ops).1 13 3 = ops.memRef.code := by
  have h1 := sz.code_lt
  cases ops with
  | load r m =>
    have h2 := r.code_lt
    have h3 := m.code_lt
    simp only [encRM, RMOperands.dir, RMOperands.regCode, RMOperands.memRef]
    refine ⟨?_, ?_, ?_, ?_, ?_, ?_⟩ <;> rw [bits_ofNat (by omega)] <;> omega
  | store m q =>
    have h2 := q.code_lt
    have h3 := m.code_lt
    simp only [encRM, RMOperands.dir, RMOperands.regCode, RMOperands.memRef]
    refine ⟨?_, ?_, ?_, ?_, ?_, ?_⟩ <;> rw [bits_ofNat (by omega)] <;> omega

/-- The fields of a format UR or UM word (R130). -/
theorem unaryWord_bits (sub sel : Nat) (hsub : sub < 4) (hsel : sel < 16) (sz : Size) (code : Nat) (hc : code < 8) :
    bits (unaryWord sub sel sz code) 0 4 = 2 + 4 * sub ∧ bits (unaryWord sub sel sz code) 0 2 = 2 ∧
      bits (unaryWord sub sel sz code) 2 2 = sub ∧ unarySel (unaryWord sub sel sz code) = sel ∧
      bits (unaryWord sub sel sz code) 8 2 = sz.code ∧ bits (unaryWord sub sel sz code) 10 3 = code := by
  have h1 := sz.code_lt
  obtain ⟨a, b, rfl, ha, hb⟩ : ∃ a b, sel = 8 * a + b ∧ a < 2 ∧ b < 8 := ⟨sel / 8, sel % 8, by omega, by omega, by omega⟩
  have e1 : (8 * a + b) / 8 = a := by omega
  have e2 : (8 * a + b) % 8 = b := by omega
  have hn : 2 + 4 * sub + 16 * a + 256 * sz.code + 1024 * code + 8192 * b < 2 ^ 16 := by omega
  simp only [unaryWord, unarySel, e1, e2, bits_ofNat hn]
  refine ⟨?_, ?_, ?_, ?_, ?_, ?_⟩ <;> omega

/-- The fields of a format BR word with a target (R140). -/
theorem encJump_bits (op : Nat) (hop : op < 32) (cc : Cond) {sz : Size} (q : Src sz) :
    bits (encJump op cc q).1 0 4 = 10 ∧ bits (encJump op cc q).1 0 2 = 2 ∧ bits (encJump op cc q).1 2 2 = 2 ∧
      bits (encJump op cc q).1 4 5 = op ∧ bits (encJump op cc q).1 9 4 = cc.code ∧ bits (encJump op cc q).1 13 3 = q.code := by
  have h1 := cc.code_lt
  have h2 := q.code_lt
  simp only [encJump]
  refine ⟨?_, ?_, ?_, ?_, ?_, ?_⟩ <;> rw [bits_ofNat (by omega)] <;> omega

/-- The fields of a format BR word without a target (R140, R143). -/
theorem encRet_bits (op : Nat) (hop : op < 32) (cc : Cond) :
    bits (encRet op cc).1 0 9 = 10 + 16 * op ∧ bits (encRet op cc).1 0 2 = 2 ∧ bits (encRet op cc).1 2 2 = 2 ∧
      bits (encRet op cc).1 4 5 = op ∧ bits (encRet op cc).1 9 4 = cc.code ∧ bits (encRet op cc).1 13 3 = 0 := by
  have h1 := cc.code_lt
  simp only [encRet]
  refine ⟨?_, ?_, ?_, ?_, ?_, ?_⟩ <;> rw [bits_ofNat (by omega)] <;> omega

/-- The fields of a block instruction's word (R150, R151). -/
theorem encBlock_bits (op : Nat) (hop : op < 64) (sz : Size) :
    bits (encBlock op sz).1 0 8 = 14 ∧ bits (encBlock op sz).1 0 2 = 2 ∧ bits (encBlock op sz).1 2 2 = 3 ∧
      bits (encBlock op sz).1 4 4 = 0 ∧ bits (encBlock op sz).1 8 2 = sz.code ∧ bits (encBlock op sz).1 10 6 = op := by
  have h1 := sz.code_lt
  simp only [encBlock]
  refine ⟨?_, ?_, ?_, ?_, ?_, ?_⟩ <;> rw [bits_ofNat (by omega)] <;> omega

/-- The fields of a format SB word (R160). -/
theorem encSB_bits (op : Nat) (hop : op < 16) (disp : Byte) :
    bits (encSB op disp).1 0 2 = 3 ∧ bits (encSB op disp).1 2 2 = 3 ∧ bits (encSB op disp).1 4 8 = disp.toNat ∧
      bits (encSB op disp).1 12 4 = op := by
  have h1 := disp.isLt
  simp only [encSB]
  refine ⟨?_, ?_, ?_, ?_⟩ <;> rw [bits_ofNat (by omega)] <;> omega

/-! ## Bytes -/

@[simp] theorem toBytes_length (sz : Size) (v : BitVec sz.bits) : (toBytes sz v).length = sz.bytes := by
  simp [toBytes]

/-- Byte `k` of a value's bytes. -/
theorem toBytes_getD (sz : Size) (v : BitVec sz.bits) {k : Nat} (hk : k < sz.bytes) : (toBytes sz v).getD k 0 = byteOf v k := by
  simp [toBytes, hk]

/-- Byte `k` of the value put together from bytes. -/
theorem byteOf_ofBytes (sz : Size) (g : Nat → Byte) {k : Nat} (hk : k < sz.bytes) : byteOf (ofBytes sz g) k = g k := by
  apply BitVec.eq_of_getLsbD_eq
  intro i hi
  cases sz with
  | byte =>
    obtain rfl : k = 0 := by simp only [Size.bytes] at hk; omega
    simp only [byteOf, ofBytes, Size.bits, BitVec.getLsbD_extractLsb', hi, decide_true, Bool.true_and, Nat.mul_zero,
      Nat.zero_add]
  | word =>
    simp only [Size.bytes] at hk
    simp only [byteOf, ofBytes, Size.bits, BitVec.getLsbD_extractLsb', BitVec.getLsbD_append, hi, decide_true, Bool.true_and]
    rcases (by omega : k = 0 ∨ k = 1) with rfl | rfl
    · simp [show i < 8 by omega]
    · simp [show ¬(8 + i < 8) by omega]
  | dword =>
    simp only [Size.bytes] at hk
    simp only [byteOf, ofBytes, Size.bits, BitVec.getLsbD_extractLsb', BitVec.getLsbD_append, hi, decide_true, Bool.true_and]
    rcases (by omega : k = 0 ∨ k = 1 ∨ k = 2 ∨ k = 3) with rfl | rfl | rfl | rfl
    · simp [show i < 8 by omega]
    · simp [show ¬(8 + i < 8) by omega, hi]
    · simp [show ¬(16 + i < 8) by omega, show ¬(16 + i - 8 < 8) by omega, show 16 + i - 8 - 8 = i by omega, hi]
    · simp [show ¬(24 + i < 8) by omega, show ¬(24 + i - 8 < 8) by omega, show ¬(24 + i - 8 - 8 < 8) by omega,
        show 24 + i - 8 - 8 - 8 = i by omega]

/-- The immediate at an offset where the value's bytes stand is the value. -/
theorem immAt_of_bytes (sz : Size) (v : BitVec sz.bits) (off : Nat) (f : Nat → Byte)
    (h : ∀ k, k < sz.bytes → f (off + k) = (toBytes sz v).getD k 0) : immAt sz off f = v :=
  ofBytes_byteOf sz v _ fun k hk => by rw [h k hk, toBytes_getD sz v hk]

/-! ## Lengths -/

theorem Src.bytes_length {sz : Size} (q : Src sz) : q.bytes.length = q.trailing := by cases q <;> simp [Src.bytes, Src.trailing]

theorem MemRef.bytes_length {m : MemRef} (h : m.wf = true) : m.bytes.length = m.trailing := by
  cases m with
  | direct a => simp [MemRef.bytes, MemRef.trailing]
  | ind b d =>
    cases d <;> simp_all [MemRef.bytes, MemRef.trailing, MemRef.wf]

theorem RMOperands.bytes_length (op : Nat) {sz : Size} {ops : RMOperands sz} (h : ops.wf = true) :
    (encRM op sz ops).2.length = ops.trailing := by
  cases ops with
  | load r m => exact MemRef.bytes_length h
  | store m q =>
    simp only [encRM, List.length_append, RMOperands.trailing, Src.bytes_length]
    rw [MemRef.bytes_length h]

/-- An encoding is its base word and its trailing bytes. -/
theorem encode_length (i : Instr) : (encode i).length = 2 + (encodeParts i).2.length := by
  simp [encode]

end Sys2Proof
end

