-- ==== Sys2Proof/Laws/Half.lean ====
section
/-! SUPPORT. The halves of an operand (44_bcd_halfwidth.md R331) in the terms that statements use. -/

namespace Sys2Proof.Machine

theorem loHalf_eq (sz : Size) (v : BitVec sz.bits) : loHalf sz v = (lowHalf sz v).toNat := by
  simp [loHalf, lowHalf, halfBits]

theorem hiHalf_eq (sz : Size) (v : BitVec sz.bits) : hiHalf sz v = (highHalf sz v).toNat := by
  have := v.isLt
  have e : 2 ^ sz.bits = 2 ^ (sz.bits/2) * 2 ^ (sz.bits/2) := by cases sz <;> rfl
  simp [hiHalf, highHalf, halfBits, BitVec.extractLsb'_toNat, Nat.shiftRight_eq_div_pow]
  rw [Nat.mod_eq_of_lt]
  rw [Nat.div_lt_iff_lt_mul (Nat.two_pow_pos _), ← e]; exact this

theorem signedHalf_eq (sz : Size) (x : BitVec (sz.bits/2)) : signedHalf sz x.toNat = x.toInt := by
  rw [BitVec.toInt_eq_msb_cond, BitVec.msb_eq_decide]
  unfold signedHalf halfBits
  by_cases h : x.toNat < 2 ^ (sz.bits / 2 - 1)
  · simp [h]
  · simp [h, Nat.not_lt.mp h]

theorem packHalves_eq (sz : Size) (x y : Int) : packHalves sz x y = packed sz (BitVec.ofInt _ x) (BitVec.ofInt _ y) := by
  apply BitVec.eq_of_toNat_eq
  simp only [packHalves, packed, BitVec.toNat_ofInt, BitVec.toNat_setWidth, BitVec.toNat_append, halfBits]
  have e : 2 ^ sz.bits = 2 ^ (sz.bits/2) * 2 ^ (sz.bits/2) := by cases sz <;> rfl
  have h1 : x % 2 ^ (sz.bits/2) < 2 ^ (sz.bits/2) := Int.emod_lt_of_pos _ (by positivity)
  have h0 : 0 ≤ x % 2 ^ (sz.bits/2)  := Int.emod_nonneg _ (by positivity)
  have h1' : y % 2 ^ (sz.bits/2) < 2 ^ (sz.bits/2) := Int.emod_lt_of_pos _ (by positivity)
  have h0' : 0 ≤ y % 2 ^ (sz.bits/2)  := Int.emod_nonneg _ (by positivity)
  push_cast
  have n2 : (2:Int)^(sz.bits/2) = ((2^(sz.bits/2) : Nat) : Int) := by push_cast; rfl
  generalize x % 2 ^ (sz.bits/2) = x' at *
  generalize y % 2 ^ (sz.bits/2) = y' at *
  obtain ⟨p, rfl⟩ := Int.eq_ofNat_of_zero_le h0
  obtain ⟨q, rfl⟩ := Int.eq_ofNat_of_zero_le h0'
  have hq : q < 2 ^ (sz.bits/2) := by exact_mod_cast h1'
  rw [Int.toNat_natCast, Int.toNat_natCast, ← Nat.shiftLeft_add_eq_or_of_lt hq, Nat.shiftLeft_eq]
  have : ((p:Int) * 2^(sz.bits/2) + q) % 2 ^ sz.bits = (((p * 2^(sz.bits/2) + q) % 2 ^ sz.bits : Nat) : Int) := by push_cast; rfl
  rw [this, Int.toNat_natCast]

end Sys2Proof.Machine
end

