-- ==== Sys2Proof/Laws/PerInstr.lean ====
section
/-! SUPPORT. Per-instruction families: one lemma a constructor of `Instr`. -/

namespace Sys2Proof.Laws

/-- An encoding has exactly the bytes that the instruction's length counts (30_encoding.md R104). -/
def EncodedLength.Statement (i : Instr) : Prop := i.wf = true → (encode i).length = instrLength i

theorem EncodedLength.ldR (sz : Size) (dst : RegCode) (src : Src sz) : EncodedLength.Statement (.ldR sz dst src) := fun _ => by
  rw [encode_length]; exact congrArg (2 + ·) (Src.bytes_length src)
theorem EncodedLength.exR (sz : Size) (dst : RegCode) (src : Src sz) : EncodedLength.Statement (.exR sz dst src) := fun _ => by
  rw [encode_length]; exact congrArg (2 + ·) (Src.bytes_length src)
theorem EncodedLength.addR (sz : Size) (dst : RegCode) (src : Src sz) : EncodedLength.Statement (.addR sz dst src) := fun _ => by
  rw [encode_length]; exact congrArg (2 + ·) (Src.bytes_length src)
theorem EncodedLength.adcR (sz : Size) (dst : RegCode) (src : Src sz) : EncodedLength.Statement (.adcR sz dst src) := fun _ => by
  rw [encode_length]; exact congrArg (2 + ·) (Src.bytes_length src)
theorem EncodedLength.subR (sz : Size) (dst : RegCode) (src : Src sz) : EncodedLength.Statement (.subR sz dst src) := fun _ => by
  rw [encode_length]; exact congrArg (2 + ·) (Src.bytes_length src)
theorem EncodedLength.sbcR (sz : Size) (dst : RegCode) (src : Src sz) : EncodedLength.Statement (.sbcR sz dst src) := fun _ => by
  rw [encode_length]; exact congrArg (2 + ·) (Src.bytes_length src)
theorem EncodedLength.cpR (sz : Size) (dst : RegCode) (src : Src sz) : EncodedLength.Statement (.cpR sz dst src) := fun _ => by
  rw [encode_length]; exact congrArg (2 + ·) (Src.bytes_length src)
theorem EncodedLength.andR (sz : Size) (dst : RegCode) (src : Src sz) : EncodedLength.Statement (.andR sz dst src) := fun _ => by
  rw [encode_length]; exact congrArg (2 + ·) (Src.bytes_length src)
theorem EncodedLength.orR (sz : Size) (dst : RegCode) (src : Src sz) : EncodedLength.Statement (.orR sz dst src) := fun _ => by
  rw [encode_length]; exact congrArg (2 + ·) (Src.bytes_length src)
theorem EncodedLength.xorR (sz : Size) (dst : RegCode) (src : Src sz) : EncodedLength.Statement (.xorR sz dst src) := fun _ => by
  rw [encode_length]; exact congrArg (2 + ·) (Src.bytes_length src)
theorem EncodedLength.tstR (sz : Size) (dst : RegCode) (src : Src sz) : EncodedLength.Statement (.tstR sz dst src) := fun _ => by
  rw [encode_length]; exact congrArg (2 + ·) (Src.bytes_length src)
theorem EncodedLength.bitR (sz : Size) (dst : RegCode) (src : Src sz) : EncodedLength.Statement (.bitR sz dst src) := fun _ => by
  rw [encode_length]; exact congrArg (2 + ·) (Src.bytes_length src)
theorem EncodedLength.setR (sz : Size) (dst : RegCode) (src : Src sz) : EncodedLength.Statement (.setR sz dst src) := fun _ => by
  rw [encode_length]; exact congrArg (2 + ·) (Src.bytes_length src)
theorem EncodedLength.resR (sz : Size) (dst : RegCode) (src : Src sz) : EncodedLength.Statement (.resR sz dst src) := fun _ => by
  rw [encode_length]; exact congrArg (2 + ·) (Src.bytes_length src)
theorem EncodedLength.rlcR (sz : Size) (dst : RegCode) (src : Src sz) : EncodedLength.Statement (.rlcR sz dst src) := fun _ => by
  rw [encode_length]; exact congrArg (2 + ·) (Src.bytes_length src)
theorem EncodedLength.rrcR (sz : Size) (dst : RegCode) (src : Src sz) : EncodedLength.Statement (.rrcR sz dst src) := fun _ => by
  rw [encode_length]; exact congrArg (2 + ·) (Src.bytes_length src)
theorem EncodedLength.rlR (sz : Size) (dst : RegCode) (src : Src sz) : EncodedLength.Statement (.rlR sz dst src) := fun _ => by
  rw [encode_length]; exact congrArg (2 + ·) (Src.bytes_length src)
theorem EncodedLength.rrR (sz : Size) (dst : RegCode) (src : Src sz) : EncodedLength.Statement (.rrR sz dst src) := fun _ => by
  rw [encode_length]; exact congrArg (2 + ·) (Src.bytes_length src)
theorem EncodedLength.slaR (sz : Size) (dst : RegCode) (src : Src sz) : EncodedLength.Statement (.slaR sz dst src) := fun _ => by
  rw [encode_length]; exact congrArg (2 + ·) (Src.bytes_length src)
theorem EncodedLength.sraR (sz : Size) (dst : RegCode) (src : Src sz) : EncodedLength.Statement (.sraR sz dst src) := fun _ => by
  rw [encode_length]; exact congrArg (2 + ·) (Src.bytes_length src)
theorem EncodedLength.srlR (sz : Size) (dst : RegCode) (src : Src sz) : EncodedLength.Statement (.srlR sz dst src) := fun _ => by
  rw [encode_length]; exact congrArg (2 + ·) (Src.bytes_length src)
theorem EncodedLength.ldRM (sz : Size) (ops : RMOperands sz) : EncodedLength.Statement (.ldRM sz ops) := fun h => by
  rw [encode_length]; exact congrArg (2 + ·) (RMOperands.bytes_length _ h)
theorem EncodedLength.exRM (sz : Size) (ops : RMOperands sz) : EncodedLength.Statement (.exRM sz ops) := fun h => by
  rw [encode_length]; exact congrArg (2 + ·) (RMOperands.bytes_length _ h)
theorem EncodedLength.addRM (sz : Size) (ops : RMOperands sz) : EncodedLength.Statement (.addRM sz ops) := fun h => by
  rw [encode_length]; exact congrArg (2 + ·) (RMOperands.bytes_length _ h)
theorem EncodedLength.adcRM (sz : Size) (ops : RMOperands sz) : EncodedLength.Statement (.adcRM sz ops) := fun h => by
  rw [encode_length]; exact congrArg (2 + ·) (RMOperands.bytes_length _ h)
theorem EncodedLength.subRM (sz : Size) (ops : RMOperands sz) : EncodedLength.Statement (.subRM sz ops) := fun h => by
  rw [encode_length]; exact congrArg (2 + ·) (RMOperands.bytes_length _ h)
theorem EncodedLength.sbcRM (sz : Size) (ops : RMOperands sz) : EncodedLength.Statement (.sbcRM sz ops) := fun h => by
  rw [encode_length]; exact congrArg (2 + ·) (RMOperands.bytes_length _ h)
theorem EncodedLength.cpRM (sz : Size) (ops : RMOperands sz) : EncodedLength.Statement (.cpRM sz ops) := fun h => by
  rw [encode_length]; exact congrArg (2 + ·) (RMOperands.bytes_length _ h)
theorem EncodedLength.andRM (sz : Size) (ops : RMOperands sz) : EncodedLength.Statement (.andRM sz ops) := fun h => by
  rw [encode_length]; exact congrArg (2 + ·) (RMOperands.bytes_length _ h)
theorem EncodedLength.orRM (sz : Size) (ops : RMOperands sz) : EncodedLength.Statement (.orRM sz ops) := fun h => by
  rw [encode_length]; exact congrArg (2 + ·) (RMOperands.bytes_length _ h)
theorem EncodedLength.xorRM (sz : Size) (ops : RMOperands sz) : EncodedLength.Statement (.xorRM sz ops) := fun h => by
  rw [encode_length]; exact congrArg (2 + ·) (RMOperands.bytes_length _ h)
theorem EncodedLength.tstRM (sz : Size) (ops : RMOperands sz) : EncodedLength.Statement (.tstRM sz ops) := fun h => by
  rw [encode_length]; exact congrArg (2 + ·) (RMOperands.bytes_length _ h)
theorem EncodedLength.bitRM (sz : Size) (ops : RMOperands sz) : EncodedLength.Statement (.bitRM sz ops) := fun h => by
  rw [encode_length]; exact congrArg (2 + ·) (RMOperands.bytes_length _ h)
theorem EncodedLength.setRM (sz : Size) (ops : RMOperands sz) : EncodedLength.Statement (.setRM sz ops) := fun h => by
  rw [encode_length]; exact congrArg (2 + ·) (RMOperands.bytes_length _ h)
theorem EncodedLength.resRM (sz : Size) (ops : RMOperands sz) : EncodedLength.Statement (.resRM sz ops) := fun h => by
  rw [encode_length]; exact congrArg (2 + ·) (RMOperands.bytes_length _ h)
theorem EncodedLength.rlcRM (sz : Size) (ops : RMOperands sz) : EncodedLength.Statement (.rlcRM sz ops) := fun h => by
  rw [encode_length]; exact congrArg (2 + ·) (RMOperands.bytes_length _ h)
theorem EncodedLength.rrcRM (sz : Size) (ops : RMOperands sz) : EncodedLength.Statement (.rrcRM sz ops) := fun h => by
  rw [encode_length]; exact congrArg (2 + ·) (RMOperands.bytes_length _ h)
theorem EncodedLength.rlRM (sz : Size) (ops : RMOperands sz) : EncodedLength.Statement (.rlRM sz ops) := fun h => by
  rw [encode_length]; exact congrArg (2 + ·) (RMOperands.bytes_length _ h)
theorem EncodedLength.rrRM (sz : Size) (ops : RMOperands sz) : EncodedLength.Statement (.rrRM sz ops) := fun h => by
  rw [encode_length]; exact congrArg (2 + ·) (RMOperands.bytes_length _ h)
theorem EncodedLength.slaRM (sz : Size) (ops : RMOperands sz) : EncodedLength.Statement (.slaRM sz ops) := fun h => by
  rw [encode_length]; exact congrArg (2 + ·) (RMOperands.bytes_length _ h)
theorem EncodedLength.sraRM (sz : Size) (ops : RMOperands sz) : EncodedLength.Statement (.sraRM sz ops) := fun h => by
  rw [encode_length]; exact congrArg (2 + ·) (RMOperands.bytes_length _ h)
theorem EncodedLength.srlRM (sz : Size) (ops : RMOperands sz) : EncodedLength.Statement (.srlRM sz ops) := fun h => by
  rw [encode_length]; exact congrArg (2 + ·) (RMOperands.bytes_length _ h)
theorem EncodedLength.inRM (sz : Size) (r : RegCode) (port : MemRef) : EncodedLength.Statement (.inRM sz r port) := fun h => by
  rw [encode_length]; exact congrArg (2 + ·) (MemRef.bytes_length h)
theorem EncodedLength.outRM (sz : Size) (port : MemRef) (src : Src sz) : EncodedLength.Statement (.outRM sz port src) := fun h => by
  rw [encode_length]
  exact (congrArg (2 + ·) (RMOperands.bytes_length (ops := .store port src) 21 h)).trans (Nat.add_assoc _ _ _).symm
theorem EncodedLength.exAltUR (sz : Size) (r : RegCode) : EncodedLength.Statement (.exAltUR sz r) := fun _ => rfl
theorem EncodedLength.exhUR (sz : Size) (r : RegCode) : EncodedLength.Statement (.exhUR sz r) := fun _ => rfl
theorem EncodedLength.pushUR (sz : Size) (r : RegCode) : EncodedLength.Statement (.pushUR sz r) := fun _ => rfl
theorem EncodedLength.popUR (sz : Size) (r : RegCode) : EncodedLength.Statement (.popUR sz r) := fun _ => rfl
theorem EncodedLength.incUR (sz : Size) (r : RegCode) : EncodedLength.Statement (.incUR sz r) := fun _ => rfl
theorem EncodedLength.decUR (sz : Size) (r : RegCode) : EncodedLength.Statement (.decUR sz r) := fun _ => rfl
theorem EncodedLength.negUR (sz : Size) (r : RegCode) : EncodedLength.Statement (.negUR sz r) := fun _ => rfl
theorem EncodedLength.extUR (sz : Size) (r : RegCode) : EncodedLength.Statement (.extUR sz r) := fun _ => rfl
theorem EncodedLength.mltUR (sz : Size) (r : RegCode) : EncodedLength.Statement (.mltUR sz r) := fun _ => rfl
theorem EncodedLength.divUR (sz : Size) (r : RegCode) : EncodedLength.Statement (.divUR sz r) := fun _ => rfl
theorem EncodedLength.sdivUR (sz : Size) (r : RegCode) : EncodedLength.Statement (.sdivUR sz r) := fun _ => rfl
theorem EncodedLength.cplUR (sz : Size) (r : RegCode) : EncodedLength.Statement (.cplUR sz r) := fun _ => rfl
theorem EncodedLength.exhUM (sz : Size) (m : MemRef) : EncodedLength.Statement (.exhUM sz m) := fun h => by
  rw [encode_length]; exact congrArg (2 + ·) (MemRef.bytes_length (by simp_all [Instr.wf]))
theorem EncodedLength.pushUM (sz : Size) (m : MemRef) : EncodedLength.Statement (.pushUM sz m) := fun h => by
  rw [encode_length]; exact congrArg (2 + ·) (MemRef.bytes_length (by simp_all [Instr.wf]))
theorem EncodedLength.popUM (sz : Size) (m : MemRef) : EncodedLength.Statement (.popUM sz m) := fun h => by
  rw [encode_length]; exact congrArg (2 + ·) (MemRef.bytes_length (by simp_all [Instr.wf]))
theorem EncodedLength.incUM (sz : Size) (m : MemRef) : EncodedLength.Statement (.incUM sz m) := fun h => by
  rw [encode_length]; exact congrArg (2 + ·) (MemRef.bytes_length (by simp_all [Instr.wf]))
theorem EncodedLength.decUM (sz : Size) (m : MemRef) : EncodedLength.Statement (.decUM sz m) := fun h => by
  rw [encode_length]; exact congrArg (2 + ·) (MemRef.bytes_length (by simp_all [Instr.wf]))
theorem EncodedLength.negUM (sz : Size) (m : MemRef) : EncodedLength.Statement (.negUM sz m) := fun h => by
  rw [encode_length]; exact congrArg (2 + ·) (MemRef.bytes_length (by simp_all [Instr.wf]))
theorem EncodedLength.extUM (sz : Size) (m : MemRef) : EncodedLength.Statement (.extUM sz m) := fun h => by
  rw [encode_length]; exact congrArg (2 + ·) (MemRef.bytes_length (by simp_all [Instr.wf]))
theorem EncodedLength.mltUM (sz : Size) (m : MemRef) : EncodedLength.Statement (.mltUM sz m) := fun h => by
  rw [encode_length]; exact congrArg (2 + ·) (MemRef.bytes_length (by simp_all [Instr.wf]))
theorem EncodedLength.divUM (sz : Size) (m : MemRef) : EncodedLength.Statement (.divUM sz m) := fun h => by
  rw [encode_length]; exact congrArg (2 + ·) (MemRef.bytes_length (by simp_all [Instr.wf]))
theorem EncodedLength.sdivUM (sz : Size) (m : MemRef) : EncodedLength.Statement (.sdivUM sz m) := fun h => by
  rw [encode_length]; exact congrArg (2 + ·) (MemRef.bytes_length (by simp_all [Instr.wf]))
theorem EncodedLength.cplUM (sz : Size) (m : MemRef) : EncodedLength.Statement (.cplUM sz m) := fun h => by
  rw [encode_length]; exact congrArg (2 + ·) (MemRef.bytes_length (by simp_all [Instr.wf]))
theorem EncodedLength.jp (cond : Cond) (t : Src .dword) : EncodedLength.Statement (.jp cond t) := fun _ => by
  rw [encode_length]; exact congrArg (2 + ·) (Src.bytes_length t)
theorem EncodedLength.jrS8 (cond : Cond) (t : Src .byte) : EncodedLength.Statement (.jrS8 cond t) := fun _ => by
  rw [encode_length]; exact congrArg (2 + ·) (Src.bytes_length t)
theorem EncodedLength.jr (cond : Cond) (t : Src .word) : EncodedLength.Statement (.jr cond t) := fun _ => by
  rw [encode_length]; exact congrArg (2 + ·) (Src.bytes_length t)
theorem EncodedLength.call (cond : Cond) (t : Src .dword) : EncodedLength.Statement (.call cond t) := fun _ => by
  rw [encode_length]; exact congrArg (2 + ·) (Src.bytes_length t)
theorem EncodedLength.callrS8 (cond : Cond) (t : Src .byte) : EncodedLength.Statement (.callrS8 cond t) := fun _ => by
  rw [encode_length]; exact congrArg (2 + ·) (Src.bytes_length t)
theorem EncodedLength.callr (cond : Cond) (t : Src .word) : EncodedLength.Statement (.callr cond t) := fun _ => by
  rw [encode_length]; exact congrArg (2 + ·) (Src.bytes_length t)
theorem EncodedLength.ret (cond : Cond) : EncodedLength.Statement (.ret cond) := fun _ => rfl
theorem EncodedLength.reti (cond : Cond) : EncodedLength.Statement (.reti cond) := fun _ => rfl
theorem EncodedLength.retn (cond : Cond) : EncodedLength.Statement (.retn cond) := fun _ => rfl
theorem EncodedLength.ldi (sz : Size) : EncodedLength.Statement (.ldi sz) := fun _ => rfl
theorem EncodedLength.ldd (sz : Size) : EncodedLength.Statement (.ldd sz) := fun _ => rfl
theorem EncodedLength.ldir (sz : Size) : EncodedLength.Statement (.ldir sz) := fun _ => rfl
theorem EncodedLength.lddr (sz : Size) : EncodedLength.Statement (.lddr sz) := fun _ => rfl
theorem EncodedLength.cpi (sz : Size) : EncodedLength.Statement (.cpi sz) := fun _ => rfl
theorem EncodedLength.cpd (sz : Size) : EncodedLength.Statement (.cpd sz) := fun _ => rfl
theorem EncodedLength.cpir (sz : Size) : EncodedLength.Statement (.cpir sz) := fun _ => rfl
theorem EncodedLength.cpdr (sz : Size) : EncodedLength.Statement (.cpdr sz) := fun _ => rfl
theorem EncodedLength.tsi (sz : Size) : EncodedLength.Statement (.tsi sz) := fun _ => rfl
theorem EncodedLength.tsd (sz : Size) : EncodedLength.Statement (.tsd sz) := fun _ => rfl
theorem EncodedLength.tsir (sz : Size) : EncodedLength.Statement (.tsir sz) := fun _ => rfl
theorem EncodedLength.tsdr (sz : Size) : EncodedLength.Statement (.tsdr sz) := fun _ => rfl
theorem EncodedLength.ini (sz : Size) : EncodedLength.Statement (.ini sz) := fun _ => rfl
theorem EncodedLength.ind (sz : Size) : EncodedLength.Statement (.ind sz) := fun _ => rfl
theorem EncodedLength.inir (sz : Size) : EncodedLength.Statement (.inir sz) := fun _ => rfl
theorem EncodedLength.indr (sz : Size) : EncodedLength.Statement (.indr sz) := fun _ => rfl
theorem EncodedLength.outi (sz : Size) : EncodedLength.Statement (.outi sz) := fun _ => rfl
theorem EncodedLength.outd (sz : Size) : EncodedLength.Statement (.outd sz) := fun _ => rfl
theorem EncodedLength.outir (sz : Size) : EncodedLength.Statement (.outir sz) := fun _ => rfl
theorem EncodedLength.outdr (sz : Size) : EncodedLength.Statement (.outdr sz) := fun _ => rfl
theorem EncodedLength.exx : EncodedLength.Statement .exx := fun _ => rfl
theorem EncodedLength.exi : EncodedLength.Statement .exi := fun _ => rfl
theorem EncodedLength.rst (imm : Byte) : EncodedLength.Statement (.rst imm) := fun _ => rfl
theorem EncodedLength.daa : EncodedLength.Statement .daa := fun _ => rfl
theorem EncodedLength.ldINN (imm : DWord) : EncodedLength.Statement (.ldINN imm) := fun _ => rfl
theorem EncodedLength.ldRA : EncodedLength.Statement .ldRA := fun _ => rfl
theorem EncodedLength.ldAR : EncodedLength.Statement .ldAR := fun _ => rfl
theorem EncodedLength.halt : EncodedLength.Statement .halt := fun _ => rfl
theorem EncodedLength.nop : EncodedLength.Statement .nop := fun _ => rfl
theorem EncodedLength.djnz (disp : Byte) : EncodedLength.Statement (.djnz disp) := fun _ => rfl
theorem EncodedLength.janz (disp : Byte) : EncodedLength.Statement (.janz disp) := fun _ => rfl

end Sys2Proof.Laws
end

