-- ==== Sys2Proof/Machine/Decoded.lean ====
section
/-! DEFINITION. The record that one decode gives (00_scope.md R16): what the host may show of the instruction at PC. It is
"created per decode call, consumed exactly once by execute": no state. -/

namespace Sys2Proof.Machine

/-- The OperandSize of an instruction: the size field (30_encoding.md R108, R151), the size that a branch mnemonic implies, none
for the returns (R142), Byte for DAA (44_bcd_halfwidth.md R330).
DESIGN CHOICE (log entry 16), unsafe for a claim about the record, read by no step: the spec gives no OperandSize for the NOP,
DJNZ and JANZ of format SB (R160) and for the EXX, EXI, RST, LD_I_NN, LD_R_A, LD_A_R and HALT of format NUL (R152, R153, R155);
the model answers none for each. -/
def operandSize : Instr → Option Size
  | .ldR sz _ _ | .exR sz _ _ | .addR sz _ _ | .adcR sz _ _ | .subR sz _ _ | .sbcR sz _ _ | .cpR sz _ _ | .andR sz _ _
  | .orR sz _ _ | .xorR sz _ _ | .tstR sz _ _ | .bitR sz _ _ | .setR sz _ _ | .resR sz _ _ | .rlcR sz _ _ | .rrcR sz _ _
  | .rlR sz _ _ | .rrR sz _ _ | .slaR sz _ _ | .sraR sz _ _ | .srlR sz _ _ => some sz
  | .ldRM sz _ | .exRM sz _ | .addRM sz _ | .adcRM sz _ | .subRM sz _ | .sbcRM sz _ | .cpRM sz _ | .andRM sz _
  | .orRM sz _ | .xorRM sz _ | .tstRM sz _ | .bitRM sz _ | .setRM sz _ | .resRM sz _ | .rlcRM sz _ | .rrcRM sz _
  | .rlRM sz _ | .rrRM sz _ | .slaRM sz _ | .sraRM sz _ | .srlRM sz _ => some sz
  | .inRM sz _ _ => some sz
  | .outRM sz _ _ => some sz
  | .exAltUR sz _ | .exhUR sz _ | .pushUR sz _ | .popUR sz _ | .incUR sz _ | .decUR sz _ | .negUR sz _ | .extUR sz _
  | .mltUR sz _ | .divUR sz _ | .sdivUR sz _ | .cplUR sz _ => some sz
  | .exhUM sz _ | .pushUM sz _ | .popUM sz _ | .incUM sz _ | .decUM sz _ | .negUM sz _ | .extUM sz _ | .mltUM sz _
  | .divUM sz _ | .sdivUM sz _ | .cplUM sz _ => some sz
  | .jp _ _ | .call _ _ => some .dword
  | .jr _ _ | .callr _ _ => some .word
  | .jrS8 _ _ | .callrS8 _ _ => some .byte
  | .ret _ | .reti _ | .retn _ => none
  | .ldi sz | .ldd sz | .ldir sz | .lddr sz | .cpi sz | .cpd sz | .cpir sz | .cpdr sz | .tsi sz | .tsd sz | .tsir sz
  | .tsdr sz | .ini sz | .ind sz | .inir sz | .indr sz | .outi sz | .outd sz | .outir sz | .outdr sz => some sz
  | .daa => some .byte
  | .exx | .exi | .rst _ | .ldINN _ | .ldRA | .ldAR | .halt | .nop | .djnz _ | .janz _ => none

/-- The condition of an instruction: "default Unconditional" (00_scope.md R16, 46_stack_branch.md R390). -/
def condition : Instr → Cond
  | .jp cc _ => cc
  | .jrS8 cc _ => cc
  | .jr cc _ => cc
  | .call cc _ => cc
  | .callrS8 cc _ => cc
  | .callr cc _ => cc
  | .ret cc | .reti cc | .retn cc => cc
  | .ldR _ _ _ | .exR _ _ _ | .addR _ _ _ | .adcR _ _ _ | .subR _ _ _ | .sbcR _ _ _ | .cpR _ _ _ | .andR _ _ _
  | .orR _ _ _ | .xorR _ _ _ | .tstR _ _ _ | .bitR _ _ _ | .setR _ _ _ | .resR _ _ _ | .rlcR _ _ _ | .rrcR _ _ _
  | .rlR _ _ _ | .rrR _ _ _ | .slaR _ _ _ | .sraR _ _ _ | .srlR _ _ _ => .always
  | .ldRM _ _ | .exRM _ _ | .addRM _ _ | .adcRM _ _ | .subRM _ _ | .sbcRM _ _ | .cpRM _ _ | .andRM _ _ | .orRM _ _
  | .xorRM _ _ | .tstRM _ _ | .bitRM _ _ | .setRM _ _ | .resRM _ _ | .rlcRM _ _ | .rrcRM _ _ | .rlRM _ _ | .rrRM _ _
  | .slaRM _ _ | .sraRM _ _ | .srlRM _ _ | .inRM _ _ _ | .outRM _ _ _ => .always
  | .exAltUR _ _ | .exhUR _ _ | .pushUR _ _ | .popUR _ _ | .incUR _ _ | .decUR _ _ | .negUR _ _ | .extUR _ _
  | .mltUR _ _ | .divUR _ _ | .sdivUR _ _ | .cplUR _ _ => .always
  | .exhUM _ _ | .pushUM _ _ | .popUM _ _ | .incUM _ _ | .decUM _ _ | .negUM _ _ | .extUM _ _ | .mltUM _ _
  | .divUM _ _ | .sdivUM _ _ | .cplUM _ _ => .always
  | .ldi _ | .ldd _ | .ldir _ | .lddr _ | .cpi _ | .cpd _ | .cpir _ | .cpdr _ | .tsi _ | .tsd _ | .tsir _ | .tsdr _
  | .ini _ | .ind _ | .inir _ | .indr _ | .outi _ | .outd _ | .outir _ | .outdr _ => .always
  | .exx | .exi | .rst _ | .daa | .ldINN _ | .ldRA | .ldAR | .halt | .nop | .djnz _ | .janz _ => .always

/-- The DecodedOperation (00_scope.md R16). Its operands are those of `instr`; its DisplayString is left at the mnemonic
(00_scope.md R7(c)). -/
structure DecodedOperation where
  baseAddress : DWord
  /-- "Always exactly the bytes consumed." -/
  opcode : List Byte
  mnemonic : String
  size : Option Size
  instr : Instr
  condition : Cond
  fetchCycles : Nat
  deriving DecidableEq, Repr

/-- `Decode(pc)` as the record that the host may observe (30_encoding.md R100). -/
def decodedOperation (s : State) : Except DecodeField DecodedOperation :=
  match decodeAtPC s with
  | .error e => .error e
  | .ok i => .ok {
      baseAddress := s.pc
      opcode := (List.range (instrLength i)).map (fetchByte s)
      mnemonic := Sys2Proof.mnemonic i
      size := operandSize i
      instr := i
      condition := condition i
      fetchCycles := fetchCycles i s.pc }

end Sys2Proof.Machine
end

