-- ==== Sys2Proof/Tests/Slice0.lean ====
section
/-! SUPPORT. The model's own tests: the well-formedness smoke test, a word of every constructor written out from the spec's
encoding, the vectors of spec/95_test_vectors.md one step at a time, and a witness for the hypotheses of every statement that
has some. A test's expected values come from the table or rule that its docstring names. -/

namespace Sys2Proof.Tests

open Sys2Proof Sys2Proof.Machine

/-- The reset state with bytes stored at an address where PC is. -/
def placedAt (pc : DWord) (bytes : List Byte) : State :=
  { State.reset with pc := pc, mem := Memory.storeBytes [] pc bytes }

/-- The common assumption of 95_test_vectors.md: the instruction sits at BaseAddress 0x100. -/
def at100 (bytes : List Byte) : State := placedAt 0x100 bytes

/-- A state with data bytes stored on the memory bus. -/
def holding (a : DWord) (bytes : List Byte) (s : State) : State := { s with mem := s.mem.storeBytes a bytes }

/-- The state after one step. -/
def after (s : State) : Option State :=
  match step s with
  | .next t => some t
  | .fault _ => none
  | .refused _ => none

/-- The state after one instruction. -/
def did (i : Instr) (s : State) : Option State :=
  match exec i s with
  | .next t => some t
  | .fault _ => none
  | .refused _ => none

/-! ## Well-formedness: each check refuses an ill-formed term -/

theorem test_wf_missing_displacement : (Instr.ldRM .byte (.load .r6 (.ind .r4 none))).wf = false := by decide
theorem test_wf_displacement_on_plain_base : (Instr.ldRM .byte (.store (.ind .r2 (some 1)) (.reg .r6))).wf = false := by decide
theorem test_wf_port_displacement :
    (Instr.inRM .byte .r6 (.ind .r3 none)).wf = false ∧ (Instr.outRM .byte (.ind .r0 (some 0)) (.imm 1)).wf = false := by decide
theorem test_wf_unary_memory_displacement : (Instr.incUM .byte (.ind .r5 none)).wf = false := by decide
theorem test_wf_stack_needs_dword :
    (Instr.pushUR .word .r0).wf = false ∧ (Instr.popUR .byte .r0).wf = false ∧ (Instr.pushUM .word (.direct 0)).wf = false := by
  decide
theorem test_wf_no_byte_halves :
    (Instr.exhUR .byte .r0).wf = false ∧ (Instr.extUR .byte .r0).wf = false ∧ (Instr.mltUM .byte (.direct 0)).wf = false ∧
    (Instr.divUR .byte .r0).wf = false ∧ (Instr.sdivUM .byte (.direct 0)).wf = false := by decide
theorem test_wf_no_alternate_sp : (Instr.exAltUR .dword .r3).wf = false ∧ (Instr.exAltUR .word .r3).wf = true := by decide

/-- What no encoding stands for is a contract violation (60_exceptions.md R502, OperandKind = 2). -/
theorem test_ill_formed_term_raises :
    did (.pushUR .word .r0) (at100 []) = some { at100 [] with
      fault := some { error := .contractViolation .operandKind, base := 0x100, word := 0x4102 } } := by decide

/-! ## Decoding: a word of every constructor, its bits written out from 30_encoding.md R167 -/

/-- R110, R112: `sss ddd zz oooooo 00`, each op with a register source. -/
theorem test_decode_format_R :
    decodeTableWord 16 0b001_010_00_000000_00 = some (.ldR .byte .r2 (.reg .r1)) ∧
    decodeTableWord 16 0b100_000_01_000001_00 = some (.exR .word .r0 (.reg .r4)) ∧
    decodeTableWord 16 0b000_101_10_000010_00 = some (.addR .dword .r5 (.reg .r0)) ∧
    decodeTableWord 16 0b100_011_00_000011_00 = some (.adcR .byte .r3 (.reg .r4)) ∧
    decodeTableWord 16 0b110_001_01_000100_00 = some (.subR .word .r1 (.reg .r6)) ∧
    decodeTableWord 16 0b010_110_10_000101_00 = some (.sbcR .dword .r6 (.reg .r2)) ∧
    decodeTableWord 16 0b101_100_00_000110_00 = some (.cpR .byte .r4 (.reg .r5)) ∧
    decodeTableWord 16 0b001_010_01_000111_00 = some (.andR .word .r2 (.reg .r1)) ∧
    decodeTableWord 16 0b100_000_10_001000_00 = some (.orR .dword .r0 (.reg .r4)) ∧
    decodeTableWord 16 0b000_101_00_001001_00 = some (.xorR .byte .r5 (.reg .r0)) ∧
    decodeTableWord 16 0b100_011_01_001010_00 = some (.tstR .word .r3 (.reg .r4)) ∧
    decodeTableWord 16 0b110_001_10_001011_00 = some (.bitR .dword .r1 (.reg .r6)) ∧
    decodeTableWord 16 0b010_110_00_001100_00 = some (.setR .byte .r6 (.reg .r2)) ∧
    decodeTableWord 16 0b101_100_01_001101_00 = some (.resR .word .r4 (.reg .r5)) ∧
    decodeTableWord 16 0b001_010_10_001110_00 = some (.rlcR .dword .r2 (.reg .r1)) ∧
    decodeTableWord 16 0b100_000_00_001111_00 = some (.rrcR .byte .r0 (.reg .r4)) ∧
    decodeTableWord 16 0b000_101_01_010000_00 = some (.rlR .word .r5 (.reg .r0)) ∧
    decodeTableWord 16 0b100_011_10_010001_00 = some (.rrR .dword .r3 (.reg .r4)) ∧
    decodeTableWord 16 0b110_001_00_010010_00 = some (.slaR .byte .r1 (.reg .r6)) ∧
    decodeTableWord 16 0b010_110_01_010011_00 = some (.sraR .word .r6 (.reg .r2)) ∧
    decodeTableWord 16 0b101_100_10_010100_00 = some (.srlR .dword .r4 (.reg .r5)) := by decide

/-- R120, R121: `aaa rrr zz D ooooo 01`, odd ops as loads and even ops as stores; op 21 is IN or OUT by direction. -/
theorem test_decode_format_RM :
    decodeTableWord 16 0b000_011_01_0_00000_01 = some (.ldRM .word (.store (.ind .r0 none) (.reg .r3))) ∧
    decodeTableWord 16 0b001_000_10_1_00001_01 = some (.exRM .dword (.load .r0 (.ind .r1 none))) ∧
    decodeTableWord 16 0b010_100_00_0_00010_01 = some (.addRM .byte (.store (.ind .r2 none) (.reg .r4))) ∧
    decodeTableWord 16 0b110_001_01_1_00011_01 = some (.adcRM .word (.load .r1 (.ind .r6 none))) ∧
    decodeTableWord 16 0b000_101_10_0_00100_01 = some (.subRM .dword (.store (.ind .r0 none) (.reg .r5))) ∧
    decodeTableWord 16 0b001_010_00_1_00101_01 = some (.sbcRM .byte (.load .r2 (.ind .r1 none))) ∧
    decodeTableWord 16 0b010_110_01_0_00110_01 = some (.cpRM .word (.store (.ind .r2 none) (.reg .r6))) ∧
    decodeTableWord 16 0b110_011_10_1_00111_01 = some (.andRM .dword (.load .r3 (.ind .r6 none))) ∧
    decodeTableWord 16 0b000_000_00_0_01000_01 = some (.orRM .byte (.store (.ind .r0 none) (.reg .r0))) ∧
    decodeTableWord 16 0b001_100_01_1_01001_01 = some (.xorRM .word (.load .r4 (.ind .r1 none))) ∧
    decodeTableWord 16 0b010_001_10_0_01010_01 = some (.tstRM .dword (.store (.ind .r2 none) (.reg .r1))) ∧
    decodeTableWord 16 0b110_101_00_1_01011_01 = some (.bitRM .byte (.load .r5 (.ind .r6 none))) ∧
    decodeTableWord 16 0b000_010_01_0_01100_01 = some (.setRM .word (.store (.ind .r0 none) (.reg .r2))) ∧
    decodeTableWord 16 0b001_110_10_1_01101_01 = some (.resRM .dword (.load .r6 (.ind .r1 none))) ∧
    decodeTableWord 16 0b010_011_00_0_01110_01 = some (.rlcRM .byte (.store (.ind .r2 none) (.reg .r3))) ∧
    decodeTableWord 16 0b110_000_01_1_01111_01 = some (.rrcRM .word (.load .r0 (.ind .r6 none))) ∧
    decodeTableWord 16 0b000_100_10_0_10000_01 = some (.rlRM .dword (.store (.ind .r0 none) (.reg .r4))) ∧
    decodeTableWord 16 0b001_001_00_1_10001_01 = some (.rrRM .byte (.load .r1 (.ind .r1 none))) ∧
    decodeTableWord 16 0b010_101_01_0_10010_01 = some (.slaRM .word (.store (.ind .r2 none) (.reg .r5))) ∧
    decodeTableWord 16 0b110_010_10_1_10011_01 = some (.sraRM .dword (.load .r2 (.ind .r6 none))) ∧
    decodeTableWord 16 0b000_110_00_0_10100_01 = some (.srlRM .byte (.store (.ind .r0 none) (.reg .r6))) ∧
    decodeTableWord 16 0b010_110_01_1_10101_01 = some (.inRM .word .r6 (.ind .r2 none)) ∧
    decodeTableWord 16 0b010_110_01_0_10101_01 = some (.outRM .word (.ind .r2 none) (.reg .r6)) := by decide

/-- R130: `lll rrr zz hhhh 00 10`, the selector's low three bits on top. -/
theorem test_decode_format_UR :
    decodeTableWord 16 0b000_001_01_0000_00_10 = some (.exAltUR .word .r1) ∧
    decodeTableWord 16 0b001_100_01_0000_00_10 = some (.exhUR .word .r4) ∧
    decodeTableWord 16 0b010_000_10_0000_00_10 = some (.pushUR .dword .r0) ∧
    decodeTableWord 16 0b011_011_10_0000_00_10 = some (.popUR .dword .r3) ∧
    decodeTableWord 16 0b100_110_01_0000_00_10 = some (.incUR .word .r6) ∧
    decodeTableWord 16 0b101_010_01_0000_00_10 = some (.decUR .word .r2) ∧
    decodeTableWord 16 0b110_101_01_0000_00_10 = some (.negUR .word .r5) ∧
    decodeTableWord 16 0b111_001_01_0000_00_10 = some (.extUR .word .r1) ∧
    decodeTableWord 16 0b000_100_01_0001_00_10 = some (.mltUR .word .r4) ∧
    decodeTableWord 16 0b001_000_01_0001_00_10 = some (.divUR .word .r0) ∧
    decodeTableWord 16 0b010_011_01_0001_00_10 = some (.sdivUR .word .r3) ∧
    decodeTableWord 16 0b011_110_01_0001_00_10 = some (.cplUR .word .r6) := by decide

/-- R130: `lll aaa zz hhhh 01 10`. -/
theorem test_decode_format_UM :
    decodeTableWord 16 0b001_001_01_0000_01_10 = some (.exhUM .word (.ind .r1 none)) ∧
    decodeTableWord 16 0b010_010_10_0000_01_10 = some (.pushUM .dword (.ind .r2 none)) ∧
    decodeTableWord 16 0b011_110_10_0000_01_10 = some (.popUM .dword (.ind .r6 none)) ∧
    decodeTableWord 16 0b100_000_01_0000_01_10 = some (.incUM .word (.ind .r0 none)) ∧
    decodeTableWord 16 0b101_001_01_0000_01_10 = some (.decUM .word (.ind .r1 none)) ∧
    decodeTableWord 16 0b110_010_01_0000_01_10 = some (.negUM .word (.ind .r2 none)) ∧
    decodeTableWord 16 0b111_110_01_0000_01_10 = some (.extUM .word (.ind .r6 none)) ∧
    decodeTableWord 16 0b000_000_01_0001_01_10 = some (.mltUM .word (.ind .r0 none)) ∧
    decodeTableWord 16 0b001_001_01_0001_01_10 = some (.divUM .word (.ind .r1 none)) ∧
    decodeTableWord 16 0b010_010_01_0001_01_10 = some (.sdivUM .word (.ind .r2 none)) ∧
    decodeTableWord 16 0b011_110_01_0001_01_10 = some (.cplUM .word (.ind .r6 none)) := by decide

/-- R140 to R142: `ttt cccc ooooo 10 10`, each jump and call with a register and with an immediate target. -/
theorem test_decode_format_BR :
    decodeTableWord 16 0b000_0000_00000_10_10 = some (.jp .nz (.reg .r0)) ∧
    decodeTableWord 48 0x89ABCDEFF00A = some (.jp .always (.imm 0x89ABCDEF)) ∧
    decodeTableWord 16 0b001_0001_00001_10_10 = some (.jrS8 .z (.reg .r1)) ∧
    decodeTableWord 24 0xF6EE1A = some (.jrS8 .m (.imm 0xF6)) ∧
    decodeTableWord 16 0b010_0010_00010_10_10 = some (.jr .nc (.reg .r2)) ∧
    decodeTableWord 32 0x89ABEC2A = some (.jr .p (.imm 0x89AB)) ∧
    decodeTableWord 16 0b011_0011_00011_10_10 = some (.call .c (.reg .r3)) ∧
    decodeTableWord 48 0x89ABCDEFEA3A = some (.call .pe (.imm 0x89ABCDEF)) ∧
    decodeTableWord 16 0b100_0100_00100_10_10 = some (.callrS8 .po (.reg .r4)) ∧
    decodeTableWord 24 0xF6E84A = some (.callrS8 .po (.imm 0xF6)) ∧
    decodeTableWord 16 0b101_0101_00101_10_10 = some (.callr .pe (.reg .r5)) ∧
    decodeTableWord 32 0x89ABE65A = some (.callr .c (.imm 0x89AB)) ∧
    decodeTableWord 16 0b000_0110_00110_10_10 = some (.ret .p) ∧
    decodeTableWord 16 0b000_0111_00111_10_10 = some (.reti .m) ∧
    decodeTableWord 16 0b000_1000_01000_10_10 = some (.retn .always) := by decide

/-- R151: `oooooo zz 0000 11 10`. -/
theorem test_decode_block_family :
    decodeTableWord 16 0b000000_00_0000_11_10 = some (.ldi .byte) ∧
    decodeTableWord 16 0b000001_01_0000_11_10 = some (.ldd .word) ∧
    decodeTableWord 16 0b000010_10_0000_11_10 = some (.ldir .dword) ∧
    decodeTableWord 16 0b000011_00_0000_11_10 = some (.lddr .byte) ∧
    decodeTableWord 16 0b000100_01_0000_11_10 = some (.cpi .word) ∧
    decodeTableWord 16 0b000101_10_0000_11_10 = some (.cpd .dword) ∧
    decodeTableWord 16 0b000110_00_0000_11_10 = some (.cpir .byte) ∧
    decodeTableWord 16 0b000111_01_0000_11_10 = some (.cpdr .word) ∧
    decodeTableWord 16 0b001000_10_0000_11_10 = some (.tsi .dword) ∧
    decodeTableWord 16 0b001001_00_0000_11_10 = some (.tsd .byte) ∧
    decodeTableWord 16 0b001010_01_0000_11_10 = some (.tsir .word) ∧
    decodeTableWord 16 0b001011_10_0000_11_10 = some (.tsdr .dword) ∧
    decodeTableWord 16 0b001100_00_0000_11_10 = some (.ini .byte) ∧
    decodeTableWord 16 0b001101_01_0000_11_10 = some (.ind .word) ∧
    decodeTableWord 16 0b001110_10_0000_11_10 = some (.inir .dword) ∧
    decodeTableWord 16 0b001111_00_0000_11_10 = some (.indr .byte) ∧
    decodeTableWord 16 0b010000_01_0000_11_10 = some (.outi .word) ∧
    decodeTableWord 16 0b010001_10_0000_11_10 = some (.outd .dword) ∧
    decodeTableWord 16 0b010010_00_0000_11_10 = some (.outir .byte) ∧
    decodeTableWord 16 0b010011_01_0000_11_10 = some (.outdr .word) := by decide

/-- R152 to R155, R160: `eeeeeeee ffff 11 10` and `oooo dddddddd 11 11`. -/
theorem test_decode_other_NUL_and_SB :
    decodeTableWord 16 0b00000000_0001_11_10 = some (.exx) ∧
    decodeTableWord 16 0b00000001_0001_11_10 = some (.exi) ∧
    decodeTableWord 24 0b00111000_00000000_0010_11_10 = some (.rst 0x38) ∧
    decodeTableWord 16 0b00000000_0011_11_10 = some (.daa) ∧
    decodeTableWord 48 0x12345678004E = some (.ldINN 0x12345678) ∧
    decodeTableWord 16 0b00000001_0100_11_10 = some (.ldRA) ∧
    decodeTableWord 16 0b00000010_0100_11_10 = some (.ldAR) ∧
    decodeTableWord 16 0b00000011_0100_11_10 = some (.halt) ∧
    decodeTableWord 16 0b0000_00000000_11_11 = some (.nop) ∧
    decodeTableWord 16 0b0001_11110110_11_11 = some (.djnz 0xF6) ∧
    decodeTableWord 16 0b0010_00000100_11_11 = some (.janz 4) := by decide

/-- R105 to R107, R111, R122, R132: immediates of each size, displacements, direct addresses, and the order of the trailing fields. -/
theorem test_decode_operand_forms :
    decodeTableWord 24 0x5AF808 = some (.addR .byte .r6 (.imm 0x5A)) ∧
    decodeTableWord 32 0x89ABF908 = some (.addR .word .r6 (.imm 0x89AB)) ∧
    decodeTableWord 48 0x89ABCDEFFA08 = some (.addR .dword .r6 (.imm 0x89ABCDEF)) ∧
    decodeTableWord 32 0xFFFE7889 = some (.addRM .byte (.load .r6 (.ind .r3 (some 0xFFFE)))) ∧
    decodeTableWord 32 0xFFFE9889 = some (.addRM .byte (.load .r6 (.ind .r4 (some 0xFFFE)))) ∧
    decodeTableWord 32 0xFFFEB889 = some (.addRM .byte (.load .r6 (.ind .r5 (some 0xFFFE)))) ∧
    decodeTableWord 48 0x80000010F889 = some (.addRM .byte (.load .r6 (.direct 0x80000010))) ∧
    decodeTableWord 64 0x89ABCDEF00089E09 = some (.addRM .dword (.store (.ind .r4 (some 8)) (.imm 0x89ABCDEF))) ∧
    decodeTableWord 80 0x89ABCDEF80000010FE09 = some (.addRM .dword (.store (.direct 0x80000010) (.imm 0x89ABCDEF))) ∧
    decodeTableWord 32 0x00089606 = some (.incUM .dword (.ind .r5 (some 8))) ∧
    decodeTableWord 48 0x800000109E06 = some (.incUM .dword (.direct 0x80000010)) := by decide

/-! ## Arithmetic (95_test_vectors.md 2.1) -/

/-- ADD.B A, B (R210) -/
theorem test_addR_1 :
    ((after ({ at100 [0x8, 0x18] with bank := { Bank.zero with a := 0x3A, bc := 0xC60000 } })).map fun t => (t.bank.a, t.bank.bc, t.f, t.pc)) =
      some (0x0, 0xC60000, 0x51, 0x102) := by decide

/-- ADD.B A, A (R210) -/
theorem test_addR_2 :
    ((after ({ at100 [0x8, 0xD8] with bank := { Bank.zero with a := 0x80 } })).map fun t => (t.bank.a, t.f, t.pc)) =
      some (0x0, 0x45, 0x102) := by decide

/-- ADC.W B, C (R211) -/
theorem test_adcR_1 :
    ((after ({ at100 [0xC, 0x21] with bank := { Bank.zero with bc := 0xFFFF0000 }, f := 0x1 })).map fun t => (t.bank.bc, t.f, t.pc)) =
      some (0x0, 0x41, 0x102) := by decide

/-- INC.D BC (R212) -/
theorem test_incUR_1 :
    ((after ({ at100 [0x2, 0x82] with bank := { Bank.zero with bc := 0x7FFFFFFF } })).map fun t => (t.bank.bc, t.f, t.pc)) =
      some (0x80000000, 0x84, 0x102) := by decide

/-- SUB.B A, A (R220) -/
theorem test_subR_1 :
    ((after ({ at100 [0x10, 0xD8] with bank := { Bank.zero with a := 0x42 } })).map fun t => (t.bank.a, t.f, t.pc)) =
      some (0x0, 0x42, 0x102) := by decide

/-- SBC.B A, 1 (R221) -/
theorem test_sbcR_1 :
    ((after ({ at100 [0x14, 0xF8, 0x1] with bank := { Bank.zero with a := 0x0 }, f := 0x1 })).map fun t => (t.bank.a, t.f, t.pc)) =
      some (0xFE, 0x93, 0x103) := by decide

/-- CP.B A, 0x80 (R222) -/
theorem test_cpR_1 :
    ((after ({ at100 [0x18, 0xF8, 0x80] with bank := { Bank.zero with a := 0x7F } })).map fun t => (t.bank.a, t.f, t.pc)) =
      some (0x7F, 0x87, 0x103) := by decide

/-- DEC.B A (R223) -/
theorem test_decUR_1 :
    ((after ({ at100 [0x2, 0xB8] with bank := { Bank.zero with a := 0x0 } })).map fun t => (t.bank.a, t.f, t.pc)) =
      some (0xFF, 0x93, 0x102) := by decide

/-- INC.B A (R212) -/
theorem test_incUR_2 :
    ((after ({ at100 [0x2, 0x98] with bank := { Bank.zero with a := 0xFF } })).map fun t => (t.bank.a, t.f, t.pc)) =
      some (0x0, 0x51, 0x102) := by decide

/-- NEG.B A (R224) -/
theorem test_negUR_1 :
    ((after ({ at100 [0x2, 0xD8] with bank := { Bank.zero with a := 0x1 } })).map fun t => (t.bank.a, t.f, t.pc)) =
      some (0xFF, 0x93, 0x102) := by decide

/-- NEG.B A (R224) -/
theorem test_negUR_2 :
    ((after ({ at100 [0x2, 0xD8] with bank := { Bank.zero with a := 0x80 } })).map fun t => (t.bank.a, t.f, t.pc)) =
      some (0x80, 0x87, 0x102) := by decide

/-- ADD.W (HL), B (R210) -/
theorem test_addRM_1 :
    ((after ({ holding 0x2000 [0xFF, 0xFF] (at100 [0x9, 0x41]) with bank := { Bank.zero with hl := 0x2000, bc := 0x10000 } })).map fun t => (t.bank.hl, t.bank.bc, memRead .word 0x2000 t, t.f, t.pc)) =
      some (0x2000, 0x10000, 0x0, 0x41, 0x102) := by decide

/-- SUB.B A, (HL) (R220) -/
theorem test_subRM_1 :
    ((after ({ holding 0x2000 [0x1] (at100 [0x91, 0x58]) with bank := { Bank.zero with hl := 0x2000, a := 0x10 } })).map fun t => (t.bank.hl, t.bank.a, t.f, t.pc)) =
      some (0x2000, 0xF, 0x12, 0x102) := by decide

/-! ## Logic (95_test_vectors.md 2.2) -/

/-- AND.B A, 0x0F (R250 (H = 1, the preserved quirk)) -/
theorem test_andR_1 :
    ((after ({ at100 [0x1C, 0xF8, 0xF] with bank := { Bank.zero with a := 0x5A } })).map fun t => (t.bank.a, t.f, t.pc)) =
      some (0xA, 0x14, 0x103) := by decide

/-- OR.W B, 0x8001 (R251) -/
theorem test_orR_1 :
    ((after ({ at100 [0x20, 0xE1, 0x1, 0x80] with bank := { Bank.zero with bc := 0x1000000 } })).map fun t => (t.bank.bc, t.f, t.pc)) =
      some (0x81010000, 0x80, 0x104) := by decide

/-- XOR.D A, A (R252) -/
theorem test_xorR_1 :
    ((after ({ at100 [0x24, 0xDA] with bank := { Bank.zero with a := 0x1234 } })).map fun t => (t.bank.a, t.f, t.pc)) =
      some (0x0, 0x44, 0x102) := by decide

/-- TST.B A, 0x80 (R253) -/
theorem test_tstR_1 :
    ((after ({ at100 [0x28, 0xF8, 0x80] with bank := { Bank.zero with a := 0x7F } })).map fun t => (t.bank.a, t.f, t.pc)) =
      some (0x7F, 0x44, 0x103) := by decide

/-- CPL.B A (R254) -/
theorem test_cplUR_1 :
    ((after ({ at100 [0x12, 0x78] with bank := { Bank.zero with a := 0xF } })).map fun t => (t.bank.a, t.f, t.pc)) =
      some (0xF0, 0x84, 0x102) := by decide

/-! ## Shifts and rotates (95_test_vectors.md 2.3) -/

/-- RLC.B A, 1 (R281) -/
theorem test_rlcR_1 :
    ((after ({ at100 [0x38, 0xF8, 0x1] with bank := { Bank.zero with a := 0x81 } })).map fun t => (t.bank.a, t.f, t.pc)) =
      some (0x3, 0x5, 0x103) := by decide

/-- RRC.B A, 1 (R282) -/
theorem test_rrcR_1 :
    ((after ({ at100 [0x3C, 0xF8, 0x1] with bank := { Bank.zero with a := 0x1 } })).map fun t => (t.bank.a, t.f, t.pc)) =
      some (0x80, 0x81, 0x103) := by decide

/-- RL.B A, 1 (R283) -/
theorem test_rlR_1 :
    ((after ({ at100 [0x40, 0xF8, 0x1] with bank := { Bank.zero with a := 0x80 }, f := 0x0 })).map fun t => (t.bank.a, t.f, t.pc)) =
      some (0x0, 0x45, 0x103) := by decide

/-- RL.B A, 9 (R283) -/
theorem test_rlR_2 :
    ((after ({ at100 [0x40, 0xF8, 0x9] with bank := { Bank.zero with a := 0x5A }, f := 0x1 })).map fun t => (t.bank.a, t.f, t.pc)) =
      some (0x5A, 0x5, 0x103) := by decide

/-- RR.W B, 1 (R284) -/
theorem test_rrR_1 :
    ((after ({ at100 [0x44, 0xE1, 0x1, 0x0] with bank := { Bank.zero with bc := 0x10000 }, f := 0x1 })).map fun t => (t.bank.bc, t.f, t.pc)) =
      some (0x80000000, 0x81, 0x104) := by decide

/-- SLA.B A, 0 (R280 (n = 0: value and C kept)) -/
theorem test_slaR_1 :
    ((after ({ at100 [0x48, 0xF8, 0x0] with bank := { Bank.zero with a := 0x80 }, f := 0x1 })).map fun t => (t.bank.a, t.f, t.pc)) =
      some (0x80, 0x81, 0x103) := by decide

/-- SLA.B A, 9 (R285 (amount not masked)) -/
theorem test_slaR_2 :
    ((after ({ at100 [0x48, 0xF8, 0x9] with bank := { Bank.zero with a := 0xFF } })).map fun t => (t.bank.a, t.f, t.pc)) =
      some (0x0, 0x44, 0x103) := by decide

/-- SRA.B A, 1 (R286) -/
theorem test_sraR_1 :
    ((after ({ at100 [0x4C, 0xF8, 0x1] with bank := { Bank.zero with a := 0x81 } })).map fun t => (t.bank.a, t.f, t.pc)) =
      some (0xC0, 0x85, 0x103) := by decide

/-- SRA.B A, 200 (R286) -/
theorem test_sraR_2 :
    ((after ({ at100 [0x4C, 0xF8, 0xC8] with bank := { Bank.zero with a := 0x80 } })).map fun t => (t.bank.a, t.f, t.pc)) =
      some (0xFF, 0x85, 0x103) := by decide

/-- SRL.D BC, 4 (R287) -/
theorem test_srlR_1 :
    ((after ({ at100 [0x50, 0xE2, 0x4, 0x0, 0x0, 0x0] with bank := { Bank.zero with bc := 0x1F } })).map fun t => (t.bank.bc, t.f, t.pc)) =
      some (0x1, 0x1, 0x106) := by decide

/-- RLC.W A, 4 (R281) -/
theorem test_rlcR_2 :
    ((after ({ at100 [0x38, 0xF9, 0x4, 0x0] with bank := { Bank.zero with a := 0x8001 } })).map fun t => (t.bank.a, t.f, t.pc)) =
      some (0x18, 0x4, 0x104) := by decide

/-! ## Bits (95_test_vectors.md 2.4) -/

/-- BIT.B A, 7 (R310) -/
theorem test_bitR_1 :
    ((after ({ at100 [0x2C, 0xF8, 0x7] with bank := { Bank.zero with a := 0x7F } })).map fun t => (t.bank.a, t.f, t.pc)) =
      some (0x7F, 0x40, 0x103) := by decide

/-- BIT.B A, 9 (R310, R313) -/
theorem test_bitR_2 :
    ((after ({ at100 [0x2C, 0xF8, 0x9] with bank := { Bank.zero with a := 0x2 } })).map fun t => (t.bank.a, t.f, t.pc)) =
      some (0x2, 0x0, 0x103) := by decide

/-- SET.W B, 15 (R311) -/
theorem test_setR_1 :
    ((after ({ at100 [0x30, 0xE1, 0xF, 0x0] with bank := { Bank.zero with bc := 0x10000 } })).map fun t => (t.bank.bc, t.f, t.pc)) =
      some (0x80010000, 0x0, 0x104) := by decide

/-- RES.D A, 31 (R312) -/
theorem test_resR_1 :
    ((after ({ at100 [0x34, 0xFA, 0x1F, 0x0, 0x0, 0x0] with bank := { Bank.zero with a := 0xFFFFFFFF } })).map fun t => (t.bank.a, t.f, t.pc)) =
      some (0x7FFFFFFF, 0x0, 0x106) := by decide

/-- RES.B A, A (R312) -/
theorem test_resR_2 :
    ((after ({ at100 [0x34, 0xD8] with bank := { Bank.zero with a := 0x3 } })).map fun t => (t.bank.a, t.f, t.pc)) =
      some (0x3, 0x0, 0x102) := by decide

/-! ## DAA, multiply, divide, extend, exchange halves (95_test_vectors.md 2.5) -/

/-- MLT.W B (R332) -/
theorem test_mltUR_1 :
    ((after ({ at100 [0x12, 0x1] with bank := { Bank.zero with bc := 0xC0A0000 } })).map fun t => (t.bank.bc, t.f, t.pc)) =
      some (0x780000, 0x0, 0x102) := by decide

/-- MLT.D HL (R332) -/
theorem test_mltUR_2 :
    ((after ({ at100 [0x12, 0xA] with bank := { Bank.zero with hl := 0xFFFFFFFF } })).map fun t => (t.bank.hl, t.f, t.pc)) =
      some (0xFFFE0001, 0x0, 0x102) := by decide

/-- DIV.W B (R333) -/
theorem test_divUR_1 :
    ((after ({ at100 [0x12, 0x21] with bank := { Bank.zero with bc := 0x64070000 } })).map fun t => (t.bank.bc, t.f, t.pc)) =
      some (0x20E0000, 0x0, 0x102) := by decide

/-- DIV.W B (R333, 60_exceptions.md R504) -/
theorem test_divUR_2 :
    ((after ({ at100 [0x12, 0x21] with bank := { Bank.zero with bc := 0x64000000 } })).map fun t => (t.bank.bc, t.f, t.pc)) =
      some (0x64000000, 0x4, 0x102) := by decide

/-- SDIV.W B (R334) -/
theorem test_sdivUR_1 :
    ((after ({ at100 [0x12, 0x41] with bank := { Bank.zero with bc := 0x7FE0000 } })).map fun t => (t.bank.bc, t.f, t.pc)) =
      some (0x1FD0000, 0x0, 0x102) := by decide

/-- SDIV.W B (R334) -/
theorem test_sdivUR_2 :
    ((after ({ at100 [0x12, 0x41] with bank := { Bank.zero with bc := 0x80FF0000 } })).map fun t => (t.bank.bc, t.f, t.pc)) =
      some (0x800000, 0x0, 0x102) := by decide

/-- EXT.W B (R340) -/
theorem test_extUR_1 :
    ((after ({ at100 [0x2, 0xE1] with bank := { Bank.zero with bc := 0x12800000 } })).map fun t => (t.bank.bc, t.f, t.pc)) =
      some (0xFF800000, 0x0, 0x102) := by decide

/-- EXT.D A (R340) -/
theorem test_extUR_2 :
    ((after ({ at100 [0x2, 0xFA] with bank := { Bank.zero with a := 0x12347FFF } })).map fun t => (t.bank.a, t.f, t.pc)) =
      some (0x7FFF, 0x0, 0x102) := by decide

/-- EXH.W B (R341) -/
theorem test_exhUR_1 :
    ((after ({ at100 [0x2, 0x21] with bank := { Bank.zero with bc := 0x12340000 } })).map fun t => (t.bank.bc, t.f, t.pc)) =
      some (0x34120000, 0x0, 0x102) := by decide

/-- EXH.D HL (R341) -/
theorem test_exhUR_2 :
    ((after ({ at100 [0x2, 0x2A] with bank := { Bank.zero with hl := 0x12345678 } })).map fun t => (t.bank.hl, t.f, t.pc)) =
      some (0x56781234, 0x0, 0x102) := by decide

/-! ## Block instructions (95_test_vectors.md 2.6) -/

/-- LDI.B (R362) -/
theorem test_ldi_1 :
    ((after ({ holding 0x200 [0x5A] (at100 [0xE, 0x0]) with bank := { Bank.zero with hl := 0x200, de := 0x300, bc := 0x1 } })).map fun t => (t.bank.hl, t.bank.de, t.bank.bc, memRead .byte 0x300 t, t.f, t.pc)) =
      some (0x201, 0x301, 0x0, 0x5A, 0x0, 0x102) := by decide

/-- LDD.W (R363) -/
theorem test_ldd_1 :
    ((after ({ holding 0x200 [0x34, 0x12] (at100 [0xE, 0x5]) with bank := { Bank.zero with hl := 0x200, de := 0x300, bc := 0x2 } })).map fun t => (t.bank.hl, t.bank.de, t.bank.bc, memRead .word 0x300 t, t.f, t.pc)) =
      some (0x1FE, 0x2FE, 0x1, 0x1234, 0x4, 0x102) := by decide

/-- CPI.B (R366) -/
theorem test_cpi_1 :
    ((after ({ holding 0x200 [0x41] (at100 [0xE, 0x10]) with bank := { Bank.zero with a := 0x41, hl := 0x200, bc := 0x5 }, f := 0x1 })).map fun t => (t.bank.a, t.bank.hl, t.bank.bc, t.f, t.pc)) =
      some (0x41, 0x201, 0x4, 0x47, 0x102) := by decide

/-- CPD.W (R367) -/
theorem test_cpd_1 :
    ((after ({ holding 0x200 [0x0, 0x20] (at100 [0xE, 0x15]) with bank := { Bank.zero with a := 0x1000, hl := 0x200, bc := 0x1 } })).map fun t => (t.bank.a, t.bank.hl, t.bank.bc, t.f, t.pc)) =
      some (0x1000, 0x1FE, 0x0, 0x82, 0x102) := by decide

/-- CPDR.B (R369) -/
theorem test_cpdr_1 :
    ((after ({ holding 0x200 [0x10] (at100 [0xE, 0x1C]) with bank := { Bank.zero with a := 0x10, hl := 0x200, bc := 0x1 } })).map fun t => (t.bank.a, t.bank.hl, t.bank.bc, t.f, t.pc)) =
      some (0x10, 0x1FF, 0x0, 0x42, 0x102) := by decide

/-- TSI.B (R370) -/
theorem test_tsi_1 :
    ((after ({ holding 0x200 [0xF0] (at100 [0xE, 0x20]) with bank := { Bank.zero with a := 0xF, hl := 0x200, bc := 0x2 } })).map fun t => (t.bank.a, t.bank.hl, t.bank.bc, t.f, t.pc)) =
      some (0xF, 0x201, 0x1, 0x44, 0x102) := by decide

/-- TSD.D (R371) -/
theorem test_tsd_1 :
    ((after ({ holding 0x200 [0xFF, 0xFF, 0xFF, 0xFF] (at100 [0xE, 0x26]) with bank := { Bank.zero with a := 0x80000000, hl := 0x200, bc := 0x1 } })).map fun t => (t.bank.a, t.bank.hl, t.bank.bc, t.f, t.pc)) =
      some (0x80000000, 0x1FC, 0x0, 0x80, 0x102) := by decide

/-- TSDR.W (R373) -/
theorem test_tsdr_1 :
    ((after ({ holding 0x200 [0x0, 0x80] (at100 [0xE, 0x2D]) with bank := { Bank.zero with a := 0xFFFF, hl := 0x200, bc := 0x1 } })).map fun t => (t.bank.a, t.bank.hl, t.bank.bc, t.f, t.pc)) =
      some (0xFFFF, 0x1FE, 0x0, 0x80, 0x102) := by decide

/-- INI.B (R374) -/
theorem test_ini_1 :
    ((after ({ at100 [0xE, 0x30] with bank := { Bank.zero with hl := 0x300, bc := 0x10010 }, io := [(0x10, 0x77)] })).map fun t => (t.bank.hl, t.bank.bc, memRead .byte 0x300 t, t.f, t.pc)) =
      some (0x301, 0x10, 0x77, 0x40, 0x102) := by decide

/-- IND.B (R375) -/
theorem test_ind_1 :
    ((after ({ at100 [0xE, 0x34] with bank := { Bank.zero with hl := 0x300, bc := 0x20010 }, io := [(0x10, 0x77)] })).map fun t => (t.bank.hl, t.bank.bc, memRead .byte 0x300 t, t.f, t.pc)) =
      some (0x2FF, 0x10010, 0x77, 0x0, 0x102) := by decide

/-- INDR.W (R377) -/
theorem test_indr_1 :
    ((after ({ at100 [0xE, 0x3D] with bank := { Bank.zero with hl := 0x400, bc := 0x10020 }, io := [(0x20, 0x11), (0x21, 0x22)] })).map fun t => (t.bank.hl, t.bank.bc, memRead .word 0x400 t, t.f, t.pc)) =
      some (0x3FE, 0x20, 0x2211, 0x40, 0x102) := by decide

/-- OUTI.B (R378) -/
theorem test_outi_1 :
    ((after ({ holding 0x300 [0x77] (at100 [0xE, 0x40]) with bank := { Bank.zero with hl := 0x300, bc := 0x10010 } })).map fun t => (t.bank.hl, t.bank.bc, t.io.read 0x10, t.f, t.pc)) =
      some (0x301, 0x10, 0x77, 0x40, 0x102) := by decide

/-- OUTD.D (R379) -/
theorem test_outd_1 :
    ((after ({ holding 0x300 [0x78, 0x56, 0x34, 0x12] (at100 [0xE, 0x46]) with bank := { Bank.zero with hl := 0x300, bc := 0x30010 } })).map fun t => (t.bank.hl, t.bank.bc, t.io.read 0x10, t.io.read 0x11, t.io.read 0x12, t.io.read 0x13, t.f, t.pc)) =
      some (0x2FC, 0x20010, 0x78, 0x56, 0x34, 0x12, 0x0, 0x102) := by decide

/-! ## Stack and control transfer (95_test_vectors.md 2.7) -/

/-- POP.D DE (R393) -/
theorem test_popUR_1 :
    ((after ({ holding 0xFFC [0x44, 0x33, 0x22, 0x11] (at100 [0x2, 0x66]) with sp := 0xFFC })).map fun t => (t.sp, t.bank.de, t.f, t.pc)) =
      some (0x1000, 0x11223344, 0x0, 0x102) := by decide

/-- PUSH.D SP (R392) -/
theorem test_pushUR_1 :
    ((after ({ at100 [0x2, 0x4E] with sp := 0x1000 })).map fun t => (t.sp, memRead .dword 0xFFC t, t.f, t.pc)) =
      some (0xFFC, 0x1000, 0x0, 0x102) := by decide

/-- POP.D SP (R393) -/
theorem test_popUR_2 :
    ((after ({ holding 0xFFC [0x0, 0x50, 0x0, 0x0] (at100 [0x2, 0x6E]) with sp := 0xFFC })).map fun t => (t.sp, t.f, t.pc)) =
      some (0x5000, 0x0, 0x102) := by decide

/-- PUSH.D BC (R392, R391) -/
theorem test_pushUR_2 :
    ((after ({ at100 [0x2, 0x42] with bank := { Bank.zero with bc := 0xAABBCCDD }, sp := 0x0 })).map fun t => (t.sp, t.bank.bc, memRead .dword 0xFFFFFFFC t, t.f, t.pc)) =
      some (0xFFFFFFFC, 0xAABBCCDD, 0xAABBCCDD, 0x0, 0x102) := by decide

/-- JP Z, 0x1000 (R400) -/
theorem test_jp_1 :
    ((after ({ at100 [0xA, 0xE2, 0x0, 0x10, 0x0, 0x0] with f := 0x40 })).map fun t => (t.f, t.pc)) =
      some (0x40, 0x1000) := by decide

/-- JP Z, 0x1000 (R400, R394) -/
theorem test_jp_2 :
    ((after ({ at100 [0xA, 0xE2, 0x0, 0x10, 0x0, 0x0] with f := 0x0 })).map fun t => (t.f, t.pc)) =
      some (0x0, 0x106) := by decide

/-- JR_s8 -3 (R401) -/
theorem test_jrS8_1 :
    ((after ((at100 [0x1A, 0xF0, 0xFD]))).map fun t => (t.f, t.pc)) =
      some (0x0, 0x100) := by decide

/-- JR_s8 A (R401) -/
theorem test_jrS8_2 :
    ((after ({ at100 [0x1A, 0xD0] with bank := { Bank.zero with a := 0x80 } })).map fun t => (t.bank.a, t.f, t.pc)) =
      some (0x80, 0x0, 0x82) := by decide

/-- JR -4 (R402) -/
theorem test_jr_1 :
    ((after ((at100 [0x2A, 0xF0, 0xFC, 0xFF]))).map fun t => (t.f, t.pc)) =
      some (0x0, 0x100) := by decide

/-- CALL 0x2000 (R403) -/
theorem test_call_1 :
    ((after ({ at100 [0x3A, 0xF0, 0x0, 0x20, 0x0, 0x0] with sp := 0x1000 })).map fun t => (t.sp, memRead .dword 0xFFC t, t.f, t.pc)) =
      some (0xFFC, 0x106, 0x0, 0x2000) := by decide

/-- CALL NC, 0x2000 (R403, R394) -/
theorem test_call_2 :
    ((after ({ at100 [0x3A, 0xE4, 0x0, 0x20, 0x0, 0x0] with sp := 0x1000, f := 0x1 })).map fun t => (t.sp, t.f, t.pc)) =
      some (0x1000, 0x1, 0x106) := by decide

/-- CALLR_s8 0x10 (R404) -/
theorem test_callrS8_1 :
    ((after ({ at100 [0x4A, 0xF0, 0x10] with sp := 0x1000 })).map fun t => (t.sp, memRead .dword 0xFFC t, t.f, t.pc)) =
      some (0xFFC, 0x103, 0x0, 0x113) := by decide

/-- CALLR -0x100 (R405) -/
theorem test_callr_1 :
    ((after ({ placedAt 0x1000 [0x5A, 0xF0, 0x0, 0xFF] with sp := 0x8000 })).map fun t => (t.sp, memRead .dword 0x7FFC t, t.f, t.pc)) =
      some (0x7FFC, 0x1004, 0x0, 0xF04) := by decide

/-- RET (R406) -/
theorem test_ret_1 :
    ((after ({ holding 0xFFC [0x6, 0x1, 0x0, 0x0] (at100 [0x6A, 0x10]) with sp := 0xFFC })).map fun t => (t.sp, t.f, t.pc)) =
      some (0x1000, 0x0, 0x106) := by decide

/-- RET NZ (R406, R394) -/
theorem test_ret_2 :
    ((after ({ holding 0xFFC [0x6, 0x1, 0x0, 0x0] (at100 [0x6A, 0x0]) with sp := 0xFFC, f := 0x40 })).map fun t => (t.sp, t.f, t.pc)) =
      some (0xFFC, 0x40, 0x102) := by decide

/-- RETI (R407) -/
theorem test_reti_1 :
    ((after ({ holding 0xFFC [0x6, 0x1, 0x0, 0x0] (at100 [0x7A, 0x10]) with sp := 0xFFC })).map fun t => (t.sp, t.f, t.pc)) =
      some (0x1000, 0x0, 0x106) := by decide

/-- RETN (R408) -/
theorem test_retn_1 :
    ((after ({ holding 0xFFC [0x6, 0x1, 0x0, 0x0] (at100 [0x8A, 0x10]) with iff2 := 0x1, sp := 0xFFC, f := 0x0 })).map fun t => (t.iff2, t.sp, t.f, t.pc)) =
      some (0x1, 0x1000, 0x20, 0x106) := by decide

/-- RST 0x38 (R410) -/
theorem test_rst_1 :
    ((after ({ placedAt 0x200 [0x2E, 0x0, 0x38] with sp := 0x1000 })).map fun t => (t.sp, memRead .dword 0xFFC t, t.f, t.pc)) =
      some (0xFFC, 0x203, 0x0, 0x38) := by decide

/-- DJNZ -10 (R411) -/
theorem test_djnz_1 :
    ((after ({ placedAt 0x12 [0x6F, 0x1F] with bank := { Bank.zero with bc := 0xA0000 } })).map fun t => (t.bank.bc, t.f, t.pc)) =
      some (0x90000, 0x0, 0xA) := by decide

/-- DJNZ -10 (R411) -/
theorem test_djnz_2 :
    ((after ({ at100 [0x6F, 0x1F] with bank := { Bank.zero with bc := 0x15555 } })).map fun t => (t.bank.bc, t.f, t.pc)) =
      some (0x5555, 0x0, 0x102) := by decide

/-- JANZ 4 (R412) -/
theorem test_janz_1 :
    ((after ({ at100 [0x4F, 0x20] with bank := { Bank.zero with a := 0x100 } })).map fun t => (t.bank.a, t.f, t.pc)) =
      some (0x100, 0x0, 0x106) := by decide

/-- JANZ 4 (R412) -/
theorem test_janz_2 :
    ((after ({ at100 [0x4F, 0x20] with bank := { Bank.zero with a := 0x0 } })).map fun t => (t.bank.a, t.f, t.pc)) =
      some (0x0, 0x0, 0x102) := by decide

/-! ## Load, exchange, I/O and system (95_test_vectors.md 2.8) -/

/-- LD.B L, 0 (R430) -/
theorem test_ldR_1 :
    ((after ({ at100 [0x0, 0xF4, 0x0] with bank := { Bank.zero with hl := 0xFFFFFFFF } })).map fun t => (t.bank.hl, t.f, t.pc)) =
      some (0xFFFFFF00, 0x0, 0x103) := by decide

/-- LD.D A, (IX+8) (R430) -/
theorem test_ldRM_1 :
    ((after ({ holding 0x1008 [0x78, 0x56, 0x34, 0x12] (at100 [0x81, 0x9A, 0x8, 0x0]) with bank := { Bank.zero with ix := 0x1000 } })).map fun t => (t.bank.ix, t.bank.a, t.f, t.pc)) =
      some (0x1000, 0x12345678, 0x0, 0x104) := by decide

/-- LD.W (0x00001000), 0x1234 (R430) -/
theorem test_ldRM_2 :
    ((after ((at100 [0x1, 0xFD, 0x0, 0x10, 0x0, 0x0, 0x34, 0x12]))).map fun t => (memRead .word 0x1000 t, t.f, t.pc)) =
      some (0x1234, 0x0, 0x108) := by decide

/-- EX.W B, C (R431) -/
theorem test_exR_1 :
    ((after ({ at100 [0x4, 0x21] with bank := { Bank.zero with bc := 0x11112222 } })).map fun t => (t.bank.bc, t.f, t.pc)) =
      some (0x22221111, 0x0, 0x102) := by decide

/-- EX.B A, (HL) (R431) -/
theorem test_exRM_1 :
    ((after ({ holding 0x2000 [0x22] (at100 [0x85, 0x58]) with bank := { Bank.zero with hl := 0x2000, a := 0x11 } })).map fun t => (t.bank.hl, t.bank.a, memRead .byte 0x2000 t, t.f, t.pc)) =
      some (0x2000, 0x22, 0x11, 0x0, 0x102) := by decide

/-- IN.B A, (BC) (R434) -/
theorem test_inRM_1 :
    ((after ({ at100 [0xD5, 0x18] with bank := { Bank.zero with bc := 0x10 }, io := [(0x10, 0x77)] })).map fun t => (t.bank.bc, t.bank.a, t.f, t.pc)) =
      some (0x10, 0x77, 0x0, 0x102) := by decide

/-- OUT.B (BC), A (R435) -/
theorem test_outRM_1 :
    ((after ({ at100 [0x55, 0x18] with bank := { Bank.zero with bc := 0x10, a := 0x77 } })).map fun t => (t.bank.bc, t.bank.a, t.io.read 0x10, t.f, t.pc)) =
      some (0x10, 0x77, 0x77, 0x0, 0x102) := by decide

/-- OUT.W (0x00000020), 0xBEEF (R435) -/
theorem test_outRM_2 :
    ((after ((at100 [0x55, 0xFD, 0x20, 0x0, 0x0, 0x0, 0xEF, 0xBE]))).map fun t => (t.io.read 0x20, t.io.read 0x21, t.f, t.pc)) =
      some (0xEF, 0xBE, 0x0, 0x108) := by decide

/-- EX_Alt.D HL (R440) -/
theorem test_exAltUR_1 :
    ((after ({ at100 [0x2, 0xA] with bank := { Bank.zero with hl := 0x1 }, alt := { Bank.zero with hl := 0x2 } })).map fun t => (t.bank.hl, t.alt.hl, t.f, t.pc)) =
      some (0x2, 0x1, 0x0, 0x102) := by decide

/-- EX_Alt.B B (R440) -/
theorem test_exAltUR_2 :
    ((after ({ at100 [0x2, 0x0] with bank := { Bank.zero with bc := 0x11223344 }, alt := { Bank.zero with bc := 0xAABBCCDD } })).map fun t => (t.bank.bc, t.alt.bc, t.f, t.pc)) =
      some (0x11BB3344, 0xAA22CCDD, 0x0, 0x102) := by decide

/-- EXX (R441) -/
theorem test_exx_1 :
    ((after ({ at100 [0x1E, 0x0] with bank := { Bank.zero with bc := 0x1, de := 0x3, hl := 0x5 }, alt := { Bank.zero with bc := 0x2, de := 0x4, hl := 0x6 } })).map fun t => (t.bank.bc, t.alt.bc, t.bank.de, t.alt.de, t.bank.hl, t.alt.hl, t.f, t.pc)) =
      some (0x2, 0x1, 0x4, 0x3, 0x6, 0x5, 0x0, 0x102) := by decide

/-- EXI (R442) -/
theorem test_exi_1 :
    ((after ({ at100 [0x1E, 0x1] with bank := { Bank.zero with ix := 0x100 }, alt := { Bank.zero with ix := 0x200 } })).map fun t => (t.bank.ix, t.alt.ix, t.f, t.pc)) =
      some (0x200, 0x100, 0x0, 0x102) := by decide

/-- LD_I_NN 0x8000 (R450) -/
theorem test_ldINN_1 :
    ((after ((at100 [0x4E, 0x0, 0x0, 0x80, 0x0, 0x0]))).map fun t => (t.i, t.f, t.pc)) =
      some (0x8000, 0x0, 0x106) := by decide

/-- LD_R_A (R451) -/
theorem test_ldRA_1 :
    ((after ({ at100 [0x4E, 0x1] with bank := { Bank.zero with a := 0x12345678 } })).map fun t => (t.bank.a, t.r, t.f, t.pc)) =
      some (0x12345678, 0x78, 0x0, 0x102) := by decide

/-- LD_A_R (R452) -/
theorem test_ldAR_1 :
    ((after ({ at100 [0x4E, 0x2] with bank := { Bank.zero with a := 0xFFFFFFFF }, r := 0x78 })).map fun t => (t.r, t.bank.a, t.f, t.pc)) =
      some (0x78, 0xFFFFFF78, 0x0, 0x102) := by decide

/-- NOP (R460) -/
theorem test_nop_1 :
    ((after ((at100 [0xF, 0x0]))).map fun t => (t.f, t.pc)) =
      some (0x0, 0x102) := by decide

/-- HALT (at 0x40) (R461) -/
theorem test_halt_1 :
    ((after ((placedAt 0x40 [0x4E, 0x3]))).map fun t => (t.halted, t.f, t.pc)) =
      some (true, 0x0, 0x42) := by decide

/-! ## The first step of a repeating form (95_test_vectors.md 1.5, 2.6): PC is back at 0x100 -/

/-- LDIR.B, first of 3 (R364) -/
theorem test_ldir_1 :
    ((after ({ holding 0x200 [0x1, 0x2, 0x3] (at100 [0xE, 0x8]) with bank := { Bank.zero with hl := 0x200, de := 0x300, bc := 0x3 } })).map fun t => (t.bank.hl, t.bank.de, t.bank.bc, memRead .byte 0x300 t, t.f, t.pc)) =
      some (0x201, 0x301, 0x2, 0x1, 0x4, 0x100) := by decide

/-- LDIR.B with BC = 0: the decremented BC wraps to nonzero (R361) -/
theorem test_ldir_2 :
    ((after ({ at100 [0xE, 0x8] with bank := { Bank.zero with hl := 0x200, de := 0x300, bc := 0x0 } })).map fun t => (t.bank.hl, t.bank.de, t.bank.bc, t.f, t.pc)) =
      some (0x201, 0x301, 0xFFFFFFFF, 0x4, 0x100) := by decide

/-- LDDR.B, first of 3 (R365) -/
theorem test_lddr_1 :
    ((after ({ holding 0x200 [0x1, 0x2, 0x3] (at100 [0xE, 0xC]) with bank := { Bank.zero with hl := 0x202, de := 0x302, bc := 0x3 } })).map fun t => (t.bank.hl, t.bank.de, t.bank.bc, memRead .byte 0x302 t, t.f, t.pc)) =
      some (0x201, 0x301, 0x2, 0x3, 0x4, 0x100) := by decide

/-- CPIR.B, the match does not stop it (R368) -/
theorem test_cpir_1 :
    ((after ({ holding 0x201 [0x0] (at100 [0xE, 0x18]) with bank := { Bank.zero with a := 0x0, hl := 0x201, bc := 0x2 } })).map fun t => (t.bank.a, t.bank.hl, t.bank.bc, t.f, t.pc)) =
      some (0x0, 0x202, 0x1, 0x46, 0x100) := by decide

/-- TSIR.B, first of 2 (R372) -/
theorem test_tsir_1 :
    ((after ({ holding 0x200 [0x1, 0x2] (at100 [0xE, 0x28]) with bank := { Bank.zero with a := 0x1, hl := 0x200, bc := 0x2 } })).map fun t => (t.bank.a, t.bank.hl, t.bank.bc, t.f, t.pc)) =
      some (0x1, 0x201, 0x1, 0x4, 0x100) := by decide

/-- INIR.B, first of 2 (R376) -/
theorem test_inir_1 :
    ((after ({ at100 [0xE, 0x38] with bank := { Bank.zero with hl := 0x300, bc := 0x20010 }, io := [(0x10, 0x77)] })).map fun t => (t.bank.hl, t.bank.bc, memRead .byte 0x300 t, t.f, t.pc)) =
      some (0x301, 0x10010, 0x77, 0x0, 0x100) := by decide

/-- OUTIR.B, first of 3 (R380) -/
theorem test_outir_1 :
    ((after ({ holding 0x300 [0x1] (at100 [0xE, 0x48]) with bank := { Bank.zero with hl := 0x300, bc := 0x30010 } })).map fun t => (t.bank.hl, t.bank.bc, t.io.read 0x10, t.f, t.pc)) =
      some (0x301, 0x20010, 0x1, 0x0, 0x100) := by decide

/-- OUTDR.B, first of 2 (R381) -/
theorem test_outdr_1 :
    ((after ({ holding 0x300 [0xAA, 0xBB] (at100 [0xE, 0x4C]) with bank := { Bank.zero with hl := 0x301, bc := 0x20010 } })).map fun t => (t.bank.hl, t.bank.bc, t.io.read 0x10, t.f, t.pc)) =
      some (0x300, 0x10010, 0xBB, 0x0, 0x100) := by decide

/-! ## DAA (95_test_vectors.md 1.4) -/

/-- after 0x15 + 0x27 (R330) -/
theorem test_daa_1 :
    ((after ({ at100 [0x3E, 0x0] with bank := { Bank.zero with a := 0x3C } })).map fun t => (t.bank.a, t.f, t.pc)) =
      some (0x42, 0x14, 0x102) := by decide

/-- after 0x42 - 0x15 (R330) -/
theorem test_daa_2 :
    ((after ({ at100 [0x3E, 0x0] with bank := { Bank.zero with a := 0x2D }, f := 0x12 })).map fun t => (t.bank.a, t.f, t.pc)) =
      some (0x27, 0x6, 0x102) := by decide

/-! ## The rows of format RM not yet met: the vectors of format R with operand 1 in memory at HL -/

/-- ADC.W (HL), 0x0: the values of 95_test_vectors.md's ADC.W -/
theorem test_adcRM_1 :
    ((after ({ holding 0x2000 [0xFF, 0xFF] (at100 [0xD, 0x5D, 0x0, 0x0]) with bank := { Bank.zero with hl := 0x2000 }, f := 0x1 })).map fun t => (t.bank.hl, memRead .word 0x2000 t, t.f, t.pc)) =
      some (0x2000, 0x0, 0x41, 0x104) := by decide

/-- SBC.B (HL), 0x1: the values of 95_test_vectors.md's SBC.B -/
theorem test_sbcRM_1 :
    ((after ({ holding 0x2000 [0x0] (at100 [0x15, 0x5C, 0x1]) with bank := { Bank.zero with hl := 0x2000 }, f := 0x1 })).map fun t => (t.bank.hl, memRead .byte 0x2000 t, t.f, t.pc)) =
      some (0x2000, 0xFE, 0x93, 0x103) := by decide

/-- CP.B (HL), 0x80: the values of 95_test_vectors.md's CP.B -/
theorem test_cpRM_1 :
    ((after ({ holding 0x2000 [0x7F] (at100 [0x19, 0x5C, 0x80]) with bank := { Bank.zero with hl := 0x2000 } })).map fun t => (t.bank.hl, memRead .byte 0x2000 t, t.f, t.pc)) =
      some (0x2000, 0x7F, 0x87, 0x103) := by decide

/-- AND.B (HL), 0xF: the values of 95_test_vectors.md's AND.B -/
theorem test_andRM_1 :
    ((after ({ holding 0x2000 [0x5A] (at100 [0x1D, 0x5C, 0xF]) with bank := { Bank.zero with hl := 0x2000 } })).map fun t => (t.bank.hl, memRead .byte 0x2000 t, t.f, t.pc)) =
      some (0x2000, 0xA, 0x14, 0x103) := by decide

/-- OR.W (HL), 0x8001: the values of 95_test_vectors.md's OR.W -/
theorem test_orRM_1 :
    ((after ({ holding 0x2000 [0x0, 0x1] (at100 [0x21, 0x5D, 0x1, 0x80]) with bank := { Bank.zero with hl := 0x2000 } })).map fun t => (t.bank.hl, memRead .word 0x2000 t, t.f, t.pc)) =
      some (0x2000, 0x8101, 0x80, 0x104) := by decide

/-- XOR.D (HL), 0x1234: the values of 95_test_vectors.md's XOR.D -/
theorem test_xorRM_1 :
    ((after ({ holding 0x2000 [0x34, 0x12, 0x0, 0x0] (at100 [0x25, 0x5E, 0x34, 0x12, 0x0, 0x0]) with bank := { Bank.zero with hl := 0x2000 } })).map fun t => (t.bank.hl, memRead .dword 0x2000 t, t.f, t.pc)) =
      some (0x2000, 0x0, 0x44, 0x106) := by decide

/-- TST.B (HL), 0x80: the values of 95_test_vectors.md's TST.B -/
theorem test_tstRM_1 :
    ((after ({ holding 0x2000 [0x7F] (at100 [0x29, 0x5C, 0x80]) with bank := { Bank.zero with hl := 0x2000 } })).map fun t => (t.bank.hl, memRead .byte 0x2000 t, t.f, t.pc)) =
      some (0x2000, 0x7F, 0x44, 0x103) := by decide

/-- BIT.B (HL), 0x7: the values of 95_test_vectors.md's BIT.B -/
theorem test_bitRM_1 :
    ((after ({ holding 0x2000 [0x7F] (at100 [0x2D, 0x5C, 0x7]) with bank := { Bank.zero with hl := 0x2000 } })).map fun t => (t.bank.hl, memRead .byte 0x2000 t, t.f, t.pc)) =
      some (0x2000, 0x7F, 0x40, 0x103) := by decide

/-- SET.W (HL), 0xF: the values of 95_test_vectors.md's SET.W -/
theorem test_setRM_1 :
    ((after ({ holding 0x2000 [0x1, 0x0] (at100 [0x31, 0x5D, 0xF, 0x0]) with bank := { Bank.zero with hl := 0x2000 } })).map fun t => (t.bank.hl, memRead .word 0x2000 t, t.f, t.pc)) =
      some (0x2000, 0x8001, 0x0, 0x104) := by decide

/-- RES.D (HL), 0x1F: the values of 95_test_vectors.md's RES.D -/
theorem test_resRM_1 :
    ((after ({ holding 0x2000 [0xFF, 0xFF, 0xFF, 0xFF] (at100 [0x35, 0x5E, 0x1F, 0x0, 0x0, 0x0]) with bank := { Bank.zero with hl := 0x2000 } })).map fun t => (t.bank.hl, memRead .dword 0x2000 t, t.f, t.pc)) =
      some (0x2000, 0x7FFFFFFF, 0x0, 0x106) := by decide

/-- RLC.B (HL), 0x1: the values of 95_test_vectors.md's RLC.B -/
theorem test_rlcRM_1 :
    ((after ({ holding 0x2000 [0x81] (at100 [0x39, 0x5C, 0x1]) with bank := { Bank.zero with hl := 0x2000 } })).map fun t => (t.bank.hl, memRead .byte 0x2000 t, t.f, t.pc)) =
      some (0x2000, 0x3, 0x5, 0x103) := by decide

/-- RRC.B (HL), 0x1: the values of 95_test_vectors.md's RRC.B -/
theorem test_rrcRM_1 :
    ((after ({ holding 0x2000 [0x1] (at100 [0x3D, 0x5C, 0x1]) with bank := { Bank.zero with hl := 0x2000 } })).map fun t => (t.bank.hl, memRead .byte 0x2000 t, t.f, t.pc)) =
      some (0x2000, 0x80, 0x81, 0x103) := by decide

/-- RL.B (HL), 0x9: the values of 95_test_vectors.md's RL.B -/
theorem test_rlRM_1 :
    ((after ({ holding 0x2000 [0x5A] (at100 [0x41, 0x5C, 0x9]) with bank := { Bank.zero with hl := 0x2000 }, f := 0x1 })).map fun t => (t.bank.hl, memRead .byte 0x2000 t, t.f, t.pc)) =
      some (0x2000, 0x5A, 0x5, 0x103) := by decide

/-- RR.W (HL), 0x1: the values of 95_test_vectors.md's RR.W -/
theorem test_rrRM_1 :
    ((after ({ holding 0x2000 [0x1, 0x0] (at100 [0x45, 0x5D, 0x1, 0x0]) with bank := { Bank.zero with hl := 0x2000 }, f := 0x1 })).map fun t => (t.bank.hl, memRead .word 0x2000 t, t.f, t.pc)) =
      some (0x2000, 0x8000, 0x81, 0x104) := by decide

/-- SLA.B (HL), 0x9: the values of 95_test_vectors.md's SLA.B -/
theorem test_slaRM_1 :
    ((after ({ holding 0x2000 [0xFF] (at100 [0x49, 0x5C, 0x9]) with bank := { Bank.zero with hl := 0x2000 } })).map fun t => (t.bank.hl, memRead .byte 0x2000 t, t.f, t.pc)) =
      some (0x2000, 0x0, 0x44, 0x103) := by decide

/-- SRA.B (HL), 0xC8: the values of 95_test_vectors.md's SRA.B -/
theorem test_sraRM_1 :
    ((after ({ holding 0x2000 [0x80] (at100 [0x4D, 0x5C, 0xC8]) with bank := { Bank.zero with hl := 0x2000 } })).map fun t => (t.bank.hl, memRead .byte 0x2000 t, t.f, t.pc)) =
      some (0x2000, 0xFF, 0x85, 0x103) := by decide

/-- SRL.D (HL), 0x4: the values of 95_test_vectors.md's SRL.D -/
theorem test_srlRM_1 :
    ((after ({ holding 0x2000 [0x1F, 0x0, 0x0, 0x0] (at100 [0x51, 0x5E, 0x4, 0x0, 0x0, 0x0]) with bank := { Bank.zero with hl := 0x2000 } })).map fun t => (t.bank.hl, memRead .dword 0x2000 t, t.f, t.pc)) =
      some (0x2000, 0x1, 0x1, 0x106) := by decide

/-! ## The rows of format UM: the vectors of format UR with the operand in memory -/

/-- EXH.W (HL) -/
theorem test_exhUM_1 :
    ((after ({ holding 0x2000 [0x34, 0x12] (at100 [0x6, 0x29]) with bank := { Bank.zero with hl := 0x2000 } })).map fun t => (t.bank.hl, memRead .word 0x2000 t, t.f, t.pc)) =
      some (0x2000, 0x3412, 0x0, 0x102) := by decide

/-- INC.D (HL) -/
theorem test_incUM_1 :
    ((after ({ holding 0x2000 [0xFF, 0xFF, 0xFF, 0x7F] (at100 [0x6, 0x8A]) with bank := { Bank.zero with hl := 0x2000 } })).map fun t => (t.bank.hl, memRead .dword 0x2000 t, t.f, t.pc)) =
      some (0x2000, 0x80000000, 0x84, 0x102) := by decide

/-- DEC.B (HL) -/
theorem test_decUM_1 :
    ((after ({ holding 0x2000 [0x0] (at100 [0x6, 0xA8]) with bank := { Bank.zero with hl := 0x2000 } })).map fun t => (t.bank.hl, memRead .byte 0x2000 t, t.f, t.pc)) =
      some (0x2000, 0xFF, 0x93, 0x102) := by decide

/-- NEG.B (HL) -/
theorem test_negUM_1 :
    ((after ({ holding 0x2000 [0x80] (at100 [0x6, 0xC8]) with bank := { Bank.zero with hl := 0x2000 } })).map fun t => (t.bank.hl, memRead .byte 0x2000 t, t.f, t.pc)) =
      some (0x2000, 0x80, 0x87, 0x102) := by decide

/-- EXT.W (HL) -/
theorem test_extUM_1 :
    ((after ({ holding 0x2000 [0x80, 0x12] (at100 [0x6, 0xE9]) with bank := { Bank.zero with hl := 0x2000 } })).map fun t => (t.bank.hl, memRead .word 0x2000 t, t.f, t.pc)) =
      some (0x2000, 0xFF80, 0x0, 0x102) := by decide

/-- MLT.W (HL) -/
theorem test_mltUM_1 :
    ((after ({ holding 0x2000 [0xA, 0xC] (at100 [0x16, 0x9]) with bank := { Bank.zero with hl := 0x2000 } })).map fun t => (t.bank.hl, memRead .word 0x2000 t, t.f, t.pc)) =
      some (0x2000, 0x78, 0x0, 0x102) := by decide

/-- DIV.W (HL) -/
theorem test_divUM_1 :
    ((after ({ holding 0x2000 [0x7, 0x64] (at100 [0x16, 0x29]) with bank := { Bank.zero with hl := 0x2000 }, f := 0x4 })).map fun t => (t.bank.hl, memRead .word 0x2000 t, t.f, t.pc)) =
      some (0x2000, 0x20E, 0x0, 0x102) := by decide

/-- DIV.W (HL) -/
theorem test_divUM_2 :
    ((after ({ holding 0x2000 [0x0, 0x64] (at100 [0x16, 0x29]) with bank := { Bank.zero with hl := 0x2000 } })).map fun t => (t.bank.hl, memRead .word 0x2000 t, t.f, t.pc)) =
      some (0x2000, 0x6400, 0x4, 0x102) := by decide

/-- SDIV.W (HL) -/
theorem test_sdivUM_1 :
    ((after ({ holding 0x2000 [0xFF, 0x80] (at100 [0x16, 0x49]) with bank := { Bank.zero with hl := 0x2000 }, f := 0x4 })).map fun t => (t.bank.hl, memRead .word 0x2000 t, t.f, t.pc)) =
      some (0x2000, 0x80, 0x0, 0x102) := by decide

/-- CPL.B (HL) -/
theorem test_cplUM_1 :
    ((after ({ holding 0x2000 [0xF] (at100 [0x16, 0x68]) with bank := { Bank.zero with hl := 0x2000 } })).map fun t => (t.bank.hl, memRead .byte 0x2000 t, t.f, t.pc)) =
      some (0x2000, 0xF0, 0x84, 0x102) := by decide

/-- PUSH.D (SP+4): the operand is read before SP moves (R392) -/
theorem test_pushUM_1 :
    ((after ({ holding 0x1004 [0x44, 0x33, 0x22, 0x11] (at100 [0x6, 0x4E, 0x4, 0x0]) with sp := 0x1000 })).map fun t => (t.sp, memRead .dword 0xFFC t, t.f, t.pc)) =
      some (0xFFC, 0x11223344, 0x0, 0x104) := by decide

/-- POP.D (SP+4): the address is formed from the incremented SP (R393) -/
theorem test_popUM_1 :
    ((after ({ holding 0x1000 [0x44, 0x33, 0x22, 0x11] (at100 [0x6, 0x6E, 0x4, 0x0]) with sp := 0x1000 })).map fun t => (t.sp, memRead .dword 0x1008 t, t.f, t.pc)) =
      some (0x1004, 0x11223344, 0x0, 0x104) := by decide

/-- EX.D HL, (HL): the address of the memory write is formed after the register is written (20_memory.md R83, R431). -/
theorem test_exRM_2 :
    ((after (holding 0x2000 [0x00, 0x30] ({ at100 [0x85, 0x4A] with bank := { Bank.zero with hl := 0x2000 } }))).map
      fun t => (t.bank.hl, memRead .dword 0x3000 t, memRead .dword 0x2000 t)) = some (0x3000, 0x2000, 0x3000) := by decide

/-! ## Devices on the buses (20_memory.md R70, R71, R79; 92_eei_decisions.md D9, D10; log entries 2 and 3)

The byte at 0x2000 of each bus is a device's, the byte at 0x2001 is RAM. -/

/-- A state with that device map, HL and BC at 0x2000, and 0x34 in the RAM of both buses at 0x2001. -/
def deviceState : State :=
  { State.reset with
    bank := { Bank.zero with a := 0x77, hl := 0x2000, bc := 0x2000 }
    mem := [(0x2001, 0x34)]
    io := [(0x2001, 0x34)]
    devices := { mem := [{ base := 0x2000, size := 1 }], io := [{ base := 0x2000, size := 1 }] } }

/-- LD.W A, (HL): the operand is the device's answer below the RAM byte; the device has seen one read. -/
theorem test_device_memory_read :
    readOp .word (.place (.mem (.ind .r2 none))) deviceState = (0x34 : Byte) ++ Config.deviceAnswer [] .mem 0x2000 ∧
    ((did (.ldRM .word (.load .r6 (.ind .r2 none))) deviceState).map fun t => t.transfers) = some [.read .mem 0x2000] :=
  ⟨by rfl, by rfl⟩

/-- The same read again is answered after the first one: no address is taken to be idempotent (R79). -/
theorem test_device_memory_read_again :
    ((did (.cpRM .byte (.load .r6 (.ind .r2 none))) deviceState).map fun t => readOp .byte (.place (.mem (.ind .r2 none))) t) =
      some (Config.deviceAnswer [.read .mem 0x2000] .mem 0x2000) := by rfl

/-- LD.W (HL), A: the device sees its byte, RAM takes the other; nothing is stored at the device's address. -/
theorem test_device_memory_write :
    ((did (.ldRM .word (.store (.ind .r2 none) (.reg .r6))) deviceState).map fun t => (t.mem, t.transfers)) =
      some ([], [.write .mem 0x2000 0x77]) := by decide

/-- INC.B (HL): one read, then one write of the answer plus 1 (R79). -/
theorem test_device_read_modify_write :
    ((did (.incUM .byte (.ind .r2 none)) deviceState).map fun t => t.transfers) =
      some [.write .mem 0x2000 (byteOf (addResult (Config.deviceAnswer [] .mem 0x2000) 1 false) 0), .read .mem 0x2000] := by rfl

/-- IN.B A, (BC) and OUT.W (BC), A on a device of the I/O bus. -/
theorem test_device_io :
    ioRead .byte 0x2000 deviceState = Config.deviceAnswer [] .io 0x2000 ∧
    ((did (.inRM .byte .r6 (.ind .r0 none)) deviceState).map fun t => t.transfers) = some [.read .io 0x2000] ∧
    ((did (.outRM .word (.ind .r0 none) (.reg .r6)) deviceState).map fun t => (t.io, t.transfers)) =
      some ([], [.write .io 0x2000 0x77]) := ⟨by rfl, by rfl, by decide⟩

/-- Instruction bytes are fetched from the same bus: each fetched once, the second after the first; an encoding error has fetched
the base word alone (30_encoding.md R165, 60_exceptions.md R501). -/
theorem test_device_fetch :
    let s : State := { deviceState with pc := 0x2000, devices := { mem := [{ base := 0x2000, size := 8 }], io := [] } }
    fetchByte s 1 = Config.deviceAnswer [.read .mem 0x2000] .mem 0x2001 ∧
    (raiseDecodeError .op s).transfers = [.read .mem 0x2001, .read .mem 0x2000] := ⟨by rfl, by rfl⟩

/-! ## Errors (95_test_vectors.md 2.8 and 3) -/

/-- EX.B A, 5 records WriteToImmediate and changes nothing else (R431, R503). -/
theorem test_exR_immediate :
    let s : State := { at100 [0x04, 0xF8, 0x05] with bank := { Bank.zero with a := 1 } }
    after s = some { s with
      fault := some { error := .contractViolation .writeToImmediate, base := 0x100, word := 0xF804 } } := by decide

/-- The decode-error vectors of section 3: base word and field. -/
def errorVectors : List (BaseWord × DecodeField) :=
  [(0x0003, .subgroup), (0x0054, .op), (0x0354, .op), (0x0300, .size), (0x1C00, .dst), (0x0059, .op), (0x1C81, .loadTarget),
   (0x8012, .op), (0x0006, .op), (0x1C02, .reg), (0x4102, .sizeForOp), (0xE002, .sizeForOp), (0x0E02, .noAlternate),
   (0x109A, .branchOp), (0x120A, .condition), (0x306A, .reserved), (0x005E, .family), (0x021E, .nullaryOp),
   (0x500E, .nullaryOp), (0x030E, .size), (0x300F, .singleByteOp), (0x001F, .reserved)]

/-- Every one of them ends with the fault of its field and with nothing else changed. -/
theorem test_error_vectors :
    ∀ v ∈ errorVectors,
      let s := at100 [v.1.extractLsb' 0 8, v.1.extractLsb' 8 8]
      after s = some { s with fault := some { error := .decodeError v.2, base := 0x100, word := v.1 } } := by decide

/-- The numeric codes (60_exceptions.md R501, R502). -/
theorem test_error_codes :
    [DecodeField.subgroup, .op, .branchOp, .condition, .family, .nullaryOp, .singleByteOp, .size, .reserved, .dst, .loadTarget,
      .reg, .sizeForOp, .noAlternate].map DecodeField.code = [1, 2, 3, 4, 5, 6, 7, 8, 9, 10, 11, 12, 13, 14] ∧
    [ContractKind.writeToImmediate, .operandKind, .unmappedTarget].map ContractKind.code = [1, 2, 3] := by decide

/-! ## Cycle outputs (95_test_vectors.md 4) -/

theorem test_cycles_untaken_jump :
    cycleOutput (at100 [0x0A, 0xE2, 0x00, 0x10, 0x00, 0x00]) = 9 ∧
    cycleOutput (placedAt 0x101 [0x0A, 0xE2, 0x00, 0x10, 0x00, 0x00]) = 15 := by decide
theorem test_cycles_taken_jump :
    cycleOutput { at100 [0x0A, 0xE2, 0x00, 0x10, 0x00, 0x00] with f := 0x40 } = 9 + Config.branchSurcharge .jp := by rfl
theorem test_cycles_add :
    cycleOutput (at100 [0x08, 0x18]) = 4 ∧
    cycleOutput { at100 [0x09, 0x41] with bank := { Bank.zero with hl := 0x2000 } } = 10 ∧
    cycleOutput { at100 [0x09, 0x41] with bank := { Bank.zero with hl := 0x2001 } } = 16 := by decide
theorem test_cycles_dword_surcharge :
    execCycles (.xorR .dword .r6 (.reg .r6)) State.reset = 1 + Config.dwordSurcharge := by rfl
theorem test_cycles_load_and_shift :
    cycleOutput { at100 [0x81, 0x9A, 0x08, 0x00] with bank := { Bank.zero with ix := 0x1000 } } = 13 ∧
    cycleOutput (at100 [0x38, 0xF8, 0x01]) = 8 ∧ cycleOutput (at100 [0x48, 0xF8, 0x00]) = 7 := by decide
theorem test_cycles_multiply :
    execCycles (.mltUR .word .r0) { State.reset with bank := { Bank.zero with bc := 0x0C0A0000 } } =
      1 + (16 + Config.mulDivPopCost * 4) := by rfl
theorem test_cycles_push_block_djnz :
    cycleOutput { at100 [0x02, 0x4A] with sp := 0x1000 } = 10 ∧
    cycleOutput { at100 [0x0E, 0x08] with bank := { Bank.zero with hl := 0x200, de := 0x300, bc := 2 } } = 11 ∧
    cycleOutput { at100 [0x0E, 0x08] with bank := { Bank.zero with hl := 0x200, de := 0x300, bc := 1 } } = 10 ∧
    cycleOutput (at100 [0x6F, 0x1F]) = 4 ∧ cycleOutput (at100 [0x03, 0x00]) = 0 := by decide

/-- The record of LD.D A, (IX+8) (95_test_vectors.md 1.2, 4; 00_scope.md R16). -/
theorem test_decoded_operation :
    decodedOperation (at100 [0x81, 0x9A, 0x08, 0x00]) = .ok {
      baseAddress := 0x100, opcode := [0x81, 0x9A, 0x08, 0x00], mnemonic := "LD", size := some .dword,
      instr := .ldRM .dword (.load .r6 (.ind .r4 (some 8))), condition := .always, fetchCycles := 6 } := by decide

/-! ## Reset and the host's word placing -/

/-- Reset loads PC from the vector at address 0 (70_reset_and_hazards.md R600, R602). -/
theorem test_reset_vector :
    (hostReset (holding 0 [0x00, 0x01] State.reset)).pc = 0x100 ∧ hostReset State.reset = State.reset := by decide

/-- Reset reads the vector, four bytes, from whatever is there (R600). -/
theorem test_reset_reads_a_device :
    (hostReset { State.reset with devices := { mem := [{ base := 0, size := 4 }], io := [] } }).transfers =
      [.read .mem 3, .read .mem 2, .read .mem 1, .read .mem 0] := by decide

/-- The placed instruction is the next one that runs: HALT (R461). -/
theorem test_withFetchWord_runs :
    ((after (State.reset.withFetchWord 16 0x034E)).map fun t => (t.halted, t.pc)) = some (true, 2) := by decide

/-! ## Witnesses: the hypotheses of the statements can be met together -/

theorem witness_UnaryForms_sizes :
    (fun _ : Size => true) .byte = true ∧ Size.hasHalves .word = true ∧ Size.hasHalves .dword = true ∧
    Size.isDWord .dword = true := by decide

theorem witness_ShiftClosedFormsEqualTheLoop :
    (0 < 8 ∧ 1 ≤ 1 ∧ 1 < 8) ∧ (0 < 8 ∧ 1 ≤ 7 ∧ 7 < 8) ∧ (0 < 8 ∧ 1 ≤ 8 ∧ 8 = 8) ∧ (0 < 8 ∧ 1 ≤ 9 ∧ 8 < 9) ∧ (0 < 1 ∧ 1 ≤ 1) := by
  decide

theorem witness_DaaAfterAddOrSubIsDecimal :
    let s : State := { State.reset with bank := { Bank.zero with a := 0x99 } }
    (99 < 100 ∧ 99 < 100 ∧ readReg .byte codeA s = BitVec.ofNat 8 (99 / 10 * 16 + 99 % 10)) ∧
    (0 < 100 ∧ 99 < 100 ∧ readReg .byte codeA State.reset = BitVec.ofNat 8 (0 / 10 * 16 + 0 % 10)) := by decide

theorem witness_RepeatingFormsRunTheCounter :
    let s : State := { State.reset with bank := { Bank.zero with bc := 0x00030003 } }
    (1 ≤ 1 ∧ 1 ≤ countedTimes 32 s.bank.bc.toNat) ∧
    (1 ≤ 0x30003 ∧ 0x30003 = countedTimes 32 s.bank.bc.toNat) ∧ (1 ≤ 3 ∧ 3 = countedTimes 16 (s.bank.bc.toNat / 2 ^ 16)) ∧
    (1 ≤ 2 ^ 32 ∧ 2 ^ 32 = countedTimes 32 State.reset.bank.bc.toNat) ∧
    (1 ≤ 2 ^ 16 ∧ 2 ^ 16 = countedTimes 16 (State.reset.bank.bc.toNat / 2 ^ 16)) ∧
    Instr.ldir .byte ∈ [Instr.ldir .byte, .lddr .byte, .cpir .byte, .cpdr .byte, .tsir .byte, .tsdr .byte] ∧
    Instr.outdr .byte ∈ [Instr.inir .byte, .indr .byte, .outir .byte, .outdr .byte] := by decide

/-- Boundaries of both counts: the last run of the shortest count ends the repetition. -/
theorem witness_RepeatingForms_last_run :
    ((execTimes (.ldir .byte) 1 { State.reset with bank := { Bank.zero with bc := 1 } }).map fun t => (t.bank.bc, t.pc)) =
      some (0, 2) ∧
    ((execTimes (.outdr .byte) 1 { State.reset with bank := { Bank.zero with bc := 0x10000 } }).map fun t => (t.bank.bc, t.pc)) =
      some (0, 2) := by decide

/-- Four bytes of RAM between two devices. -/
theorem witness_PushThenPopRestores :
    let s : State := { State.reset with
      sp := 0x1000, devices := { mem := [{ base := 0xFFB, size := 1 }, { base := 0x1000, size := 1 }], io := [] } }
    (∀ k, k < 4 → isDevice .mem s (byteAddr (s.sp - 4) k) = false) ∧ RegCode.r0 ≠ codeSP := by decide

/-- A device's byte, RAM on both sides of it, and addresses that wrap. -/
theorem witness_MemoryIsLittleEndian :
    (isDevice .mem deviceState 0x1FFF = false ∧ isDevice .mem deviceState 0x2000 = true ∧ isDevice .io deviceState 0x2001 = false) ∧
    (3 < Size.bytes .dword ∧ ((0xFFFFFFFF : DWord).toNat + 3) % 2 ^ 32 = 2) ∧
    ∀ k < Size.bytes .dword, 3 ≠ ((0xFFFFFFFF : DWord).toNat + k) % 2 ^ 32 := by decide

theorem witness_PopLoadsFromSp : (codeSP ≠ RegCode.r0 ∧ codeSP = RegCode.r3) ∧ (RegCode.r0 ≠ codeSP) := by decide

theorem witness_conditions_hold_and_fail :
    holds .z { State.reset with f := 0x40 } = true ∧ holds .z State.reset = false ∧ Flag.c ≠ Flag.ie := by decide

theorem witness_ExExchangesRegisters :
    ∀ x ∈ [RegCode.r0, RegCode.r1], ¬(RegName.sp = (viewSlot .word x).1 ∧ (viewSlot .word x).2 ≤ 0 ∧ 0 < (viewSlot .word x).2 + 16) := by
  decide

theorem witness_ExAltExchangesOneView :
    (viewSlot .byte .r0).1 = .banked .bc ∧ (viewSlot .dword .r6).1 = .banked .a ∧
    (¬(BankReg.bc = BankReg.bc ∧ 16 ≤ 15 ∧ 15 < 16 + 8)) ∧ ¬(BankReg.bc = BankReg.bc ∧ 16 ≤ 24 ∧ 24 < 16 + 8) := by decide

/-- An instruction across the end of the address space, with a device right after its last byte. -/
theorem witness_StoredInstructionRunsNext :
    let i : Instr := .addRM .dword (.store (.direct 0x10) (.imm 1))
    let s : State := { State.reset with pc := 0xFFFFFFFF, devices := { mem := [{ base := 9, size := 1 }], io := [] } }
    i.wf = true ∧ stopped s = false ∧ (∀ k < (encode i).length, isDevice .mem s (byteAddr s.pc k) = false) ∧
      isDevice .mem s (byteAddr s.pc 10) = true := by decide

theorem witness_DecodeEncodeRoundTrip :
    (Instr.rst 0x38).wf = true ∧
    ∀ k < (encode (.rst 0x38)).length, (fun n => (encode (.rst 0x38)).getD n 0) k = (encode (.rst 0x38)).getD k 0 := by decide

theorem witness_EncodeDecodeRoundTrip : decode (fun k => if k = 0 then 0x0F else 0) = .ok .nop := by decide

theorem witness_BaseWordDecidesLengthAndMnemonic :
    let f : Nat → Byte := fun k => if k = 0 then 0x2E else 0
    let g : Nat → Byte := fun k => if k = 0 then 0x2E else if k = 1 then 0 else 0x38
    f 0 = g 0 ∧ f 1 = g 1 ∧ decode f = .ok (.rst 0) := by decide

theorem witness_StepRunsTheDecodedInstruction :
    stopped (at100 [0x4E, 0x03]) = false ∧ decodeAtPC (at100 [0x4E, 0x03]) = .ok .halt := by decide

theorem witness_StoppedBlockTakesNoStep :
    ({ State.reset with halted := true } : State).halted = true ∧
    ({ State.reset with fault := some { error := .decodeError .op, base := 0, word := 0x54 } } : State).fault ≠ none := by decide

theorem witness_EncodingErrorsArePrecise :
    stopped (at100 [0x03, 0x00]) = false ∧ decodeAtPC (at100 [0x03, 0x00]) = .error .subgroup := by decide

theorem witness_FaultingStepsStopTheBlock :
    ((after (at100 [0x03, 0x00])).map fun t => decide (t.fault ≠ (at100 [0x03, 0x00]).fault)) = some true ∧
    ((after (at100 [0x04, 0xF8, 0x05])).map fun t => decide (t.fault ≠ (at100 [0x04, 0xF8, 0x05]).fault)) = some true := by decide

theorem witness_StepKeepsTheInvariant :
    (State.reset.mem.wf = true ∧ State.reset.io.wf = true ∧ ¬(State.reset.halted = true ∧ State.reset.fault.isSome = true) ∧
      State.reset.f.getLsbD 3 = false ∧ (State.reset.iff2 = 0 ∨ State.reset.iff2 = 1)) ∧ (after State.reset).isSome = true := by
  decide

theorem witness_InterruptEnableStaysClear :
    getFlag .ie (at100 [0x8A, 0x10]) = false ∧ (at100 [0x8A, 0x10]).iff2 = 0 ∧ (after (at100 [0x8A, 0x10])).isSome = true := by
  decide

theorem witness_SystemStateHasOneWriter :
    let s : State := { State.reset with bank := { Bank.zero with a := 1, bc := 2, ix := 3 } }
    ((did (.ldINN 1) s).map fun t => decide (t.i ≠ s.i)) = some true ∧ ((did .ldRA s).map fun t => decide (t.r ≠ s.r)) = some true ∧
    ((did .exx s).map fun t => decide (t.alt ≠ s.alt)) = some true ∧ ((did .exi s).map fun t => decide (t.alt ≠ s.alt)) = some true ∧
    ((did (.exAltUR .byte .r6) s).map fun t => decide (t.alt ≠ s.alt)) = some true ∧
    ((did .halt s).map fun t => decide (t.halted ≠ s.halted)) = some true := by decide

theorem witness_OnlyIoInstructionsTouchTheIoBus :
    ((did (.outRM .byte (.direct 0) (.reg .r6)) deviceState).map fun t => decide (t.io ≠ deviceState.io)) = some true ∧
    ((did (.inRM .byte .r6 (.ind .r0 none)) deviceState).map fun t => (t.transfers, t.transfers.any onIo)) =
      some ([.read .io 0x2000], true) := by decide

theorem witness_OtherInstructionsLeaveEveryFlag :
    (did .nop State.reset).isSome = true ∧ mnemonic .nop = "NOP" ∧
    (let s : State := { State.reset with iff2 := 1 }
     ((did (.retn .always) s).map fun t => decide (getFlag .ie t ≠ getFlag .ie s)) = some true) := by decide

theorem witness_BranchCostsFetchPlusSurcharge :
    (stopped (at100 [0x6A, 0x10]) = false ∧ decodeAtPC (at100 [0x6A, 0x10]) = .ok (.ret .always)) ∧
    decodeAtPC (at100 [0x7A, 0x10]) = .ok (.reti .always) ∧ decodeAtPC (at100 [0x8A, 0x10]) = .ok (.retn .always) ∧
    decodeAtPC (at100 [0x0A, 0x50]) = .ok (.jp .always (.reg .r2)) ∧ decodeAtPC (at100 [0x1A, 0xF0, 0xFD]) = .ok (.jrS8 .always (.imm 0xFD)) ∧
    decodeAtPC (at100 [0x2A, 0xF0, 0xFC, 0xFF]) = .ok (.jr .always (.imm 0xFFFC)) ∧
    decodeAtPC (at100 [0x3A, 0xE4, 0x00, 0x20]) = .ok (.call .nc (.imm 0x2000)) ∧
    decodeAtPC (at100 [0x4A, 0xF0, 0x10]) = .ok (.callrS8 .always (.imm 0x10)) ∧
    decodeAtPC (at100 [0x5A, 0xF0, 0x00, 0xFF]) = .ok (.callr .always (.imm 0xFF00)) := by decide

end Sys2Proof.Tests
end

section
/-! The decoder inverted (30_encoding.md R162): every instruction that a format's decoder answers is a row of that format
whose encoding is the base word and the trailing bytes that were read. -/

namespace Sys2Proof.DecodeInverse

open Machine

/-! ## Bytes of the stream -/

/-- The bytes `l` stand in the stream `f` from offset `off` on. -/
def StandsAt (l : List Byte) (off : Nat) (f : Nat → Byte) : Prop := ∀ k < l.length, f (off + k) = l.getD k 0

theorem standsAt_nil (off : Nat) (f : Nat → Byte) : StandsAt [] off f := fun k hk => absurd hk (Nat.not_lt_zero k)

theorem StandsAt.append {l l' : List Byte} {off : Nat} {f : Nat → Byte} (h : StandsAt l off f)
    (h' : StandsAt l' (off + l.length) f) : StandsAt (l ++ l') off f := by
  intro k hk
  by_cases hlt : k < l.length
  · rw [List.getD_append _ _ _ _ hlt]
    exact h k hlt
  · rw [List.length_append] at hk
    rw [List.getD_append_right _ _ _ _ (by omega), ← h' (k - l.length) (by omega)]
    congr 1
    omega

/-- The bytes of a value that was read from the stream stand where it was read. -/
theorem standsAt_toBytes_immAt (sz : Size) (off : Nat) (f : Nat → Byte) : StandsAt (toBytes sz (immAt sz off f)) off f := by
  intro k hk
  rw [toBytes_length] at hk
  rw [toBytes_getD sz _ hk]
  exact (Sys2Proof.byteOf_ofBytes sz (fun k => f (off + k)) hk).symm

/-! ## Operands -/

theorem bits_lt (w : BaseWord) (lo len : Nat) : bits w lo len < 2 ^ len := Nat.mod_lt _ (Nat.two_pow_pos len)

/-- A source operand read at a code has that code (30_encoding.md R106). -/
theorem srcAt_code (sz : Size) {code : Nat} (hc : code < 8) (off : Nat) (f : Nat → Byte) :
    (srcAt sz code off f).code = code := by
  unfold srcAt
  split
  next c h => exact (regOf_eq h).symm
  next h => exact (regOf_none hc h).symm

theorem srcAt_standsAt (sz : Size) (code off : Nat) (f : Nat → Byte) : StandsAt (srcAt sz code off f).bytes off f := by
  unfold srcAt
  split
  · exact standsAt_nil off f
  · exact standsAt_toBytes_immAt sz off f

/-- An address operand read at a code has that code (30_encoding.md R106). -/
theorem memAt_code {code : Nat} (hc : code < 8) (f : Nat → Byte) : (memAt code f).code = code := by
  unfold memAt
  split
  next c h => exact (regOf_eq h).symm
  next h => exact (regOf_none hc h).symm

/-- A displacement is read exactly for the index/stack-pointer class (30_encoding.md R107). -/
theorem memAt_wf (code : Nat) (f : Nat → Byte) : (memAt code f).wf = true := by
  unfold memAt
  split
  next c _ => cases hc : isIndexClass c <;> simp [MemRef.wf, hc]
  · rfl

theorem memAt_standsAt (code : Nat) (f : Nat → Byte) : StandsAt (memAt code f).bytes 2 f := by
  unfold memAt
  split
  · split
    · exact standsAt_toBytes_immAt .word 2 f
    · exact standsAt_nil 2 f
  · exact standsAt_toBytes_immAt .dword 2 f

/-- The operands of format RM as read (30_encoding.md R122): well-formed, with the direction and the codes they were read at;
and their trailing bytes stand after the base word. -/
theorem rmAt_ok {sz : Size} {dir r a : Nat} {f : Nat → Byte} {ops : RMOperands sz} (hdir : dir < 2) (hr : r < 8) (ha : a < 8)
    (h : rmAt sz dir r a f = .ok ops) (op : Nat) :
    ops.wf = true ∧ ops.dir = dir ∧ ops.regCode = r ∧ ops.memRef.code = a ∧ StandsAt (encRM op sz ops).2 2 f := by
  unfold rmAt at h
  split at h
  · cases h
    refine ⟨memAt_wf a f, rfl, srcAt_code sz hr _ f, memAt_code ha f, (memAt_standsAt a f).append ?_⟩
    rw [MemRef.bytes_length (memAt_wf a f)]
    exact srcAt_standsAt sz r _ f
  next hne =>
    split at h
    · cases h
    next c hc =>
      cases h
      have hdir1 : 1 = dir := by have : dir ≠ 0 := hne; omega
      exact ⟨memAt_wf a f, hdir1, (regOf_eq hc).symm, memAt_code ha f, memAt_standsAt a f⟩

/-! ## A base word from its fields

The converses of `encR_bits` and its siblings: a word with the fields of an encoded word is that word. -/

theorem ofNat_eq_of_eq_toNat {w : BaseWord} {n : Nat} (h : n = w.toNat) : BitVec.ofNat 16 n = w := by
  rw [h, BitVec.ofNat_toNat, BitVec.setWidth_eq]

theorem encR_word {w : BaseWord} {op : Nat} {sz : Size} {d : RegCode} {q : Src sz} (hg : bits w 0 2 = 0)
    (hop : bits w 2 6 = op) (hsz : bits w 8 2 = sz.code) (hd : bits w 10 3 = d.code) (hq : bits w 13 3 = q.code) :
    (encR op sz d q).1 = w := by
  have := w.isLt
  apply ofNat_eq_of_eq_toNat
  simp only [bits] at hg hop hsz hd hq
  omega

theorem encRM_word {w : BaseWord} {op : Nat} {sz : Size} {ops : RMOperands sz} (hg : bits w 0 2 = 1) (hop : bits w 2 5 = op)
    (hdir : bits w 7 1 = ops.dir) (hsz : bits w 8 2 = sz.code) (hr : bits w 10 3 = ops.regCode)
    (hm : bits w 13 3 = ops.memRef.code) : (encRM op sz ops).1 = w := by
  have := w.isLt
  simp only [bits] at hg hop hdir hsz hr hm
  cases ops <;>
  · simp only [RMOperands.dir, RMOperands.regCode, RMOperands.memRef] at hdir hr hm
    apply ofNat_eq_of_eq_toNat
    omega

theorem unaryWord_eq {w : BaseWord} {sub sel code : Nat} {sz : Size} (hg : bits w 0 2 = 2) (hsub : bits w 2 2 = sub)
    (hsel : unarySel w = sel) (hsz : bits w 8 2 = sz.code) (hc : bits w 10 3 = code) : unaryWord sub sel sz code = w := by
  have hw : w.toNat = bits w 0 2 + 4 * bits w 2 2 + 16 * bits w 4 4 + 256 * bits w 8 2 + 1024 * bits w 10 3 +
      8192 * bits w 13 3 := by
    have := w.isLt
    simp only [bits]
    omega
  have hlt := bits_lt w 13 3
  simp only [unarySel] at hsel
  apply ofNat_eq_of_eq_toNat
  omega

theorem encJump_word {w : BaseWord} {op : Nat} {cc : Cond} {sz : Size} {q : Src sz} (hg : bits w 0 2 = 2) (hsub : bits w 2 2 = 2)
    (hop : bits w 4 5 = op) (hcc : bits w 9 4 = cc.code) (hq : bits w 13 3 = q.code) : (encJump op cc q).1 = w := by
  have := w.isLt
  apply ofNat_eq_of_eq_toNat
  simp only [bits] at hg hsub hop hcc hq
  omega

theorem encRet_word {w : BaseWord} {op : Nat} {cc : Cond} (hg : bits w 0 2 = 2) (hsub : bits w 2 2 = 2) (hop : bits w 4 5 = op)
    (hcc : bits w 9 4 = cc.code) (hrest : bits w 13 3 = 0) : (encRet op cc).1 = w := by
  have := w.isLt
  apply ofNat_eq_of_eq_toNat
  simp only [bits] at hg hsub hop hcc hrest
  omega

theorem encBlock_word {w : BaseWord} {op : Nat} {sz : Size} (hg : bits w 0 2 = 2) (hsub : bits w 2 2 = 3)
    (hfam : bits w 4 4 = 0) (hsz : bits w 8 2 = sz.code) (hop : bits w 10 6 = op) : (encBlock op sz).1 = w := by
  have := w.isLt
  apply ofNat_eq_of_eq_toNat
  simp only [bits] at hg hsub hfam hsz hop
  omega

theorem encExact_word {w : BaseWord} {family op : Nat} {tail : List Byte} (hg : bits w 0 2 = 2) (hsub : bits w 2 2 = 3)
    (hfam : bits w 4 4 = family) (hop : bits w 8 8 = op) : (encExact family op tail).1 = w := by
  have := w.isLt
  apply ofNat_eq_of_eq_toNat
  simp only [bits] at hg hsub hfam hop
  omega

theorem encSB_word {w : BaseWord} {op : Nat} {disp : Byte} (hg : bits w 0 2 = 3) (hsub : bits w 2 2 = 3)
    (hd : bits w 4 8 = disp.toNat) (hop : bits w 12 4 = op) : (encSB op disp).1 = w := by
  have := w.isLt
  apply ofNat_eq_of_eq_toNat
  simp only [bits] at hg hsub hd hop
  omega

/-! ## The rows of the tables -/

/-- `i` is well-formed, and `p` is its base word and its trailing bytes, as many as its length counts. -/
structure IsRow (i : Instr) (p : BaseWord × List Byte) : Prop where
  wf : i.wf = true
  parts : encodeParts i = p
  length : 2 + p.2.length = instrLength i

theorem isRow_of_rCtor {op : Nat} {mk : (sz : Size) → RegCode → Src sz → Instr} (h : rCtor op = some mk) (sz : Size)
    (d : RegCode) (q : Src sz) : IsRow (mk sz d q) (encR op sz d q) := by
  have hlen : 2 + (encR op sz d q).2.length = 2 + q.trailing := congrArg (2 + ·) q.bytes_length
  unfold rCtor at h
  split at h <;> cases h <;> exact ⟨rfl, rfl, hlen⟩

theorem isRow_of_rmCtor {op : Nat} {mk : (sz : Size) → RMOperands sz → Instr} (h : rmCtor op = some mk) {sz : Size}
    {ops : RMOperands sz} (hwf : ops.wf = true) : IsRow (mk sz ops) (encRM op sz ops) := by
  have hlen : 2 + (encRM op sz ops).2.length = 2 + ops.trailing := congrArg (2 + ·) (ops.bytes_length op hwf)
  unfold rmCtor at h
  split at h <;> cases h <;> exact ⟨hwf, rfl, hlen⟩

theorem isRow_inOut {sz : Size} {ops : RMOperands sz} (hwf : ops.wf = true) : IsRow (inOut sz ops) (encRM 21 sz ops) := by
  have hlen : 2 + (encRM 21 sz ops).2.length = 2 + ops.trailing := congrArg (2 + ·) (ops.bytes_length 21 hwf)
  cases ops with
  | load r m => exact ⟨hwf, rfl, hlen⟩
  | store m q => exact ⟨hwf, rfl, hlen.trans (Nat.add_assoc _ _ _).symm⟩

theorem isRow_of_rmCtorAll {op : Nat} {mk : (sz : Size) → RMOperands sz → Instr} (h : rmCtorAll op = some mk) {sz : Size}
    {ops : RMOperands sz} (hwf : ops.wf = true) : IsRow (mk sz ops) (encRM op sz ops) := by
  unfold rmCtorAll at h
  split at h
  · cases h
    exact isRow_inOut hwf
  · exact isRow_of_rmCtor h hwf

/-- The decoder's checks of format UR are the well-formedness of its rows (30_encoding.md R133). -/
theorem isRow_of_urCtor {sel : Nat} {mk : Size → RegCode → Instr} (h : urCtor sel = some mk) {sz : Size} {r : RegCode}
    (hsize : unarySizeLegal sel sz = true) (halt : sel = 0 → hasAlternate sz r = true) : IsRow (mk sz r) (encUR sel sz r) := by
  unfold urCtor at h
  split at h <;> cases h
  case h_1 => -- EX_Alt, the one selector with a check of its own
    exact ⟨halt rfl, rfl, rfl⟩
  all_goals exact ⟨hsize, rfl, rfl⟩

/-- The decoder's check of format UM and its operand's well-formedness are the well-formedness of its rows
(30_encoding.md R133). -/
theorem isRow_of_umCtor {sel : Nat} {mk : Size → MemRef → Instr} (h : umCtor sel = some mk) {sz : Size} {m : MemRef}
    (hsize : unarySizeLegal sel sz = true) (hwf : m.wf = true) : IsRow (mk sz m) (encUM sel sz m) := by
  have hlen : 2 + (encUM sel sz m).2.length = 2 + m.trailing := congrArg (2 + ·) (MemRef.bytes_length hwf)
  have hboth : (unarySizeLegal sel sz && m.wf) = true := by rw [hsize, hwf]; rfl
  unfold umCtor at h
  split at h <;> cases h <;> exact ⟨hboth, rfl, hlen⟩

theorem isRow_of_jumpCtor {op : Nat} {sz : Size} {mk : Cond → Src sz → Instr} (h : jumpCtor op = some ⟨sz, mk⟩) (cc : Cond)
    (q : Src sz) : IsRow (mk cc q) (encJump op cc q) := by
  have hlen : 2 + (encJump op cc q).2.length = 2 + q.trailing := congrArg (2 + ·) q.bytes_length
  unfold jumpCtor at h
  split at h <;> cases h <;> exact ⟨rfl, rfl, hlen⟩

theorem isRow_of_retCtor {op : Nat} {mk : Cond → Instr} (h : retCtor op = some mk) (cc : Cond) :
    IsRow (mk cc) (encRet op cc) := by
  unfold retCtor at h
  split at h <;> cases h <;> exact ⟨rfl, rfl, rfl⟩

theorem isRow_of_blockCtor {op : Nat} {mk : Size → Instr} (h : blockCtor op = some mk) (sz : Size) :
    IsRow (mk sz) (encBlock op sz) := by
  unfold blockCtor at h
  split at h <;> cases h <;> exact ⟨rfl, rfl, rfl⟩

/-- The ops of format NUL outside the block family: only RST and LD_I_NN have trailing bytes, and they are the ones read. -/
theorem isRow_of_decodeExact {family op : Nat} {f : Nat → Byte} {i : Instr} (h : decodeExact family op f = .ok i) :
    ∃ tail, IsRow i (encExact family op tail) ∧ StandsAt tail 2 f := by
  unfold decodeExact at h
  split at h <;> cases h
  case h_3 => -- RST
    exact ⟨_, ⟨rfl, rfl, rfl⟩, standsAt_toBytes_immAt .byte 2 f⟩
  case h_5 => -- LD_I_NN
    exact ⟨_, ⟨rfl, rfl, rfl⟩, standsAt_toBytes_immAt .dword 2 f⟩
  all_goals exact ⟨_, ⟨rfl, rfl, rfl⟩, standsAt_nil 2 f⟩

/-! ## The formats -/

/-- `i` is what the base word `w` and the bytes of `f` after it say: well-formed, with that base word, with the trailing bytes
that stand there, and as long as all of them. -/
structure ReadFrom (w : BaseWord) (f : Nat → Byte) (i : Instr) : Prop where
  wf : i.wf = true
  word : baseWord i = w
  tail : StandsAt (encodeParts i).2 2 f
  length : (encode i).length = instrLength i

theorem IsRow.readFrom {w : BaseWord} {f : Nat → Byte} {i : Instr} {p : BaseWord × List Byte} (hrow : IsRow i p)
    (hword : p.1 = w) (htail : StandsAt p.2 2 f) : ReadFrom w f i := by
  obtain ⟨hwf, rfl, hlen⟩ := hrow
  exact ⟨hwf, hword, htail, (encode_length i).trans hlen⟩

theorem readFrom_of_decodeR {w : BaseWord} {f : Nat → Byte} {i : Instr} (hg : bits w 0 2 = 0) (h : decodeR w f = .ok i) :
    ReadFrom w f i := by
  unfold decodeR at h
  split at h; · cases h
  next mk hmk =>
  split at h; · cases h
  next sz hsz =>
  split at h <;> cases h
  next d hd =>
  have hq := srcAt_code sz (bits_lt w 13 3) 2 f
  exact (isRow_of_rCtor hmk sz d _).readFrom (encR_word hg rfl (sizeOf_eq hsz) (regOf_eq hd) hq.symm)
    (srcAt_standsAt sz _ 2 f)

theorem readFrom_of_decodeRM {w : BaseWord} {f : Nat → Byte} {i : Instr} (hg : bits w 0 2 = 1) (h : decodeRM w f = .ok i) :
    ReadFrom w f i := by
  unfold decodeRM at h
  split at h; · cases h
  next mk hmk =>
  split at h; · cases h
  next sz hsz =>
  split at h <;> cases h
  next ops hops =>
  obtain ⟨hwf, hdir, hr, hm, htail⟩ := rmAt_ok (bits_lt w 7 1) (bits_lt w 10 3) (bits_lt w 13 3) hops (bits w 2 5)
  exact (isRow_of_rmCtorAll hmk hwf).readFrom (encRM_word hg rfl hdir.symm (sizeOf_eq hsz) hr.symm hm.symm) htail

theorem readFrom_of_decodeUR {w : BaseWord} {f : Nat → Byte} {i : Instr} (hg : bits w 0 2 = 2) (hsub : bits w 2 2 = 0)
    (h : decodeUR w = .ok i) : ReadFrom w f i := by
  unfold decodeUR at h
  split at h; · cases h
  next mk hmk =>
  split at h; · cases h
  next sz hsz =>
  split at h; · cases h
  next r hr =>
  split at h
  next hsize =>
    split at h <;> cases h
    next halt =>
    have halt' : unarySel w = 0 → hasAlternate sz r = true := fun h0 => by simpa [h0] using halt
    exact (isRow_of_urCtor hmk hsize halt').readFrom (unaryWord_eq hg hsub rfl (sizeOf_eq hsz) (regOf_eq hr))
      (standsAt_nil 2 f)
  · cases h

theorem readFrom_of_decodeUM {w : BaseWord} {f : Nat → Byte} {i : Instr} (hg : bits w 0 2 = 2) (hsub : bits w 2 2 = 1)
    (h : decodeUM w f = .ok i) : ReadFrom w f i := by
  unfold decodeUM at h
  split at h; · cases h
  next mk hmk =>
  split at h; · cases h
  next sz hsz =>
  split at h <;> cases h
  next hsize =>
  have hm := memAt_code (bits_lt w 10 3) f
  exact (isRow_of_umCtor hmk hsize (memAt_wf _ f)).readFrom (unaryWord_eq hg hsub rfl (sizeOf_eq hsz) hm.symm)
    (memAt_standsAt _ f)

theorem readFrom_of_decodeBR {w : BaseWord} {f : Nat → Byte} {i : Instr} (hg : bits w 0 2 = 2) (hsub : bits w 2 2 = 2)
    (h : decodeBR w f = .ok i) : ReadFrom w f i := by
  unfold decodeBR at h
  split at h
  next sz mk hmk =>
    split at h <;> cases h
    next cc hcc =>
    have hq := srcAt_code sz (bits_lt w 13 3) 2 f
    exact (isRow_of_jumpCtor hmk cc _).readFrom (encJump_word hg hsub rfl (condOf_eq hcc) hq.symm) (srcAt_standsAt sz _ 2 f)
  · split at h; · cases h
    next mk hmk =>
    split at h; · cases h
    next cc hcc =>
    split at h <;> cases h
    next hrest =>
    exact (isRow_of_retCtor hmk cc).readFrom (encRet_word hg hsub rfl (condOf_eq hcc) hrest) (standsAt_nil 2 f)

theorem readFrom_of_decodeBlock {w : BaseWord} {f : Nat → Byte} {i : Instr} (hg : bits w 0 2 = 2) (hsub : bits w 2 2 = 3)
    (hfam : bits w 4 4 = 0) (h : decodeBlock w = .ok i) : ReadFrom w f i := by
  unfold decodeBlock at h
  split at h; · cases h
  next mk hmk =>
  split at h <;> cases h
  next sz hsz =>
  exact (isRow_of_blockCtor hmk sz).readFrom (encBlock_word hg hsub hfam (sizeOf_eq hsz) rfl) (standsAt_nil 2 f)

theorem readFrom_of_decodeExact {w : BaseWord} {family : Nat} {f : Nat → Byte} {i : Instr} (hg : bits w 0 2 = 2)
    (hsub : bits w 2 2 = 3) (hfam : bits w 4 4 = family) (h : decodeExact family (bits w 8 8) f = .ok i) : ReadFrom w f i := by
  obtain ⟨tail, hrow, htail⟩ := isRow_of_decodeExact h
  exact hrow.readFrom (encExact_word hg hsub hfam rfl) htail

theorem readFrom_of_decodeNUL {w : BaseWord} {f : Nat → Byte} {i : Instr} (hg : bits w 0 2 = 2) (hsub : bits w 2 2 = 3)
    (h : decodeNUL w f = .ok i) : ReadFrom w f i := by
  unfold decodeNUL at h
  split at h
  next hfam => exact readFrom_of_decodeBlock hg hsub hfam h
  next hfam => exact readFrom_of_decodeExact hg hsub hfam h
  next hfam => exact readFrom_of_decodeExact hg hsub hfam h
  next hfam => exact readFrom_of_decodeExact hg hsub hfam h
  next hfam => exact readFrom_of_decodeExact hg hsub hfam h
  · cases h

theorem readFrom_of_decodeSB {w : BaseWord} {f : Nat → Byte} {i : Instr} (hg : bits w 0 2 = 3) (hsub : bits w 2 2 = 3)
    (h : decodeSB w = .ok i) : ReadFrom w f i := by
  have hdisp : bits w 4 8 = (BitVec.ofNat 8 (bits w 4 8)).toNat := by
    rw [BitVec.toNat_ofNat, Nat.mod_eq_of_lt (bits_lt w 4 8)]
  unfold decodeSB at h
  split at h
  next hop =>
    split at h <;> cases h
    next hzero =>
    have hrow : IsRow .nop (encSB 0 0) := ⟨rfl, rfl, rfl⟩
    exact hrow.readFrom (encSB_word hg hsub hzero hop) (standsAt_nil 2 f)
  next hop =>
    cases h
    have hrow (d : Byte) : IsRow (.djnz d) (encSB 1 d) := ⟨rfl, rfl, rfl⟩
    exact (hrow _).readFrom (encSB_word hg hsub hdisp hop) (standsAt_nil 2 f)
  next hop =>
    cases h
    have hrow (d : Byte) : IsRow (.janz d) (encSB 2 d) := ⟨rfl, rfl, rfl⟩
    exact (hrow _).readFrom (encSB_word hg hsub hdisp hop) (standsAt_nil 2 f)
  · cases h

/-- Classification by group and subgroup (30_encoding.md R102): each arm hands its own group and subgroup on. -/
theorem readFrom_of_decodeWord {w : BaseWord} {f : Nat → Byte} {i : Instr} (h : decodeWord w f = .ok i) : ReadFrom w f i := by
  have hglt := bits_lt w 0 2
  have hslt := bits_lt w 2 2
  unfold decodeWord at h
  split at h
  next hg => exact readFrom_of_decodeR hg h
  next hg => exact readFrom_of_decodeRM hg h
  next hg hsub => exact readFrom_of_decodeUR hg hsub h
  next hg hsub => exact readFrom_of_decodeUM hg hsub h
  next hg hsub => exact readFrom_of_decodeBR hg hsub h
  next hg h0 h1 h2 =>
    have hsub : bits w 2 2 = 3 := by grind
    exact readFrom_of_decodeNUL hg hsub h
  next hsub h0 h1 h2 =>
    have hg : bits w 0 2 = 3 := by grind
    exact readFrom_of_decodeSB hg hsub h
  · cases h

/-! ## The round trip -/

/-- The bytes of an instruction's encoding are the bytes it was read from. -/
theorem ReadFrom.encode_standsAt {f : Nat → Byte} {i : Instr} (h : ReadFrom (baseWordAt f) f i) : StandsAt (encode i) 0 f := by
  have hword : StandsAt (toBytes .word (baseWord i)) 0 f := by
    rw [h.word]
    simpa only [immAt, Nat.zero_add, baseWordAt] using standsAt_toBytes_immAt .word 0 f
  exact hword.append h.tail

/-- Settles O44: decoding is inverted format by format, from the tables' rows and the fields of the base word. -/
theorem encodeDecodeRoundTrip : Obligations.EncodeDecodeRoundTrip := by
  intro i f h
  have hread : ReadFrom (baseWordAt f) f i := readFrom_of_decodeWord h
  refine ⟨hread.wf, hread.length, fun k hk => ?_⟩
  simpa only [Nat.zero_add] using hread.encode_standsAt k hk

end Sys2Proof.DecodeInverse
end

section
/-! What an instruction can do to the state outside the primary bank, SP, PC and the buses, said once of `exec`, and the
statements of 10_state.md that follow from it. -/

namespace Sys2Proof.SystemState

open Machine

/-! ## What leaves the system registers -/

/-- The system registers and all of F are unchanged. -/
def LeavesF (s t : State) : Prop := SystemSame s t ∧ t.f = s.f

/-- The system registers are unchanged, and of F at most the six ALU flags are written. -/
def PutsAluFlags (s t : State) : Prop := SystemSame s t ∧ ∃ w : FlagWrite, t.f = w.apply s.f

theorem LeavesF.putFlags {s t : State} (h : LeavesF s t) (w : FlagWrite) : PutsAluFlags s (putFlags w t) :=
  ⟨h.1, w, congrArg w.apply h.2⟩

theorem leavesF_advance (i : Instr) (s : State) : LeavesF s (advance i s) := ⟨⟨rfl, rfl, rfl, rfl, rfl, rfl, rfl⟩, rfl⟩

/-! ## The frames -/

theorem binaryOp_putsAluFlags (i : Instr) (sz : Size) (o1 : Place) (o2 : Operand sz)
    (g : BitVec sz.bits → BitVec sz.bits → State → BitVec sz.bits × FlagWrite) (s : State) :
    PutsAluFlags s (binaryOp sz o1 o2 g (advance i s)) :=
  LeavesF.putFlags (by simp [LeavesF, SystemSame]) _

theorem testOp_putsAluFlags (i : Instr) (sz : Size) (o1 : Place) (o2 : Operand sz)
    (g : BitVec sz.bits → BitVec sz.bits → FlagWrite) (s : State) : PutsAluFlags s (testOp sz o1 o2 g (advance i s)) :=
  LeavesF.putFlags (by simp [LeavesF, SystemSame]) _

theorem unaryOp_putsAluFlags (i : Instr) (sz : Size) (o1 : Place) (g : BitVec sz.bits → BitVec sz.bits × FlagWrite) (s : State) :
    PutsAluFlags s (unaryOp sz o1 g (advance i s)) :=
  LeavesF.putFlags (by simp [LeavesF, SystemSame]) _

/-- SET and RES run in the binary frame and write no flag. -/
theorem binaryOp_leavesF (i : Instr) (sz : Size) (o1 : Place) (o2 : Operand sz)
    {g : BitVec sz.bits → BitVec sz.bits → State → BitVec sz.bits × FlagWrite} (hg : ∀ a b u, (g a b u).2 = {}) (s : State) :
    LeavesF s (binaryOp sz o1 o2 g (advance i s)) := by
  simp [LeavesF, SystemSame, binaryOp, hg]

/-- MLT, EXT and EXH run in the unary frame and write no flag. -/
theorem unaryOp_leavesF (i : Instr) (sz : Size) (o1 : Place) {g : BitVec sz.bits → BitVec sz.bits × FlagWrite}
    (hg : ∀ a, (g a).2 = {}) (s : State) : LeavesF s (unaryOp sz o1 g (advance i s)) := by
  simp [LeavesF, SystemSame, unaryOp, hg]

theorem divideOp_putsAluFlags (i : Instr) (sz : Size) (o1 : Place) (g : BitVec sz.bits → BitVec sz.bits) (s : State) :
    PutsAluFlags s (divideOp sz o1 g (advance i s)) := by
  unfold divideOp
  dsimp only
  split <;> exact LeavesF.putFlags (by simp [LeavesF, SystemSame]) _

/-! ## Loads, exchanges and control transfer -/

theorem loadOp_leavesF (i : Instr) (sz : Size) (o1 : Place) (o2 : Operand sz) (s : State) :
    LeavesF s (loadOp sz o1 o2 (advance i s)) := by
  simp [LeavesF, SystemSame, loadOp]

theorem exchangePlaces_leavesF (i : Instr) (sz : Size) (p q : Place) (s : State) :
    LeavesF s (exchangePlaces sz p q (advance i s)) := by
  simp [LeavesF, SystemSame, exchangePlaces]

theorem pushOp_leavesF (i : Instr) (o1 : Place) (s : State) : LeavesF s (pushOp o1 (advance i s)) := by
  simp [LeavesF, SystemSame, pushOp]

theorem popOp_leavesF (i : Instr) (o1 : Place) (s : State) : LeavesF s (popOp o1 (advance i s)) := by
  simp [LeavesF, SystemSame, popOp]

theorem jumpOp_leavesF (i : Instr) (cc : Cond) (target : DWord) (s : State) : LeavesF s (jumpOp cc target (advance i s)) := by
  rw [jumpOp_advance]
  exact ⟨⟨rfl, rfl, rfl, rfl, rfl, rfl, rfl⟩, rfl⟩

theorem callOp_leavesF (i : Instr) (cc : Cond) (target : DWord) (s : State) : LeavesF s (callOp cc target (advance i s)) := by
  unfold callOp
  split <;> simp [LeavesF, SystemSame]

theorem returnOp_leavesF (i : Instr) (s : State) : LeavesF s (returnOp (advance i s)) := by
  simp [LeavesF, SystemSame, returnOp]

/-- A conditional return of RET and RETI. -/
theorem returnIf_leavesF (i : Instr) (cc : Cond) (s : State) :
    LeavesF s (if holds cc (advance i s) then returnOp (advance i s) else advance i s) := by
  split
  · exact returnOp_leavesF i s
  · exact leavesF_advance i s

/-! ## Block elements -/

theorem elemLD_putsAluFlags (i : Instr) (up : Bool) (sz : Size) (s : State) : PutsAluFlags s (elemLD up sz (advance i s)) := by
  rw [elemLD_spec]
  exact LeavesF.putFlags (by simp [LeavesF, SystemSame]) _

theorem elemCP_putsAluFlags (i : Instr) (up : Bool) (sz : Size) (s : State) : PutsAluFlags s (elemCP up sz (advance i s)) := by
  rw [elemCP_spec]
  exact LeavesF.putFlags (by simp [LeavesF, SystemSame]) _

theorem elemTS_putsAluFlags (i : Instr) (up : Bool) (sz : Size) (s : State) : PutsAluFlags s (elemTS up sz (advance i s)) := by
  rw [elemTS_spec]
  exact LeavesF.putFlags (by simp [LeavesF, SystemSame]) _

theorem elemIN_putsAluFlags (i : Instr) (up : Bool) (sz : Size) (s : State) : PutsAluFlags s (elemIN up sz (advance i s)) := by
  rw [elemIN_spec]
  exact LeavesF.putFlags (by simp [LeavesF, SystemSame]) _

theorem elemOUT_putsAluFlags (i : Instr) (up : Bool) (sz : Size) (s : State) : PutsAluFlags s (elemOUT up sz (advance i s)) := by
  rw [elemOUT_spec]
  exact LeavesF.putFlags (by simp [LeavesF, SystemSame]) _

theorem PutsAluFlags.rewindIf {s t : State} (h : PutsAluFlags s t) (more : State → Bool) : PutsAluFlags s (rewindIf more t) := by
  rw [rewindIf_eq]
  exact h

/-! ## What `exec` can do -/

/-- The mnemonics that the flag table names with a flag written (10_state.md R41). -/
def flagTable : List String :=
  ["ADD", "ADC", "INC", "SUB", "SBC", "DEC", "NEG", "CP", "AND", "OR", "XOR", "CPL", "TST", "RLC", "RRC", "RL", "RR", "SLA",
    "SRA", "SRL", "BIT", "DAA", "DIV", "SDIV", "LDI", "LDD", "LDIR", "LDDR", "CPI", "CPD", "CPIR", "CPDR", "TSI", "TSD", "TSIR",
    "TSDR", "INI", "IND", "INIR", "INDR", "OUTI", "OUTD", "OUTIR", "OUTDR"]

/-- What an instruction can do at `s` to the alternate bank, I, R, IFF2, `halted`, `fault`, the device map and F
(10_state.md R33, R41 to R46). -/
inductive SystemEffect (s : State) : Instr → State → Prop
  | none {i : Instr} {t : State} (h : LeavesF s t) : SystemEffect s i t
  | aluFlags {i : Instr} {t : State} (hi : mnemonic i ∈ flagTable) (h : PutsAluFlags s t) : SystemEffect s i t
  | violation {i : Instr} (k : ContractKind) : SystemEffect s i (raiseError (.contractViolation k) (baseWord i) s)
  | restoreIE (cc : Cond) {t : State} (h : LeavesF s t) : SystemEffect s (.retn cc) (restoreIFF1 t)
  | exchangeBanks {i : Instr} (hi : i = .exx ∨ i = .exi ∨ ∃ sz r, i = .exAltUR sz r) (b a : Bank) :
    SystemEffect s i { advance i s with bank := b, alt := a }
  | loadI (imm : DWord) : SystemEffect s (.ldINN imm) { advance (.ldINN imm) s with i := imm }
  | loadR (v : Byte) : SystemEffect s .ldRA { advance .ldRA s with r := v }
  | halt : SystemEffect s .halt { advance .halt s with halted := true }

/-- An instruction on half-width pairs: its own effect, or a violation (30_encoding.md R133). -/
theorem halvesOnly_effect {i : Instr} {sz : Size} {g : State → State} {s : State} (h : SystemEffect s i (g (advance i s))) :
    ∃ t, halvesOnly i sz g s = .next t ∧ SystemEffect s i t := by
  rw [halvesOnly_cases]
  split
  · exact ⟨_, rfl, h⟩
  · exact ⟨_, rfl, .violation .operandKind⟩

/-- An instruction that exists at DWord only: its own effect, or a violation (30_encoding.md R133). -/
theorem dwordOnly_effect {i : Instr} {sz : Size} {g : State → State} {s : State} (h : SystemEffect s i (g (advance i s))) :
    ∃ t, dwordOnly i sz g s = .next t ∧ SystemEffect s i t := by
  rw [dwordOnly_cases]
  split
  · exact ⟨_, rfl, h⟩
  · exact ⟨_, rfl, .violation .operandKind⟩

/-- EX: an exchange of two places, or a violation where operand 2 is an immediate (30_encoding.md R166). -/
theorem exchangeOp_effect (i : Instr) (sz : Size) (o1 : Place) (o2 : Operand sz) (s : State) :
    ∃ t, exchangeOp i sz o1 o2 s = .next t ∧ SystemEffect s i t := by
  cases o2 with
  | imm v => exact ⟨_, rfl, .violation .writeToImmediate⟩
  | place q => exact ⟨_, rfl, .none (exchangePlaces_leavesF i sz o1 q s)⟩

/-- EX_Alt: an exchange between the banks, or a violation where the view is SP's (30_encoding.md R133). -/
theorem execExAltUR_effect (sz : Size) (r : RegCode) (s : State) :
    ∃ t, execExAltUR sz r s = .next t ∧ SystemEffect s (.exAltUR sz r) t := by
  unfold execExAltUR
  split
  · exact ⟨_, rfl, .exchangeBanks (.inr (.inr ⟨sz, r, rfl⟩)) _ _⟩
  · exact ⟨_, rfl, .violation .operandKind⟩

theorem execRetn_effect (cc : Cond) (s : State) : ∃ t, execRetn cc s = .next t ∧ SystemEffect s (.retn cc) t := by
  refine ⟨_, rfl, ?_⟩
  split
  · exact .restoreIE cc (returnOp_leavesF (.retn cc) s)
  · exact .none (leavesF_advance (.retn cc) s)

theorem execDjnz_effect (disp : Byte) (s : State) : ∃ t, execDjnz disp s = .next t ∧ SystemEffect s (.djnz disp) t := by
  refine ⟨_, rfl, .none ?_⟩
  split <;> simp [LeavesF, SystemSame]

theorem execJanz_effect (disp : Byte) (s : State) : ∃ t, execJanz disp s = .next t ∧ SystemEffect s (.janz disp) t := by
  refine ⟨_, rfl, .none ?_⟩
  split <;> simp [LeavesF, SystemSame]

/-- Every instruction answers a next state, with one of these effects outside the primary bank, SP, PC and the buses. -/
theorem exec_effect (i : Instr) (s : State) : ∃ t, exec i s = .next t ∧ SystemEffect s i t := by
  cases i with
  | addR | adcR | subR | sbcR | andR | orR | xorR | rlcR | rrcR | rlR | rrR | slaR | sraR | srlR
  | addRM | adcRM | subRM | sbcRM | andRM | orRM | xorRM | rlcRM | rrcRM | rlRM | rrRM | slaRM | sraRM | srlRM =>
    exact ⟨_, rfl, .aluFlags (by simp [mnemonic, flagTable]) (binaryOp_putsAluFlags _ _ _ _ _ s)⟩
  | cpR | tstR | bitR | cpRM | tstRM | bitRM =>
    exact ⟨_, rfl, .aluFlags (by simp [mnemonic, flagTable]) (testOp_putsAluFlags _ _ _ _ _ s)⟩
  | setR | resR | setRM | resRM => exact ⟨_, rfl, .none (binaryOp_leavesF _ _ _ _ (fun _ _ _ => rfl) s)⟩
  | incUR | decUR | negUR | cplUR | incUM | decUM | negUM | cplUM =>
    exact ⟨_, rfl, .aluFlags (by simp [mnemonic, flagTable]) (unaryOp_putsAluFlags _ _ _ _ s)⟩
  | exhUR | extUR | mltUR | exhUM | extUM | mltUM =>
    exact halvesOnly_effect (.none (unaryOp_leavesF _ _ _ (fun _ => rfl) s))
  | divUR | sdivUR | divUM | sdivUM =>
    exact halvesOnly_effect (.aluFlags (by simp [mnemonic, flagTable]) (divideOp_putsAluFlags _ _ _ _ s))
  | daa =>
    exact ⟨_, rfl, .aluFlags (by simp [mnemonic, flagTable]) (LeavesF.putFlags (by simp [LeavesF, SystemSame]) _)⟩
  | ldR | ldRM => exact ⟨_, rfl, .none (loadOp_leavesF _ _ _ _ s)⟩
  | exR | exRM => exact exchangeOp_effect _ _ _ _ s
  | inRM | outRM | ldAR => exact ⟨_, rfl, .none (by simp [LeavesF, SystemSame])⟩
  | pushUR | pushUM => exact dwordOnly_effect (.none (pushOp_leavesF _ _ s))
  | popUR | popUM => exact dwordOnly_effect (.none (popOp_leavesF _ _ s))
  | jp | jrS8 | jr => exact ⟨_, rfl, .none (jumpOp_leavesF _ _ _ s)⟩
  | call | callrS8 | callr => exact ⟨_, rfl, .none (callOp_leavesF _ _ _ s)⟩
  | ret cc | reti cc => exact ⟨_, rfl, .none (returnIf_leavesF _ cc s)⟩
  | retn cc => exact execRetn_effect cc s
  | rst => exact ⟨_, rfl, .none (by simp [LeavesF, SystemSame])⟩
  | djnz disp => exact execDjnz_effect disp s
  | janz disp => exact execJanz_effect disp s
  | ldi | ldd => exact ⟨_, rfl, .aluFlags (by simp [mnemonic, flagTable]) (elemLD_putsAluFlags _ _ _ s)⟩
  | cpi | cpd => exact ⟨_, rfl, .aluFlags (by simp [mnemonic, flagTable]) (elemCP_putsAluFlags _ _ _ s)⟩
  | tsi | tsd => exact ⟨_, rfl, .aluFlags (by simp [mnemonic, flagTable]) (elemTS_putsAluFlags _ _ _ s)⟩
  | ini | ind => exact ⟨_, rfl, .aluFlags (by simp [mnemonic, flagTable]) (elemIN_putsAluFlags _ _ _ s)⟩
  | outi | outd => exact ⟨_, rfl, .aluFlags (by simp [mnemonic, flagTable]) (elemOUT_putsAluFlags _ _ _ s)⟩
  | ldir | lddr => exact ⟨_, rfl, .aluFlags (by simp [mnemonic, flagTable]) ((elemLD_putsAluFlags _ _ _ s).rewindIf moreBC)⟩
  | cpir | cpdr => exact ⟨_, rfl, .aluFlags (by simp [mnemonic, flagTable]) ((elemCP_putsAluFlags _ _ _ s).rewindIf moreBC)⟩
  | tsir | tsdr => exact ⟨_, rfl, .aluFlags (by simp [mnemonic, flagTable]) ((elemTS_putsAluFlags _ _ _ s).rewindIf moreBC)⟩
  | inir | indr => exact ⟨_, rfl, .aluFlags (by simp [mnemonic, flagTable]) ((elemIN_putsAluFlags _ _ _ s).rewindIf moreB)⟩
  | outir | outdr => exact ⟨_, rfl, .aluFlags (by simp [mnemonic, flagTable]) ((elemOUT_putsAluFlags _ _ _ s).rewindIf moreB)⟩
  | exAltUR sz r => exact execExAltUR_effect sz r s
  | exx => exact ⟨_, rfl, .exchangeBanks (.inl rfl) _ _⟩
  | exi => exact ⟨_, rfl, .exchangeBanks (.inr (.inl rfl)) _ _⟩
  | ldINN imm => exact ⟨_, rfl, .loadI imm⟩
  | ldRA => exact ⟨_, rfl, .loadR _⟩
  | halt => exact ⟨_, rfl, .halt⟩
  | nop => exact ⟨_, rfl, .none (leavesF_advance _ s)⟩

theorem effect_of_exec {i : Instr} {s t : State} (h : exec i s = .next t) : SystemEffect s i t := by
  obtain ⟨u, hu, heffect⟩ := exec_effect i s
  cases hu.symm.trans h
  exact heffect

/-- Settles O57: of the effects that `exec` can have, each system register moves in one, and IFF2 in none. -/
theorem systemStateHasOneWriter : Obligations.SystemStateHasOneWriter := by
  intro i s t h
  replace h := effect_of_exec h
  cases h with
  | none h | aluFlags _ h | restoreIE _ h =>
    obtain ⟨⟨halt, hi, hr, hiff2, hhalted, -, -⟩, -⟩ := h
    exact ⟨hiff2, absurd hi, absurd hr, absurd halt, absurd hhalted⟩
  | violation => exact ⟨rfl, absurd rfl, absurd rfl, absurd rfl, absurd rfl⟩
  | exchangeBanks hi => exact ⟨rfl, absurd rfl, absurd rfl, fun _ => hi, absurd rfl⟩
  | loadI imm => exact ⟨rfl, fun _ => ⟨imm, rfl⟩, absurd rfl, absurd rfl, absurd rfl⟩
  | loadR => exact ⟨rfl, absurd rfl, fun _ => rfl, absurd rfl, absurd rfl⟩
  | halt => exact ⟨rfl, absurd rfl, absurd rfl, absurd rfl, fun _ => rfl⟩

/-! ## F -/

/-- The mnemonics outside the rows of the flag table that write a flag, RETN apart (10_state.md R41). -/
def flagless : List String :=
  ["LD", "EX", "IN", "OUT", "EX_Alt", "EXX", "EXI", "EXH", "EXT", "MLT", "PUSH", "POP", "SET", "RES", "JP", "JR_s8", "JR", "CALL",
    "CALLR_s8", "CALLR", "RET", "RETI", "RST", "DJNZ", "JANZ", "LD_I_NN", "LD_R_A", "LD_A_R", "NOP", "HALT"]

theorem not_mem_flagless_of_flagTable : ∀ m ∈ flagTable, m ∉ flagless := by decide

/-- A write of ALU flags leaves IE and bit 3 of F. -/
theorem PutsAluFlags.restOfFSame {s t : State} (h : PutsAluFlags s t) : RestOfFSame s t := by
  obtain ⟨-, w, hf⟩ := h
  simpa only [RestOfFSame, FlagSame, getFlag, putFlags_f, hf] using putFlags_restOfF w s

theorem restoreIFF1_bit3 (s : State) : (restoreIFF1 s).f.getLsbD 3 = s.f.getLsbD 3 := by
  rw [restoreIFF1_f, getLsbD_putBit _ 5 _ (by decide), if_neg (by decide)]

/-- Settles O59: of the effects that `exec` can have, two move F: the flag table's rows, which leave IE and bit 3, and RETN's
restore of IE. -/
theorem otherInstructionsLeaveEveryFlag : Obligations.OtherInstructionsLeaveEveryFlag := by
  intro i s t h
  replace h := effect_of_exec h
  cases h with
  | none h =>
    obtain ⟨-, hf⟩ := h
    exact ⟨fun _ => hf, absurd (congrArg (·.getLsbD 5) hf), congrArg (·.getLsbD 3) hf⟩
  | aluFlags hi h =>
    obtain ⟨hie, h3⟩ := h.restOfFSame
    exact ⟨fun hm => absurd hm (not_mem_flagless_of_flagTable _ hi), absurd hie, h3⟩
  | @restoreIE cc u h =>
    obtain ⟨-, hf⟩ := h
    have hretn : "RETN" ∉ flagless := by decide
    exact ⟨fun hm => absurd hm hretn, fun _ => rfl, (restoreIFF1_bit3 u).trans (congrArg (·.getLsbD 3) hf)⟩
  | violation | exchangeBanks | loadI | loadR | halt => exact ⟨fun _ => rfl, absurd rfl, rfl⟩

/-! ## Views and conditions -/

/-- Settles O40: the read-back and the frame are the laws of a view write; what it writes is the primary bank or SP. -/
theorem viewsShareStorage : Obligations.ViewsShareStorage := by
  intro sz c v s
  refine ⟨readReg_writeReg_same sz c v s, writeReg_regsSameOutside sz c v s, ?_⟩
  unfold writeReg
  cases (viewSlot sz c).1 with
  | banked b => exact ⟨_, _, rfl⟩
  | sp => exact ⟨_, _, rfl⟩

/-- Settles O37: a Byte or Word view is a bit field of its storage as the table gives it, a DWord view the whole storage. -/
theorem registerCodesSelectTheirViews : Obligations.RegisterCodesSelectTheirViews := by
  intro s
  refine ⟨⟨rfl, rfl, rfl, rfl, rfl, rfl, rfl⟩, ⟨rfl, rfl, rfl, rfl, rfl, rfl, rfl⟩, ?_⟩
  exact ⟨readReg_dwordBC s, readReg_dwordDE s, readReg_dwordHL s, readReg_dwordSP s, viewGet_whole _, viewGet_whole _,
    readReg_dwordA s⟩

/-- Settles O39: each condition reads its flag at the flag's position in F. -/
theorem conditionsTestTheirFlags : Obligations.ConditionsTestTheirFlags := by
  intro s
  exact ⟨rfl, rfl, rfl, rfl, rfl, rfl, rfl, rfl, rfl⟩

end Sys2Proof.SystemState
end

section
/-! ADD, ADC, SUB, SBC, INC, DEC, NEG, TST and CPL: a mnemonic is its words and its frame, proved once for the rows of a
mnemonic; what each frame leaves is then the law of that frame (Laws/Ops.lean, Laws/Alu.lean). -/

namespace Sys2Proof.AluForms

open Machine

/-! ## The rows of a mnemonic -/

/-- Both rows of a two-operand mnemonic have their words and run one frame after PC has moved (30_encoding.md R110, R120, R165). -/
structure BinaryRows (op : Nat) (mkR : (sz : Size) → RegCode → Src sz → Instr) (mkRM : (sz : Size) → RMOperands sz → Instr)
    (run : (sz : Size) → Place → Operand sz → State → State) : Prop where
  wordR : ∀ sz d q, baseWord (mkR sz d q) = (encR op sz d q).1 := by intros; rfl
  wordRM : ∀ sz ops, baseWord (mkRM sz ops) = (encRM op sz ops).1 := by intros; rfl
  execR : ∀ sz d q s, exec (mkR sz d q) s = .next (run sz (.reg d) (srcOperand q) (advance (mkR sz d q) s)) := by intros; rfl
  execRM : ∀ sz ops s, exec (mkRM sz ops) s = .next (run sz (rmDst ops) (rmSrc ops) (advance (mkRM sz ops) s)) := by intros; rfl

/-- Both rows of a one-operand mnemonic have their words and run one frame after PC has moved (30_encoding.md R130, R165). -/
structure UnaryRows (sel : Nat) (mkUR : Size → RegCode → Instr) (mkUM : Size → MemRef → Instr)
    (run : (sz : Size) → Place → State → State) : Prop where
  wordUR : ∀ sz r, baseWord (mkUR sz r) = (encUR sel sz r).1 := by intros; rfl
  wordUM : ∀ sz m, baseWord (mkUM sz m) = (encUM sel sz m).1 := by intros; rfl
  execUR : ∀ sz r s, exec (mkUR sz r) s = .next (run sz (.reg r) (advance (mkUR sz r) s)) := by intros; rfl
  execUM : ∀ sz m s, exec (mkUM sz m) s = .next (run sz (.mem m) (advance (mkUM sz m) s)) := by intros; rfl

section

variable {mkR : (sz : Size) → RegCode → Src sz → Instr} {mkRM : (sz : Size) → RMOperands sz → Instr}
  {mkUR : Size → RegCode → Instr} {mkUM : Size → MemRef → Instr}

/-- A relation that a frame meets on every pair of operands that an encoding can have holds of both rows that run it. -/
theorem BinaryRows.forms {op : Nat} {run : (sz : Size) → Place → Operand sz → State → State}
    {P : (sz : Size) → Place → Operand sz → Instr → State → State → Prop} (rows : BinaryRows op mkR mkRM run) (hop : op < 32)
    (hrun : ∀ sz o1 o2 i s, Apart o1 o2 → P sz o1 o2 i s (run sz o1 o2 (advance i s))) : BinaryForms op mkR mkRM P := by
  constructor
  · intro sz d q s
    obtain ⟨hgroup, hsel, -⟩ := encR_bits op (by omega) sz d q
    rw [rows.wordR]
    exact ⟨hgroup, hsel, _, rows.execR sz d q s, hrun sz _ _ _ s (apart_srcOperand d q)⟩
  · intro sz ops s
    obtain ⟨hgroup, hsel, -⟩ := encRM_bits op hop sz ops
    rw [rows.wordRM]
    exact ⟨hgroup, hsel, _, rows.execRM sz ops s, hrun sz _ _ _ s (apart_rm ops)⟩

/-- A relation that a frame meets on every place holds of both rows that run it. -/
theorem UnaryRows.forms {sel : Nat} {run : (sz : Size) → Place → State → State} {ok : Size → Bool}
    {P : Size → Place → Instr → State → State → Prop} (rows : UnaryRows sel mkUR mkUM run) (hsel : sel < 16)
    (hrun : ∀ sz o1 i s, P sz o1 i s (run sz o1 (advance i s))) : UnaryForms sel mkUR mkUM ok P := by
  constructor
  · intro sz r s _
    obtain ⟨hgroup, -, -, hunary, -⟩ := unaryWord_bits 0 sel (by decide) hsel sz r.code (by have := r.code_lt; omega)
    rw [rows.wordUR]
    exact ⟨hgroup, hunary, _, rows.execUR sz r s, hrun sz _ _ s⟩
  · intro sz m s _
    obtain ⟨hgroup, -, -, hunary, -⟩ := unaryWord_bits 1 sel (by decide) hsel sz m.code m.code_lt
    rw [rows.wordUM]
    exact ⟨hgroup, hunary, _, rows.execUM sz m s, hrun sz _ _ s⟩

end

/-! ## Addition and subtraction -/

/-- Settles O1: ADD adds with carry 0 and ADC with the old C, in the binary frame. -/
theorem addAndAdcSumFlagsFrame : Obligations.AddAndAdcSumFlagsFrame := by
  constructor
  · have rows : BinaryRows 2 .addR .addRM (fun sz o1 o2 => binaryOp sz o1 o2 (aluAdd sz)) := {}
    exact rows.forms (by decide) fun sz _ _ i s ho => binaryOp_adds i sz ho (aluAdd sz) s fun _ _ => rfl
  · have rows : BinaryRows 3 .adcR .adcRM (fun sz o1 o2 => binaryOp sz o1 o2 (aluAdc sz)) := {}
    refine rows.forms (by decide) fun sz _ _ i s ho => binaryOp_adds i sz ho (aluAdc sz) s fun u hf => ?_
    rw [aluAdc, getFlag, getFlag, hf]

/-- Settles O2: SUB subtracts with borrow 0 and SBC with the old C, in the binary frame. -/
theorem subAndSbcDifferenceFlagsFrame : Obligations.SubAndSbcDifferenceFlagsFrame := by
  constructor
  · have rows : BinaryRows 4 .subR .subRM (fun sz o1 o2 => binaryOp sz o1 o2 (aluSub sz)) := {}
    exact rows.forms (by decide) fun sz _ _ i s ho => binaryOp_subtracts i sz ho (aluSub sz) s fun _ _ => rfl
  · have rows : BinaryRows 5 .sbcR .sbcRM (fun sz o1 o2 => binaryOp sz o1 o2 (aluSbc sz)) := {}
    refine rows.forms (by decide) fun sz _ _ i s ho => binaryOp_subtracts i sz ho (aluSbc sz) s fun u hf => ?_
    rw [aluSbc, getFlag, getFlag, hf]

/-- Settles O4: INC, DEC and NEG are an addition of 1, a subtraction of 1 and a subtraction from 0 in the unary frame. -/
theorem incDecNegResultFlagsFrame : Obligations.IncDecNegResultFlagsFrame := by
  refine ⟨?_, ?_, ?_⟩
  · have rows : UnaryRows 4 .incUR .incUM (fun sz o1 => unaryOp sz o1 (aluInc sz)) := {}
    exact rows.forms (by decide) fun sz o1 i s => unaryOp_adds i sz o1 (aluInc sz) s rfl
  · have rows : UnaryRows 5 .decUR .decUM (fun sz o1 => unaryOp sz o1 (aluDec sz)) := {}
    exact rows.forms (by decide) fun sz o1 i s => unaryOp_subtracts i sz o1 (aluDec sz) s rfl
  · have rows : UnaryRows 6 .negUR .negUM (fun sz o1 => unaryOp sz o1 (aluNeg sz)) := {}
    exact rows.forms (by decide) fun sz o1 i s => unaryOp_subtracts i sz o1 (aluNeg sz) s rfl

/-! ## Logic -/

/-- Settles O7: TST runs the frame that only tests, CPL the unary frame, both with the flags of the logic family. -/
theorem tstAndCplResultFlagsFrame : Obligations.TstAndCplResultFlagsFrame := by
  constructor
  · have rows : BinaryRows 10 .tstR .tstRM (fun sz o1 o2 => testOp sz o1 o2 (aluTst sz)) := {}
    refine rows.forms (by decide) fun sz o1 o2 i s ho => ?_
    obtain ⟨hreads, hflags, helse⟩ := testOp_spec i sz ho (aluTst sz) s
    exact ⟨hreads, hflags, helse⟩
  · have rows : UnaryRows 11 .cplUR .cplUM (fun sz o1 => unaryOp sz o1 (aluCpl sz)) := {}
    refine rows.forms (by decide) fun sz o1 i s => ?_
    obtain ⟨hwrites, hflags, -, helse⟩ := unaryOp_spec i sz o1 (aluCpl sz) s rfl
    exact ⟨hwrites, hflags, helse⟩

end Sys2Proof.AluForms
end

section
/-! The shifts and rotates: the closed forms that the model computes (42_shift_rotate.md R288) run the loop of R280. One more
round of the loop is one more step of the closed form, bit by bit. -/

namespace Sys2Proof.Shifts

open Machine AluForms

/-! ## Bits of one step and of one rotation more -/

/-- A shift by one to the left with a bit put in at the bottom. -/
theorem getLsbD_shiftLeft_one_or {w : Nat} (x : BitVec w) (b : Bool) {i : Nat} (hi : i < w) :
    ((x <<< 1) ||| (BitVec.ofBool b).setWidth w).getLsbD i = if i = 0 then b else x.getLsbD (i - 1) := by
  rw [BitVec.getLsbD_or, BitVec.getLsbD_shiftLeft, BitVec.getLsbD_setWidth, BitVec.getLsbD_ofBool]
  by_cases h0 : i = 0
  · simp [h0, show 0 < w by omega]
  · simp [h0, hi]

/-- A shift by one to the right with a bit put in at the top. -/
theorem getLsbD_ushiftRight_one_or {w : Nat} (x : BitVec w) (b : Bool) {i : Nat} (hi : i < w) :
    ((x >>> 1) ||| ((BitVec.ofBool b).setWidth w <<< (w - 1))).getLsbD i = if i + 1 = w then b else x.getLsbD (i + 1) := by
  rw [BitVec.getLsbD_or, BitVec.getLsbD_ushiftRight, BitVec.getLsbD_shiftLeft, BitVec.getLsbD_setWidth, BitVec.getLsbD_ofBool,
    Nat.add_comm 1 i]
  by_cases hlast : i + 1 = w
  · simp [hlast, hi, show i - (w - 1) = 0 by omega, show ¬(i < w - 1) by omega, show 0 < w by omega]
  · simp [hlast, show i < w - 1 by omega]

theorem succ_mod_eq (n : Nat) {w : Nat} (hw : 0 < w) : (n + 1) % w = if n % w + 1 = w then 0 else n % w + 1 := by
  have hlt := Nat.mod_lt n hw
  rw [← Nat.mod_add_mod]
  split
  · next h => rw [h, Nat.mod_self]
  · exact Nat.mod_eq_of_lt (by omega)

/-- A rotation to the left by one more: the top bit comes in at the bottom. -/
theorem getLsbD_rotateLeft_succ {w : Nat} (x : BitVec w) (n : Nat) {i : Nat} (hi : i < w) :
    (x.rotateLeft (n + 1)).getLsbD i = if i = 0 then (x.rotateLeft n).msb else (x.rotateLeft n).getLsbD (i - 1) := by
  have hr := Nat.mod_lt n (show 0 < w by omega)
  rw [BitVec.msb_eq_getLsbD_last, BitVec.getLsbD_rotateLeft, BitVec.getLsbD_rotateLeft, BitVec.getLsbD_rotateLeft,
    succ_mod_eq n (by omega)]
  simp only [Bool.cond_eq_ite, decide_eq_true_eq, hi, show w - 1 < w by omega, show i - 1 < w by omega, decide_true, Bool.true_and]
  split_ifs <;> grind

/-- A rotation to the right by one more: the bottom bit comes in at the top. -/
theorem getLsbD_rotateRight_succ {w : Nat} (x : BitVec w) (n : Nat) {i : Nat} (hi : i < w) :
    (x.rotateRight (n + 1)).getLsbD i =
      if i + 1 = w then (x.rotateRight n).getLsbD 0 else (x.rotateRight n).getLsbD (i + 1) := by
  have hr := Nat.mod_lt n (show 0 < w by omega)
  rw [BitVec.getLsbD_rotateRight, BitVec.getLsbD_rotateRight, BitVec.getLsbD_rotateRight, succ_mod_eq n (by omega)]
  simp only [Bool.cond_eq_ite, decide_eq_true_eq, hi, show 0 < w by omega, decide_true, Bool.true_and]
  split_ifs <;> grind

/-! ## The loop -/

/-- The loop's last round done last. -/
theorem shiftLoop_succ {w : Nat} (op : ShiftOp) (n : Nat) (v : BitVec w) (c : Bool) :
    shiftLoop op (n + 1) v c = shiftStep op (shiftLoop op n v c).1 (shiftLoop op n v c).2 := by
  induction n generalizing v c with
  | zero => rfl
  | succ n ih => exact ih (shiftStep op v c).1 (shiftStep op v c).2

/-! ## The closed forms, one round more

For each operation, the value of the closed form in one expression that holds for amount 0 too, and what one round more makes of
value and carry (42_shift_rotate.md R281 to R287). -/

theorem rotateLeft_zero {w : Nat} (x : BitVec w) : x.rotateLeft 0 = x := by
  apply BitVec.eq_of_getLsbD_eq
  intro i hi
  simp [hi]

theorem rotateRight_zero {w : Nat} (x : BitVec w) : x.rotateRight 0 = x := by
  apply BitVec.eq_of_getLsbD_eq
  intro i hi
  simp [hi]

theorem shiftValue_rlc_fst {w : Nat} (n : Nat) (v : BitVec w) (c : Bool) : (shiftValue .rlc n v c).1 = v.rotateLeft n := by
  cases n with
  | zero => exact (rotateLeft_zero v).symm
  | succ n => rfl

theorem shiftValue_rlc_succ {w : Nat} (hw : 0 < w) (n : Nat) (v : BitVec w) (c : Bool) :
    shiftValue .rlc (n + 1) v c = shiftStep .rlc (shiftValue .rlc n v c).1 (shiftValue .rlc n v c).2 := by
  simp only [shiftStep, shiftValue_rlc_fst]
  refine Prod.ext (BitVec.eq_of_getLsbD_eq fun i hi => ?_) ?_
  · rw [getLsbD_shiftLeft_one_or _ _ hi, shiftValue_rlc_fst, getLsbD_rotateLeft_succ v n hi]
  · exact getLsbD_rotateLeft_succ v n hw

theorem shiftValue_rrc_fst {w : Nat} (n : Nat) (v : BitVec w) (c : Bool) : (shiftValue .rrc n v c).1 = v.rotateRight n := by
  cases n with
  | zero => exact (rotateRight_zero v).symm
  | succ n => rfl

theorem shiftValue_rrc_succ {w : Nat} (hw : 0 < w) (n : Nat) (v : BitVec w) (c : Bool) :
    shiftValue .rrc (n + 1) v c = shiftStep .rrc (shiftValue .rrc n v c).1 (shiftValue .rrc n v c).2 := by
  simp only [shiftStep, shiftValue_rrc_fst]
  refine Prod.ext (BitVec.eq_of_getLsbD_eq fun i hi => ?_) ?_
  · rw [getLsbD_ushiftRight_one_or _ _ hi, shiftValue_rrc_fst, getLsbD_rotateRight_succ v n hi]
  · change (v.rotateRight (n + 1)).msb = _
    rw [BitVec.msb_eq_getLsbD_last, getLsbD_rotateRight_succ v n (by omega), if_pos (by omega)]

/-- RL rotates the carry, put above the value, and the value as one. -/
theorem shiftValue_rl_eq {w : Nat} (n : Nat) (v : BitVec w) (c : Bool) :
    shiftValue .rl n v c = (((BitVec.cons c v).rotateLeft n).setWidth w, ((BitVec.cons c v).rotateLeft n).msb) := by
  cases n with
  | zero => simp [shiftValue, rotateLeft_zero]
  | succ n => rfl

theorem shiftValue_rl_succ {w : Nat} (hw : 0 < w) (n : Nat) (v : BitVec w) (c : Bool) :
    shiftValue .rl (n + 1) v c = shiftStep .rl (shiftValue .rl n v c).1 (shiftValue .rl n v c).2 := by
  simp only [shiftStep, shiftValue_rl_eq]
  generalize BitVec.cons c v = x
  refine Prod.ext (BitVec.eq_of_getLsbD_eq fun i hi => ?_) ?_
  · rw [getLsbD_shiftLeft_one_or _ _ hi, BitVec.getLsbD_setWidth, BitVec.getLsbD_setWidth,
      getLsbD_rotateLeft_succ x n (by omega)]
    simp [hi, show i - 1 < w by omega]
  · change (x.rotateLeft (n + 1)).msb = ((x.rotateLeft n).setWidth w).msb
    rw [BitVec.msb_eq_getLsbD_last, BitVec.msb_eq_getLsbD_last, BitVec.getLsbD_setWidth, getLsbD_rotateLeft_succ x n (by omega)]
    simp [show w ≠ 0 by omega, hw]

/-- RR rotates the value and the carry, put below it, as one. -/
theorem shiftValue_rr_eq {w : Nat} (n : Nat) (v : BitVec w) (c : Bool) :
    shiftValue .rr n v c =
      (((v.concat c).rotateRight n).extractLsb' 1 w, ((v.concat c).rotateRight n).getLsbD 0) := by
  cases n with
  | zero =>
    rw [rotateRight_zero]
    refine Prod.ext (BitVec.eq_of_getLsbD_eq fun i hi => ?_) BitVec.getLsbD_concat_zero.symm
    simp [shiftValue, hi, Nat.add_comm 1 i]
  | succ n => rfl

theorem shiftValue_rr_succ {w : Nat} (hw : 0 < w) (n : Nat) (v : BitVec w) (c : Bool) :
    shiftValue .rr (n + 1) v c = shiftStep .rr (shiftValue .rr n v c).1 (shiftValue .rr n v c).2 := by
  simp only [shiftStep, shiftValue_rr_eq]
  generalize v.concat c = x
  refine Prod.ext (BitVec.eq_of_getLsbD_eq fun i hi => ?_) ?_
  · rw [getLsbD_ushiftRight_one_or _ _ hi, BitVec.getLsbD_extractLsb', BitVec.getLsbD_extractLsb',
      getLsbD_rotateRight_succ x n (by omega)]
    by_cases hlast : i + 1 = w
    · simp [hi, hlast, show 1 + i = w by omega]
    · simp [hi, hlast, show i + 1 < w by omega, Nat.add_comm 1]
  · rw [BitVec.getLsbD_extractLsb', getLsbD_rotateRight_succ x n (by omega)]
    simp [hw, show w ≠ 0 by omega]

theorem shiftValue_sla_fst {w : Nat} (n : Nat) (v : BitVec w) (c : Bool) : (shiftValue .sla n v c).1 = v <<< n := by
  cases n with
  | zero => simp [shiftValue]
  | succ n =>
    change (if n + 1 < w then v <<< (n + 1) else 0) = _
    split
    · rfl
    · exact (BitVec.shiftLeft_eq_zero (by omega)).symm

theorem shiftValue_sla_succ {w : Nat} (hw : 0 < w) (n : Nat) (v : BitVec w) (c : Bool) :
    shiftValue .sla (n + 1) v c = shiftStep .sla (shiftValue .sla n v c).1 (shiftValue .sla n v c).2 := by
  simp only [shiftStep, shiftValue_sla_fst]
  refine Prod.ext ?_ ?_
  · rw [shiftValue_sla_fst, BitVec.shiftLeft_add]
  · change (if n + 1 ≤ w then v.getLsbD (w - (n + 1)) else false) = _
    rw [BitVec.msb_eq_getLsbD_last, BitVec.getLsbD_shiftLeft]
    by_cases h : n + 1 ≤ w
    · simp [h, hw, show ¬(w - 1 < n) by omega, show w - (n + 1) = w - 1 - n by omega]
    · simp [h, show w - 1 < n by omega]

theorem shiftValue_srl_fst {w : Nat} (n : Nat) (v : BitVec w) (c : Bool) : (shiftValue .srl n v c).1 = v >>> n := by
  cases n with
  | zero => simp [shiftValue]
  | succ n =>
    change (if n + 1 < w then v >>> (n + 1) else 0) = _
    split
    · rfl
    · exact (BitVec.ushiftRight_eq_zero (by omega)).symm

theorem shiftValue_srl_succ {w : Nat} (n : Nat) (v : BitVec w) (c : Bool) :
    shiftValue .srl (n + 1) v c = shiftStep .srl (shiftValue .srl n v c).1 (shiftValue .srl n v c).2 := by
  simp only [shiftStep, shiftValue_srl_fst]
  refine Prod.ext ?_ ?_
  · rw [shiftValue_srl_fst, BitVec.shiftRight_add]
  · change (if n + 1 ≤ w then v.getLsbD n else false) = _
    rw [BitVec.getLsbD_ushiftRight, Nat.add_zero]
    split
    · rfl
    · exact (BitVec.getLsbD_of_ge v n (by omega)).symm

/-- SRA past the width leaves the sign in every bit, which is what the arithmetic shift gives too. -/
theorem shiftValue_sra_fst {w : Nat} (n : Nat) (v : BitVec w) (c : Bool) : (shiftValue .sra n v c).1 = v.sshiftRight n := by
  cases n with
  | zero => simp [shiftValue]
  | succ n =>
    simp only [shiftValue, shiftClosed, Nat.add_one_ne_zero, if_false]
    by_cases h : n + 1 < w
    · simp [h]
    · apply BitVec.eq_of_getLsbD_eq
      intro i hi
      rw [BitVec.getLsbD_sshiftRight]
      cases v.msb <;> simp [h, hi, show ¬(n + 1 + i < w) by omega]

theorem shiftValue_sra_succ {w : Nat} (hw : 0 < w) (n : Nat) (v : BitVec w) (c : Bool) :
    shiftValue .sra (n + 1) v c = shiftStep .sra (shiftValue .sra n v c).1 (shiftValue .sra n v c).2 := by
  simp only [shiftStep, shiftValue_sra_fst]
  refine Prod.ext (BitVec.eq_of_getLsbD_eq fun i hi => ?_) ?_
  · rw [getLsbD_ushiftRight_one_or _ _ hi, shiftValue_sra_fst, BitVec.msb_sshiftRight, BitVec.getLsbD_sshiftRight,
      BitVec.getLsbD_sshiftRight]
    by_cases hlast : i + 1 = w
    · simp [hlast, hi, show ¬(n + 1 + i < w) by omega]
    · simp [hlast, show ¬(w ≤ i) by omega, show ¬(w ≤ i + 1) by omega, show n + 1 + i = n + (i + 1) by omega]
  · simp only [shiftValue, shiftClosed, Nat.add_one_ne_zero, if_false]
    rw [BitVec.getLsbD_sshiftRight, decide_eq_false (by omega), Bool.not_false, Bool.true_and]
    by_cases h : n + 1 < w
    · rw [if_pos h, if_pos (by omega)]
      rfl
    · rw [if_neg h]
      change v.msb = if n < w then v.getLsbD n else v.msb
      split
      · rw [BitVec.msb_eq_getLsbD_last, show w - 1 = n by omega]
      · rfl

/-! ## The closed forms run the loop -/

theorem shiftValue_succ {w : Nat} (hw : 0 < w) (op : ShiftOp) (n : Nat) (v : BitVec w) (c : Bool) :
    shiftValue op (n + 1) v c = shiftStep op (shiftValue op n v c).1 (shiftValue op n v c).2 := by
  cases op with
  | rlc => exact shiftValue_rlc_succ hw n v c
  | rrc => exact shiftValue_rrc_succ hw n v c
  | rl => exact shiftValue_rl_succ hw n v c
  | rr => exact shiftValue_rr_succ hw n v c
  | sla => exact shiftValue_sla_succ hw n v c
  | sra => exact shiftValue_sra_succ hw n v c
  | srl => exact shiftValue_srl_succ n v c

/-- What the model computes is what the loop of 42_shift_rotate.md R280 leaves, for every amount. -/
theorem shiftValue_eq_shiftLoop {w : Nat} (hw : 0 < w) (op : ShiftOp) (n : Nat) (v : BitVec w) (c : Bool) :
    shiftValue op n v c = shiftLoop op n v c := by
  induction n with
  | zero => rfl
  | succ n ih => rw [shiftValue_succ hw, shiftLoop_succ, ih]

/-! ## The instructions -/

/-- Operand 1 and the flags are what the loop leaves, run as often as operand 2 says (42_shift_rotate.md R280). -/
def RunsLoop (op : ShiftOp) (sz : Size) (o1 : Place) (o2 : Operand sz) (i : Instr) (s t : State) : Prop :=
  let res := shiftLoop op (readOp sz o2 s).toNat (readPlace sz o1 s) (getFlag .c s)
  ResultInto (bothReads sz o1 o2 s) sz o1 res.1 false res.2 i s t

/-- Both rows of a shift or rotate. -/
theorem shift_forms (op : ShiftOp) {sel : Nat} {mkR : (sz : Size) → RegCode → Src sz → Instr}
    {mkRM : (sz : Size) → RMOperands sz → Instr}
    (rows : BinaryRows sel mkR mkRM (fun sz o1 o2 => binaryOp sz o1 o2 (aluShift op sz))) (hsel : sel < 32) :
    BinaryForms sel mkR mkRM (RunsLoop op) := by
  refine rows.forms hsel fun sz o1 o2 i s ho => ?_
  obtain ⟨hwrites, hflags, -, helse⟩ := binaryOp_spec i sz ho (aluShift op sz) s fun u hf => by
    rw [aluShift, shiftValue_eq_shiftLoop (Size.bits_pos sz), getFlag, hf, ← getFlag]
  exact ⟨hwrites, hflags, helse⟩

/-- Settles O8: the seven mnemonics run the shift frame, whose closed forms run the loop. -/
theorem shiftsRunTheLoopOfR280 : Obligations.ShiftsRunTheLoopOfR280 :=
  ⟨shift_forms .rlc {} (by decide), shift_forms .rrc {} (by decide), shift_forms .rl {} (by decide),
    shift_forms .rr {} (by decide), shift_forms .sla {} (by decide), shift_forms .sra {} (by decide),
    shift_forms .srl {} (by decide)⟩

end Sys2Proof.Shifts
end

section
/-! The two buses: every access in the terms of addresses modulo 2^32, effective addresses, and the fetch of a step. -/

namespace Sys2Proof.Buses

open Machine

/-! ## Addresses and transfers -/

/-- The address of byte `k` of an access (20_memory.md R72). -/
theorem byteAddr_eq (a : DWord) (k : Nat) : byteAddr a k = (a.toNat + k) % 2 ^ 32 := by
  simp only [byteAddr, BitVec.toNat_add, BitVec.toNat_ofNat, Nat.add_mod_mod]

/-- The device bytes of a read, newest first: one transfer each. -/
theorem readTransfers_eq (sp : Space) (a : DWord) (s : State) (n : Nat) :
    readTransfers sp a s n =
      ((List.range n).filter fun k => isDevice sp s (byteAddr a k)).reverse.map fun k => .read sp (byteAddr a k) := by
  induction n with
  | zero => rfl
  | succ n ih =>
    rw [readTransfers, ih, List.range_succ, List.filter_append]
    by_cases h : isDevice sp s (byteAddr a n) = true <;> simp [h]

/-- The device bytes of a write, newest first: one transfer each. -/
theorem writeTransfers_eq (sp : Space) (a : DWord) (g : Nat → Byte) (s : State) (n : Nat) :
    writeTransfers sp a g s n =
      ((List.range n).filter fun k => isDevice sp s (byteAddr a k)).reverse.map fun k => .write sp (byteAddr a k) (g k) := by
  induction n with
  | zero => rfl
  | succ n ih =>
    rw [writeTransfers, ih, List.range_succ, List.filter_append]
    by_cases h : isDevice sp s (byteAddr a n) = true <;> simp [h]

theorem busWrite_transfers (sp : Space) (sz : Size) (a : DWord) (v : BitVec sz.bits) (s : State) :
    (busWrite sp sz a v s).transfers = writesAt sp sz a v s ++ s.transfers := by
  cases sp <;> rfl

/-! ## Accesses -/

/-- What one read and one write of a bus do, in the addresses of their bytes (20_memory.md R72 to R74, R79). -/
theorem bus_littleEndian (sp : Space) (sz : Size) (a : DWord) (v : BitVec sz.bits) (s : State) :
    (∀ k < sz.bytes, (busRead sp sz a s).extractLsb' (8 * k) 8 =
      if isDevice sp s (byteAddr a k) then
        Config.deviceAnswer
          (((List.range k).filter fun j => isDevice sp s (byteAddr a j)).reverse.map (fun j => Transfer.read sp (byteAddr a j)) ++
            s.transfers) sp (byteAddr a k)
      else (ramOf sp s).read (byteAddr a k)) ∧
    (∀ k < sz.bytes, (ramOf sp (busWrite sp sz a v s)).read (byteAddr a k) =
      if isDevice sp s (byteAddr a k) then (ramOf sp s).read (byteAddr a k) else v.extractLsb' (8 * k) 8) ∧
    (∀ b : Nat, (∀ k < sz.bytes, b ≠ byteAddr a k) → (ramOf sp (busWrite sp sz a v s)).read b = (ramOf sp s).read b) ∧
    readsAt sp sz a s =
      ((List.range sz.bytes).filter fun k => isDevice sp s (byteAddr a k)).reverse.map (fun j => .read sp (byteAddr a j)) ∧
    (busWrite sp sz a v s).transfers =
      ((List.range sz.bytes).filter fun k => isDevice sp s (byteAddr a k)).reverse.map
        (fun j => .write sp (byteAddr a j) (v.extractLsb' (8 * j) 8)) ++ s.transfers := by
  obtain ⟨hinside, houtside⟩ := busWrite_storedAt sp sz a v s
  refine ⟨fun k hk => ?_, hinside, houtside, readTransfers_eq sp a s sz.bytes, ?_⟩
  · rw [← readTransfers_eq, ← busByteAt_eq]
    exact Machine.byteOf_busRead sp sz a s hk
  · rw [busWrite_transfers, writesAt, writeTransfers_eq]

/-- Settles O41: both buses run the same accesses, whose bytes stand at the addresses modulo 2^32. -/
theorem memoryIsLittleEndian : Obligations.MemoryIsLittleEndian := by
  constructor <;> intro sz a v s <;> simp only [← byteAddr_eq]
  · exact bus_littleEndian .mem sz a v s
  · exact bus_littleEndian .io sz a v s

/-! ## Effective addresses -/

/-- A sign-extended displacement added modulo 2^32. -/
theorem toInt_add_signExtend (x : DWord) (d : BitVec 16) : (x + d.signExtend 32).toInt = (x.toInt + d.toInt).bmod (2 ^ 32) := by
  rw [BitVec.toInt_add, BitVec.toInt_signExtend_of_le (by decide)]

/-- A whole storage read through its DWord code. -/
theorem effAddr_base_disp (c : RegCode) (d : BitVec 16) (s : State) {x : DWord} (h : readReg .dword c s = x) :
    (effAddr (.ind c (some d)) s).toInt = (x.toInt + d.toInt).bmod (2 ^ 32) := by
  subst h
  exact toInt_add_signExtend _ d

/-- Settles O38: the base register is a whole storage, and its displacement is added modulo 2^32. -/
theorem effectiveAddresses : Obligations.EffectiveAddresses := by
  intro s d a
  refine ⟨⟨readReg_dwordBC s, readReg_dwordDE s, readReg_dwordHL s, readReg_dwordA s⟩, ⟨?_, ?_, ?_⟩, rfl⟩
  · exact effAddr_base_disp .r3 d s (readReg_dwordSP s)
  · exact effAddr_base_disp .r4 d s (viewGet_whole s.bank.ix)
  · exact effAddr_base_disp .r5 d s (viewGet_whole s.bank.iy)

/-! ## The step -/

/-- Settles O48: the step's branch for a block that is not stopped and bytes that decode. -/
theorem stepRunsTheDecodedInstruction : Obligations.StepRunsTheDecodedInstruction := by
  intro s i hrun hdecode
  rw [step, if_neg (by simp [hrun]), hdecode]
  rfl

end Sys2Proof.Buses
end

section
/-! Which instructions touch the I/O bus (20_memory.md R71): an effect on the buses that composes along the shared operations,
then said once of `exec`. -/

namespace Sys2Proof.IoBus

open Machine SystemState

/-! ## Effects on the buses -/

/-- The RAM of the I/O bus is unchanged, and what devices have seen more is no transfer on the I/O bus. -/
def LeavesIo (s t : State) : Prop := t.io = s.io ∧ ∃ l, Seen l s t ∧ l.any onIo = false

/-- Devices have seen what they had seen, and perhaps more. -/
def SeesMore (s t : State) : Prop := ∃ l, Seen l s t

theorem LeavesIo.refl (s : State) : LeavesIo s s := ⟨rfl, [], rfl, rfl⟩

theorem LeavesIo.trans {s t u : State} (h : LeavesIo s t) (h' : LeavesIo t u) : LeavesIo s u := by
  obtain ⟨hio, l, hl, hoff⟩ := h
  obtain ⟨hio', l', hl', hoff'⟩ := h'
  exact ⟨hio'.trans hio, l' ++ l, by rw [Seen, hl', hl, List.append_assoc], by rw [List.any_append, hoff, hoff']; rfl⟩

/-- An update of neither the I/O bus's RAM nor the transfers. -/
theorem leavesIo_of_eq {s t : State} (hio : t.io = s.io) (htransfers : t.transfers = s.transfers) : LeavesIo s t :=
  ⟨hio, [], htransfers, rfl⟩

theorem SeesMore.trans {s t u : State} (h : SeesMore s t) (h' : SeesMore t u) : SeesMore s u := by
  obtain ⟨l, hl⟩ := h
  obtain ⟨l', hl'⟩ := h'
  exact ⟨l' ++ l, by rw [Seen, hl', hl, List.append_assoc]⟩

theorem LeavesIo.seesMore {s t : State} (h : LeavesIo s t) : SeesMore s t := by
  obtain ⟨-, l, hl, -⟩ := h
  exact ⟨l, hl⟩

/-! ## The transfers of the memory bus -/

theorem readTransfers_mem_offIo (a : DWord) (s : State) (n : Nat) : (readTransfers .mem a s n).any onIo = false := by
  induction n with
  | zero => rfl
  | succ n ih =>
    rw [readTransfers, List.any_append, ih]
    split <;> rfl

theorem writeTransfers_mem_offIo (a : DWord) (g : Nat → Byte) (s : State) (n : Nat) :
    (writeTransfers .mem a g s n).any onIo = false := by
  induction n with
  | zero => rfl
  | succ n ih =>
    rw [writeTransfers, List.any_append, ih]
    split <;> rfl

theorem placeReads_offIo (sz : Size) (p : Place) (s : State) : (placeReads sz p s).any onIo = false := by
  cases p with
  | reg c => rfl
  | mem m => exact readTransfers_mem_offIo _ s sz.bytes

theorem operandReads_offIo (sz : Size) (o : Operand sz) (s : State) : (operandReads sz o s).any onIo = false := by
  cases o with
  | place p => exact placeReads_offIo sz p s
  | imm v => rfl

theorem placeWrites_offIo (sz : Size) (p : Place) (v : BitVec sz.bits) (s : State) : (placeWrites sz p v s).any onIo = false := by
  cases p with
  | reg c => rfl
  | mem m => exact writeTransfers_mem_offIo _ _ s sz.bytes

/-! ## The shared operations -/

theorem leavesIo_advance (i : Instr) (s : State) : LeavesIo s (advance i s) := leavesIo_of_eq rfl rfl

theorem leavesIo_touchPlace (sz : Size) (p : Place) (s : State) : LeavesIo s (touchPlace sz p s) :=
  ⟨rfl, _, rfl, placeReads_offIo sz p s⟩

theorem leavesIo_touchOp (sz : Size) (o : Operand sz) (s : State) : LeavesIo s (touchOp sz o s) :=
  ⟨rfl, _, rfl, operandReads_offIo sz o s⟩

theorem leavesIo_memTouch (sz : Size) (a : DWord) (s : State) : LeavesIo s (memTouch sz a s) :=
  ⟨rfl, _, rfl, readTransfers_mem_offIo a s sz.bytes⟩

theorem leavesIo_memWrite (sz : Size) (a : DWord) (v : BitVec sz.bits) (s : State) : LeavesIo s (memWrite sz a v s) :=
  ⟨rfl, _, rfl, writeTransfers_mem_offIo a _ s sz.bytes⟩

theorem leavesIo_writeReg (sz : Size) (c : RegCode) (v : BitVec sz.bits) (s : State) : LeavesIo s (writeReg sz c v s) :=
  leavesIo_of_eq (writeReg_io sz c v s) (writeReg_transfers sz c v s)

theorem leavesIo_writePlace (sz : Size) (p : Place) (v : BitVec sz.bits) (s : State) : LeavesIo s (writePlace sz p v s) :=
  ⟨writePlace_io sz p v s, _, writePlace_transfers sz p v s, placeWrites_offIo sz p v s⟩

theorem leavesIo_putFlags (w : FlagWrite) (s : State) : LeavesIo s (putFlags w s) := leavesIo_of_eq rfl rfl

theorem leavesIo_push32 (v : DWord) (s : State) : LeavesIo s (push32 v s) :=
  ⟨rfl, _, rfl, writeTransfers_mem_offIo _ _ _ _⟩

theorem leavesIo_popSP (s : State) : LeavesIo s (popSP s) := ⟨rfl, _, rfl, readTransfers_mem_offIo s.sp s 4⟩

theorem seesMore_ioTouch (sz : Size) (a : DWord) (s : State) : SeesMore s (ioTouch sz a s) := ⟨_, rfl⟩

theorem seesMore_ioWrite (sz : Size) (a : DWord) (v : BitVec sz.bits) (s : State) : SeesMore s (ioWrite sz a v s) := ⟨_, rfl⟩

/-! ## The frames -/

theorem binaryOp_leavesIo (sz : Size) (o1 : Place) (o2 : Operand sz)
    (g : BitVec sz.bits → BitVec sz.bits → State → BitVec sz.bits × FlagWrite) (s : State) : LeavesIo s (binaryOp sz o1 o2 g s) :=
  (((leavesIo_touchPlace sz o1 s).trans (leavesIo_touchOp sz o2 _)).trans (leavesIo_writePlace sz o1 _ _)).trans
    (leavesIo_putFlags _ _)

theorem testOp_leavesIo (sz : Size) (o1 : Place) (o2 : Operand sz) (g : BitVec sz.bits → BitVec sz.bits → FlagWrite) (s : State) :
    LeavesIo s (testOp sz o1 o2 g s) :=
  ((leavesIo_touchPlace sz o1 s).trans (leavesIo_touchOp sz o2 _)).trans (leavesIo_putFlags _ _)

theorem unaryOp_leavesIo (sz : Size) (o1 : Place) (g : BitVec sz.bits → BitVec sz.bits × FlagWrite) (s : State) :
    LeavesIo s (unaryOp sz o1 g s) :=
  ((leavesIo_touchPlace sz o1 s).trans (leavesIo_writePlace sz o1 _ _)).trans (leavesIo_putFlags _ _)

theorem divideOp_leavesIo (sz : Size) (o1 : Place) (g : BitVec sz.bits → BitVec sz.bits) (s : State) :
    LeavesIo s (divideOp sz o1 g s) := by
  unfold divideOp
  dsimp only
  split
  · exact (leavesIo_touchPlace sz o1 s).trans (leavesIo_putFlags _ _)
  · exact ((leavesIo_touchPlace sz o1 s).trans (leavesIo_writePlace sz o1 _ _)).trans (leavesIo_putFlags _ _)

/-! ## Loads, exchanges and control transfer -/

theorem loadOp_leavesIo (sz : Size) (o1 : Place) (o2 : Operand sz) (s : State) : LeavesIo s (loadOp sz o1 o2 s) :=
  (leavesIo_touchOp sz o2 s).trans (leavesIo_writePlace sz o1 _ _)

theorem exchangePlaces_leavesIo (sz : Size) (p q : Place) (s : State) : LeavesIo s (exchangePlaces sz p q s) :=
  (((leavesIo_touchPlace sz p s).trans (leavesIo_touchPlace sz q _)).trans (leavesIo_writePlace sz p _ _)).trans
    (leavesIo_writePlace sz q _ _)

theorem pushOp_leavesIo (o1 : Place) (s : State) : LeavesIo s (pushOp o1 s) :=
  (leavesIo_touchPlace .dword o1 s).trans (leavesIo_push32 _ _)

theorem popOp_leavesIo (o1 : Place) (s : State) : LeavesIo s (popOp o1 s) :=
  (leavesIo_popSP s).trans (leavesIo_writePlace .dword o1 _ _)

theorem leavesIo_setPC (target : DWord) (s : State) : LeavesIo s (setPC target s) := leavesIo_of_eq rfl rfl

theorem branchIf_leavesIo (taken : Bool) (target : DWord) (s : State) :
    LeavesIo s (if taken then setPC target s else s) := by
  split
  · exact leavesIo_setPC target s
  · exact .refl s

theorem jumpOp_leavesIo (cc : Cond) (target : DWord) (s : State) : LeavesIo s (jumpOp cc target s) :=
  branchIf_leavesIo (holds cc s) target s

theorem callOp_leavesIo (cc : Cond) (target : DWord) (s : State) : LeavesIo s (callOp cc target s) := by
  unfold callOp
  split
  · exact (leavesIo_push32 s.pc s).trans (leavesIo_setPC target _)
  · exact .refl s

theorem returnOp_leavesIo (s : State) : LeavesIo s (returnOp s) := (leavesIo_popSP s).trans (leavesIo_setPC _ _)

/-! ## Block elements -/

theorem elemLD_leavesIo (up : Bool) (sz : Size) (s : State) : LeavesIo s (elemLD up sz s) := by
  rw [elemLD_spec]
  exact ((leavesIo_memTouch sz s.bank.hl s).trans (leavesIo_memWrite sz s.bank.de _ _)).trans (leavesIo_of_eq rfl rfl)

theorem elemCP_leavesIo (up : Bool) (sz : Size) (s : State) : LeavesIo s (elemCP up sz s) := by
  rw [elemCP_spec]
  exact (leavesIo_memTouch sz s.bank.hl s).trans (leavesIo_of_eq rfl rfl)

theorem elemTS_leavesIo (up : Bool) (sz : Size) (s : State) : LeavesIo s (elemTS up sz s) := by
  rw [elemTS_spec]
  exact (leavesIo_memTouch sz s.bank.hl s).trans (leavesIo_of_eq rfl rfl)

theorem elemIN_seesMore (up : Bool) (sz : Size) (s : State) : SeesMore s (elemIN up sz s) := by
  rw [elemIN_spec]
  exact ((seesMore_ioTouch sz _ s).trans (leavesIo_memWrite sz s.bank.hl _ _).seesMore).trans
    (leavesIo_of_eq rfl rfl).seesMore

theorem elemOUT_seesMore (up : Bool) (sz : Size) (s : State) : SeesMore s (elemOUT up sz s) := by
  rw [elemOUT_spec]
  exact ((leavesIo_memTouch sz s.bank.hl s).seesMore.trans (seesMore_ioWrite sz _ _ _)).trans
    (leavesIo_of_eq rfl rfl).seesMore

theorem rewindIf_leavesIo (more : State → Bool) (s : State) : LeavesIo s (rewindIf more s) := by
  rw [rewindIf_eq]
  exact leavesIo_of_eq rfl rfl

/-! ## What `exec` can do -/

/-- The mnemonics of the I/O bus (20_memory.md R71). -/
def ioFamily : List String := ["IN", "OUT", "INI", "IND", "INIR", "INDR", "OUTI", "OUTD", "OUTIR", "OUTDR"]

/-- What an instruction can do to the I/O bus's RAM and to the transfers: what every instruction may, or what the I/O family may. -/
inductive BusEffect (s : State) (i : Instr) (t : State) : Prop
  | leavesIo (h : LeavesIo s t)
  | ioFamily (hi : mnemonic i ∈ ioFamily) (h : SeesMore s t)

/-- An operation after the advance of PC. -/
theorem BusEffect.of_advance {i : Instr} {s t : State} (h : LeavesIo (advance i s) t) : BusEffect s i t :=
  .leavesIo ((leavesIo_advance i s).trans h)

/-- An operation of the I/O family after the advance of PC. -/
theorem BusEffect.io_of_advance {i : Instr} {s t : State} (hi : mnemonic i ∈ IoBus.ioFamily) (h : SeesMore (advance i s) t) :
    BusEffect s i t :=
  .ioFamily hi ((leavesIo_advance i s).seesMore.trans h)

theorem halvesOnly_busEffect {i : Instr} {sz : Size} {g : State → State} (hg : ∀ u, LeavesIo u (g u)) (s : State) :
    ∃ t, halvesOnly i sz g s = .next t ∧ BusEffect s i t := by
  rw [halvesOnly_cases]
  split
  · exact ⟨_, rfl, .of_advance (hg _)⟩
  · exact ⟨_, rfl, .leavesIo (leavesIo_of_eq rfl rfl)⟩

theorem dwordOnly_busEffect {i : Instr} {sz : Size} {g : State → State} (hg : ∀ u, LeavesIo u (g u)) (s : State) :
    ∃ t, dwordOnly i sz g s = .next t ∧ BusEffect s i t := by
  rw [dwordOnly_cases]
  split
  · exact ⟨_, rfl, .of_advance (hg _)⟩
  · exact ⟨_, rfl, .leavesIo (leavesIo_of_eq rfl rfl)⟩

theorem exchangeOp_busEffect (i : Instr) (sz : Size) (o1 : Place) (o2 : Operand sz) (s : State) :
    ∃ t, exchangeOp i sz o1 o2 s = .next t ∧ BusEffect s i t := by
  cases o2 with
  | imm v => exact ⟨_, rfl, .leavesIo (leavesIo_of_eq rfl rfl)⟩
  | place q => exact ⟨_, rfl, .of_advance (exchangePlaces_leavesIo sz o1 q _)⟩

theorem execExAltUR_busEffect (sz : Size) (r : RegCode) (s : State) :
    ∃ t, execExAltUR sz r s = .next t ∧ BusEffect s (.exAltUR sz r) t := by
  unfold execExAltUR
  split <;> exact ⟨_, rfl, .leavesIo (leavesIo_of_eq rfl rfl)⟩

/-- A conditional return, RETN's restore of IE included. -/
theorem returnIf_busEffect {i : Instr} (cc : Cond) (g : State → State) (hg : ∀ u, LeavesIo u (g u)) (s : State) :
    BusEffect s i (if holds cc (advance i s) then g (advance i s) else advance i s) := by
  split
  · exact .of_advance (hg _)
  · exact .leavesIo (leavesIo_advance i s)

/-- Every instruction answers a next state; outside the I/O family it leaves the I/O bus, and every one keeps the transfers. -/
theorem exec_busEffect (i : Instr) (s : State) : ∃ t, exec i s = .next t ∧ BusEffect s i t := by
  cases i with
  | addR | adcR | subR | sbcR | andR | orR | xorR | setR | resR | rlcR | rrcR | rlR | rrR | slaR | sraR | srlR
  | addRM | adcRM | subRM | sbcRM | andRM | orRM | xorRM | setRM | resRM | rlcRM | rrcRM | rlRM | rrRM | slaRM | sraRM | srlRM =>
    exact ⟨_, rfl, .of_advance (binaryOp_leavesIo _ _ _ _ _)⟩
  | cpR | tstR | bitR | cpRM | tstRM | bitRM => exact ⟨_, rfl, .of_advance (testOp_leavesIo _ _ _ _ _)⟩
  | incUR | decUR | negUR | cplUR | incUM | decUM | negUM | cplUM => exact ⟨_, rfl, .of_advance (unaryOp_leavesIo _ _ _ _)⟩
  | exhUR | extUR | mltUR | exhUM | extUM | mltUM => exact halvesOnly_busEffect (unaryOp_leavesIo _ _ _) s
  | divUR | sdivUR | divUM | sdivUM => exact halvesOnly_busEffect (divideOp_leavesIo _ _ _) s
  | daa => exact ⟨_, rfl, .of_advance ((leavesIo_writeReg .byte codeA _ _).trans (leavesIo_putFlags _ _))⟩
  | ldR | ldRM => exact ⟨_, rfl, .of_advance (loadOp_leavesIo _ _ _ _)⟩
  | exR | exRM => exact exchangeOp_busEffect _ _ _ _ s
  | ldAR => exact ⟨_, rfl, .of_advance (leavesIo_writeReg .byte codeA _ _)⟩
  | pushUR | pushUM => exact dwordOnly_busEffect (pushOp_leavesIo _) s
  | popUR | popUM => exact dwordOnly_busEffect (popOp_leavesIo _) s
  | jp | jrS8 | jr => exact ⟨_, rfl, .of_advance (jumpOp_leavesIo _ _ _)⟩
  | call | callrS8 | callr => exact ⟨_, rfl, .of_advance (callOp_leavesIo _ _ _)⟩
  | ret cc | reti cc => exact ⟨_, rfl, returnIf_busEffect cc returnOp returnOp_leavesIo s⟩
  | retn cc =>
    exact ⟨_, rfl, returnIf_busEffect cc (fun u => restoreIFF1 (returnOp u))
      (fun u => (returnOp_leavesIo u).trans (leavesIo_of_eq rfl rfl)) s⟩
  | rst => exact ⟨_, rfl, .of_advance ((leavesIo_push32 _ _).trans (leavesIo_setPC _ _))⟩
  | djnz => exact ⟨_, rfl, .of_advance ((leavesIo_writeReg .word codeB _ _).trans (branchIf_leavesIo _ _ _))⟩
  | janz => exact ⟨_, rfl, .of_advance (branchIf_leavesIo _ _ _)⟩
  | ldi | ldd => exact ⟨_, rfl, .of_advance (elemLD_leavesIo _ _ _)⟩
  | cpi | cpd => exact ⟨_, rfl, .of_advance (elemCP_leavesIo _ _ _)⟩
  | tsi | tsd => exact ⟨_, rfl, .of_advance (elemTS_leavesIo _ _ _)⟩
  | ldir | lddr => exact ⟨_, rfl, .of_advance ((elemLD_leavesIo _ _ _).trans (rewindIf_leavesIo moreBC _))⟩
  | cpir | cpdr => exact ⟨_, rfl, .of_advance ((elemCP_leavesIo _ _ _).trans (rewindIf_leavesIo moreBC _))⟩
  | tsir | tsdr => exact ⟨_, rfl, .of_advance ((elemTS_leavesIo _ _ _).trans (rewindIf_leavesIo moreBC _))⟩
  | exAltUR sz r => exact execExAltUR_busEffect sz r s
  | exx | exi | ldINN | ldRA | halt | nop => exact ⟨_, rfl, .leavesIo (leavesIo_of_eq rfl rfl)⟩
  | inRM sz r =>
    exact ⟨_, rfl, .io_of_advance (by simp [mnemonic, ioFamily])
      ((seesMore_ioTouch _ _ _).trans (leavesIo_writeReg sz r _ _).seesMore)⟩
  | outRM => exact ⟨_, rfl, .io_of_advance (by simp [mnemonic, ioFamily]) (seesMore_ioWrite _ _ _ _)⟩
  | ini | ind => exact ⟨_, rfl, .io_of_advance (by simp [mnemonic, ioFamily]) (elemIN_seesMore _ _ _)⟩
  | outi | outd => exact ⟨_, rfl, .io_of_advance (by simp [mnemonic, ioFamily]) (elemOUT_seesMore _ _ _)⟩
  | inir | indr =>
    exact ⟨_, rfl, .io_of_advance (by simp [mnemonic, ioFamily])
      ((elemIN_seesMore _ _ _).trans (rewindIf_leavesIo moreB _).seesMore)⟩
  | outir | outdr =>
    exact ⟨_, rfl, .io_of_advance (by simp [mnemonic, ioFamily])
      ((elemOUT_seesMore _ _ _).trans (rewindIf_leavesIo moreB _).seesMore)⟩

theorem busEffect_of_exec {i : Instr} {s t : State} (h : exec i s = .next t) : BusEffect s i t := by
  obtain ⟨u, hu, heffect⟩ := exec_busEffect i s
  cases hu.symm.trans h
  exact heffect

/-- No effect of an instruction moves the device map (log entry 2). -/
theorem devices_of_exec {i : Instr} {s t : State} (h : exec i s = .next t) : t.devices = s.devices := by
  replace h := effect_of_exec h
  cases h with
  | none h | aluFlags _ h | restoreIE _ h =>
    obtain ⟨⟨-, -, -, -, -, -, hdevices⟩, -⟩ := h
    exact hdevices
  | violation | exchangeBanks | loadI | loadR | halt => rfl

/-- Settles O58: an instruction either leaves the I/O bus or is of the I/O family. -/
theorem onlyIoInstructionsTouchTheIoBus : Obligations.OnlyIoInstructionsTouchTheIoBus := by
  intro i s t h
  refine ⟨devices_of_exec h, ?_⟩
  cases busEffect_of_exec h with
  | leavesIo hleaves =>
    obtain ⟨hio, l, hl, hoff⟩ := hleaves
    refine ⟨l, hl, fun htouched => ?_⟩
    rcases htouched with hram | hon
    · exact absurd hio hram
    · simp [hoff] at hon
  | ioFamily hi hmore =>
    obtain ⟨l, hl⟩ := hmore
    exact ⟨l, hl, fun _ => hi⟩

end Sys2Proof.IoBus
end

section
/-! CP, and the overflow flag of the add and subtract families (40_arith.md R203, R204, R222). The model computes PV from the
signs of the operands and of the truncated result; the exact result leaves the signed range exactly when truncation wraps it
to the other sign. -/

namespace Sys2Proof.Overflow

open Machine AluForms

/-! ## Compare -/

/-- Settles O3: CP runs the frame that only tests, with the flags of a subtraction with borrow 0. -/
theorem cpComparesWithoutWriting : Obligations.CpComparesWithoutWriting := by
  have rows : BinaryRows 6 .cpR .cpRM (fun sz o1 o2 => testOp sz o1 o2 (aluCp sz)) := {}
  refine rows.forms (by decide) fun sz o1 o2 i s ho => ?_
  obtain ⟨hreads, hflags, helse⟩ := testOp_spec i sz ho (aluCp sz) s
  exact ⟨hreads, subFlags_left hflags, helse⟩

/-! ## The signed value of a result -/

/-- The signed value of the truncated sum is the exact signed sum, wrapped. -/
theorem toInt_addResult {w : Nat} (a b : BitVec w) (c : Bool) :
    (addResult a b c).toInt = (a.toInt + b.toInt + c.toNat).bmod (2 ^ w) := by
  rw [addResult, BitVec.toInt_ofNat', BitVec.toInt_eq_toNat_bmod a, BitVec.toInt_eq_toNat_bmod b, add_assoc (Int.bmod _ _),
    Int.bmod_add_bmod, add_left_comm, Int.bmod_add_bmod]
  push_cast
  rw [add_left_comm, add_assoc]

/-- The signed value of the truncated difference is the exact signed difference, wrapped. -/
theorem toInt_subResult {w : Nat} (a b : BitVec w) (c : Bool) :
    (subResult a b c).toInt = (a.toInt - b.toInt - c.toNat).bmod (2 ^ w) := by
  rw [subResult, BitVec.toInt_ofInt, BitVec.toInt_eq_toNat_bmod a, BitVec.toInt_eq_toNat_bmod b, sub_sub (Int.bmod _ _),
    Int.bmod_sub_bmod, sub_add_eq_sub_sub_swap, Int.sub_bmod_bmod, sub_right_comm]

/-- Of the values of at most `w + 1` signed bits, wrapping to `w` bits makes negative those that are negative and fit and those
that overflow upwards. -/
theorem bmod_two_pow_neg_iff {w : Nat} (hw : 0 < w) {v : Int} (hlo : -2 ^ w ≤ v) (hhi : v < 2 ^ w) :
    v.bmod (2 ^ w) < 0 ↔ -2 ^ (w - 1) ≤ v ∧ v < 0 ∨ 2 ^ (w - 1) ≤ v := by
  have hdouble := mul_pow_sub_one hw.ne' (2 : Int)
  have hcast : ((2 ^ w : Nat) : Int) = 2 ^ w := by push_cast; rfl
  rcases lt_or_ge v (-2 ^ (w - 1)) with hbelow | hfits
  · rw [← Int.add_bmod_right, Int.bmod_eq_of_le_mul_two (by omega) (by omega)]
    omega
  · rcases lt_or_ge v (2 ^ (w - 1)) with hfits' | habove
    · rw [Int.bmod_eq_of_le_mul_two (by omega) (by omega)]
      omega
    · rw [← Int.sub_bmod_right, Int.bmod_eq_of_le_mul_two (by omega) (by omega)]
      omega

/-! ## The overflow formulas -/

/-- The form that R203 and R204 share: two pairs of values, each of different signs. -/
theorem msb_xor_and_xor_eq {w : Nat} (x y u v : BitVec w) :
    ((x ^^^ y) &&& (u ^^^ v)).msb =
      decide (¬(x.toInt < 0 ↔ y.toInt < 0) ∧ ¬(u.toInt < 0 ↔ v.toInt < 0)) := by
  rw [BitVec.msb_and, BitVec.msb_xor, BitVec.msb_xor, Bool.eq_iff_iff]
  simp only [BitVec.msb_eq_toInt, Bool.and_eq_true, bne_iff_ne, ne_eq, decide_eq_decide, decide_eq_true_eq]

/-- The PV formula of R203: the result's sign differs from the signs of both operands. -/
theorem addOverflow_eq {w : Nat} (hw : 0 < w) (a b : BitVec w) (c : Bool) :
    ((a ^^^ addResult a b c) &&& (b ^^^ addResult a b c)).msb =
      decide (a.toInt + b.toInt + c.toNat < -2 ^ (w - 1) ∨ 2 ^ (w - 1) ≤ a.toInt + b.toInt + c.toNat) := by
  have hc := c.toNat_le
  have halo := a.le_toInt
  have hahi := a.toInt_lt
  have hblo := b.le_toInt
  have hbhi := b.toInt_lt
  have hdouble := mul_pow_sub_one hw.ne' (2 : Int)
  rw [msb_xor_and_xor_eq, decide_eq_decide, toInt_addResult, bmod_two_pow_neg_iff hw (by omega) (by omega)]
  omega

/-- The PV formula of R204: operand 1's sign differs from the sign of operand 2 and from the result's. -/
theorem subOverflow_eq {w : Nat} (hw : 0 < w) (a b : BitVec w) (c : Bool) :
    ((a ^^^ b) &&& (a ^^^ subResult a b c)).msb =
      decide (a.toInt - b.toInt - c.toNat < -2 ^ (w - 1) ∨ 2 ^ (w - 1) ≤ a.toInt - b.toInt - c.toNat) := by
  have hc := c.toNat_le
  have halo := a.le_toInt
  have hahi := a.toInt_lt
  have hblo := b.le_toInt
  have hbhi := b.toInt_lt
  have hdouble := mul_pow_sub_one hw.ne' (2 : Int)
  rw [msb_xor_and_xor_eq, decide_eq_decide, toInt_subResult, bmod_two_pow_neg_iff hw (by omega) (by omega)]
  omega

/-- Settles O5: both families write PV by the formula of their rule, at a width above 0. -/
theorem overflowFlagIsSignedOverflow : Obligations.OverflowFlagIsSignedOverflow := by
  intro hc sz a b c
  have hw := Size.bits_pos sz
  exact ⟨congrArg some (addOverflow_eq hw a b c), congrArg some (subOverflow_eq hw a b c)⟩

end Sys2Proof.Overflow
end

section
/-! AND, OR and XOR (41_logic.md R250-R252): three mnemonics that differ in their words, their bitwise operation and H alone. -/

namespace Sys2Proof.Logic

open Machine AluForms

/-- The binary frame with the flags of the logic family: both rows of a mnemonic that runs it leave the value of its operation on
the two operands, with H as given and C = 0. -/
theorem logic_forms {sel : Nat} {mkR : (sz : Size) → RegCode → Src sz → Instr}
    {mkRM : (sz : Size) → RMOperands sz → Instr} (op : (sz : Size) → BitVec sz.bits → BitVec sz.bits → BitVec sz.bits) (h : Bool)
    (rows : BinaryRows sel mkR mkRM
      (fun sz o1 o2 => binaryOp sz o1 o2 fun a b _ => (op sz a b, logicFlags h (op sz a b)))) (hsel : sel < 32) :
    BinaryForms sel mkR mkRM (fun sz o1 o2 i s t =>
      ResultInto (bothReads sz o1 o2 s) sz o1 (op sz (readPlace sz o1 s) (readOp sz o2 s)) h false i s t) := by
  refine rows.forms hsel fun sz o1 o2 i s ho => ?_
  obtain ⟨hwrites, hflags, -, helse⟩ :=
    binaryOp_spec i sz ho (fun a b _ => (op sz a b, logicFlags h (op sz a b))) s fun _ _ => rfl
  exact ⟨hwrites, hflags, helse⟩

/-- Settles O6: each mnemonic runs the binary frame with the flags of the logic family, AND with H = 1. -/
theorem andOrXorResultFlagsFrame : Obligations.AndOrXorResultFlagsFrame :=
  ⟨logic_forms (fun _ a b => a &&& b) true {} (by decide), logic_forms (fun _ a b => a ||| b) false {} (by decide),
    logic_forms (fun _ a b => a ^^^ b) false {} (by decide)⟩

end Sys2Proof.Logic
end

section
/-! BIT, SET and RES (43_bit.md): the model masks operand 2 by the width in bits, the statement by the power of two whose
exponent it takes from the size in bytes. BIT runs the frame that only tests; SET and RES run the binary frame and write no
flag. -/

namespace Sys2Proof.BitOps

open Machine AluForms

/-- The low 3, 4 or 5 bits of operand 2 are its value modulo the width (43_bit.md R313). -/
theorem bitIndex_eq (sz : Size) (b : BitVec sz.bits) : bitIndex sz b = b.toNat % 2 ^ (2 + sz.bytes.log2 + 1) := by
  have hwidth : sz.bits = 2 ^ (2 + sz.bytes.log2 + 1) := by cases sz <;> rfl
  rw [bitIndex, ← hwidth]

/-- The binary frame of an operation that writes no flag: both rows of a mnemonic that runs it leave the operation's value in
operand 1 and F as it was. -/
theorem copies_forms {sel : Nat} {mkR : (sz : Size) → RegCode → Src sz → Instr} {mkRM : (sz : Size) → RMOperands sz → Instr}
    (op : (sz : Size) → BitVec sz.bits → BitVec sz.bits → BitVec sz.bits)
    (rows : BinaryRows sel mkR mkRM (fun sz o1 o2 => binaryOp sz o1 o2 fun a b _ => (op sz a b, {}))) (hsel : sel < 32) :
    BinaryForms sel mkR mkRM (fun sz o1 o2 i s t =>
      CopiesInto (bothReads sz o1 o2 s) sz o1 (op sz (readPlace sz o1 s) (readOp sz o2 s)) i s t) := by
  refine rows.forms hsel fun sz o1 o2 i s ho => ?_
  obtain ⟨hwrites, -, hf, helse⟩ := binaryOp_spec i sz ho (fun a b _ => (op sz a b, {})) s fun _ _ => rfl
  exact ⟨hwrites, hf, helse⟩

/-- Settles O10: BIT runs the frame that only tests, SET and RES the binary frame without flags, on the bit that operand 2 selects
modulo the width. -/
theorem bitSetAndResUseOneBit : Obligations.BitSetAndResUseOneBit := by
  simp only [Obligations.BitSetAndResUseOneBit, ← bitIndex_eq]
  refine ⟨?_, ?_, ?_⟩
  · have rows : BinaryRows 11 .bitR .bitRM (fun sz o1 o2 => testOp sz o1 o2 (aluBit sz)) := {}
    refine rows.forms (by decide) fun sz o1 o2 i s ho => ?_
    obtain ⟨hreads, hflags, helse⟩ := testOp_spec i sz ho (aluBit sz) s
    exact ⟨hreads, hflags, helse⟩
  · exact copies_forms (fun sz a b => a ||| BitVec.twoPow sz.bits (bitIndex sz b)) {} (by decide)
  · exact copies_forms (fun sz a b => a &&& ~~~BitVec.twoPow sz.bits (bitIndex sz b)) {} (by decide)

end Sys2Proof.BitOps
end

section
/-! MLT, EXT and EXH (44_bcd_halfwidth.md R332, R340, R341): three mnemonics on half-width pairs. Each runs the unary frame without
flags at the sizes that have halves, so what is left of it is its value in the terms of the statement. -/

namespace Sys2Proof.HalfWidth

open Machine

/-! ## The rows of a mnemonic on half-width pairs -/

/-- Both rows of a mnemonic on half-width pairs have their words and run one frame at the sizes that have halves (30_encoding.md
R130, R133). -/
structure HalfRows (sel : Nat) (mkUR : Size → RegCode → Instr) (mkUM : Size → MemRef → Instr)
    (run : (sz : Size) → Place → State → State) : Prop where
  wordUR : ∀ sz r, baseWord (mkUR sz r) = (encUR sel sz r).1 := by intros; rfl
  wordUM : ∀ sz m, baseWord (mkUM sz m) = (encUM sel sz m).1 := by intros; rfl
  execUR : ∀ sz r s, exec (mkUR sz r) s = halvesOnly (mkUR sz r) sz (run sz (.reg r)) s := by intros; rfl
  execUM : ∀ sz m s, exec (mkUM sz m) s = halvesOnly (mkUM sz m) sz (run sz (.mem m)) s := by intros; rfl

theorem halvesOnly_of_hasHalves {sz : Size} (h : sz.hasHalves = true) (i : Instr) (g : State → State) (s : State) :
    halvesOnly i sz g s = .next (g (advance i s)) := by
  rw [halvesOnly_cases, if_pos h]

/-- A relation that a frame meets on every place holds of both rows that run it at the sizes that have halves. -/
theorem HalfRows.forms {sel : Nat} {mkUR : Size → RegCode → Instr} {mkUM : Size → MemRef → Instr}
    {run : (sz : Size) → Place → State → State} {P : Size → Place → Instr → State → State → Prop}
    (rows : HalfRows sel mkUR mkUM run) (hsel : sel < 16) (hrun : ∀ sz o1 i s, P sz o1 i s (run sz o1 (advance i s))) :
    UnaryForms sel mkUR mkUM Size.hasHalves P := by
  constructor
  · intro sz r s hsz
    obtain ⟨hgroup, -, -, hunary, -⟩ := unaryWord_bits 0 sel (by decide) hsel sz r.code (by have := r.code_lt; omega)
    rw [rows.wordUR, rows.execUR, halvesOnly_of_hasHalves hsz]
    exact ⟨hgroup, hunary, _, rfl, hrun sz _ _ s⟩
  · intro sz m s hsz
    obtain ⟨hgroup, -, -, hunary, -⟩ := unaryWord_bits 1 sel (by decide) hsel sz m.code m.code_lt
    rw [rows.wordUM, rows.execUM, halvesOnly_of_hasHalves hsz]
    exact ⟨hgroup, hunary, _, rfl, hrun sz _ _ s⟩

/-! ## The values -/

theorem aluMlt_eq (sz : Size) (v : BitVec sz.bits) :
    aluMlt sz v = (BitVec.ofNat sz.bits ((lowHalf sz v).toNat * (highHalf sz v).toNat), {}) := by
  rw [aluMlt, loHalf_eq, hiHalf_eq]

theorem aluExt_eq (sz : Size) (v : BitVec sz.bits) : aluExt sz v = ((lowHalf sz v).signExtend sz.bits, {}) := by
  rw [aluExt, loHalf_eq, signedHalf_eq, BitVec.signExtend]

theorem aluExh_eq (sz : Size) (v : BitVec sz.bits) : aluExh sz v = (packed sz (lowHalf sz v) (highHalf sz v), {}) := by
  rw [aluExh, loHalf_eq, hiHalf_eq, packHalves_eq]
  simp only [BitVec.ofInt_natCast, BitVec.ofNat_toNat, BitVec.setWidth_eq]

/-! ## The instructions -/

/-- The unary frame of an operation that writes no flag: both rows of a mnemonic that runs it on half-width pairs leave the
operation's value in the operand and F as it was. -/
theorem copies_forms {sel : Nat} {mkUR : Size → RegCode → Instr} {mkUM : Size → MemRef → Instr}
    {alu : (sz : Size) → BitVec sz.bits → BitVec sz.bits × FlagWrite} {op : (sz : Size) → BitVec sz.bits → BitVec sz.bits}
    (hop : ∀ sz v, alu sz v = (op sz v, {})) (rows : HalfRows sel mkUR mkUM (fun sz o1 => unaryOp sz o1 (alu sz)))
    (hsel : sel < 16) :
    UnaryForms sel mkUR mkUM Size.hasHalves (fun sz o1 i s t =>
      CopiesInto (placeReads sz o1 s) sz o1 (op sz (readPlace sz o1 s)) i s t) := by
  refine rows.forms hsel fun sz o1 i s => ?_
  obtain ⟨hwrites, -, hf, helse⟩ := unaryOp_spec i sz o1 (alu sz) s (hop sz _)
  exact ⟨hwrites, hf, helse⟩

/-- Settles O13: each mnemonic runs the unary frame without flags, and its value is the statement's. -/
theorem mltExtExhResultFrame : Obligations.MltExtExhResultFrame :=
  ⟨copies_forms aluMlt_eq {} (by decide), copies_forms aluExt_eq {} (by decide), copies_forms aluExh_eq {} (by decide)⟩

end Sys2Proof.HalfWidth
end

section
/-! The block family (45_block.md): each mnemonic is its word, an element operation and a counter. What the five element
operations do to the counter and to PC is said once; from it follow PC after one run, for the statements about one element, and how often a
repeating form runs. -/

namespace Sys2Proof.BlockOps

open Machine

/-! ## One run of a mnemonic -/

/-- One run of a block instruction at `s`: PC past its two bytes, one element, and the rewind of a repeating form
(45_block.md R361). -/
def blockRun (repeats : Bool) (more : State → Bool) (elem : State → State) (s : State) : State :=
  let t := elem (setPC (s.pc + 2) s)
  if repeats && more t then setPC (t.pc - 2) t else t

/-- A block mnemonic has its word and runs its element (30_encoding.md R151). -/
structure BlockRow (op : Nat) (mk : Size → Instr) (repeats : Bool) (more : State → Bool) (elem : Size → State → State) :
    Prop where
  word : ∀ sz, baseWord (mk sz) = (encBlock op sz).1 := by intros; rfl
  exec : ∀ sz s, exec (mk sz) s = .next (blockRun repeats more (elem sz) s) := by intros; rfl

/-- A relation that the run meets at every state holds of the mnemonic. -/
theorem BlockRow.form {op : Nat} {mk : Size → Instr} {repeats : Bool} {more : State → Bool} {elem : Size → State → State}
    {P : Size → State → State → Prop} (row : BlockRow op mk repeats more elem) (hop : op < 64)
    (hrun : ∀ sz s, P sz s (blockRun repeats more (elem sz) s)) : BlockForm op mk P := by
  intro sz s
  obtain ⟨hgroup, -, -, -, -, hfield⟩ := encBlock_bits op hop sz
  rw [row.word, row.exec]
  exact ⟨hgroup, hfield, _, rfl, hrun sz s⟩

/-- The four mnemonics of one element operation, on consecutive ops (30_encoding.md R151): up and down, each run once or
repeating. -/
structure BlockFamily (op : Nat) (inc dec incR decR : Size → Instr) (more : State → Bool)
    (elem : Bool → Size → State → State) : Prop where
  inc : BlockRow op inc false more (elem true) := by exact {}
  dec : BlockRow (op + 1) dec false more (elem false) := by exact {}
  incR : BlockRow (op + 2) incR true more (elem true) := by exact {}
  decR : BlockRow (op + 3) decR true more (elem false) := by exact {}

theorem load_family : BlockFamily 0 .ldi .ldd .ldir .lddr moreBC elemLD := {}
theorem compare_family : BlockFamily 4 .cpi .cpd .cpir .cpdr moreBC elemCP := {}
theorem test_family : BlockFamily 8 .tsi .tsd .tsir .tsdr moreBC elemTS := {}
theorem input_family : BlockFamily 12 .ini .ind .inir .indr moreB elemIN := {}
theorem output_family : BlockFamily 16 .outi .outd .outir .outdr moreB elemOUT := {}

/-- A relation that the run meets in both directions, repeating or not, holds of all four mnemonics. -/
theorem BlockFamily.forms {op : Nat} {inc dec incR decR : Size → Instr} {more : State → Bool}
    {elem : Bool → Size → State → State} (family : BlockFamily op inc dec incR decR more elem) (hop : op + 3 < 64)
    {P : Bool → Bool → Size → State → State → Prop}
    (hrun : ∀ up repeats sz s, P up repeats sz s (blockRun repeats more (elem up sz) s)) :
    BlockForm op inc (P true false) ∧ BlockForm (op + 1) dec (P false false) ∧
      BlockForm (op + 2) incR (P true true) ∧ BlockForm (op + 3) decR (P false true) :=
  ⟨family.inc.form (by omega) (hrun true false), family.dec.form (by omega) (hrun false false),
    family.incR.form (by omega) (hrun true true), family.decR.form hop (hrun false true)⟩

/-! ## Counters -/

/-- The counter of the LD, CP and TST forms (45_block.md R360). -/
def counterBC (s : State) : DWord := s.bank.bc

/-- The counter of the I/O forms (45_block.md R360). -/
def counterB (s : State) : BitVec 16 := s.bank.bc.extractLsb' 16 16

/-- An element operation counts a counter down by 1 and leaves PC; `more` tests that counter. -/
structure Counts {w : Nat} (counter : State → BitVec w) (more : State → Bool) (elem : State → State) : Prop where
  more_iff : ∀ s, more s = (counter s != 0)
  down : ∀ s, counter (elem s) = counter s - 1
  pc : ∀ s, (elem s).pc = s.pc
  ofPC : ∀ p s, counter (setPC p s) = counter s := by intros; rfl

theorem elemLD_counts (up : Bool) (sz : Size) : Counts counterBC moreBC (elemLD up sz) where
  more_iff := moreBC_eq
  down s := by rw [elemLD_spec]; rfl
  pc s := by rw [elemLD_spec]; rfl

theorem elemCP_counts (up : Bool) (sz : Size) : Counts counterBC moreBC (elemCP up sz) where
  more_iff := moreBC_eq
  down s := by rw [elemCP_spec]; rfl
  pc s := by rw [elemCP_spec]; rfl

theorem elemTS_counts (up : Bool) (sz : Size) : Counts counterBC moreBC (elemTS up sz) where
  more_iff := moreBC_eq
  down s := by rw [elemTS_spec]; rfl
  pc s := by rw [elemTS_spec]; rfl

theorem elemIN_counts (up : Bool) (sz : Size) : Counts counterB moreB (elemIN up sz) where
  more_iff := moreB_eq
  down s := by rw [elemIN_spec]; exact extract_high _ _
  pc s := by rw [elemIN_spec]; rfl

theorem elemOUT_counts (up : Bool) (sz : Size) : Counts counterB moreB (elemOUT up sz) where
  more_iff := moreB_eq
  down s := by rw [elemOUT_spec]; exact extract_high _ _
  pc s := by rw [elemOUT_spec]; rfl

theorem setPC_of_pc_eq {p : DWord} {s : State} (h : s.pc = p) : setPC p s = s := by
  subst h
  rfl

/-- One run is its element, with PC decided by the counter alone (45_block.md R361). -/
theorem Counts.blockRun_eq {w : Nat} {counter : State → BitVec w} {more : State → Bool} {elem : State → State}
    (h : Counts counter more elem) (repeats : Bool) (s : State) :
    blockRun repeats more elem s =
      setPC (if repeats && counter s - 1 != 0 then s.pc else s.pc + 2) (elem (setPC (s.pc + 2) s)) := by
  have hmore : more (elem (setPC (s.pc + 2) s)) = (counter s - 1 != 0) := by rw [h.more_iff, h.down, h.ofPC]
  have hpc : (elem (setPC (s.pc + 2) s)).pc = s.pc + 2 := h.pc _
  simp only [blockRun, hmore, hpc, BitVec.add_sub_cancel]
  split
  next => rfl
  next => exact (setPC_of_pc_eq hpc).symm

/-! ## The flags of a comparison -/

theorem subResult_false {sz : Size} (a b : BitVec sz.bits) : subResult a b false = a - b := by
  rw [subResult_eq (Size.bits_pos sz), carryIn, BitVec.ofBool_false, BitVec.ofNat_eq_ofNat, BitVec.setWidth_zero,
    BitVec.sub_zero]

theorem sub_beq_zero {w : Nat} (a b : BitVec w) : (a - b == 0) = (a == b) := by
  rw [Bool.eq_iff_iff, beq_iff_eq, beq_iff_eq, sub_eq_zero]

/-- The flags of `elem_CP` (45_block.md R360): S, Z, H and N of the comparison, PV as given, C unchanged. -/
theorem aluFlagsAre_compare {sz : Size} {s t : State} (hf : t.f = s.f) (a b : BitVec sz.bits) (pv : Bool) :
    AluFlagsAre s (putFlags { subFlags Config.hcWide sz a b false with c := none, pv := some pv } t) (a - b).msb (a == b)
      (halfCarryLeft sz (decide (a.toNat % 16 < b.toNat % 16)) (getFlag .h s)) pv true (getFlag .c s) := by
  have hflags := aluFlagsAre_putFlags { subFlags Config.hcWide sz a b false with c := none, pv := some pv } hf
  simpa only [subFlags, szFlags, Option.getD_some, Option.getD_none, halfCarry_getD, subResult_false, sub_beq_zero,
    Bool.toNat_false, Nat.add_zero] using hflags

/-! ## One element -/

/-- Settles O15: one run of `elem_LD`. -/
theorem blockLoadCopiesOneElement : Obligations.BlockLoadCopiesOneElement := by
  unfold Obligations.BlockLoadCopiesOneElement
  intro step
  refine load_family.forms (P := step) (by decide) fun up repeats sz s => ?_
  rw [(elemLD_counts up sz).blockRun_eq, elemLD_spec, memRead_setPC]
  refine ⟨rfl, rfl, (memWrite_storedAt sz s.bank.de _ s).congr rfl rfl rfl, ?seen, aluFlagsAre_putFlags _ rfl, rfl,
    ⟨rfl, rfl, rfl, rfl, rfl, rfl, rfl⟩, ioSame_of_eq rfl⟩
  case seen => simp [Seen]

/-- Settles O16: one run of `elem_CP`, whose S, Z and H are those of a subtraction with borrow 0. -/
theorem blockCompareTestsOneElement : Obligations.BlockCompareTestsOneElement := by
  unfold Obligations.BlockCompareTestsOneElement
  intro step
  refine compare_family.forms (P := step) (by decide) fun up repeats sz s => ?_
  rw [(elemCP_counts up sz).blockRun_eq, elemCP_spec, memRead_setPC, readReg_setPC]
  refine ⟨rfl, rfl, memSame_of_eq rfl, ?seen, aluFlagsAre_compare rfl _ _ _, rfl,
    ⟨rfl, rfl, rfl, rfl, rfl, rfl, rfl⟩, ioSame_of_eq rfl⟩
  case seen => simp [Seen]

/-- Settles O17: one run of `elem_TS`. -/
theorem blockTestTestsOneElement : Obligations.BlockTestTestsOneElement := by
  unfold Obligations.BlockTestTestsOneElement
  intro step
  refine test_family.forms (P := step) (by decide) fun up repeats sz s => ?_
  rw [(elemTS_counts up sz).blockRun_eq, elemTS_spec, memRead_setPC, readReg_setPC]
  refine ⟨rfl, rfl, memSame_of_eq rfl, ?seen, aluFlagsAre_putFlags _ rfl, rfl, ⟨rfl, rfl, rfl, rfl, rfl, rfl, rfl⟩,
    ioSame_of_eq rfl⟩
  case seen => simp [Seen]

/-- Settles O18: one run of `elem_IN`. -/
theorem blockInputStoresOneElement : Obligations.BlockInputStoresOneElement := by
  unfold Obligations.BlockInputStoresOneElement
  intro step
  refine input_family.forms (P := step) (by decide) fun up repeats sz s => ?_
  rw [(elemIN_counts up sz).blockRun_eq, elemIN_spec, setPC_bank, ioRead_setPC]
  refine ⟨rfl, rfl, (memWrite_storedAt sz s.bank.hl _ s).congr rfl rfl rfl, ?seen, aluFlagsAre_putFlags _ rfl, rfl,
    ⟨rfl, rfl, rfl, rfl, rfl, rfl, rfl⟩, ioSame_of_eq rfl⟩
  case seen => simp [Seen]

/-- Settles O19: one run of `elem_OUT`. -/
theorem blockOutputWritesOneElement : Obligations.BlockOutputWritesOneElement := by
  unfold Obligations.BlockOutputWritesOneElement
  intro step
  refine output_family.forms (P := step) (by decide) fun up repeats sz s => ?_
  rw [(elemOUT_counts up sz).blockRun_eq, elemOUT_spec, setPC_bank, memRead_setPC]
  refine ⟨rfl, rfl, memSame_of_eq rfl, (ioWrite_storedAt sz _ _ s).congr rfl rfl rfl, ?seen, aluFlagsAre_putFlags _ rfl, rfl,
    ⟨rfl, rfl, rfl, rfl, rfl, rfl, rfl⟩⟩
  case seen => simp [Seen]

/-! ## Repetition -/

/-- A repeating form counts its counter down by 1 in each run and moves PC back while the counter is not 0. -/
def RepeatsBy {w : Nat} (i : Instr) (counter : State → BitVec w) : Prop :=
  ∀ s, ∃ t, exec i s = .next t ∧ counter t = counter s - 1 ∧ BlockPC true (counter s - 1 != 0) s t

theorem BlockRow.repeatsBy {op w : Nat} {mk : Size → Instr} {counter : State → BitVec w} {more : State → Bool}
    {elem : Size → State → State} (row : BlockRow op mk true more elem) (sz : Size) (h : Counts counter more (elem sz)) :
    RepeatsBy (mk sz) counter := by
  intro s
  refine ⟨_, row.exec sz s, ?_⟩
  rw [h.blockRun_eq]
  exact ⟨by rw [h.ofPC, h.down, h.ofPC], rfl⟩

/-- A counter counted down by 1, as a number: a counter of 0 counts from 2^w (45_block.md R361). -/
theorem toNat_sub_one {w : Nat} (x : BitVec w) : (x - 1).toNat = countedTimes w x.toNat - 1 := by
  have hx := x.isLt
  unfold countedTimes
  split
  next h =>
    obtain rfl : x = 0#w := BitVec.eq_of_toNat_eq h
    rw [BitVec.ofNat_eq_ofNat, BitVec.zero_sub, BitVec.neg_one_eq_allOnes, BitVec.toNat_allOnes]
  next h =>
    have hone : (1#w).toNat = 1 := Nat.mod_eq_of_lt (by omega)
    rw [BitVec.ofNat_eq_ofNat, BitVec.toNat_sub_of_le (BitVec.le_def.mpr (by rw [hone]; omega)), hone]

/-- The counter after `n + 1` runs, and PC: back at the form's own address before the last run, past the form after it. -/
theorem RepeatsBy.execTimes_succ {w : Nat} {i : Instr} {counter : State → BitVec w} (h : RepeatsBy i counter) (n : Nat)
    (s : State) (hn : n < countedTimes w (counter s).toNat) :
    ∃ t, execTimes i (n + 1) s = some t ∧ (counter t).toNat = countedTimes w (counter s).toNat - (n + 1) ∧
      t.pc = if n + 1 = countedTimes w (counter s).toNat then s.pc + 2 else s.pc := by
  induction n generalizing s with
  | zero =>
    obtain ⟨t, hexec, hcount, hpc⟩ := h s
    have hlast : counter s - 1 = 0 ↔ 0 + 1 = countedTimes w (counter s).toNat := by
      rw [← BitVec.toNat_inj, toNat_sub_one]
      simp only [BitVec.ofNat_eq_ofNat, BitVec.toNat_ofNat, Nat.zero_mod]
      omega
    refine ⟨t, by simp only [execTimes, hexec], by rw [hcount, toNat_sub_one], ?_⟩
    rw [hpc]
    simp only [← hlast, Bool.true_and, bne_iff_ne, ite_not]
  | succ n ih =>
    obtain ⟨t, hexec, hcount, hpc⟩ := h s
    have hleft : (counter t).toNat = countedTimes w (counter s).toNat - 1 := by rw [hcount, toNat_sub_one]
    have hagain : countedTimes w (counter t).toNat = countedTimes w (counter s).toNat - 1 := by
      rw [countedTimes, if_neg (by omega), hleft]
    have hback : t.pc = s.pc := by
      have hne : counter s - 1 ≠ 0 := fun hzero => by
        rw [hcount, hzero, BitVec.ofNat_eq_ofNat, BitVec.toNat_zero] at hleft
        omega
      rw [hpc, Bool.true_and, if_pos (bne_iff_ne.mpr hne)]
    obtain ⟨u, hrest, hcount', hpc'⟩ := ih t (by omega)
    refine ⟨u, by simp only [execTimes, hexec] at hrest ⊢; exact hrest, by omega, ?_⟩
    rw [hpc', hagain, hback]
    congr 1
    simp only [eq_iff_iff]
    omega

/-- The counter B.W as a number. -/
theorem toNat_counterB (s : State) : (counterB s).toNat = s.bank.bc.toNat / 2 ^ 16 := by
  have := s.bank.bc.isLt
  rw [counterB, BitVec.extractLsb'_toNat, Nat.shiftRight_eq_div_pow, Nat.mod_eq_of_lt (by omega)]

/-- A form that repeats by a counter runs as often as it counts, in the terms of the statement about both counters. -/
theorem RepeatsBy.runs {w : Nat} {i : Instr} {counter : State → BitVec w} (h : RepeatsBy i counter) {left : State → Nat}
    (hleft : ∀ s, (counter s).toNat = left s) (s : State) (n : Nat) (hpos : 1 ≤ n) (hn : n ≤ countedTimes w (left s)) :
    ∃ t, execTimes i n s = some t ∧ left t = (countedTimes w (left s) - n) % 2 ^ w ∧
      t.pc = if n = countedTimes w (left s) then s.pc + 2 else s.pc := by
  obtain ⟨n, rfl⟩ := Nat.exists_eq_add_of_le' hpos
  rw [← hleft] at hn ⊢
  obtain ⟨t, hexec, hcount, hpc⟩ := h.execTimes_succ n s hn
  exact ⟨t, hexec, by rw [← hleft, ← hcount, Nat.mod_eq_of_lt (counter t).isLt], hpc⟩

/-- Settles O20: each repeating form counts its counter down by 1 in each run. -/
theorem repeatingFormsRunTheCounter : Obligations.RepeatingFormsRunTheCounter := by
  unfold Obligations.RepeatingFormsRunTheCounter
  intro runs sz s
  simp only [List.forall_mem_cons, List.not_mem_nil, false_implies, implies_true, and_true]
  refine ⟨⟨?_, ?_, ?_, ?_, ?_, ?_⟩, ?_, ?_, ?_, ?_⟩
  · exact (load_family.incR.repeatsBy sz (elemLD_counts true sz)).runs (fun _ => rfl) s
  · exact (load_family.decR.repeatsBy sz (elemLD_counts false sz)).runs (fun _ => rfl) s
  · exact (compare_family.incR.repeatsBy sz (elemCP_counts true sz)).runs (fun _ => rfl) s
  · exact (compare_family.decR.repeatsBy sz (elemCP_counts false sz)).runs (fun _ => rfl) s
  · exact (test_family.incR.repeatsBy sz (elemTS_counts true sz)).runs (fun _ => rfl) s
  · exact (test_family.decR.repeatsBy sz (elemTS_counts false sz)).runs (fun _ => rfl) s
  · exact (input_family.incR.repeatsBy sz (elemIN_counts true sz)).runs toNat_counterB s
  · exact (input_family.decR.repeatsBy sz (elemIN_counts false sz)).runs toNat_counterB s
  · exact (output_family.incR.repeatsBy sz (elemOUT_counts true sz)).runs toNat_counterB s
  · exact (output_family.decR.repeatsBy sz (elemOUT_counts false sz)).runs toNat_counterB s

end Sys2Proof.BlockOps
end

section
/-! The stack and control transfer (46_stack_branch.md). PUSH and POP are each one operation on a place, said once for both
rows; a jump or call is a word, a target and what it does with the target; the three returns differ in their words and
in what RETN restores. -/

namespace Sys2Proof.StackBranch

open Machine

/-! ## DWord registers -/

/-- The code of a storage as a DWord register (10_state.md R33). -/
def dwordCode : RegName → RegCode
  | .banked .bc => .r0
  | .banked .de => .r1
  | .banked .hl => .r2
  | .sp => .r3
  | .banked .ix => .r4
  | .banked .iy => .r5
  | .banked .a => .r6

theorem readReg_dwordCode (n : RegName) (s : State) : readReg .dword (dwordCode n) s = readStore n s := by
  cases n with
  | sp => exact viewGet_whole _
  | banked b => cases b <;> exact viewGet_whole _

/-- Every storage is a DWord register, so the registers are the same when those are. -/
theorem regsSame_of_dwords {s t : State} (h : ∀ c, readReg .dword c t = readReg .dword c s) : RegsSame s t := by
  intro n
  rw [← readReg_dwordCode, ← readReg_dwordCode, h]

/-- With the primary bank unchanged no register bit changes but those of SP. -/
theorem regsSameOutside_sp {s t : State} (hbank : t.bank = s.bank) : RegsSameOutside .dword codeSP s t := by
  intro n k hk
  cases n with
  | banked b => rw [readStore, readStore, hbank]
  | sp =>
    have hge : 32 ≤ k := Nat.le_of_not_lt fun hlt => hk ⟨rfl, Nat.zero_le k, hlt⟩
    rw [BitVec.getLsbD_of_ge _ k hge, BitVec.getLsbD_of_ge _ k hge]

theorem readReg_dword_of_bank {s t : State} (hbank : t.bank = s.bank) (c : RegCode) :
    readReg .dword c t = if c = codeSP then t.sp else readReg .dword c s := by
  split
  next h => rw [h, readReg_dwordSP]
  next h => exact readReg_of_outside (regsSameOutside_sp hbank) (viewsDisjoint_of_ne .dword h)

/-! ## PUSH and POP -/

/-- PUSH of a place by `i`: the value read before SP moves is stored at the new SP, after the operand's read. -/
theorem pushOp_spec (i : Instr) (o1 : Place) (s : State) :
    let t := pushOp o1 (advance i s)
    let v := readPlace .dword o1 s
    t.bank = s.bank ∧ t.sp = s.sp - 4 ∧ StoredAt .mem .dword (s.sp - 4) v s t ∧
      Seen (writesAt .mem .dword (s.sp - 4) v s ++ placeReads .dword o1 s) s t ∧ t.f = s.f ∧ Elsewhere i s t := by
  simp only [pushOp, readPlace_advance]
  obtain ⟨hsp, hbank, hstored, -, hf, hpc, hsystem, hio⟩ :=
    push32_spec (readPlace .dword o1 s) (touchPlace .dword o1 (advance i s))
  exact ⟨hbank, hsp, hstored.congr rfl rfl rfl, by simp [Seen], hf, hpc, hsystem, hio⟩

theorem eq_dword_of_isDWord {sz : Size} (h : sz.isDWord = true) : sz = .dword := by
  cases sz with
  | dword => rfl
  | byte | word => cases h

/-- Settles O21: both rows run one operation on their operand. -/
theorem pushStoresBelowSp : Obligations.PushStoresBelowSp := by
  constructor
  · intro sz r s hsz
    obtain rfl := eq_dword_of_isDWord hsz
    obtain ⟨hgroup, -, -, hsel, -⟩ := unaryWord_bits 0 2 (by decide) (by decide) .dword r.code (by have := r.code_lt; omega)
    exact ⟨hgroup, hsel, _, rfl, pushOp_spec _ _ s⟩
  · intro sz m s hsz
    obtain rfl := eq_dword_of_isDWord hsz
    obtain ⟨hgroup, -, -, hsel, -⟩ := unaryWord_bits 1 2 (by decide) (by decide) .dword m.code m.code_lt
    exact ⟨hgroup, hsel, _, rfl, pushOp_spec _ _ s⟩

/-- The state in which POP writes its operand: PC advanced, the dword at SP read, SP moved (46_stack_branch.md R393). -/
def popped (i : Instr) (s : State) : State := popSP (advance i s)

theorem popped_eq (i : Instr) (s : State) : popped i s =
    { s with pc := nextPC i s, sp := s.sp + 4, transfers := readsAt .mem .dword s.sp s ++ s.transfers } := rfl

theorem popOp_advance (i : Instr) (o1 : Place) (s : State) :
    popOp o1 (advance i s) = writePlace .dword o1 (memRead .dword s.sp s) (popped i s) := rfl

/-- Beside its operand, SP and the memory bus POP moves PC alone. -/
theorem popOp_frame (i : Instr) (o1 : Place) (s : State) :
    let t := popOp o1 (advance i s)
    t.f = s.f ∧ Elsewhere i s t := by
  rw [popOp_advance, popped_eq]
  refine ⟨writePlace_f _ _ _ _, writePlace_pc _ _ _ _, ⟨?_, ?_, ?_, ?_, ?_, ?_, ?_⟩, ioSame_of_eq (writePlace_io _ _ _ _)⟩
  all_goals simp

/-- POP of a register. -/
theorem popOp_reg (i : Instr) (r : RegCode) (s : State) :
    let t := popOp (.reg r) (advance i s)
    readReg .dword r t = memRead .dword s.sp s ∧
      (∀ c, c ≠ r → readReg .dword c t = if c = codeSP then s.sp + 4 else readReg .dword c s) ∧
      MemSame s t ∧ Seen (readsAt .mem .dword s.sp s) s t := by
  rw [popOp_advance, writePlace]
  refine ⟨readReg_writeReg_same _ _ _ _, fun c hc => ?_, memSame_of_eq (writeReg_mem _ _ _ _), writeReg_transfers _ _ _ _⟩
  rw [readReg_writeReg_ne .dword _ _ hc]
  exact readReg_dword_of_bank (s := s) (t := popped i s) rfl c

/-- POP to memory: the address is formed from the incremented SP. -/
theorem popOp_mem (i : Instr) (m : MemRef) (s : State) :
    let t := popOp (.mem m) (advance i s)
    let a := effAddr m { s with sp := s.sp + 4 }
    let v := memRead .dword s.sp s
    t.bank = s.bank ∧ t.sp = s.sp + 4 ∧ StoredAt .mem .dword a v s t ∧
      Seen (writesAt .mem .dword a v s ++ readsAt .mem .dword s.sp s) s t := by
  rw [popOp_advance, writePlace]
  have haddr : effAddr m (popped i s) = effAddr m { s with sp := s.sp + 4 } := effAddr_congr rfl rfl m
  rw [haddr]
  exact ⟨rfl, rfl, (memWrite_storedAt .dword _ _ (popped i s)).congr rfl rfl rfl, by simp [Seen, popped]⟩

/-- Settles O22: both rows run one operation on their operand. -/
theorem popLoadsFromSp : Obligations.PopLoadsFromSp := by
  constructor
  · intro r s
    obtain ⟨-, -, -, hsel, -⟩ := unaryWord_bits 0 3 (by decide) (by decide) .dword r.code (by have := r.code_lt; omega)
    obtain ⟨hvalue, hother, hmem, hseen⟩ := popOp_reg (.popUR .dword r) r s
    exact ⟨hsel, _, rfl, hvalue, hother, hmem, hseen, popOp_frame _ _ s⟩
  · intro m s
    obtain ⟨-, -, -, hsel, -⟩ := unaryWord_bits 1 3 (by decide) (by decide) .dword m.code m.code_lt
    obtain ⟨hbank, hsp, hstored, hseen⟩ := popOp_mem (.popUM .dword m) m s
    exact ⟨hsel, _, rfl, hbank, hsp, ⟨hstored, hseen⟩, popOp_frame _ _ s⟩

theorem systemSame_trans {s t u : State} (h : SystemSame s t) (h' : SystemSame t u) : SystemSame s u := by
  obtain ⟨halt, hi, hr, hiff2, hhalted, hfault, hdevices⟩ := h
  unfold SystemSame at h'
  rwa [halt, hi, hr, hiff2, hhalted, hfault, hdevices] at h'

/-- Settles O23, from what PUSH (O21) and POP (O22) do: SP is moved down and up by 4, and RAM gives back what was stored. -/
theorem pushThenPopRestores : Obligations.PushThenPopRestores := by
  intro r s
  obtain ⟨-, -, t, hpush, hbank, hsp, hstored, -, hf, -, hsystem, -⟩ := pushStoresBelowSp.1 .dword r s rfl
  obtain ⟨-, u, hpop, hvalue, hother, -, -, hf', -, hsystem', -⟩ := popLoadsFromSp.1 r t
  have hsp' : t.sp + 4 = s.sp := by rw [hsp, BitVec.sub_add_cancel]
  have hrest : ∀ c, c ≠ r → readReg .dword c u = readReg .dword c s := fun c hc => by
    rw [hother c hc, hsp', readReg_dword_of_bank hbank c]
    split
    next h => rw [h, readReg_dwordSP]
    next => rfl
  refine ⟨t, u, hpush, hpop, hrest, fun ram => regsSame_of_dwords fun c => ?_, hf'.trans hf, systemSame_trans hsystem hsystem'⟩
  by_cases hc : c = r
  · obtain ⟨-, -, -, -, -, -, hdevices⟩ := hsystem
    rw [hc, hvalue, hsp, memRead_of_storedAt hstored hdevices ram, readPlace]
  · exact hrest c hc

/-! ## Jumps and calls -/

/-- The absolute target (46_stack_branch.md R400, R403). -/
def absoluteTarget (q : Src .dword) (_ : Instr) (s : State) : DWord := readSrc q s

/-- The target relative to the next instruction (46_stack_branch.md R401, R402, R404, R405). -/
def relativeTarget {sz : Size} (q : Src sz) (i : Instr) (s : State) : DWord := nextPC i s + (readSrc q s).signExtend 32

/-- A jump or call has its word and, after PC has moved, does `run` with a target (30_encoding.md R140, R165). -/
structure JumpRow (op : Nat) {sz : Size} (mk : Cond → Src sz → Instr) (run : Cond → DWord → State → State)
    (target : Src sz → Instr → State → DWord) : Prop where
  word : ∀ cc q, baseWord (mk cc q) = (encJump op cc q).1 := by intros; rfl
  exec : ∀ cc q s, exec (mk cc q) s = .next (run cc (target q (mk cc q) s) (advance (mk cc q) s)) := by
    intro _ q _; cases q <;> rfl

/-- A relation that the run meets with the row's target holds of the mnemonic. -/
theorem JumpRow.form {op : Nat} {sz : Size} {mk : Cond → Src sz → Instr} {run : Cond → DWord → State → State}
    {target : Src sz → Instr → State → DWord} {P : Cond → Src sz → Instr → State → State → Prop}
    (row : JumpRow op mk run target) (hop : op < 32)
    (hrun : ∀ cc q i s, P cc q i s (run cc (target q i s) (advance i s))) : JumpForm op sz mk P := by
  intro cc q s
  obtain ⟨hgroup, -, -, hfield, -⟩ := encJump_bits op hop cc q
  rw [row.word, row.exec]
  exact ⟨hgroup, hfield, _, rfl, hrun cc q _ s⟩

/-- Settles O24: a jump to an absolute target and two to relative ones. -/
theorem jumpsGoToTheirTargets : Obligations.JumpsGoToTheirTargets := by
  have jp : JumpRow 0 .jp jumpOp absoluteTarget := {}
  have jrS8 : JumpRow 1 .jrS8 jumpOp relativeTarget := {}
  have jr : JumpRow 2 .jr jumpOp relativeTarget := {}
  exact ⟨jp.form (by decide) fun cc _ i s => jumpOp_advance i cc _ s,
    jrS8.form (by decide) fun cc _ i s => jumpOp_advance i cc _ s,
    jr.form (by decide) fun cc _ i s => jumpOp_advance i cc _ s⟩

/-- RST pushes the address of the next instruction and goes to its byte under no condition (46_stack_branch.md R410). -/
theorem exec_rst (imm : Byte) (s : State) :
    ∃ t, exec (.rst imm) s = .next t ∧ t.pc = imm.setWidth 32 ∧ t.sp = s.sp - 4 ∧ t.bank = s.bank ∧
      StoredAt .mem .dword (s.sp - 4) (s.pc + 3) s t ∧ Seen (writesAt .mem .dword (s.sp - 4) (s.pc + 3) s) s t ∧
      t.f = s.f ∧ SystemSame s t ∧ IOSame s t := by
  obtain ⟨hsp, hbank, hstored, hseen, hf, -, hsystem, hio⟩ := push32_spec (s.pc + 3) (advance (.rst imm) s)
  exact ⟨_, rfl, rfl, hsp, hbank, hstored.congr rfl rfl rfl, hseen, hf, hsystem, hio⟩

/-- Settles O25: a call to an absolute target, two to relative ones, and RST. -/
theorem callsAndRstPushAndGo : Obligations.CallsAndRstPushAndGo := by
  have call : JumpRow 3 .call callOp absoluteTarget := {}
  have callrS8 : JumpRow 4 .callrS8 callOp relativeTarget := {}
  have callr : JumpRow 5 .callr callOp relativeTarget := {}
  exact ⟨call.form (by decide) fun cc _ i s => callOp_advance i cc _ s,
    callrS8.form (by decide) fun cc _ i s => callOp_advance i cc _ s,
    callr.form (by decide) fun cc _ i s => callOp_advance i cc _ s,
    fun imm s => ⟨rfl, exec_rst imm s⟩⟩

/-! ## Returns -/

/-- A taken return, with or without RETN's restore of IE (46_stack_branch.md R406, R408). -/
def takenReturn (restores : Bool) (s : State) : State :=
  { returnOp s with f := if restores then (restoreIFF1 s).f else s.f }

/-- A return has its word and, after PC has moved, is taken where its condition holds (30_encoding.md R140, R143, R165). -/
structure ReturnRow (op : Nat) (mk : Cond → Instr) (restores : Bool) : Prop where
  word : ∀ cc, baseWord (mk cc) = (encRet op cc).1 := by intros; rfl
  length : ∀ cc, instrLength (mk cc) = 2 := by intros; rfl
  exec : ∀ cc s, exec (mk cc) s = .next (if holds cc (advance (mk cc) s) then takenReturn restores (advance (mk cc) s)
    else advance (mk cc) s) := by intros; rfl

/-- A taken return restores IE alone, and RETN's alone does. -/
theorem getFlag_takenReturn (restores : Bool) (x : Flag) (s : State) : getFlag x (takenReturn restores s) =
    if restores ∧ x = .ie then s.iff2.getLsbD 0 else getFlag x s := by
  cases restores with
  | false => rfl
  | true => exact (getFlag_restoreIFF1 x s).trans (by simp only [true_and])

theorem takenReturn_bit3 (restores : Bool) (s : State) : (takenReturn restores s).f.getLsbD 3 = s.f.getLsbD 3 := by
  cases restores with
  | false => rfl
  | true => exact SystemState.restoreIFF1_bit3 s

/-- Settles O26: each return is taken, or PC only advances. -/
theorem returnsTakePcFromTheStack : Obligations.ReturnsTakePcFromTheStack := by
  unfold Obligations.ReturnsTakePcFromTheStack
  intro returns
  have of_row : ∀ {op mk restores}, ReturnRow op mk restores → op < 32 → returns mk op restores := by
    intro op mk restores row hop cc s
    obtain ⟨hgroup, -, -, -, -, hreserved⟩ := encRet_bits op hop cc
    rw [row.word, row.exec, holds_advance]
    refine ⟨hgroup, hreserved, _, rfl, ?_⟩
    by_cases htaken : holds cc s
    · simp only [if_pos htaken]
      refine ⟨regsSameOutside_sp rfl, memSame_of_eq rfl, ⟨rfl, rfl, rfl, rfl, rfl, rfl, rfl⟩, ioSame_of_eq rfl, rfl,
        fun x hx => ?otherFlags, takenReturn_bit3 _ _, rfl, rfl, ?ie⟩
      case otherFlags => rw [FlagSame, getFlag_takenReturn, if_neg fun h => hx h.2, getFlag_advance]
      case ie => rw [getFlag_takenReturn, getFlag_advance]; simp only [and_true, advance_iff2]
    · simp only [if_neg htaken]
      refine ⟨regsSameOutside_sp rfl, memSame_of_eq rfl, ⟨rfl, rfl, rfl, rfl, rfl, rfl, rfl⟩, ioSame_of_eq rfl, rfl,
        fun _ _ => rfl, rfl, ?pc, rfl, rfl⟩
      case pc => exact congrArg (fun n => s.pc + BitVec.ofNat 32 n) (row.length cc)
  exact ⟨of_row {} (by decide), of_row {} (by decide), of_row {} (by decide)⟩

/-! ## DJNZ and JANZ -/

/-- The branch of DJNZ and JANZ: to the target unless the counter is 0. -/
theorem branch_unless_zero {w : Nat} (b : BitVec w) (target : DWord) (t : State) :
    (if b != 0 then setPC target t else t) = { t with pc := if b = 0 then t.pc else target } := by
  by_cases hb : b = 0
  · rw [if_neg (by simpa using hb), if_pos hb]
  · rw [if_pos (by simpa using hb), if_neg hb]
    rfl

/-- Settles O27: the decrement is a write of B.W, which leaves C.W; both targets are relative to the next instruction. -/
theorem djnzAndJanzBranch : Obligations.DjnzAndJanzBranch := by
  intro disp s
  obtain ⟨-, -, hdisp, hop⟩ := encSB_bits 1 (by decide) disp
  obtain ⟨-, -, hdisp', hop'⟩ := encSB_bits 2 (by decide) disp
  refine ⟨⟨hop, hdisp, ?djnz⟩, hop', hdisp', ?janz⟩
  case djnz =>
    rw [exec, execDjnz, readReg_advance, readReg_wordB, writeReg_wordB, branch_unless_zero]
    rfl
  case janz =>
    rw [exec, execJanz, readReg_advance, readReg_dwordA, branch_unless_zero]
    rfl

end Sys2Proof.StackBranch
end

section
/-! LD, EX, IN, OUT, EX_Alt and the system instructions (47_load_exchange_system.md). LD and IN write one place after their
reads; both directions of EX between a register and memory leave the memory write over the register write. -/

namespace Sys2Proof.LoadExchange

open Machine

/-! ## LD -/

/-- Settles O28: both rows run the load, which reads operand 2 alone. -/
theorem ldCopiesTheSource : Obligations.LdCopiesTheSource := by
  have rows : AluForms.BinaryRows 0 .ldR .ldRM loadOp := {}
  exact rows.forms (by decide) fun sz o1 o2 i s _ => loadOp_spec i sz o1 o2 s

/-! ## EX -/

theorem exec_exR (sz : Size) (d : RegCode) (q : Src sz) (s : State) :
    exec (.exR sz d q) s = exchangeOp (.exR sz d q) sz (.reg d) (srcOperand q) s := rfl

theorem exec_exRM (sz : Size) (ops : RMOperands sz) (s : State) :
    exec (.exRM sz ops) s = exchangeOp (.exRM sz ops) sz (rmDst ops) (rmSrc ops) s := rfl

/-- Beside its two places and the transfers an exchange by `i` moves PC alone. -/
theorem exchangePlaces_frame (i : Instr) (sz : Size) (p q : Place) (s : State) :
    let t := exchangePlaces sz p q (advance i s)
    t.f = s.f ∧ Elsewhere i s t := by
  obtain ⟨hsystem, hf⟩ := SystemState.exchangePlaces_leavesF i sz p q s
  refine ⟨hf, ?pc, hsystem, ioSame_of_eq ?io⟩
  all_goals simp [AtNext, exchangePlaces]

/-- An exchange of two registers is two view writes, of the values read before them. -/
theorem exchangePlaces_regs (sz : Size) (d c : RegCode) (s : State) :
    exchangePlaces sz (.reg d) (.reg c) s = writeReg sz c (readReg sz d s) (writeReg sz d (readReg sz c s) s) := rfl

/-- The second of two view writes decides where the codes are equal, and leaves the first view alone where they are not. -/
theorem readReg_exchangePlaces_regs (sz : Size) (d c : RegCode) (s : State) :
    let t := exchangePlaces sz (.reg d) (.reg c) s
    readReg sz d t = readReg sz c s ∧ readReg sz c t = readReg sz d s := by
  simp only [exchangePlaces_regs, readReg_writeReg_same, and_true]
  by_cases h : d = c
  · rw [h, readReg_writeReg_same]
  · rw [readReg_writeReg_ne sz _ _ h, readReg_writeReg_same]

/-- Settles O29: a bit outside both views survives each of the two view writes. -/
theorem exExchangesRegisters : Obligations.ExExchangesRegisters := by
  intro sz d c s
  obtain ⟨-, hop, -⟩ := encR_bits 1 (by decide) sz d (.reg c)
  obtain ⟨hd, hc⟩ := readReg_exchangePlaces_regs sz d c (advance (.exR sz d (.reg c)) s)
  simp only [readReg_advance] at hd hc
  refine ⟨hop, _, exec_exR sz d (.reg c) s, hd, hc, fun n k hk => ?others, memSame_of_eq ?mem, ?seen,
    exchangePlaces_frame _ sz _ _ s⟩
  case others =>
    rw [exchangePlaces_regs, writeReg_regsSameOutside sz c _ _ n k (hk c (by simp)),
      writeReg_regsSameOutside sz d _ _ n k (hk d (by simp)), readStore_advance]
  all_goals simp [exchangePlaces_regs, Seen]

/-- A register write and a memory write commute, the address and both values being fixed. -/
theorem writeReg_memWrite (sz : Size) (r : RegCode) (v : BitVec sz.bits) (a : DWord) (w : BitVec sz.bits) (s : State) :
    writeReg sz r v (memWrite sz a w s) = memWrite sz a w (writeReg sz r v s) := by
  have htransfers := fun n x => writeTransfers_congr .mem a (byteOf w) (writeStore_devices n x s) sz.bytes
  simp only [writeReg, memWrite, busWrite, htransfers]
  cases (viewSlot sz r).1 with
  | banked b => rfl
  | sp => rfl

/-- A register written by `i` and memory after it, in a state `u` that differs from `s` by the reads given and by PC. -/
theorem memWrite_writeReg_after {i : Instr} {s u : State} {reads : List Transfer}
    (hu : u = { advance i s with transfers := reads ++ s.transfers }) (sz : Size) (r : RegCode) (v : BitVec sz.bits)
    (a : DWord) (w : BitVec sz.bits) :
    let t := memWrite sz a w (writeReg sz r v u)
    readReg sz r t = v ∧ RegsSameOutside sz r s t ∧ StoredAt .mem sz a w s t ∧
      Seen (writesAt .mem sz a w s ++ reads) s t := by
  have hdevices : (writeReg sz r v u).devices = s.devices := by rw [writeReg_devices, hu, advance_devices]
  have hmem : (writeReg sz r v u).mem = s.mem := by rw [writeReg_mem, hu, advance_mem]
  refine ⟨?value, ?others, ?stored, ?seen⟩
  case value => rw [readReg_memWrite, readReg_writeReg_same]
  case others =>
    intro n k hk
    rw [readStore_memWrite, writeReg_regsSameOutside sz r v u n k hk, hu]
    exact congrArg (·.getLsbD k) (readStore_advance n i s)
  case stored => exact (memWrite_storedAt sz a w (writeReg sz r v u)).congr hdevices.symm hmem.symm rfl
  case seen =>
    rw [Seen, memWrite_transfers, writeReg_transfers, writesAt_congr .mem sz a w hdevices, hu, List.append_assoc]

/-- The registers after a storage write depend on the registers before it. -/
theorem writeStore_registers_congr {s t : State} (hbank : t.bank = s.bank) (hsp : t.sp = s.sp) (n : RegName) (x : DWord) :
    (writeStore n x t).bank = (writeStore n x s).bank ∧ (writeStore n x t).sp = (writeStore n x s).sp := by
  cases n with
  | banked b => exact ⟨congrArg (·.set b x) hbank, hsp⟩
  | sp => exact ⟨hbank, rfl⟩

/-- An address formed after a register write depends on the registers before it. -/
theorem effAddr_writeReg_congr {s t : State} (hbank : t.bank = s.bank) (hsp : t.sp = s.sp) (sz : Size) (r : RegCode)
    (v : BitVec sz.bits) (m : MemRef) : effAddr m (writeReg sz r v t) = effAddr m (writeReg sz r v s) := by
  rw [writeReg, writeReg, readStore_congr hbank hsp]
  obtain ⟨hbank', hsp'⟩ := writeStore_registers_congr hbank hsp (viewSlot sz r).1
    (viewPut (viewSlot sz r).2 (readStore (viewSlot sz r).1 s) v)
  exact effAddr_congr hbank' hsp' m

/-- The register first: the second write forms its address from the register written. -/
theorem exchangePlaces_load (i : Instr) (sz : Size) (r : RegCode) (m : MemRef) (s : State) :
    exchangePlaces sz (.reg r) (.mem m) (advance i s) =
      memWrite sz (effAddr m (writeReg sz r (memRead sz (effAddr m s) s) s)) (readReg sz r s)
        (writeReg sz r (memRead sz (effAddr m s) s) (touchPlace sz (.mem m) (advance i s))) := by
  have hread : readPlace sz (.mem m) (advance i s) = memRead sz (effAddr m s) s := readPlace_advance sz (.mem m) i s
  have haddr : effAddr m (writeReg sz r (memRead sz (effAddr m s) s) (touchPlace sz (.mem m) (advance i s))) =
      effAddr m (writeReg sz r (memRead sz (effAddr m s) s) s) :=
    effAddr_writeReg_congr (s := s) (t := touchPlace sz (.mem m) (advance i s)) rfl rfl sz r _ m
  rw [← haddr, ← hread, ← readReg_advance sz r i s]
  rfl

/-- Memory first: the register write comes second and does not move the address. -/
theorem exchangePlaces_store (i : Instr) (sz : Size) (r : RegCode) (m : MemRef) (s : State) :
    exchangePlaces sz (.mem m) (.reg r) (advance i s) =
      memWrite sz (effAddr m s) (readReg sz r s)
        (writeReg sz r (memRead sz (effAddr m s) s) (touchPlace sz (.mem m) (advance i s))) := by
  have hread : readPlace sz (.mem m) (advance i s) = memRead sz (effAddr m s) s := readPlace_advance sz (.mem m) i s
  rw [← writeReg_memWrite, ← hread, ← readReg_advance sz r i s, ← effAddr_advance m i s]
  rfl

/-- Settles O30: in both directions the state after is the memory write over the register write. -/
theorem exExchangesRegisterAndMemory : Obligations.ExExchangesRegisterAndMemory := by
  unfold Obligations.ExExchangesRegisterAndMemory
  intro exchanged sz r m s
  have exchanges : ∀ i a t, t = memWrite sz a (readReg sz r s)
      (writeReg sz r (memRead sz (effAddr m s) s) (touchPlace sz (.mem m) (advance i s))) →
      t.f = s.f ∧ Elsewhere i s t → exchanged sz r m a i s t := by
    rintro i a t rfl hframe
    obtain ⟨hvalue, hothers, hstored, hseen⟩ := memWrite_writeReg_after (placeRead_after i sz (.mem m) s) sz r
      (memRead sz (effAddr m s) s) a (readReg sz r s)
    exact ⟨hvalue, hothers, hstored, hseen, hframe⟩
  exact
    ⟨⟨_, exec_exRM sz (.load r m) s, exchanges _ _ _ (exchangePlaces_load _ sz r m s) (exchangePlaces_frame _ sz _ _ s)⟩,
      _, exec_exRM sz (.store m (.reg r)) s,
      exchanges _ _ _ (exchangePlaces_store _ sz r m s) (exchangePlaces_frame _ sz _ _ s)⟩

/-- Settles O31: an immediate operand 2 is the exchange's one case that is a violation. -/
theorem exOfAnImmediateIsAViolation : Obligations.ExOfAnImmediateIsAViolation := by
  unfold Obligations.ExOfAnImmediateIsAViolation
  intro raises sz v s
  have raised : ∀ i, exec i s = violation .writeToImmediate i s → raises i s := fun i h =>
    h.trans (violation_eq .writeToImmediate i s)
  exact ⟨fun d => raised _ (exec_exR sz d (.imm v) s), fun m => raised _ (exec_exRM sz (.store m (.imm v)) s)⟩

/-! ## IN and OUT -/

/-- The low byte of a word in format RM is its group, its selector and its direction (30_encoding.md R120). -/
theorem bits_lowByte (w : BaseWord) : bits w 0 8 = bits w 0 2 + 4 * bits w 2 5 + 128 * bits w 7 1 := by
  simp only [bits]
  omega

theorem encRM_lowByte (op : Nat) (hop : op < 32) (sz : Size) (ops : RMOperands sz) :
    bits (encRM op sz ops).1 0 8 = 1 + 4 * op + 128 * ops.dir := by
  obtain ⟨hgroup, hop', hdir, -⟩ := encRM_bits op hop sz ops
  rw [bits_lowByte, hgroup, hop', hdir]

/-- What the port's read by `i` leaves. -/
theorem ioRead_after (i : Instr) (sz : Size) (a : DWord) (s : State) :
    ioTouch sz a (advance i s) = { advance i s with transfers := readsAt .io sz a s ++ s.transfers } := by
  rw [ioTouch, afterRead, readTransfers_congr .io a (advance_devices i s)]
  rfl

/-- Settles O32: IN writes its register alone, after the port's read. -/
theorem inLoadsFromTheIoBus : Obligations.InLoadsFromTheIoBus := by
  intro sz r m s
  have hexec : exec (.inRM sz r m) s = .next (writePlace sz (.reg r) (ioRead sz (effAddr m s) s)
      (ioTouch sz (effAddr m s) (advance (.inRM sz r m) s))) := by
    rw [exec, execInRM, effAddr_advance, ioRead_advance]
    rfl
  obtain ⟨⟨⟨hvalue, hothers, hmem⟩, hseen⟩, hf, helse⟩ :=
    writePlace_after (ioRead_after (.inRM sz r m) sz (effAddr m s) s) sz (.reg r) (ioRead sz (effAddr m s) s) {}
  exact ⟨encRM_lowByte 21 (by decide) sz (.load r m), _, hexec, hvalue, hothers, hseen, hmem, hf, helse⟩

/-- Settles O33: OUT is one write of the I/O bus, whose RAM the memory bus and the registers do not share. -/
theorem outWritesToTheIoBus : Obligations.OutWritesToTheIoBus := by
  intro sz m q s
  have hexec : exec (.outRM sz m q) s = .next (ioWrite sz (effAddr m s) (readSrc q s) (advance (.outRM sz m q) s)) := by
    rw [exec, execOutRM, effAddr_advance, readSrc, readOp_advance]
    rfl
  refine ⟨encRM_lowByte 21 (by decide) sz (.store m q), _, hexec, (ioWrite_storedAt sz _ _ _).congr rfl rfl rfl, ?seen,
    regsSame_of_eq rfl rfl, memSame_of_eq rfl, rfl, ⟨rfl, rfl, rfl, rfl, rfl, rfl, rfl⟩, rfl⟩
  case seen => rw [Seen, ioWrite_transfers, writesAt_congr .io sz _ _ (advance_devices _ _), advance_transfers]

/-! ## EX_Alt -/

/-- One view of a storage replaced in a bank: the view reads the value. -/
theorem viewGet_set_viewPut (bank : Bank) (b : BankReg) {lo w : Nat} (v : BitVec w) (h : lo + w ≤ 32) :
    viewGet lo w ((bank.set b (viewPut lo (bank.get b) v)).get b) = v := by
  rw [Bank.get_set_same, viewGet_viewPut _ _ h]

/-- One view of a storage replaced in a bank: every other bit of the bank is as before. -/
theorem getLsbD_set_viewPut_outside (bank : Bank) {b n : BankReg} {lo w k : Nat} (v : BitVec w) (h : lo + w ≤ 32)
    (hout : ¬(n = b ∧ lo ≤ k ∧ k < lo + w)) :
    ((bank.set b (viewPut lo (bank.get b) v)).get n).getLsbD k = (bank.get n).getLsbD k := by
  by_cases hn : n = b
  · subst hn
    rw [Bank.get_set_same, getLsbD_viewPut _ _ h, if_neg fun hk => hout ⟨rfl, hk⟩]
  · rw [Bank.get_set_ne _ _ hn]

theorem exec_exAltUR {sz : Size} {r : RegCode} {b : BankReg} (hb : (viewSlot sz r).1 = .banked b) (s : State) :
    exec (.exAltUR sz r) s = .next (swapView b (viewSlot sz r).2 sz.bits (advance (.exAltUR sz r) s)) := by
  rw [exec, execExAltUR, hb]

/-- Settles O34: in each bank the view alone is replaced, by the view of the other bank. -/
theorem exAltExchangesOneView : Obligations.ExAltExchangesOneView := by
  intro sz r s b hb lo
  have hle : lo + sz.bits ≤ 32 := viewSlot_le sz r
  exact ⟨_, exec_exAltUR hb s, viewGet_set_viewPut s.bank b _ hle, viewGet_set_viewPut s.alt b _ hle,
    fun n k hout => ⟨getLsbD_set_viewPut_outside s.bank _ hle hout, getLsbD_set_viewPut_outside s.alt _ hle hout⟩, rfl⟩

/-! ## System instructions -/

/-- LD_A_R writes the view A.B (47_load_exchange_system.md R452). -/
theorem exec_ldAR (s : State) : exec .ldAR s =
    .next { s with bank := { s.bank with a := s.bank.a.extractLsb' 8 24 ++ s.r }, pc := s.pc + 2 } := by
  rw [exec, execLdAR, writeReg_byteA]
  rfl

/-- Settles O36: of the five, LD_A_R alone writes a register view; the others write whole elements of the state. -/
theorem systemInstructionsResults : Obligations.SystemInstructionsResults := by
  intro imm s
  exact ⟨⟨rfl, rfl⟩, ⟨rfl, rfl⟩, ⟨rfl, exec_ldAR s⟩, ⟨rfl, rfl⟩, ⟨rfl, rfl⟩⟩

end Sys2Proof.LoadExchange
end

section
/-! One step of the block, said once: what it can do, which errors it records, and the invariant that it keeps. Of the
invariant only the two RAMs need a look at each instruction; the rest follows from the effects of `exec` on the system
registers (`SystemEffect`) and from the statements on F and IFF2. -/

namespace Sys2Proof.Stepping

open Machine SystemState

/-! ## The cases of a step -/

theorem stopped_iff (s : State) : stopped s = true ↔ s.halted = true ∨ s.fault ≠ none := by
  rw [stopped, Bool.or_eq_true, Option.isSome_iff_ne_none]

theorem not_stopped_iff (s : State) : stopped s = false ↔ s.halted = false ∧ s.fault = none := by
  rw [stopped, Bool.or_eq_false_iff, Option.isSome_eq_false_iff, Option.isNone_iff_eq_none]

theorem step_of_stopped {s : State} (h : stopped s = true) : step s = .next s := by
  rw [step, if_pos h]

theorem step_of_decodeError {s : State} {e : DecodeField} (hrun : stopped s = false) (h : decodeAtPC s = .error e) :
    step s = .next (raiseDecodeError e s) := by
  rw [step, if_neg (by simp [hrun]), h]

theorem step_of_decoded {s : State} {i : Instr} (hrun : stopped s = false) (h : decodeAtPC s = .ok i) :
    step s = exec i (fetched (instrLength i) s) :=
  Buses.stepRunsTheDecodedInstruction s i hrun h

/-- What one step from `s` can do: nothing, record an encoding error, or run the instruction at PC. -/
inductive StepCase (s : State) : State → Prop
  | stopped (h : stopped s = true) : StepCase s s
  | decodeError (hrun : Machine.stopped s = false) (e : DecodeField) (h : decodeAtPC s = .error e) :
    StepCase s (raiseDecodeError e s)
  | runs (hrun : Machine.stopped s = false) (i : Instr) (h : decodeAtPC s = .ok i) {t : State}
    (hexec : exec i (fetched (instrLength i) s) = .next t) : StepCase s t

/-- Every step answers a next state, by one of these cases. -/
theorem step_cases (s : State) : ∃ t, step s = .next t ∧ StepCase s t := by
  cases hrun : stopped s with
  | true => exact ⟨s, step_of_stopped hrun, .stopped hrun⟩
  | false =>
    cases hdecode : decodeAtPC s with
    | error e => exact ⟨_, step_of_decodeError hrun hdecode, .decodeError hrun e hdecode⟩
    | ok i =>
      obtain ⟨t, hexec, -⟩ := exec_effect i (fetched (instrLength i) s)
      exact ⟨t, (step_of_decoded hrun hdecode).trans hexec, .runs hrun i hdecode hexec⟩

theorem stepCase_of_step {s t : State} (h : step s = .next t) : StepCase s t := by
  obtain ⟨u, hu, hcase⟩ := step_cases s
  cases hu.symm.trans h
  exact hcase

/-- Settles O52: each of the three cases of a step answers a next state. -/
theorem everyStepAnswersANextState : Obligations.EveryStepAnswersANextState := by
  intro s
  obtain ⟨t, ht, -⟩ := step_cases s
  exact ⟨t, ht⟩

/-! ## Stops and errors -/

/-- Settles O49: the first case of the step, and of the cycle output. -/
theorem stoppedBlockTakesNoStep : Obligations.StoppedBlockTakesNoStep := by
  intro s h
  have hstop : stopped s = true := (stopped_iff s).mpr h
  exact ⟨step_of_stopped hstop, by rw [cycleOutput, if_pos hstop]⟩

/-- Settles O50: an encoding error records its identity after the fetch of the base word, and its cycle count is 0. -/
theorem encodingErrorsArePrecise : Obligations.EncodingErrorsArePrecise := by
  intro s e hrun hdecode
  constructor
  · rw [step_of_decodeError hrun hdecode, raiseDecodeError_eq]
  · rw [cycleOutput, if_neg (by simp [hrun]), hdecode]

/-- Of the effects that `exec` can have, a violation alone moves `fault`. -/
theorem violation_of_fault_ne {i : Instr} {s t : State} (h : SystemEffect s i t) (hne : t.fault ≠ s.fault) :
    ∃ k, t = raiseError (.contractViolation k) (baseWord i) s := by
  cases h with
  | none h | aluFlags _ h | restoreIE _ h =>
    obtain ⟨⟨-, -, -, -, -, hfault, -⟩, -⟩ := h
    exact absurd hfault hne
  | violation k => exact ⟨k, rfl⟩
  | exchangeBanks | loadI | loadR | halt => exact absurd rfl hne

theorem stopped_raiseError (e : Fault) (w : BaseWord) (s : State) : stopped (raiseError e w s) = true :=
  (stopped_iff _).mpr (.inr (Option.some_ne_none _))

/-- Settles O51: `fault` moves by an encoding error or by a violation, each raised after its fetch and before any write. -/
theorem faultingStepsStopTheBlock : Obligations.FaultingStepsStopTheBlock := by
  intro s t hstep hne
  cases stepCase_of_step hstep with
  | stopped => exact absurd rfl hne
  | decodeError hrun e hdecode =>
    rw [hdecode]
    exact ⟨rfl, step_of_stopped (stopped_raiseError _ _ _)⟩
  | runs hrun i hdecode hexec =>
    obtain ⟨k, rfl⟩ := violation_of_fault_ne (effect_of_exec hexec) hne
    rw [hdecode]
    exact ⟨rfl, step_of_stopped (stopped_raiseError _ _ _)⟩

/-! ## The canonical form of the two RAMs -/

/-- Each bus's RAM stays in canonical form (log entry 2). -/
def KeepsCanonical (s t : State) : Prop :=
  (s.mem.wf = true → t.mem.wf = true) ∧ (s.io.wf = true → t.io.wf = true)

/-- An update of neither RAM. -/
theorem keepsCanonical_of_eq {s t : State} (hmem : t.mem = s.mem) (hio : t.io = s.io) : KeepsCanonical s t :=
  ⟨fun h => hmem ▸ h, fun h => hio ▸ h⟩

theorem KeepsCanonical.trans {s t u : State} (h : KeepsCanonical s t) (h' : KeepsCanonical t u) : KeepsCanonical s u :=
  ⟨fun hs => h'.1 (h.1 hs), fun hs => h'.2 (h.2 hs)⟩

theorem memWrite_keepsCanonical (sz : Size) (a : DWord) (v : BitVec sz.bits) (s : State) :
    KeepsCanonical s (memWrite sz a v s) := ⟨writeRam_wf _ sz a v, id⟩

theorem ioWrite_keepsCanonical (sz : Size) (a : DWord) (v : BitVec sz.bits) (s : State) :
    KeepsCanonical s (ioWrite sz a v s) := ⟨id, writeRam_wf _ sz a v⟩

theorem writeReg_keepsCanonical (sz : Size) (c : RegCode) (v : BitVec sz.bits) (s : State) :
    KeepsCanonical s (writeReg sz c v s) := keepsCanonical_of_eq (writeReg_mem sz c v s) (writeReg_io sz c v s)

theorem writePlace_keepsCanonical (sz : Size) (p : Place) (v : BitVec sz.bits) (s : State) :
    KeepsCanonical s (writePlace sz p v s) := by
  cases p with
  | reg c => exact writeReg_keepsCanonical sz c v s
  | mem m => exact memWrite_keepsCanonical sz _ v s

/-! ## The shared operations -/

theorem binaryOp_keepsCanonical (sz : Size) (o1 : Place) (o2 : Operand sz)
    (g : BitVec sz.bits → BitVec sz.bits → State → BitVec sz.bits × FlagWrite) (s : State) :
    KeepsCanonical s (binaryOp sz o1 o2 g s) := writePlace_keepsCanonical sz o1 _ (touchOp sz o2 (touchPlace sz o1 s))

theorem unaryOp_keepsCanonical (sz : Size) (o1 : Place) (g : BitVec sz.bits → BitVec sz.bits × FlagWrite) (s : State) :
    KeepsCanonical s (unaryOp sz o1 g s) := writePlace_keepsCanonical sz o1 _ (touchPlace sz o1 s)

theorem divideOp_keepsCanonical (sz : Size) (o1 : Place) (g : BitVec sz.bits → BitVec sz.bits) (s : State) :
    KeepsCanonical s (divideOp sz o1 g s) := by
  unfold divideOp
  dsimp only
  split
  · exact keepsCanonical_of_eq rfl rfl
  · exact writePlace_keepsCanonical sz o1 _ (touchPlace sz o1 s)

theorem loadOp_keepsCanonical (sz : Size) (o1 : Place) (o2 : Operand sz) (s : State) : KeepsCanonical s (loadOp sz o1 o2 s) :=
  writePlace_keepsCanonical sz o1 _ (touchOp sz o2 s)

theorem exchangePlaces_keepsCanonical (sz : Size) (p q : Place) (s : State) : KeepsCanonical s (exchangePlaces sz p q s) := by
  have hreads : KeepsCanonical s (touchPlace sz q (touchPlace sz p s)) := keepsCanonical_of_eq rfl rfl
  exact (hreads.trans (writePlace_keepsCanonical sz p _ _)).trans (writePlace_keepsCanonical sz q _ _)

theorem push32_keepsCanonical (v : DWord) (s : State) : KeepsCanonical s (push32 v s) :=
  memWrite_keepsCanonical .dword (s.sp - 4) v { s with sp := s.sp - 4 }

theorem pushOp_keepsCanonical (o1 : Place) (s : State) : KeepsCanonical s (pushOp o1 s) :=
  push32_keepsCanonical _ (touchPlace .dword o1 s)

theorem popOp_keepsCanonical (o1 : Place) (s : State) : KeepsCanonical s (popOp o1 s) :=
  writePlace_keepsCanonical .dword o1 _ (popSP s)

/-- A transfer of control that is taken or not. -/
theorem keepsCanonical_ite {s t u : State} (taken : Bool) (ht : KeepsCanonical s t) (hu : KeepsCanonical s u) :
    KeepsCanonical s (if taken then t else u) := by
  cases taken <;> assumption

theorem callOp_keepsCanonical (cc : Cond) (target : DWord) (s : State) : KeepsCanonical s (callOp cc target s) :=
  keepsCanonical_ite _ (push32_keepsCanonical s.pc s) (keepsCanonical_of_eq rfl rfl)

theorem elemLD_keepsCanonical (up : Bool) (sz : Size) (s : State) : KeepsCanonical s (elemLD up sz s) := by
  rw [elemLD_spec]
  exact memWrite_keepsCanonical sz s.bank.de _ (memTouch sz s.bank.hl s)

theorem elemCP_keepsCanonical (up : Bool) (sz : Size) (s : State) : KeepsCanonical s (elemCP up sz s) := by
  rw [elemCP_spec]
  exact keepsCanonical_of_eq rfl rfl

theorem elemTS_keepsCanonical (up : Bool) (sz : Size) (s : State) : KeepsCanonical s (elemTS up sz s) := by
  rw [elemTS_spec]
  exact keepsCanonical_of_eq rfl rfl

theorem elemIN_keepsCanonical (up : Bool) (sz : Size) (s : State) : KeepsCanonical s (elemIN up sz s) := by
  rw [elemIN_spec]
  exact memWrite_keepsCanonical sz s.bank.hl _ (ioTouch sz _ s)

theorem elemOUT_keepsCanonical (up : Bool) (sz : Size) (s : State) : KeepsCanonical s (elemOUT up sz s) := by
  rw [elemOUT_spec]
  exact ioWrite_keepsCanonical sz _ _ (memTouch sz s.bank.hl s)

theorem KeepsCanonical.rewindIf {s t : State} (h : KeepsCanonical s t) (more : State → Bool) :
    KeepsCanonical s (rewindIf more t) := by
  rw [rewindIf_eq]
  exact h

/-! ## What `exec` can do -/

theorem halvesOnly_keepsCanonical {i : Instr} {sz : Size} {g : State → State} (hg : ∀ u, KeepsCanonical u (g u)) (s : State) :
    ∃ t, halvesOnly i sz g s = .next t ∧ KeepsCanonical s t := by
  rw [halvesOnly_cases]
  split
  · exact ⟨_, rfl, hg (advance i s)⟩
  · exact ⟨_, rfl, keepsCanonical_of_eq rfl rfl⟩

theorem dwordOnly_keepsCanonical {i : Instr} {sz : Size} {g : State → State} (hg : ∀ u, KeepsCanonical u (g u)) (s : State) :
    ∃ t, dwordOnly i sz g s = .next t ∧ KeepsCanonical s t := by
  rw [dwordOnly_cases]
  split
  · exact ⟨_, rfl, hg (advance i s)⟩
  · exact ⟨_, rfl, keepsCanonical_of_eq rfl rfl⟩

theorem exchangeOp_keepsCanonical (i : Instr) (sz : Size) (o1 : Place) (o2 : Operand sz) (s : State) :
    ∃ t, exchangeOp i sz o1 o2 s = .next t ∧ KeepsCanonical s t := by
  cases o2 with
  | imm v => exact ⟨_, rfl, keepsCanonical_of_eq rfl rfl⟩
  | place q => exact ⟨_, rfl, exchangePlaces_keepsCanonical sz o1 q (advance i s)⟩

theorem execExAltUR_keepsCanonical (sz : Size) (r : RegCode) (s : State) :
    ∃ t, execExAltUR sz r s = .next t ∧ KeepsCanonical s t := by
  unfold execExAltUR
  split <;> exact ⟨_, rfl, keepsCanonical_of_eq rfl rfl⟩

/-- Every instruction answers a next state, with both RAMs in canonical form if they were. The operation runs on the state with
PC advanced, whose RAMs are those of `s`. -/
theorem exec_keepsCanonical (i : Instr) (s : State) : ∃ t, exec i s = .next t ∧ KeepsCanonical s t := by
  cases i with
  | addR | adcR | subR | sbcR | andR | orR | xorR | setR | resR | rlcR | rrcR | rlR | rrR | slaR | sraR | srlR
  | addRM | adcRM | subRM | sbcRM | andRM | orRM | xorRM | setRM | resRM | rlcRM | rrcRM | rlRM | rrRM | slaRM | sraRM | srlRM =>
    exact ⟨_, rfl, binaryOp_keepsCanonical _ _ _ _ (advance _ s)⟩
  | incUR | decUR | negUR | cplUR | incUM | decUM | negUM | cplUM =>
    exact ⟨_, rfl, unaryOp_keepsCanonical _ _ _ (advance _ s)⟩
  | exhUR | extUR | mltUR | exhUM | extUM | mltUM => exact halvesOnly_keepsCanonical (unaryOp_keepsCanonical _ _ _) s
  | divUR | sdivUR | divUM | sdivUM => exact halvesOnly_keepsCanonical (divideOp_keepsCanonical _ _ _) s
  | ldR | ldRM => exact ⟨_, rfl, loadOp_keepsCanonical _ _ _ (advance _ s)⟩
  | exR | exRM => exact exchangeOp_keepsCanonical _ _ _ _ s
  | exAltUR sz r => exact execExAltUR_keepsCanonical sz r s
  | outRM => exact ⟨_, rfl, ioWrite_keepsCanonical _ _ _ (advance _ s)⟩
  | pushUR | pushUM => exact dwordOnly_keepsCanonical (pushOp_keepsCanonical _) s
  | popUR | popUM => exact dwordOnly_keepsCanonical (popOp_keepsCanonical _) s
  | jp | jrS8 | jr | janz | ret | reti | retn =>
    exact ⟨_, rfl, keepsCanonical_ite _ (keepsCanonical_of_eq rfl rfl) (keepsCanonical_of_eq rfl rfl)⟩
  | djnz =>
    exact ⟨_, rfl, keepsCanonical_ite _ (keepsCanonical_of_eq (by simp) (by simp)) (keepsCanonical_of_eq (by simp) (by simp))⟩
  | call | callrS8 | callr => exact ⟨_, rfl, callOp_keepsCanonical _ _ (advance _ s)⟩
  | rst imm => exact ⟨_, rfl, push32_keepsCanonical _ (advance (.rst imm) s)⟩
  | ldi | ldd => exact ⟨_, rfl, elemLD_keepsCanonical _ _ (advance _ s)⟩
  | ini | ind => exact ⟨_, rfl, elemIN_keepsCanonical _ _ (advance _ s)⟩
  | outi | outd => exact ⟨_, rfl, elemOUT_keepsCanonical _ _ (advance _ s)⟩
  | cpi | cpd => exact ⟨_, rfl, elemCP_keepsCanonical _ _ (advance _ s)⟩
  | tsi | tsd => exact ⟨_, rfl, elemTS_keepsCanonical _ _ (advance _ s)⟩
  | ldir | lddr => exact ⟨_, rfl, (elemLD_keepsCanonical _ _ (advance _ s)).rewindIf moreBC⟩
  | cpir | cpdr => exact ⟨_, rfl, (elemCP_keepsCanonical _ _ (advance _ s)).rewindIf moreBC⟩
  | tsir | tsdr => exact ⟨_, rfl, (elemTS_keepsCanonical _ _ (advance _ s)).rewindIf moreBC⟩
  | inir | indr => exact ⟨_, rfl, (elemIN_keepsCanonical _ _ (advance _ s)).rewindIf moreB⟩
  | outir | outdr => exact ⟨_, rfl, (elemOUT_keepsCanonical _ _ (advance _ s)).rewindIf moreB⟩
  | inRM | daa | ldAR => exact ⟨_, rfl, keepsCanonical_of_eq (by simp) (by simp)⟩
  | cpR | tstR | bitR | cpRM | tstRM | bitRM | exx | exi | ldINN | ldRA | halt | nop =>
    exact ⟨_, rfl, keepsCanonical_of_eq rfl rfl⟩

theorem keepsCanonical_of_exec {i : Instr} {s t : State} (h : exec i s = .next t) : KeepsCanonical s t := by
  obtain ⟨u, hu, hkeeps⟩ := exec_keepsCanonical i s
  cases hu.symm.trans h
  exact hkeeps

/-! ## The invariant -/

/-- No effect of an instruction that runs both halts and faults (60_exceptions.md R506). -/
theorem not_halted_and_faulted {i : Instr} {s t : State} (h : SystemEffect s i t) (hrun : stopped s = false) :
    ¬(t.halted = true ∧ t.fault.isSome = true) := by
  obtain ⟨hhalted, hfault⟩ := (not_stopped_iff s).mp hrun
  cases h with
  | none h | aluFlags _ h | restoreIE _ h =>
    obtain ⟨⟨-, -, -, -, hhalted', -, -⟩, -⟩ := h
    exact fun hboth => absurd (hhalted'.symm.trans hboth.1) (by simp [hhalted])
  | violation | exchangeBanks | loadI | loadR => simp [hhalted]
  | halt => simp [hfault]

/-- An instruction that runs keeps the invariant. -/
theorem inv_of_exec {i : Instr} {s t : State} (hinv : Inv s) (hrun : stopped s = false) (h : exec i s = .next t) : Inv t := by
  obtain ⟨hmem, hio, -, hbit3, hiff2⟩ := hinv
  obtain ⟨hmem', hio'⟩ := keepsCanonical_of_exec h
  obtain ⟨-, -, hbit3'⟩ := otherInstructionsLeaveEveryFlag i s t h
  obtain ⟨hiff2', -⟩ := systemStateHasOneWriter i s t h
  exact ⟨hmem' hmem, hio' hio, not_halted_and_faulted (effect_of_exec h) hrun, hbit3'.trans hbit3, hiff2' ▸ hiff2⟩

/-- Settles O55: an encoding error is recorded in a block that is not halted, and an instruction keeps the invariant; the
transfers of its fetch are no part of it. -/
theorem stepKeepsTheInvariant : Obligations.StepKeepsTheInvariant := by
  intro s t hinv hstep
  cases stepCase_of_step hstep with
  | stopped => exact hinv
  | decodeError hrun e =>
    obtain ⟨hmem, hio, -, hbit3, hiff2⟩ := hinv
    obtain ⟨hhalted, -⟩ := (not_stopped_iff s).mp hrun
    exact ⟨hmem, hio, fun hboth => absurd (hhalted.symm.trans hboth.1) Bool.false_ne_true, hbit3, hiff2⟩
  | runs hrun i _ hexec => exact inv_of_exec (s := fetched (instrLength i) s) hinv hrun hexec

end Sys2Proof.Stepping
end

section
/-! DIV and SDIV (44_bcd_halfwidth.md R333, R334): both run one frame on half-width pairs, and what is left of them is the
quotient and the remainder in the terms of the statement. -/

namespace Sys2Proof.Division

open Machine HalfWidth

theorem loHalf_eq_zero_iff (sz : Size) (v : BitVec sz.bits) : loHalf sz v = 0 ↔ lowHalf sz v = 0 := by
  rw [loHalf_eq, ← BitVec.toNat_inj, BitVec.ofNat_eq_ofNat, BitVec.toNat_zero]

/-! ## The values -/

theorem divValue_eq (sz : Size) (v : BitVec sz.bits) :
    divValue sz v = packed sz (highHalf sz v % lowHalf sz v) (highHalf sz v / lowHalf sz v) := by
  rw [divValue, loHalf_eq, hiHalf_eq, packHalves_eq, ← BitVec.toNat_umod, ← BitVec.toNat_udiv]
  simp only [BitVec.ofInt_natCast, BitVec.ofNat_toNat, BitVec.setWidth_eq]

theorem sdivValue_eq (sz : Size) (v : BitVec sz.bits) :
    let n := (highHalf sz v).toInt
    let d := (lowHalf sz v).toInt
    sdivValue sz v = packed sz (BitVec.ofInt _ (n - n.tdiv d * d)) (BitVec.ofInt _ (n.tdiv d)) := by
  simp only [sdivValue, loHalf_eq, hiHalf_eq, signedHalf_eq, packHalves_eq]

/-! ## The instructions -/

/-- A division of a place by `value`: the packed result unless the divisor is 0, PV alone written, nothing else. -/
def Divides (value : (sz : Size) → BitVec sz.bits → BitVec sz.bits) (sz : Size) (o1 : Place) (i : Instr) (s t : State) : Prop :=
  let v := readPlace sz o1 s
  let zero := lowHalf sz v == 0
  (if zero then WritesNothing (placeReads sz o1 s) s t else WritesAfter (placeReads sz o1 s) sz o1 (value sz v) s t) ∧
    AluFlagsAre s t (getFlag .s s) (getFlag .z s) (getFlag .h s) zero (getFlag .n s) (getFlag .c s) ∧ Elsewhere i s t

/-- The model's frame is a division by the value it is given. -/
theorem divideOp_divides (i : Instr) (sz : Size) (o1 : Place) (value : (sz : Size) → BitVec sz.bits → BitVec sz.bits)
    (s : State) : Divides value sz o1 i s (divideOp sz o1 (value sz) (advance i s)) := by
  have hspec := divideOp_spec i sz o1 (value sz) s
  simp only [loHalf_eq_zero_iff] at hspec
  simpa only [Divides, beq_eq_decide, decide_eq_true_eq] using hspec

/-- Both rows of a mnemonic that runs the frame divide by its value, in any equal form. -/
theorem divides_forms {sel : Nat} {mkUR : Size → RegCode → Instr} {mkUM : Size → MemRef → Instr}
    {value value' : (sz : Size) → BitVec sz.bits → BitVec sz.bits} (hvalue : ∀ sz v, value sz v = value' sz v)
    (rows : HalfRows sel mkUR mkUM (fun sz o1 => divideOp sz o1 (value sz))) (hsel : sel < 16) :
    UnaryForms sel mkUR mkUM Size.hasHalves (Divides value') := by
  obtain rfl : value = value' := funext fun sz => funext (hvalue sz)
  exact rows.forms hsel fun sz o1 i s => divideOp_divides i sz o1 value s

/-- Settles O14: both mnemonics run the frame, and their values are the statement's. -/
theorem divAndSdivResultFrame : Obligations.DivAndSdivResultFrame :=
  ⟨divides_forms divValue_eq {} (by decide), divides_forms sdivValue_eq {} (by decide)⟩

end Sys2Proof.Division
end

section
/-! The order of the decoder's checks (30_encoding.md R163, 60_exceptions.md R501): each format's decoder refuses with the field
of its first failing check, and the list of all checks, cut down to that format's, gives the same field. -/

namespace Sys2Proof.CheckOrder

open Machine

/-! ## The first failing check -/

/-- The field of the first check that fails. -/
def firstFailure : List (Bool × DecodeField) → Option DecodeField
  | [] => none
  | (failed, e) :: checks => if failed then some e else firstFailure checks

/-- The field that a decoder refuses with. -/
def refusal : Except DecodeField Instr → Option DecodeField
  | .ok _ => none
  | .error e => some e

@[simp] theorem firstFailure_nil : firstFailure [] = none := rfl

@[simp] theorem firstFailure_cons (failed : Bool) (e : DecodeField) (checks : List (Bool × DecodeField)) :
    firstFailure ((failed, e) :: checks) = if failed then some e else firstFailure checks := rfl

@[simp] theorem refusal_ok (i : Instr) : refusal (.ok i) = none := rfl

@[simp] theorem refusal_error (e : DecodeField) : refusal (.error e) = some e := rfl

theorem refusal_eq_some (r : Except DecodeField Instr) (e : DecodeField) : refusal r = some e ↔ r = .error e := by
  cases r <;> simp

theorem firstFailure_append (checks checks' : List (Bool × DecodeField)) :
    firstFailure (checks ++ checks') = (firstFailure checks).or (firstFailure checks') := by
  induction checks with
  | nil => rfl
  | cons c checks ih =>
    obtain ⟨failed, e⟩ := c
    cases failed <;> simp [ih]

theorem find?_eq_some_iff_firstFailure (checks : List (Bool × DecodeField)) (e : DecodeField) :
    checks.find? (fun c => c.1) = some (true, e) ↔ firstFailure checks = some e := by
  induction checks with
  | nil => simp
  | cons c checks ih =>
    obtain ⟨failed, e'⟩ := c
    cases failed <;> simp [ih]

/-! ## Where the tables have no entry -/

theorem sizeOf_eq_none_iff {n : Nat} (hn : n < 4) : Sys2Proof.sizeOf n = none ↔ n = 3 := by
  interval_cases n <;> decide

theorem regOf_eq_none_iff {n : Nat} (hn : n < 8) : regOf n = none ↔ n = 7 := by
  interval_cases n <;> decide

theorem condOf_eq_none_iff (n : Nat) : condOf n = none ↔ 8 < n := by
  unfold condOf
  split <;> grind

theorem rCtor_eq_none_iff (n : Nat) : rCtor n = none ↔ 20 < n := by
  unfold rCtor
  split <;> grind

theorem rmCtorAll_eq_none_iff (n : Nat) : rmCtorAll n = none ↔ 21 < n := by
  unfold rmCtorAll rmCtor
  split
  · grind
  · split <;> grind

theorem urCtor_eq_none_iff (n : Nat) : urCtor n = none ↔ 11 < n := by
  unfold urCtor
  split <;> grind

theorem umCtor_eq_none_iff (n : Nat) : umCtor n = none ↔ n = 0 ∨ 11 < n := by
  unfold umCtor
  split <;> grind

theorem jumpCtor_eq_none_iff (n : Nat) : jumpCtor n = none ↔ 5 < n := by
  unfold jumpCtor
  split <;> grind

theorem retCtor_eq_none_iff (n : Nat) : retCtor n = none ↔ n < 6 ∨ 8 < n := by
  unfold retCtor
  split <;> grind

theorem blockCtor_eq_none_iff (n : Nat) : blockCtor n = none ↔ 19 < n := by
  unfold blockCtor
  split <;> grind

/-- The one view without an alternate is SP's (30_encoding.md R133). -/
theorem hasAlternate_eq_false_iff (sz : Size) (c : RegCode) : hasAlternate sz c = false ↔ sz.code = 2 ∧ c.code = 3 := by
  cases sz <;> cases c <;> decide

theorem unarySizeLegal_eq_false_iff (sel : Nat) (sz : Size) : unarySizeLegal sel sz = false ↔
    (sel = 2 ∨ sel = 3) ∧ sz.code ≠ 2 ∨ (sel = 1 ∨ 7 ≤ sel ∧ sel ≤ 10) ∧ sz.code = 0 := by
  unfold unarySizeLegal
  split <;> cases sz <;> simp [Size.isDWord, Size.hasHalves, Size.code] <;> grind

/-- An entry that is there passes the check for one that is not. -/
theorem passes_of_eq_some {α : Type} {x : Option α} {a : α} {p : Prop} (hx : x = some a) (hnone : x = none ↔ p) : ¬p :=
  fun hp => Option.some_ne_none a (hx.symm.trans (hnone.mpr hp))

/-! ## The checks of each format, and its decoder's refusals -/

/-- Format R (30_encoding.md R110 to R113). -/
def checksR (w : BaseWord) : List (Bool × DecodeField) :=
  [(decide (20 < bits w 2 6), .op), (bits w 8 2 == 3, .size), (bits w 10 3 == 7, .dst)]

theorem refusal_decodeR (w : BaseWord) (f : Nat → Byte) : refusal (decodeR w f) = firstFailure (checksR w) := by
  have hsizeCheck := sizeOf_eq_none_iff (DecodeInverse.bits_lt w 8 2)
  have hregCheck := regOf_eq_none_iff (DecodeInverse.bits_lt w 10 3)
  unfold decodeR
  split
  next hop => simp [checksR, (rCtor_eq_none_iff _).mp hop]
  next hop =>
  have hop := passes_of_eq_some hop (rCtor_eq_none_iff _)
  split
  next hsize => simp [checksR, hop, hsizeCheck.mp hsize]
  next hsize =>
  have hsize := passes_of_eq_some hsize hsizeCheck
  split
  next hd => simp [checksR, hop, hsize, hregCheck.mp hd]
  next hd => simp [checksR, hop, hsize, passes_of_eq_some hd hregCheck]

/-- Format RM (30_encoding.md R120 to R123). -/
def checksRM (w : BaseWord) : List (Bool × DecodeField) :=
  [(decide (21 < bits w 2 5), .op), (bits w 8 2 == 3, .size), (bits w 7 1 == 1 && bits w 10 3 == 7, .loadTarget)]

/-- The operands of format RM are refused where a load has no target (30_encoding.md R123). -/
theorem rmAt_refuses {sz : Size} {dir r a : Nat} {f : Nat → Byte} (hdir : dir < 2) (hr : r < 8) (e : DecodeField) :
    rmAt sz dir r a f = .error e ↔ (dir = 1 ∧ r = 7) ∧ e = .loadTarget := by
  unfold rmAt
  split
  · simp
  next hne =>
    have hload : dir = 1 := by have : dir ≠ 0 := hne; omega
    split
    next htarget => simp [hload, (regOf_eq_none_iff hr).mp htarget, eq_comm]
    next htarget => simp [passes_of_eq_some htarget (regOf_eq_none_iff hr)]

theorem refusal_decodeRM (w : BaseWord) (f : Nat → Byte) : refusal (decodeRM w f) = firstFailure (checksRM w) := by
  have hsizeCheck := sizeOf_eq_none_iff (DecodeInverse.bits_lt w 8 2)
  have hrefuses := fun sz e => rmAt_refuses (sz := sz) (a := bits w 13 3) (f := f) (DecodeInverse.bits_lt w 7 1)
    (DecodeInverse.bits_lt w 10 3) e
  unfold decodeRM
  split
  next hop => simp [checksRM, (rmCtorAll_eq_none_iff _).mp hop]
  next hop =>
  have hop := passes_of_eq_some hop (rmCtorAll_eq_none_iff _)
  split
  next hsize => simp [checksRM, hop, hsizeCheck.mp hsize]
  next sz hsize =>
  have hsize := passes_of_eq_some hsize hsizeCheck
  split
  next e hoperands =>
    obtain ⟨⟨hload, htarget⟩, rfl⟩ := (hrefuses sz e).mp hoperands
    simp [checksRM, hop, hsize, hload, htarget]
  next hoperands =>
    have htarget : ¬(bits w 7 1 = 1 ∧ bits w 10 3 = 7) := fun h => by
      simp [(hrefuses sz .loadTarget).mpr ⟨h, rfl⟩] at hoperands
    simp [checksRM, hop, hsize, htarget]

/-- The size legality of formats UR and UM (30_encoding.md R133). -/
def checksSizeForOp (w : BaseWord) : List (Bool × DecodeField) :=
  [((unarySel w == 2 || unarySel w == 3) && bits w 8 2 != 2, .sizeForOp),
    ((unarySel w == 1 || (decide (7 ≤ unarySel w) && decide (unarySel w ≤ 10))) && bits w 8 2 == 0, .sizeForOp)]

/-- The two checks of size legality are the decoder's one. -/
theorem firstFailure_sizeForOp {w : BaseWord} {sz : Size} (hsize : Sys2Proof.sizeOf (bits w 8 2) = some sz) :
    firstFailure (checksSizeForOp w) = if unarySizeLegal (unarySel w) sz then none else some .sizeForOp := by
  have hillegal := unarySizeLegal_eq_false_iff (unarySel w) sz
  rw [← sizeOf_eq hsize] at hillegal
  cases hlegal : unarySizeLegal (unarySel w) sz with
  | true =>
    have hpasses := mt hillegal.mpr (by simp [hlegal])
    rw [not_or] at hpasses
    simp [checksSizeForOp, hpasses]
  | false =>
    rcases hillegal.mp hlegal with hfails | hfails <;> simp [checksSizeForOp, hfails]

/-- Format UR (30_encoding.md R130, R131, R133). -/
def checksUR (w : BaseWord) : List (Bool × DecodeField) :=
  [(decide (11 < unarySel w), .op), (bits w 8 2 == 3, .size), (bits w 10 3 == 7, .reg)] ++
    checksSizeForOp w ++ [(unarySel w == 0 && bits w 8 2 == 2 && bits w 10 3 == 3, .noAlternate)]

theorem refusal_decodeUR (w : BaseWord) : refusal (decodeUR w) = firstFailure (checksUR w) := by
  have hsizeCheck := sizeOf_eq_none_iff (DecodeInverse.bits_lt w 8 2)
  have hregCheck := regOf_eq_none_iff (DecodeInverse.bits_lt w 10 3)
  unfold decodeUR
  split
  next hop => simp [checksUR, (urCtor_eq_none_iff _).mp hop]
  next hop =>
  have hop := passes_of_eq_some hop (urCtor_eq_none_iff _)
  split
  next hsize => simp [checksUR, hop, hsizeCheck.mp hsize]
  next sz hsz =>
  have hsize := passes_of_eq_some hsz hsizeCheck
  split
  next hreg => simp [checksUR, hop, hsize, hregCheck.mp hreg]
  next r hr =>
  have hreg := passes_of_eq_some hr hregCheck
  have halternate := hasAlternate_eq_false_iff sz r
  rw [← sizeOf_eq hsz, ← regOf_eq hr] at halternate
  simp only [checksUR, firstFailure_append, firstFailure_sizeForOp hsz]
  cases hlegal : unarySizeLegal (unarySel w) sz <;>
    simp [hop, hsize, hreg, halternate, apply_ite refusal, and_assoc]

/-- Format UM (30_encoding.md R130, R132, R133). -/
def checksUM (w : BaseWord) : List (Bool × DecodeField) :=
  [(unarySel w == 0 || decide (11 < unarySel w), .op), (bits w 8 2 == 3, .size)] ++ checksSizeForOp w

theorem refusal_decodeUM (w : BaseWord) (f : Nat → Byte) : refusal (decodeUM w f) = firstFailure (checksUM w) := by
  have hsizeCheck := sizeOf_eq_none_iff (DecodeInverse.bits_lt w 8 2)
  unfold decodeUM
  split
  next hop => simp [checksUM, (umCtor_eq_none_iff _).mp hop]
  next hop =>
  have hop := passes_of_eq_some hop (umCtor_eq_none_iff _)
  split
  next hsize => simp [checksUM, hop, hsizeCheck.mp hsize]
  next sz hsz =>
  have hsize := passes_of_eq_some hsz hsizeCheck
  simp [checksUM, hop, hsize, firstFailure_sizeForOp hsz, apply_ite refusal]

/-- Format BR (30_encoding.md R140 to R143). -/
def checksBR (w : BaseWord) : List (Bool × DecodeField) :=
  [(decide (8 < bits w 4 5), .branchOp), (decide (8 < bits w 9 4), .condition),
    (decide (6 ≤ bits w 4 5) && bits w 13 3 != 0, .reserved)]

theorem refusal_decodeBR (w : BaseWord) (f : Nat → Byte) : refusal (decodeBR w f) = firstFailure (checksBR w) := by
  unfold decodeBR
  split
  next hjump =>
    have hjump := passes_of_eq_some hjump (jumpCtor_eq_none_iff _)
    have hop : ¬8 < bits w 4 5 := by omega
    have htarget : ¬6 ≤ bits w 4 5 := by omega
    split
    next hcc => simp [checksBR, hop, (condOf_eq_none_iff _).mp hcc]
    next hcc => simp [checksBR, hop, htarget, passes_of_eq_some hcc (condOf_eq_none_iff _)]
  next hjump =>
    have hnotarget : 6 ≤ bits w 4 5 := (jumpCtor_eq_none_iff _).mp hjump
    split
    next hret =>
      have hop : 8 < bits w 4 5 := ((retCtor_eq_none_iff _).mp hret).resolve_left (by omega)
      simp [checksBR, hop]
    next hret =>
    have hop : ¬8 < bits w 4 5 := mt .inr (passes_of_eq_some hret (retCtor_eq_none_iff _))
    split
    next hcc => simp [checksBR, hop, (condOf_eq_none_iff _).mp hcc]
    next hcc =>
      have hcc := passes_of_eq_some hcc (condOf_eq_none_iff _)
      simp [checksBR, hop, hcc, hnotarget, apply_ite refusal]

/-- How many ops a family of format NUL assigns (30_encoding.md R151 to R155). -/
def assignedOps : Nat → Nat
  | 0 => 20
  | 1 => 2
  | 2 => 1
  | 3 => 1
  | _ => 4

/-- Format NUL (30_encoding.md R150 to R156): the block family alone has a size field, below its op. -/
def checksNUL (w : BaseWord) : List (Bool × DecodeField) :=
  let isBlock := bits w 4 4 == 0
  [(decide (4 < bits w 4 4), .family),
    (decide (assignedOps (bits w 4 4) ≤ if isBlock then bits w 10 6 else bits w 8 8), .nullaryOp),
    (isBlock && bits w 8 2 == 3, .size)]

theorem refusal_decodeBlock (w : BaseWord) :
    refusal (decodeBlock w) = firstFailure [(decide (20 ≤ bits w 10 6), .nullaryOp), (bits w 8 2 == 3, .size)] := by
  have hsizeCheck := sizeOf_eq_none_iff (DecodeInverse.bits_lt w 8 2)
  unfold decodeBlock
  split
  next hop => simp [Nat.succ_le_of_lt ((blockCtor_eq_none_iff _).mp hop)]
  next hop =>
  have hop : ¬20 ≤ bits w 10 6 := passes_of_eq_some hop (blockCtor_eq_none_iff _)
  split
  next hsize => simp [hop, hsizeCheck.mp hsize]
  next hsize => simp [hop, passes_of_eq_some hsize hsizeCheck]

/-- The families with exact ops refuse every op beyond theirs. -/
theorem refusal_decodeExact {family : Nat} (hfam : 0 < family ∧ family ≤ 4) (op : Nat) (f : Nat → Byte) :
    refusal (decodeExact family op f) = firstFailure [(decide (assignedOps family ≤ op), .nullaryOp)] := by
  unfold decodeExact
  split
  case h_9 => -- no op of a family
    have hop : assignedOps family ≤ op := by
      unfold assignedOps
      split <;> grind
    simp [hop]
  all_goals simp [assignedOps]

theorem refusal_decodeNUL (w : BaseWord) (f : Nat → Byte) : refusal (decodeNUL w f) = firstFailure (checksNUL w) := by
  unfold decodeNUL
  split
  next hfam => simp [checksNUL, hfam, refusal_decodeBlock, assignedOps]
  next hfam => simp [checksNUL, hfam, refusal_decodeExact]
  next hfam => simp [checksNUL, hfam, refusal_decodeExact]
  next hfam => simp [checksNUL, hfam, refusal_decodeExact]
  next hfam => simp [checksNUL, hfam, refusal_decodeExact]
  next h0 h1 h2 h3 h4 =>
    have hfam : 4 < bits w 4 4 := by grind
    simp [checksNUL, hfam]

/-- Format SB (30_encoding.md R160, R161). -/
def checksSB (w : BaseWord) : List (Bool × DecodeField) :=
  [(decide (2 < bits w 12 4), .singleByteOp), (bits w 12 4 == 0 && bits w 4 8 != 0, .reserved)]

theorem refusal_decodeSB (w : BaseWord) : refusal (decodeSB w) = firstFailure (checksSB w) := by
  unfold decodeSB
  split
  next hop => simp [checksSB, hop, apply_ite refusal]
  next hop => simp [checksSB, hop]
  next hop => simp [checksSB, hop]
  next h0 h1 h2 =>
    have hop : 2 < bits w 12 4 := by grind
    simp [checksSB, hop]

/-! ## The list of all checks, cut down to a format -/

theorem bits_subgroup (w : BaseWord) : bits w 0 4 = bits w 0 2 + 4 * bits w 2 2 := by
  simp only [bits]
  omega

/-- A word of format R or RM has the low bits of no other format (30_encoding.md R102). -/
theorem not_unary_branch_nullary_single {w : BaseWord} (hg : bits w 0 2 < 2) :
    bits w 0 4 ≠ 2 ∧ bits w 0 4 ≠ 6 ∧ bits w 0 4 ≠ 10 ∧ bits w 0 4 ≠ 14 ∧ bits w 0 4 ≠ 15 := by
  have := bits_subgroup w
  omega

/-- The list's classification by group and subgroup is the decoder's (30_encoding.md R102). -/
theorem refusal_decodeWord (w : BaseWord) (f : Nat → Byte) :
    refusal (decodeWord w f) = firstFailure (encodingChecks w) := by
  have hsubgroup := bits_subgroup w
  have hglt := DecodeInverse.bits_lt w 0 2
  have hslt := DecodeInverse.bits_lt w 2 2
  unfold decodeWord
  split
  next hg =>
    have hformat := not_unary_branch_nullary_single (show bits w 0 2 < 2 by omega)
    rw [refusal_decodeR]
    simp [checksR, encodingChecks, hg, hformat]
  next hg =>
    have hformat := not_unary_branch_nullary_single (show bits w 0 2 < 2 by omega)
    rw [refusal_decodeRM]
    simp [checksRM, encodingChecks, hg, hformat]
  next hg hsub =>
    rw [hg, hsub] at hsubgroup
    rw [refusal_decodeUR, checksUR, checksSizeForOp, unarySel]
    simp [encodingChecks, hg, hsubgroup]
  next hg hsub =>
    rw [hg, hsub] at hsubgroup
    rw [refusal_decodeUM, checksUM, checksSizeForOp, unarySel]
    simp [encodingChecks, hg, hsubgroup]
  next hg hsub =>
    rw [hg, hsub] at hsubgroup
    rw [refusal_decodeBR]
    simp [checksBR, encodingChecks, hg, hsubgroup]
  next hg h0 h1 h2 =>
    have hsub : bits w 2 2 = 3 := by grind
    rw [hg, hsub] at hsubgroup
    rw [refusal_decodeNUL]
    simp [checksNUL, encodingChecks, hg, hsubgroup]
    rfl
  next hsub h0 h1 h2 =>
    have hg : bits w 0 2 = 3 := by grind
    rw [hg, hsub] at hsubgroup
    rw [refusal_decodeSB]
    simp [checksSB, encodingChecks, hg, hsub, hsubgroup]
  next =>
    have hg : bits w 0 2 = 3 := by grind
    have hsub : bits w 2 2 ≠ 3 := by grind
    simp [encodingChecks, hg, hsub]

/-- Settles O46: decoding refuses with the field of the first failing check. -/
theorem decodeErrorsFollowTheCheckOrder : Obligations.DecodeErrorsFollowTheCheckOrder := by
  intro f e
  rw [find?_eq_some_iff_firstFailure, ← refusal_eq_some]
  exact Eq.congr_left (refusal_decodeWord (baseWordAt f) f)

end Sys2Proof.CheckOrder
end

section
/-! The decoder run on an encoding (30_encoding.md R100 to R162): each format's decoder reads the fields that the format's encoder
wrote, and gives back the row of its table with the operands that stand there. -/

namespace Sys2Proof.RoundTrip

open Machine DecodeInverse CheckOrder

/-! ## Bytes of the stream -/

theorem StandsAt.left {l l' : List Byte} {off : Nat} {f : Nat → Byte} (h : StandsAt (l ++ l') off f) : StandsAt l off f := by
  intro k hk
  rw [h k (by rw [List.length_append]; omega), List.getD_append _ _ _ _ hk]

theorem StandsAt.right {l l' : List Byte} {off : Nat} {f : Nat → Byte} (h : StandsAt (l ++ l') off f) :
    StandsAt l' (off + l.length) f := by
  intro k hk
  rw [Nat.add_assoc, h _ (by rw [List.length_append]; omega), List.getD_append_right _ _ _ _ (by omega),
    Nat.add_sub_cancel_left]

/-- An encoding that stands at the start of the stream: its base word is read there, and its trailing bytes after it. -/
theorem baseWordAt_of_encode {i : Instr} {f : Nat → Byte} (h : StandsAt (encode i) 0 f) :
    baseWordAt f = baseWord i ∧ StandsAt (encodeParts i).2 2 f := by
  refine ⟨?_, StandsAt.right h⟩
  have hword := immAt_of_bytes .word (baseWord i) 0 f (StandsAt.left h)
  simpa only [immAt, Nat.zero_add, baseWordAt] using hword

/-! ## Operands -/

theorem srcAt_encoded {sz : Size} (q : Src sz) {off : Nat} {f : Nat → Byte} (h : StandsAt q.bytes off f) :
    srcAt sz q.code off f = q := by
  cases q with
  | reg c => simp [srcAt, Src.code]
  | imm v =>
    have hv : immAt sz off f = v := immAt_of_bytes sz v off f fun k hk => h k (by simpa [Src.bytes] using hk)
    simp [srcAt, Src.code, regOf, hv]

/-- A well-formed address operand carries a displacement exactly where the decoder reads one (30_encoding.md R107). -/
theorem memAt_encoded {m : MemRef} (hwf : m.wf = true) {f : Nat → Byte} (h : StandsAt m.bytes 2 f) : memAt m.code f = m := by
  cases m with
  | direct a =>
    have ha : immAt .dword 2 f = a := immAt_of_bytes .dword a 2 f h
    simp [memAt, MemRef.code, regOf, ha]
  | ind b d =>
    have hindex : d.isSome = isIndexClass b := by simpa [MemRef.wf] using hwf
    cases d with
    | none => simp [memAt, MemRef.code, ← hindex]
    | some d =>
      have hd : immAt .word 2 f = d := immAt_of_bytes .word d 2 f h
      simp [memAt, MemRef.code, ← hindex, hd]

theorem rmAt_encoded {sz : Size} {ops : RMOperands sz} (hwf : ops.wf = true) {op : Nat} {f : Nat → Byte}
    (h : StandsAt (encRM op sz ops).2 2 f) : rmAt sz ops.dir ops.regCode ops.memRef.code f = .ok ops := by
  cases ops with
  | load r m => simp [rmAt, RMOperands.dir, RMOperands.regCode, RMOperands.memRef, memAt_encoded hwf h]
  | store m q =>
    have hm : memAt m.code f = m := memAt_encoded hwf (StandsAt.left h)
    have hq : StandsAt q.bytes (2 + m.trailing) f := MemRef.bytes_length hwf ▸ StandsAt.right h
    simp [rmAt, RMOperands.dir, RMOperands.regCode, RMOperands.memRef, hm, srcAt_encoded q hq]

/-! ## The formats -/

/-- The decoder gives `i` back from its base word and any bytes that begin with its trailing bytes. -/
def DecodesBack (i : Instr) : Prop := ∀ f : Nat → Byte, StandsAt (encodeParts i).2 2 f → decodeWord (baseWord i) f = .ok i

theorem decodesBack_R {op : Nat} {sz : Size} {d : RegCode} {q : Src sz} {mk : (sz : Size) → RegCode → Src sz → Instr}
    (hparts : encodeParts (mk sz d q) = encR op sz d q) (hmk : rCtor op = some mk) : DecodesBack (mk sz d q) := by
  intro f htail
  rw [hparts] at htail
  rw [baseWord, hparts]
  have hop := passes_of_eq_some hmk (rCtor_eq_none_iff op)
  obtain ⟨hg, hsel, hsz, hd, hq⟩ := encR_bits op (by omega) sz d q
  simp [decodeWord, decodeR, hg, hsel, hsz, hd, hq, hmk, srcAt_encoded q htail]

theorem decodesBack_RM {op : Nat} {sz : Size} {ops : RMOperands sz} {mk : (sz : Size) → RMOperands sz → Instr}
    (hparts : encodeParts (mk sz ops) = encRM op sz ops) (hmk : rmCtorAll op = some mk) (hwf : ops.wf = true) :
    DecodesBack (mk sz ops) := by
  intro f htail
  rw [hparts] at htail
  rw [baseWord, hparts]
  have hop := passes_of_eq_some hmk (rmCtorAll_eq_none_iff op)
  obtain ⟨hg, hsel, hdir, hsz, hr, hm⟩ := encRM_bits op (by omega) sz ops
  simp [decodeWord, decodeRM, hg, hsel, hdir, hsz, hr, hm, hmk, rmAt_encoded hwf htail]

/-- The checks of format UR pass on a row whose size is legal and whose view, for EX_Alt, has an alternate
(30_encoding.md R133). -/
theorem decodesBack_UR {sel : Nat} {sz : Size} {r : RegCode} {mk : Size → RegCode → Instr}
    (hparts : encodeParts (mk sz r) = encUR sel sz r) (hmk : urCtor sel = some mk) (hsize : unarySizeLegal sel sz = true)
    (halt : sel = 0 → hasAlternate sz r = true) : DecodesBack (mk sz r) := by
  intro f _
  rw [baseWord, hparts]
  have hop := passes_of_eq_some hmk (urCtor_eq_none_iff sel)
  obtain ⟨-, hg, hsub, hsel, hsz, hr⟩ :=
    unaryWord_bits 0 sel (by decide) (by omega) sz r.code (r.code_lt.trans (by decide))
  simpa [encUR, decodeWord, decodeUR, hg, hsub, hsel, hsz, hr, hmk, hsize] using halt

theorem decodesBack_UM {sel : Nat} {sz : Size} {m : MemRef} {mk : Size → MemRef → Instr}
    (hparts : encodeParts (mk sz m) = encUM sel sz m) (hmk : umCtor sel = some mk)
    (hwf : (unarySizeLegal sel sz && m.wf) = true) : DecodesBack (mk sz m) := by
  intro f htail
  rw [hparts] at htail
  rw [baseWord, hparts]
  obtain ⟨hsize, hm⟩ := Bool.and_eq_true_iff.mp hwf
  have hop := passes_of_eq_some hmk (umCtor_eq_none_iff sel)
  obtain ⟨-, hg, hsub, hsel, hsz, hcode⟩ := unaryWord_bits 1 sel (by decide) (by omega) sz m.code m.code_lt
  simp [encUM, decodeWord, decodeUM, hg, hsub, hsel, hsz, hcode, hmk, hsize, memAt_encoded hm htail]

theorem decodesBack_jump {op : Nat} {cc : Cond} {sz : Size} {q : Src sz} {mk : Cond → Src sz → Instr}
    (hparts : encodeParts (mk cc q) = encJump op cc q) (hmk : jumpCtor op = some ⟨sz, mk⟩) : DecodesBack (mk cc q) := by
  intro f htail
  rw [hparts] at htail
  rw [baseWord, hparts]
  have hop := passes_of_eq_some hmk (jumpCtor_eq_none_iff op)
  obtain ⟨-, hg, hsub, hsel, hcc, hq⟩ := encJump_bits op (by omega) cc q
  simp [decodeWord, decodeBR, hg, hsub, hsel, hcc, hq, hmk, srcAt_encoded q htail]

/-- A return's selector is no jump's (30_encoding.md R140, R143). -/
theorem decodesBack_ret {op : Nat} {cc : Cond} {mk : Cond → Instr} (hparts : encodeParts (mk cc) = encRet op cc)
    (hmk : retCtor op = some mk) : DecodesBack (mk cc) := by
  intro f _
  rw [baseWord, hparts]
  have hop := passes_of_eq_some hmk (retCtor_eq_none_iff op)
  have hjump : jumpCtor op = none := (jumpCtor_eq_none_iff op).mpr (by omega)
  obtain ⟨-, hg, hsub, hsel, hcc, hrest⟩ := encRet_bits op (by omega) cc
  simp [decodeWord, decodeBR, hg, hsub, hsel, hcc, hrest, hmk, hjump]

theorem decodesBack_block {op : Nat} {sz : Size} {mk : Size → Instr} (hparts : encodeParts (mk sz) = encBlock op sz)
    (hmk : blockCtor op = some mk) : DecodesBack (mk sz) := by
  intro f _
  rw [baseWord, hparts]
  have hop := passes_of_eq_some hmk (blockCtor_eq_none_iff op)
  obtain ⟨-, hg, hsub, hfam, hsz, hsel⟩ := encBlock_bits op (by omega) sz
  simp [decodeWord, decodeNUL, decodeBlock, hg, hsub, hfam, hsz, hsel, hmk]

/-- The fields of the words of format NUL outside the block family (30_encoding.md R150). -/
theorem encExact_bits {family op : Nat} (hfam : family < 16) (hop : op < 256) (tail : List Byte) :
    bits (encExact family op tail).1 0 2 = 2 ∧ bits (encExact family op tail).1 2 2 = 3 ∧
      bits (encExact family op tail).1 4 4 = family ∧ bits (encExact family op tail).1 8 8 = op := by
  simp only [encExact]
  refine ⟨?_, ?_, ?_, ?_⟩ <;> rw [bits_ofNat (by omega)] <;> omega

theorem decodesBack_exact {family op : Nat} {tail : List Byte} {i : Instr} (hparts : encodeParts i = encExact family op tail)
    (hfam : 0 < family ∧ family ≤ 4) (hop : op < 256)
    (h : ∀ f : Nat → Byte, StandsAt tail 2 f → decodeExact family op f = .ok i) : DecodesBack i := by
  intro f htail
  rw [hparts] at htail
  rw [baseWord, hparts]
  obtain ⟨hg, hsub, hf, hsel⟩ := encExact_bits (by omega : family < 16) hop tail
  rcases (by omega : family = 1 ∨ family = 2 ∨ family = 3 ∨ family = 4) with rfl | rfl | rfl | rfl <;>
    simp [decodeWord, decodeNUL, hg, hsub, hf, hsel, h f htail]

theorem decodesBack_SB {op : Nat} {disp : Byte} {i : Instr} (hparts : encodeParts i = encSB op disp) (hop : op < 16)
    (h : ∀ w, bits w 12 4 = op → bits w 4 8 = disp.toNat → decodeSB w = .ok i) : DecodesBack i := by
  intro f _
  rw [baseWord, hparts]
  obtain ⟨hg, hsub, hdisp, hsel⟩ := encSB_bits op hop disp
  simp [decodeWord, hg, hsub, h _ hsel hdisp]

/-! ## The round trip -/

/-- Every well-formed instruction is a row of its format's table. -/
theorem decodesBack_of_wf {i : Instr} (hwf : i.wf = true) : DecodesBack i := by
  cases i with
  | ldR | exR | addR | adcR | subR | sbcR | cpR | andR | orR | xorR | tstR | bitR | setR | resR | rlcR | rrcR | rlR | rrR
  | slaR | sraR | srlR => exact decodesBack_R rfl rfl
  | ldRM | exRM | addRM | adcRM | subRM | sbcRM | cpRM | andRM | orRM | xorRM | tstRM | bitRM | setRM | resRM | rlcRM | rrcRM
  | rlRM | rrRM | slaRM | sraRM | srlRM => exact decodesBack_RM (by rw [encodeParts]) rfl hwf
  | inRM sz r m => exact decodesBack_RM (op := 21) (ops := .load r m) (mk := inOut) rfl rfl hwf
  | outRM sz m q => exact decodesBack_RM (op := 21) (ops := .store m q) (mk := inOut) rfl rfl hwf
  | exAltUR => exact decodesBack_UR rfl rfl rfl fun _ => hwf
  | exhUR | pushUR | popUR | incUR | decUR | negUR | extUR | mltUR | divUR | sdivUR | cplUR =>
    exact decodesBack_UR rfl rfl hwf nofun
  | exhUM | pushUM | popUM | incUM | decUM | negUM | extUM | mltUM | divUM | sdivUM | cplUM => exact decodesBack_UM rfl rfl hwf
  | jp | jrS8 | jr | call | callrS8 | callr => exact decodesBack_jump rfl rfl
  | ret | reti | retn => exact decodesBack_ret rfl rfl
  | ldi | ldd | ldir | lddr | cpi | cpd | cpir | cpdr | tsi | tsd | tsir | tsdr | ini | ind | inir | indr | outi | outd | outir
  | outdr => exact decodesBack_block rfl rfl
  | exx | exi | daa | ldRA | ldAR | halt => exact decodesBack_exact rfl (by decide) (by decide) fun _ _ => rfl
  | rst imm =>
    refine decodesBack_exact rfl (by decide) (by decide) fun f h => ?_
    rw [decodeExact, immAt_of_bytes .byte imm 2 f h]
  | ldINN imm =>
    refine decodesBack_exact rfl (by decide) (by decide) fun f h => ?_
    rw [decodeExact, immAt_of_bytes .dword imm 2 f h]
  | nop => exact decodesBack_SB rfl (by decide) fun w hop hdisp => by simp [decodeSB, hop, hdisp]
  | djnz | janz => exact decodesBack_SB rfl (by decide) fun w hop hdisp => by simp [decodeSB, hop, hdisp]

/-- Settles O43: the base word and the trailing bytes are read where the encoder put them, and each format's decoder gives its
row back. -/
theorem decodeEncodeRoundTrip : Obligations.DecodeEncodeRoundTrip := by
  intro i f hwf hbytes
  have hstands : StandsAt (encode i) 0 f := fun k hk => by rw [Nat.zero_add, hbytes k hk]
  obtain ⟨hword, htail⟩ := baseWordAt_of_encode hstands
  rw [decode, hword]
  exact decodesBack_of_wf hwf f htail

/-! ## What the base word decides -/

/-- The lengths that R104 lists. -/
def lengths : List Nat := [2, 3, 4, 5, 6, 7, 8, 10]

theorem Src.trailing_cases {sz : Size} (q : Src sz) :
    q.trailing = 0 ∨ q.trailing = 1 ∨ q.trailing = 2 ∨ q.trailing = 4 := by
  cases q with
  | reg => simp [Src.trailing]
  | imm => cases sz <;> simp [Src.trailing]

theorem MemRef.trailing_cases (m : MemRef) : m.trailing = 0 ∨ m.trailing = 2 ∨ m.trailing = 4 := by
  cases m with
  | ind b => cases b <;> simp [MemRef.trailing, isIndexClass]
  | direct => simp [MemRef.trailing]

theorem Src.length_mem {sz : Size} (q : Src sz) : 2 + q.trailing ∈ lengths := by
  rcases Src.trailing_cases q with h | h | h | h <;> rw [h] <;> decide

theorem MemRef.length_mem (m : MemRef) : 2 + m.trailing ∈ lengths := by
  rcases MemRef.trailing_cases m with h | h | h <;> rw [h] <;> decide

/-- A store has both trailing fields, the address operand's and the source's (30_encoding.md R105). -/
theorem store_length_mem {sz : Size} (m : MemRef) (q : Src sz) : 2 + m.trailing + q.trailing ∈ lengths := by
  rcases MemRef.trailing_cases m with hm | hm | hm <;> rcases Src.trailing_cases q with hq | hq | hq | hq <;>
    rw [hm, hq] <;> decide

theorem RMOperands.length_mem {sz : Size} (ops : RMOperands sz) : 2 + ops.trailing ∈ lengths := by
  cases ops with
  | load r m => exact MemRef.length_mem m
  | store m q => exact Nat.add_assoc 2 _ _ ▸ store_length_mem m q

theorem instrLength_mem (i : Instr) : instrLength i ∈ lengths := by
  cases i with
  | ldR _ _ q | exR _ _ q | addR _ _ q | adcR _ _ q | subR _ _ q | sbcR _ _ q | cpR _ _ q | andR _ _ q | orR _ _ q | xorR _ _ q
  | tstR _ _ q | bitR _ _ q | setR _ _ q | resR _ _ q | rlcR _ _ q | rrcR _ _ q | rlR _ _ q | rrR _ _ q | slaR _ _ q
  | sraR _ _ q | srlR _ _ q | jp _ q | jrS8 _ q | jr _ q | call _ q | callrS8 _ q | callr _ q => exact Src.length_mem q
  | ldRM _ ops | exRM _ ops | addRM _ ops | adcRM _ ops | subRM _ ops | sbcRM _ ops | cpRM _ ops | andRM _ ops | orRM _ ops
  | xorRM _ ops | tstRM _ ops | bitRM _ ops | setRM _ ops | resRM _ ops | rlcRM _ ops | rrcRM _ ops | rlRM _ ops | rrRM _ ops
  | slaRM _ ops | sraRM _ ops | srlRM _ ops => exact RMOperands.length_mem ops
  | inRM _ _ m | exhUM _ m | pushUM _ m | popUM _ m | incUM _ m | decUM _ m | negUM _ m | extUM _ m | mltUM _ m | divUM _ m
  | sdivUM _ m | cplUM _ m => exact MemRef.length_mem m
  | outRM _ m q => exact store_length_mem m q
  | _ => simp [instrLength, lengths]

/-- What the base word decides of an instruction. -/
def shape (i : Instr) : Nat × String := (instrLength i, mnemonic i)

/-- The code decides whether an immediate trails (30_encoding.md R106). -/
theorem srcAt_trailing (sz : Size) (code off off' : Nat) (f g : Nat → Byte) :
    (srcAt sz code off f).trailing = (srcAt sz code off' g).trailing := by
  unfold srcAt
  split <;> rfl

/-- The code decides the class of the base register, and with it the trailing field (30_encoding.md R106, R107). -/
theorem memAt_trailing (code : Nat) (f g : Nat → Byte) : (memAt code f).trailing = (memAt code g).trailing := by
  unfold memAt
  split <;> rfl

theorem shape_rCtor {op : Nat} {mk : (sz : Size) → RegCode → Src sz → Instr} (h : rCtor op = some mk) {sz : Size} (d : RegCode)
    {q q' : Src sz} (hq : q.trailing = q'.trailing) : shape (mk sz d q) = shape (mk sz d q') := by
  have hlen : 2 + q.trailing = 2 + q'.trailing := congrArg (2 + ·) hq
  unfold rCtor at h
  split at h <;> cases h <;> exact congrArg (Prod.mk · _) hlen

theorem shape_rmCtor {op : Nat} {mk : (sz : Size) → RMOperands sz → Instr} (h : rmCtor op = some mk) {sz : Size}
    {ops ops' : RMOperands sz} (hops : ops.trailing = ops'.trailing) : shape (mk sz ops) = shape (mk sz ops') := by
  have hlen : 2 + ops.trailing = 2 + ops'.trailing := congrArg (2 + ·) hops
  unfold rmCtor at h
  split at h <;> cases h <;> exact congrArg (Prod.mk · _) hlen

theorem shape_umCtor {sel : Nat} {mk : Size → MemRef → Instr} (h : umCtor sel = some mk) (sz : Size) {m m' : MemRef}
    (hm : m.trailing = m'.trailing) : shape (mk sz m) = shape (mk sz m') := by
  have hlen : 2 + m.trailing = 2 + m'.trailing := congrArg (2 + ·) hm
  unfold umCtor at h
  split at h <;> cases h <;> exact congrArg (Prod.mk · _) hlen

theorem shape_jumpCtor {op : Nat} {sz : Size} {mk : Cond → Src sz → Instr} (h : jumpCtor op = some ⟨sz, mk⟩) (cc : Cond)
    {q q' : Src sz} (hq : q.trailing = q'.trailing) : shape (mk cc q) = shape (mk cc q') := by
  have hlen : 2 + q.trailing = 2 + q'.trailing := congrArg (2 + ·) hq
  unfold jumpCtor at h
  split at h <;> cases h <;> exact congrArg (Prod.mk · _) hlen

theorem shape_decodeR (w : BaseWord) (f g : Nat → Byte) : (decodeR w f).map shape = (decodeR w g).map shape := by
  unfold decodeR
  split
  · rfl
  next hmk =>
  split
  · rfl
  next sz _ =>
  split
  · rfl
  next d _ => exact congrArg Except.ok (shape_rCtor hmk d (srcAt_trailing sz _ 2 2 f g))

/-- Op 21 is IN or OUT by the direction, which is the same for both (30_encoding.md R121, R122). -/
theorem shape_rmCtorAll_load {op : Nat} {mk : (sz : Size) → RMOperands sz → Instr} (h : rmCtorAll op = some mk) {sz : Size}
    (r : RegCode) {m m' : MemRef} (hm : m.trailing = m'.trailing) :
    shape (mk sz (.load r m)) = shape (mk sz (.load r m')) := by
  have hlen : 2 + m.trailing = 2 + m'.trailing := congrArg (2 + ·) hm
  unfold rmCtorAll at h
  split at h
  · cases h
    exact congrArg (Prod.mk · _) hlen
  · exact shape_rmCtor h hm

theorem shape_rmCtorAll_store {op : Nat} {mk : (sz : Size) → RMOperands sz → Instr} (h : rmCtorAll op = some mk) {sz : Size}
    {m m' : MemRef} {q q' : Src sz} (hm : m.trailing = m'.trailing) (hq : q.trailing = q'.trailing) :
    shape (mk sz (.store m q)) = shape (mk sz (.store m' q')) := by
  have hlen : 2 + m.trailing + q.trailing = 2 + m'.trailing + q'.trailing := by rw [hm, hq]
  unfold rmCtorAll at h
  split at h
  · cases h
    exact congrArg (Prod.mk · _) hlen
  · exact shape_rmCtor h (by rw [RMOperands.trailing, RMOperands.trailing, hm, hq])

theorem shape_rmAt {op : Nat} {mk : (sz : Size) → RMOperands sz → Instr} (hmk : rmCtorAll op = some mk) (sz : Size)
    (dir r a : Nat) (f g : Nat → Byte) :
    ((rmAt sz dir r a f).map fun ops => shape (mk sz ops)) = (rmAt sz dir r a g).map fun ops => shape (mk sz ops) := by
  unfold rmAt
  split
  · exact congrArg Except.ok (shape_rmCtorAll_store hmk (memAt_trailing a f g) (srcAt_trailing sz r _ _ f g))
  · split
    · rfl
    next c _ => exact congrArg Except.ok (shape_rmCtorAll_load hmk c (memAt_trailing a f g))

theorem shape_decodeRM (w : BaseWord) (f g : Nat → Byte) : (decodeRM w f).map shape = (decodeRM w g).map shape := by
  unfold decodeRM
  split
  · rfl
  next mk hmk =>
  split
  · rfl
  next sz _ =>
  have hops := shape_rmAt hmk sz (bits w 7 1) (bits w 10 3) (bits w 13 3) f g
  generalize rmAt sz (bits w 7 1) (bits w 10 3) (bits w 13 3) f = x at hops ⊢
  generalize rmAt sz (bits w 7 1) (bits w 10 3) (bits w 13 3) g = y at hops ⊢
  cases x <;> cases y <;> exact hops

theorem shape_decodeUM (w : BaseWord) (f g : Nat → Byte) : (decodeUM w f).map shape = (decodeUM w g).map shape := by
  unfold decodeUM
  split
  · rfl
  next hmk =>
  split
  · rfl
  next sz _ =>
  split
  · exact congrArg Except.ok (shape_umCtor hmk sz (memAt_trailing _ f g))
  · rfl

theorem shape_decodeBR (w : BaseWord) (f g : Nat → Byte) : (decodeBR w f).map shape = (decodeBR w g).map shape := by
  unfold decodeBR
  split
  next sz mk hmk =>
    split
    · rfl
    next cc _ => exact congrArg Except.ok (shape_jumpCtor hmk cc (srcAt_trailing sz _ 2 2 f g))
  · rfl

/-- Of the exact ops, RST and LD_I_NN alone read on, and their immediates have one size each. -/
theorem shape_decodeExact (family op : Nat) (f g : Nat → Byte) :
    (decodeExact family op f).map shape = (decodeExact family op g).map shape := by
  unfold decodeExact
  split <;> rfl

theorem shape_decodeNUL (w : BaseWord) (f g : Nat → Byte) : (decodeNUL w f).map shape = (decodeNUL w g).map shape := by
  unfold decodeNUL
  split
  · rfl
  · exact shape_decodeExact 1 _ f g
  · exact shape_decodeExact 2 _ f g
  · exact shape_decodeExact 3 _ f g
  · exact shape_decodeExact 4 _ f g
  · rfl

/-- Two streams with one base word decode to one shape or to one error. -/
theorem shape_decodeWord (w : BaseWord) (f g : Nat → Byte) : (decodeWord w f).map shape = (decodeWord w g).map shape := by
  unfold decodeWord
  split
  · exact shape_decodeR w f g
  · exact shape_decodeRM w f g
  · rfl
  · exact shape_decodeUM w f g
  · exact shape_decodeBR w f g
  · exact shape_decodeNUL w f g
  · rfl
  · rfl

theorem baseWordAt_congr {f g : Nat → Byte} (h0 : f 0 = g 0) (h1 : f 1 = g 1) : baseWordAt f = baseWordAt g := by
  rw [baseWordAt, baseWordAt, ofBytes, ofBytes, h0, h1]

theorem exists_ok_of_map_eq {x y : Except DecodeField Instr} {i : Instr} (h : x.map shape = y.map shape) (hx : x = .ok i) :
    ∃ j, y = .ok j ∧ shape j = shape i := by
  subst hx
  cases y with
  | error e => cases h
  | ok j => exact ⟨j, rfl, (Except.ok.inj h).symm⟩

/-- Settles O45: the decoders agree in shape on streams with one base word, and what decodes has the base word it was read
from. -/
theorem baseWordDecidesLengthAndMnemonic : Obligations.BaseWordDecidesLengthAndMnemonic := by
  intro f g h0 h1 i hi
  have hword := baseWordAt_congr h0 h1
  obtain ⟨j, hj, hshape⟩ := exists_ok_of_map_eq (shape_decodeWord (baseWordAt f) f g) hi
  have hj' : decode g = .ok j := by rw [decode, ← hword, hj]
  have hbase : baseWord j = baseWord i := (readFrom_of_decodeWord hj).word.trans (readFrom_of_decodeWord hi).word.symm
  exact ⟨instrLength_mem i, j, hj', congrArg Prod.fst hshape, hbase, congrArg Prod.snd hshape⟩

end Sys2Proof.RoundTrip
end

section
/-! The closed forms of 42_shift_rotate.md R288 as the spec writes them: amounts reduced modulo the width, the carry put beside the
value, and the amounts at and above the width cut out. Each is the model's closed form, which runs the loop. -/

namespace Sys2Proof.ClosedForms

open Machine Shifts

/-- For an amount of at least 1 the loop leaves what the model's closed form gives. -/
theorem shiftLoop_eq_shiftClosed {w n : Nat} (hw : 0 < w) (hn : 1 ≤ n) (op : ShiftOp) (v : BitVec w) (c : Bool) :
    shiftLoop op n v c = shiftClosed op n v c := by
  rw [← shiftValue_eq_shiftLoop hw, shiftValue, if_neg (by omega)]

theorem shiftClosed_rlc {w : Nat} (n : Nat) (v : BitVec w) (c : Bool) :
    shiftClosed .rlc n v c = (v.rotateLeft (n % w), (v.rotateLeft (n % w)).getLsbD 0) := by
  rw [BitVec.rotateLeft_mod_eq_rotateLeft]
  rfl

theorem shiftClosed_rrc {w : Nat} (n : Nat) (v : BitVec w) (c : Bool) :
    shiftClosed .rrc n v c = (v.rotateRight (n % w), (v.rotateRight (n % w)).getLsbD (w - 1)) := by
  rw [BitVec.rotateRight_mod_eq_rotateRight, ← BitVec.msb_eq_getLsbD_last]
  rfl

/-- The carry above the value, at the two widths in which it is written. -/
theorem getLsbD_rotateLeft_cons {w : Nat} (n : Nat) (v : BitVec w) (c : Bool) (k : Nat) :
    ((BitVec.cons c v).rotateLeft n).getLsbD k = ((BitVec.ofBool c ++ v).rotateLeft (n % (1 + w))).getLsbD k := by
  rw [BitVec.rotateLeft_mod_eq_rotateLeft, BitVec.cons]
  simp only [BitVec.getLsbD_rotateLeft, BitVec.getLsbD_cast, Nat.add_comm w 1]

theorem shiftClosed_rl {w : Nat} (n : Nat) (v : BitVec w) (c : Bool) :
    let x := (BitVec.ofBool c ++ v).rotateLeft (n % (1 + w))
    shiftClosed .rl n v c = (x.extractLsb' 0 w, x.getLsbD w) := by
  refine Prod.ext (BitVec.eq_of_getLsbD_eq fun i hi => ?_) ?_
  · simp only [shiftClosed]
    rw [BitVec.getLsbD_setWidth, BitVec.getLsbD_extractLsb', getLsbD_rotateLeft_cons, Nat.zero_add]
  · simp only [shiftClosed]
    rw [BitVec.msb_eq_getLsbD_last, getLsbD_rotateLeft_cons, Nat.add_sub_cancel]

theorem shiftClosed_rr {w : Nat} (n : Nat) (v : BitVec w) (c : Bool) :
    let x := (v ++ BitVec.ofBool c).rotateRight (n % (w + 1))
    shiftClosed .rr n v c = (x.extractLsb' 1 w, x.getLsbD 0) := by
  rw [BitVec.rotateRight_mod_eq_rotateRight]
  rfl

theorem shiftClosed_sla {w : Nat} (n : Nat) (v : BitVec w) (c : Bool) :
    shiftClosed .sla n v c =
      (if n < w then (v <<< n, v.getLsbD (w - n)) else if n = w then (0, v.getLsbD 0) else (0, false)) := by
  rcases Nat.lt_trichotomy n w with h | rfl | h
  · simp [shiftClosed, h, h.le]
  · simp [shiftClosed]
  · simp [shiftClosed, show ¬n < w by omega, show ¬n ≤ w by omega, show n ≠ w by omega]

theorem shiftClosed_srl {w : Nat} (n : Nat) (v : BitVec w) (c : Bool) :
    shiftClosed .srl n v c =
      (if n < w then (v >>> n, v.getLsbD (n - 1)) else if n = w then (0, v.getLsbD (w - 1)) else (0, false)) := by
  rcases Nat.lt_trichotomy n w with h | rfl | h
  · simp [shiftClosed, h, h.le]
  · simp [shiftClosed]
  · simp [shiftClosed, show ¬n < w by omega, show ¬n ≤ w by omega, show n ≠ w by omega]

theorem shiftClosed_sra {w : Nat} (n : Nat) (v : BitVec w) (c : Bool) :
    shiftClosed .sra n v c =
      (if n < w then (v.sshiftRight n, v.getLsbD (n - 1))
       else (if v.getLsbD (w - 1) then BitVec.allOnes w else 0, v.getLsbD (w - 1))) := by
  rw [← BitVec.msb_eq_getLsbD_last]
  rfl

/-- Settles O9: the loop leaves the model's closed form, and each of the seven is the spec's. -/
theorem shiftClosedFormsEqualTheLoop : Obligations.ShiftClosedFormsEqualTheLoop := by
  intro w n v c hw hn
  simp only [shiftLoop_eq_shiftClosed hw hn]
  exact ⟨shiftClosed_rlc n v c, shiftClosed_rrc n v c, shiftClosed_rl n v c, shiftClosed_rr n v c, shiftClosed_sla n v c,
    shiftClosed_srl n v c, shiftClosed_sra n v c⟩

end Sys2Proof.ClosedForms
end

section
/-! DAA (44_bcd_halfwidth.md R330): the correction as a sum of its two digits, and the decimal property of 95_test_vectors.md 1.4,
which is linear arithmetic on the digits of the operands. -/

namespace Sys2Proof.DecimalAdjust

open Machine

/-! ## The correction -/

/-- The correction of the low digit. -/
def lowCorrection (a : Byte) (h : Bool) : Nat := if h = true ∨ a.toNat % 16 > 9 then 6 else 0

theorem daaCarry_eq (a : Byte) (c : Bool) : daaCarry a c = decide (c = true ∨ a.toNat > 0x99) := by
  simp [daaCarry]

/-- The two digits of the correction share no bit. -/
theorem daaCorr_toNat (a : Byte) (c h : Bool) :
    (daaCorr a c h).toNat = lowCorrection a h + if daaCarry a c then 0x60 else 0 := by
  simp only [daaCorr, lowCorrection, Bool.or_eq_true, decide_eq_true_eq]
  split_ifs <;> rfl

theorem daaCorr_mod (a : Byte) (c h : Bool) : (daaCorr a c h).toNat % 16 = lowCorrection a h := by
  rw [daaCorr_toNat]
  unfold lowCorrection
  split_ifs <;> rfl

theorem daaCorr_eq (a : Byte) (c h : Bool) :
    daaCorr a c h = BitVec.ofNat 8 (lowCorrection a h + if daaCarry a c then 0x60 else 0) := by
  rw [← daaCorr_toNat, BitVec.ofNat_toNat, BitVec.setWidth_eq]

/-! ## The instruction -/

/-- DAA with its result and flags in any equal form: the view A.B and the flags written, PC moved, nothing else. -/
theorem exec_daa (s : State) {r : Byte} {w : FlagWrite}
    (hr : daaResult (readReg .byte codeA s) (getFlag .c s) (getFlag .h s) (getFlag .n s) = r)
    (hw : daaFlags (readReg .byte codeA s) (getFlag .c s) (getFlag .h s) (getFlag .n s) = w) :
    exec .daa s = .next (putFlags w (writeReg .byte codeA r (advance .daa s))) := by
  subst hr hw
  rfl

/-- Settles O11: the correction is the sum of its digits, and A.B is the low byte of A. -/
theorem daaCorrectsTheAccumulator : Obligations.DaaCorrectsTheAccumulator := by
  intro s a c h n c' low corr r h'
  have hc : daaCarry a c = c' := daaCarry_eq a c
  have hcorr : daaCorr a c h = BitVec.ofNat 8 corr := by rw [daaCorr_eq, hc]; rfl
  have hr : daaResult a c h n = r := by rw [daaResult, hcorr]
  have hh : daaHalf a c h n = h' := by rw [daaHalf, daaCorr_mod]; rfl
  have hflags : daaFlags a c h n = { szFlags r with h := some h', pv := some (parity r), c := some c' } := by
    rw [daaFlags, hr, hh, hc]
  refine ⟨rfl, _, exec_daa s hr hflags, ?_, ?_, ?_, ?_, ?_, ?_, ?_, ?_⟩
  · simp [writeReg_byteA]
  · simp [writeReg_byteA]
  · exact parity_eq r ▸ aluFlagsAre_putFlags _ (by simp)
  · exact memSame_of_eq (by simp)
  · simp [Seen]
  · simp [AtNext]
  · simp [SystemSame]
  · exact ioSame_of_eq (by simp)

/-! ## Packed BCD -/

/-- The packed-BCD byte of a number below 100. -/
def bcdByte (x : Nat) : Byte := BitVec.ofNat 8 (x / 10 * 16 + x % 10)

theorem bcdByte_toNat {x : Nat} (hx : x < 100) : (bcdByte x).toNat = x / 10 * 16 + x % 10 := by
  rw [bcdByte, BitVec.toNat_ofNat]
  omega

/-- The corrected byte after an addition, as a number. -/
theorem daaResult_add_toNat (a : Byte) (c h : Bool) : (daaResult a c h false).toNat =
    (a.toNat + (lowCorrection a h + if daaCarry a c then 0x60 else 0)) % 256 := by
  rw [daaResult, if_neg (by decide), BitVec.toNat_add, daaCorr_toNat]

/-- The corrected byte after a subtraction, as a number. -/
theorem daaResult_sub_toNat (a : Byte) (c h : Bool) : (daaResult a c h true).toNat =
    (256 - (lowCorrection a h + if daaCarry a c then 0x60 else 0) + a.toNat) % 256 := by
  rw [daaResult, if_pos rfl, BitVec.toNat_sub, daaCorr_toNat]

/-- Two digits, each the sum of two decimal ones: their packed byte overflows or passes 0x99 where their value passes 99. -/
theorem carry_iff_of_digits {p q : Nat} (hp : p ≤ 18) (hq : q ≤ 18) :
    256 ≤ 16 * p + q ∨ (16 * p + q) % 256 > 0x99 ↔ 100 ≤ 10 * p + q := by
  interval_cases p <;> omega

/-- The sum of two packed-BCD bytes, corrected with the carries that the addition left (95_test_vectors.md 1.4). -/
theorem daa_add_bcd {x y : Nat} (hx : x < 100) (hy : y < 100) {r : Byte} {h c : Bool}
    (hr : r.toNat = ((bcdByte x).toNat + (bcdByte y).toNat) % 256)
    (hh : h = true ↔ (bcdByte x).toNat % 16 + (bcdByte y).toNat % 16 > 15)
    (hc : c = true ↔ 256 ≤ (bcdByte x).toNat + (bcdByte y).toNat) :
    daaResult r c h false = bcdByte ((x + y) % 100) ∧ daaCarry r c = decide (100 ≤ x + y) := by
  rw [bcdByte_toNat hx, bcdByte_toNat hy] at hr hh hc
  have hcarry : daaCarry r c = decide (100 ≤ x + y) := by
    rw [daaCarry_eq, decide_eq_decide, hc, hr]
    have hdigits := carry_iff_of_digits (p := x / 10 + y / 10) (q := x % 10 + y % 10) (by omega) (by omega)
    omega
  have hlow : lowCorrection r h = if x % 10 + y % 10 > 9 then 6 else 0 :=
    if_congr (by rw [hh, hr]; omega) rfl rfl
  refine ⟨BitVec.eq_of_toNat_eq ?_, hcarry⟩
  rw [daaResult_add_toNat, hcarry, hlow, hr, bcdByte_toNat (Nat.mod_lt _ (by decide))]
  simp only [decide_eq_true_eq]
  split_ifs <;> omega

/-- The difference of two packed-BCD bytes, corrected with the borrows that the subtraction left (95_test_vectors.md 1.4). -/
theorem daa_sub_bcd {x y : Nat} (hx : x < 100) (hy : y < 100) {r : Byte} {h c : Bool}
    (hr : r.toNat = (256 - (bcdByte y).toNat + (bcdByte x).toNat) % 256)
    (hh : h = true ↔ (bcdByte x).toNat % 16 < (bcdByte y).toNat % 16)
    (hc : c = true ↔ (bcdByte x).toNat < (bcdByte y).toNat) :
    daaResult r c h true = bcdByte ((x + 100 - y) % 100) ∧ daaCarry r c = decide (x < y) := by
  rw [bcdByte_toNat hx, bcdByte_toNat hy] at hr hh hc
  have hcarry : daaCarry r c = decide (x < y) := by
    rw [daaCarry_eq, decide_eq_decide, hc, hr]
    omega
  have hlow : lowCorrection r h = if x % 10 < y % 10 then 6 else 0 :=
    if_congr (by rw [hh, hr]; omega) rfl rfl
  refine ⟨BitVec.eq_of_toNat_eq ?_, hcarry⟩
  rw [daaResult_sub_toNat, hcarry, hlow, hr, bcdByte_toNat (Nat.mod_lt _ (by decide))]
  simp only [decide_eq_true_eq]
  split_ifs <;> omega

/-- ADD of an immediate to A.B: the sum, N clear, and the two carries. -/
theorem exec_addImm (s : State) (b : Byte) : ∃ t, exec (.addR .byte codeA (.imm b)) s = .next t ∧
    readReg .byte codeA t = readReg .byte codeA s + b ∧ getFlag .n t = false ∧
    getFlag .h t = decide ((readReg .byte codeA s).toNat % 16 + b.toNat % 16 > 15) ∧
    getFlag .c t = decide ((readReg .byte codeA s).toNat + b.toNat ≥ 2 ^ 8) := by
  obtain ⟨⟨hR, -⟩, -⟩ := AluForms.addAndAdcSumFlagsFrame
  obtain ⟨-, -, t, ht, ⟨⟨hread, -⟩, -⟩, ⟨-, -, hh, -, hn, hc, -⟩, -⟩ := hR .byte codeA (.imm b) s
  exact ⟨t, ht, hread.trans (BitVec.add_zero _), hn, hh, hc⟩

/-- SUB of an immediate from A.B: the difference, N set, and the two borrows. -/
theorem exec_subImm (s : State) (b : Byte) : ∃ t, exec (.subR .byte codeA (.imm b)) s = .next t ∧
    readReg .byte codeA t = readReg .byte codeA s - b ∧ getFlag .n t = true ∧
    getFlag .h t = decide ((readReg .byte codeA s).toNat % 16 < b.toNat % 16) ∧
    getFlag .c t = decide ((readReg .byte codeA s).toNat < b.toNat) := by
  obtain ⟨⟨hR, -⟩, -⟩ := AluForms.subAndSbcDifferenceFlagsFrame
  obtain ⟨-, -, t, ht, ⟨⟨hread, -⟩, -⟩, ⟨-, -, hh, -, hn, hc, -⟩, -⟩ := hR .byte codeA (.imm b) s
  exact ⟨t, ht, hread.trans (BitVec.sub_zero _), hn, hh, hc⟩

/-- What DAA leaves in A.B and in C. -/
theorem exec_daa_reads (t : State) : ∃ u, exec .daa t = .next u ∧
    readReg .byte codeA u = daaResult (readReg .byte codeA t) (getFlag .c t) (getFlag .h t) (getFlag .n t) ∧
    getFlag .c u = daaCarry (readReg .byte codeA t) (getFlag .c t) :=
  ⟨_, exec_daa t rfl rfl, by simp, by simp [FlagWrite.value, daaFlags]⟩

/-- Settles O12: the flags that ADD and SUB leave are the carries and borrows of the BCD digits. -/
theorem daaAfterAddOrSubIsDecimal : Obligations.DaaAfterAddOrSubIsDecimal := by
  change ∀ (s : State) (x y : Nat), x < 100 → y < 100 → readReg .byte codeA s = bcdByte x → _
  intro s x y hx hy hA
  constructor
  · obtain ⟨t, ht, hread, hn, hh, hc⟩ := exec_addImm s (bcdByte y)
    obtain ⟨u, hu, hresult, hcarry⟩ := exec_daa_reads t
    rw [hA] at hread hh hc
    rw [hn] at hresult
    obtain ⟨hdecimal, hover⟩ := daa_add_bcd hx hy (hread ▸ BitVec.toNat_add _ _) (hh ▸ decide_eq_true_iff) (hc ▸ decide_eq_true_iff)
    exact ⟨t, u, ht, hu, hresult.trans hdecimal, hcarry.trans hover⟩
  · obtain ⟨t, ht, hread, hn, hh, hc⟩ := exec_subImm s (bcdByte y)
    obtain ⟨u, hu, hresult, hcarry⟩ := exec_daa_reads t
    rw [hA] at hread hh hc
    rw [hn] at hresult
    obtain ⟨hdecimal, hunder⟩ := daa_sub_bcd hx hy (hread ▸ BitVec.toNat_sub _ _) (hh ▸ decide_eq_true_iff) (hc ▸ decide_eq_true_iff)
    exact ⟨t, u, ht, hu, hresult.trans hdecimal, hcarry.trans hunder⟩

end Sys2Proof.DecimalAdjust
end

section
/-! Reset, and what a step's instruction is and costs (70_reset_and_hazards.md): the reset state, IE and IFF2 once they are clear, an
instruction stored where the next step fetches it, and the cycle count of a branch. With them stand EXX and EXI, and the sample
words of 95_test_vectors.md. -/

namespace Sys2Proof.ResetAndHazards

open Machine SystemState Stepping

/-! ## Reset -/

/-- Settles O53: the reset vector is read on buses that the clearing of the block has left. -/
theorem resetClearsAndLoadsPc : Obligations.ResetClearsAndLoadsPc := by
  intro s
  have hpc : memRead .dword 0 (State.cleared s.mem s.io s.devices s.transfers) = memRead .dword 0 s :=
    memRead_congr rfl rfl rfl .dword 0
  have hreads : readsAt .mem .dword 0 (State.cleared s.mem s.io s.devices s.transfers) = readsAt .mem .dword 0 s :=
    readsAt_congr .mem .dword 0 rfl
  rw [hostReset, hpc, ← hreads]
  rfl

/-- Settles O54: both RAMs list no cell, and every register is 0. -/
theorem resetMeetsTheInvariant : Obligations.ResetMeetsTheInvariant :=
  ⟨rfl, rfl, fun h => Bool.false_ne_true h.1, rfl, .inl rfl⟩

/-! ## IE and IFF2 -/

/-- Of the effects that `exec` can have, only RETN's restore moves IE, and it takes IE from IFF2 (10_state.md R42). -/
theorem ie_clear_of_effect {i : Instr} {s t : State} (h : SystemEffect s i t) (hie : getFlag .ie s = false)
    (hiff2 : s.iff2 = 0) : getFlag .ie t = false := by
  cases h with
  | none h =>
    obtain ⟨-, hf⟩ := h
    rwa [getFlag, hf]
  | aluFlags _ h =>
    obtain ⟨hsame, -⟩ := h.restOfFSame
    exact hsame.trans hie
  | @restoreIE cc u h =>
    obtain ⟨⟨-, -, -, hiff2', -⟩, -⟩ := h
    rw [getFlag_restoreIFF1, if_pos rfl, hiff2', hiff2]
    rfl
  | violation | exchangeBanks | loadI | loadR | halt => exact hie

/-- Settles O56: no instruction writes IFF2, and IE is written from it alone. -/
theorem interruptEnableStaysClear : Obligations.InterruptEnableStaysClear := by
  intro s t hie hiff2 hstep
  cases stepCase_of_step hstep with
  | stopped => exact ⟨hie, hiff2⟩
  | decodeError => exact ⟨hie, hiff2⟩
  | runs hrun i _ hexec =>
    obtain ⟨hsame, -⟩ := systemStateHasOneWriter i _ t hexec
    exact ⟨ie_clear_of_effect (effect_of_exec hexec) hie hiff2, hsame.trans hiff2⟩

/-! ## The bank exchanges -/

/-- Settles O35: each exchanges whole storages, one after the other. -/
theorem exxAndExiExchangeTheBanks : Obligations.ExxAndExiExchangeTheBanks := by
  intro s
  refine ⟨rfl, rfl, ?_, ?_⟩
  · simp only [exec, execExx, swapStores, List.foldl_cons, List.foldl_nil, swapView_whole]
    rfl
  · simp only [exec, execExi, swapStores, List.foldl_cons, List.foldl_nil, swapView_whole]
    rfl

/-! ## Sample words -/

/-- Settles O47: the decoder run on each word. -/
theorem sampleWordsDecode : Obligations.SampleWordsDecode := by
  refine ⟨?_, ?_, ?_, ?_, ?_, ?_, ?_, ?_, ?_⟩ <;> rfl

/-! ## A stored instruction runs next -/

theorem byteAddr_zero (a : DWord) : byteAddr a 0 = a.toNat := congrArg BitVec.toNat (BitVec.add_zero a)

theorem byteAddr_succ (a : DWord) (k : Nat) : byteAddr (a + 1) k = byteAddr a (k + 1) := by
  simp only [Buses.byteAddr_eq, BitVec.toNat_add, BitVec.ofNat_eq_ofNat, BitVec.toNat_ofNat]
  omega

/-- An address that none of the bytes takes is left. -/
theorem read_storeBytes_outside (m : Memory) (a : DWord) (l : List Byte) {b : Nat} (h : ∀ k < l.length, b ≠ byteAddr a k) :
    (m.storeBytes a l).read b = m.read b := by
  induction l generalizing m a with
  | nil => rfl
  | cons x l ih =>
    have h0 : b ≠ a.toNat := byteAddr_zero a ▸ h 0 (Nat.succ_pos _)
    have htail : ∀ k < l.length, b ≠ byteAddr (a + 1) k := fun k hk => byteAddr_succ a k ▸ h (k + 1) (Nat.succ_lt_succ hk)
    rw [Memory.storeBytes, ih _ _ htail, read_write_ne _ _ h0]

/-- Stored bytes read back while they do not run round the address space. -/
theorem read_storeBytes_inside (m : Memory) (a : DWord) (l : List Byte) (hl : l.length ≤ 2 ^ 32) {k : Nat} (hk : k < l.length) :
    (m.storeBytes a l).read (byteAddr a k) = l.getD k 0 := by
  induction l generalizing m a k with
  | nil => exact absurd hk (Nat.not_lt_zero k)
  | cons x l ih =>
    rw [List.length_cons] at hl hk
    cases k with
    | zero =>
      have hout : ∀ j < l.length, byteAddr a 0 ≠ byteAddr (a + 1) j := fun j hj heq => by
        rw [byteAddr_succ] at heq
        have := byteAddr_inj (by decide) (by omega) heq
        omega
      rw [Memory.storeBytes, read_storeBytes_outside _ _ _ hout, byteAddr_zero, read_write_same, List.getD_cons_zero]
    | succ k => rw [Memory.storeBytes, ← byteAddr_succ, ih _ _ (by omega) (by omega), List.getD_cons_succ]

/-- A fetch from RAM leaves no trace (20_memory.md R79). -/
theorem readTransfers_ram {sp : Space} {a : DWord} {s : State} {n : Nat} (h : ∀ k < n, isDevice sp s (byteAddr a k) = false) :
    readTransfers sp a s n = [] := by
  rw [Buses.readTransfers_eq, List.filter_eq_nil_iff.mpr fun k hk => by simp [h k (List.mem_range.mp hk)]]
  rfl

/-- The encoding of a well-formed instruction decodes, so it is as long as what was read (30_encoding.md R104). -/
theorem encode_length_of_wf {i : Instr} (hwf : i.wf = true) : (encode i).length = instrLength i := by
  have hdecode := RoundTrip.decodeEncodeRoundTrip i (fun k => (encode i).getD k 0) hwf fun _ _ => rfl
  obtain ⟨-, hlen, -⟩ := DecodeInverse.encodeDecodeRoundTrip i _ hdecode
  exact hlen

theorem instrLength_le (i : Instr) : instrLength i ≤ 10 := by
  have hmax : ∀ n ∈ RoundTrip.lengths, n ≤ 10 := by decide
  exact hmax _ (RoundTrip.instrLength_mem i)

/-- Settles O42: the stored bytes are the bytes fetched, they decode to the instruction, and RAM keeps no record of the fetch. -/
theorem storedInstructionRunsNext : Obligations.StoredInstructionRunsNext := by
  intro i s hwf hrun hram u
  have hlen := encode_length_of_wf hwf
  have hle := instrLength_le i
  have hram' : ∀ k < (encode i).length, isDevice .mem u (byteAddr u.pc k) = false := hram
  have hfetch : ∀ k < (encode i).length, fetchByte u k = (encode i).getD k 0 := fun k hk => by
    rw [fetchByte, busByteAt_eq, if_neg (by simp [hram' k hk])]
    exact read_storeBytes_inside s.mem s.pc (encode i) (by omega) hk
  have hdecode : decodeAtPC u = .ok i := RoundTrip.decodeEncodeRoundTrip i _ hwf hfetch
  have hquiet : fetched (instrLength i) u = u := by
    rw [fetched, afterRead, readTransfers_ram (hlen ▸ hram')]
    rfl
  exact (step_of_decoded (s := u) hrun hdecode).trans (by rw [hquiet])

/-! ## The cycles of a branch -/

/-- What format BR's instruction on `cc` costs and does as far as its cycle count goes: the surcharge where the condition holds
(R622), and no error. -/
structure IsBranch (cc : Cond) (op : BranchOp) (i : Instr) : Prop where
  cost : ∀ s, execCycles i s = branchCost op cc s
  noError : ∀ s, ∃ t, exec i s = .next t ∧ t.fault = s.fault

theorem fault_of_leavesF {s t : State} (h : LeavesF s t) : t.fault = s.fault := by
  obtain ⟨⟨-, -, -, -, -, hfault, -⟩, -⟩ := h
  exact hfault

theorem isBranch_of_leavesF {cc : Cond} {op : BranchOp} {i : Instr} {run : State → State}
    (hcost : ∀ s, execCycles i s = branchCost op cc s) (hexec : ∀ s, exec i s = .next (run s)) (hrun : ∀ s, LeavesF s (run s)) :
    IsBranch cc op i :=
  ⟨hcost, fun s => ⟨run s, hexec s, fault_of_leavesF (hrun s)⟩⟩

theorem isBranch_ret (cc : Cond) : IsBranch cc .ret (.ret cc) :=
  isBranch_of_leavesF (fun _ => rfl) (fun _ => rfl) (returnIf_leavesF (.ret cc) cc)

theorem isBranch_reti (cc : Cond) : IsBranch cc .reti (.reti cc) :=
  isBranch_of_leavesF (fun _ => rfl) (fun _ => rfl) (returnIf_leavesF (.reti cc) cc)

/-- RETN restores IE after its return, which is no error either. -/
theorem isBranch_retn (cc : Cond) : IsBranch cc .retn (.retn cc) := by
  refine ⟨fun _ => rfl, fun s => ⟨_, rfl, ?_⟩⟩
  split <;> rfl

/-- The cycle count of an instruction that raises no error (R620). -/
theorem cycleOutput_of_exec {s t : State} {i : Instr} (hrun : stopped s = false) (hdecode : decodeAtPC s = .ok i)
    (hexec : exec i (fetched (instrLength i) s) = .next t) (hfault : t.fault = none) :
    cycleOutput s = fetchCycles i s.pc + execCycles i (fetched (instrLength i) s) := by
  simp [cycleOutput, hrun, hdecode, hexec, hfault]

theorem cycleOutput_of_isBranch {s : State} {i : Instr} {cc : Cond} {op : BranchOp} (hbranch : IsBranch cc op i)
    (hrun : stopped s = false) (hdecode : decodeAtPC s = .ok i) :
    cycleOutput s = fetchCycles i s.pc + if holds cc s then Config.branchSurcharge op else 0 := by
  obtain ⟨hcost, hnoError⟩ := hbranch
  obtain ⟨-, hfault⟩ := (not_stopped_iff s).mp hrun
  obtain ⟨t, hexec, hsame⟩ := hnoError (fetched (instrLength i) s)
  rw [cycleOutput_of_exec hrun hdecode hexec (hsame.trans hfault), hcost, branchCost, holds_fetched]

/-- Settles O60: each of the nine is a branch on its condition, and the fetch's transfers are no part of the condition. -/
theorem branchCostsFetchPlusSurcharge : Obligations.BranchCostsFetchPlusSurcharge := by
  intro s i cc op hrun hdecode hmnemonic
  refine cycleOutput_of_isBranch ?_ hrun hdecode
  rcases hmnemonic with ⟨rfl, rfl⟩ | ⟨rfl, rfl⟩ | ⟨rfl, rfl⟩ | ⟨⟨q, rfl⟩, rfl⟩ | ⟨⟨q, rfl⟩, rfl⟩ | ⟨⟨q, rfl⟩, rfl⟩ |
    ⟨⟨q, rfl⟩, rfl⟩ | ⟨⟨q, rfl⟩, rfl⟩ | ⟨⟨q, rfl⟩, rfl⟩
  · exact isBranch_ret cc
  · exact isBranch_reti cc
  · exact isBranch_retn cc
  · exact isBranch_of_leavesF (fun _ => rfl) (fun _ => rfl) fun s => jumpOp_leavesF _ cc _ s
  · exact isBranch_of_leavesF (fun _ => rfl) (fun _ => rfl) fun s => jumpOp_leavesF _ cc _ s
  · exact isBranch_of_leavesF (fun _ => rfl) (fun _ => rfl) fun s => jumpOp_leavesF _ cc _ s
  · exact isBranch_of_leavesF (fun _ => rfl) (fun _ => rfl) fun s => callOp_leavesF _ cc _ s
  · exact isBranch_of_leavesF (fun _ => rfl) (fun _ => rfl) fun s => callOp_leavesF _ cc _ s
  · exact isBranch_of_leavesF (fun _ => rfl) (fun _ => rfl) fun s => callOp_leavesF _ cc _ s

end Sys2Proof.ResetAndHazards
end
